-- ==== Sys2Proof/Word.lean ====
section
/-! DEFINITION. The word types of the SN4: every operand and node result is a 64-bit value (05_numbers: R122),
memory is bytes, little-endian (00_scope: R4). -/

namespace Sys2Proof

/-- A 64-bit value of the fabric (R99, R122). -/
abbrev Word := BitVec 64

/-- One byte of memory. -/
abbrev Byte := BitVec 8

/-- Bytes on the links: none for a byte of uncorrectable data, which arrives as such (R317, R455). -/
abbrev Wire := List (Option Byte)

/-- A packet between this device and another of the Proulo domain (R440, R443, R444, R453). -/
inductive Packet where
  /-- payload of a cl.put for a remote address of JOB's context; the receiver answers the peer's operation tag -/
  | write (job addr : Nat) (data : Wire) (peer tag : Nat)
  /-- a cl.put's RSIG write (R447) -/
  | signal (job addr : Nat) (value : Word) (peer tag : Nat)
  /-- a cl.get asks for len bytes -/
  | readReq (job addr len peer tag : Nat)
  /-- the answer to an operation: data of a cl.get, and the code the peer ended its access with, 0 for none -/
  | reply (op : Nat) (code : Nat) (data : Wire)
  /-- a member's arrival in a collective: the descriptor fields that must agree, and its contribution -/
  | part (job gen seq rank : Nat) (fields : List Word) (data : Wire)
  /-- the block of step s of a ring (R453) -/
  | ring (job gen seq s : Nat) (data : Wire)
  /-- the acknowledgement of the block sent in step s (R453) -/
  | ringAck (job gen seq s : Nat)
  /-- the abort of a failed ring (R454) -/
  | ringAbort (job gen seq : Nat)
  deriving DecidableEq, Repr, Inhabited

end Sys2Proof
end

