-- ==== Sys2Proof/Machine/Bits.lean ====
section
/-! DEFINITION. Bit fields, byte order and the sparse stores (00_scope: R4, R5). -/

namespace Sys2Proof.Machine

/-- Bits hi to lo of a 64-bit word as a number (R4). -/
def fld (x : Word) (hi lo : Nat) : Nat := (x.toNat / 2 ^ lo) % 2 ^ (hi + 1 - lo)

/-- Bit i of a 64-bit word. -/
def bit (x : Word) (i : Nat) : Bool := fld x i i == 1

/-- Bits hi to lo of a number of any size. -/
def nfld (x hi lo : Nat) : Nat := (x / 2 ^ lo) % 2 ^ (hi + 1 - lo)

/-- x with bits hi to lo replaced by v. -/
def setFld (x : Word) (hi lo v : Nat) : Word :=
  BitVec.ofNat 64
    (x.toNat / 2 ^ (hi + 1) * 2 ^ (hi + 1) + (v % 2 ^ (hi + 1 - lo)) * 2 ^ lo + x.toNat % 2 ^ lo)

/-- The number v read as a signed n-bit value. -/
def sext (n v : Nat) : Int :=
  let u := v % 2 ^ n
  if u < 2 ^ (n - 1) then (u : Int) else (u : Int) - (2 : Int) ^ n

/-- An integer modulo 2^64. -/
def ofInt (z : Int) : Word := BitVec.ofInt 64 z

/-- The mask with bits hi to lo set. -/
def maskOf (hi lo : Nat) : Nat := (2 ^ (hi + 1 - lo) - 1) * 2 ^ lo

/-- The least significant n bytes of v, the first at the lowest address (R4). -/
def toBytes : (n : Nat) → (v : Nat) → List Byte
  | 0, _ => []
  | n + 1, v => BitVec.ofNat 8 v :: toBytes n (v / 256)

/-- A little-endian list of bytes as a number (R4). -/
def ofBytes : List Byte → Nat
  | [] => 0
  | b :: bs => b.toNat + 256 * ofBytes bs

/-- Little-endian 64-bit words of a list of bytes (a last partial word is filled with zeros). -/
def wordsOf (n : Nat) (bs : List Byte) : List Word :=
  (List.range n).map fun i => BitVec.ofNat 64 (ofBytes ((bs.drop (8 * i)).take 8))

/-- The bytes of a list of 64-bit words. -/
def bytesOfWords (ws : List Word) : List Byte := ws.flatMap fun w => toBytes 8 w.toNat

/-- ⌈a / b⌉. -/
def ceilDiv (a b : Nat) : Nat := (a + b - 1) / b

/-- Is n a multiple of m? -/
def mult (n m : Nat) : Bool := n % m == 0

/-! ## Sparse stores

A store of cells of width w at numbers: addresses strictly rising, no entry of value 0. An address that is not
listed reads 0. -/

/-- A sparse store of w-bit cells. -/
abbrev Cells (w : Nat) := List (Nat × BitVec w)

/-- The cell at a. -/
def Cells.get {w : Nat} : Cells w → Nat → BitVec w
  | [], _ => 0
  | (k, v) :: t, a => if a < k then 0 else if a = k then v else Cells.get t a

/-- Writes v at a; writing 0 removes the entry. -/
def Cells.set {w : Nat} : Cells w → Nat → BitVec w → Cells w
  | [], a, v => if v = 0 then [] else [(a, v)]
  | (k, x) :: t, a, v =>
    if a < k then (if v = 0 then (k, x) :: t else (a, v) :: (k, x) :: t)
    else if a = k then (if v = 0 then t else (a, v) :: t)
    else (k, x) :: Cells.set t a v

/-- Every key of the store is at least lo, the keys rise strictly, and no cell is 0. -/
def Cells.wfFrom {w : Nat} : Nat → Cells w → Bool
  | _, [] => true
  | lo, (k, v) :: t => decide (lo ≤ k) && decide (v ≠ 0) && Cells.wfFrom (k + 1) t

/-- The canonical form. -/
def Cells.wf {w : Nat} (m : Cells w) : Bool := Cells.wfFrom 0 m

/-- Removes every cell at lo, lo + 1, …, lo + n − 1. -/
def Cells.clear {w : Nat} (m : Cells w) (lo n : Nat) : Cells w :=
  m.filter fun e => e.1 < lo || lo + n ≤ e.1

/-- n cells from a on. -/
def Cells.read {w : Nat} (m : Cells w) (a n : Nat) : List (BitVec w) :=
  (List.range n).map fun i => m.get (a + i)

/-- Writes a list of cells from a on. -/
def Cells.write {w : Nat} (m : Cells w) (a : Nat) : List (BitVec w) → Cells w
  | [] => m
  | v :: vs => Cells.write (m.set a v) (a + 1) vs

/-! ## Tables

A table lists what is present: keys strictly rising, the value as it is. -/

/-- A table from numbers to values. -/
abbrev Tbl (α : Type) := List (Nat × α)

/-- The entry at k. -/
def Tbl.find {α : Type} : Tbl α → Nat → Option α
  | [], _ => none
  | (k, v) :: t, a => if k = a then some v else Tbl.find t a

/-- Puts an entry at a, in the place of one that stands there. -/
def Tbl.put {α : Type} : Tbl α → Nat → α → Tbl α
  | [], a, v => [(a, v)]
  | (k, x) :: t, a, v =>
    if a < k then (a, v) :: (k, x) :: t
    else if a = k then (a, v) :: t
    else (k, x) :: Tbl.put t a v

/-- Removes the entry at a. -/
def Tbl.del {α : Type} (m : Tbl α) (a : Nat) : Tbl α := m.filter fun e => e.1 ≠ a

/-- The list with the element at i replaced by f of it. -/
def updAt {α : Type} : List α → Nat → (α → α) → List α
  | [], _, _ => []
  | x :: t, 0, f => f x :: t
  | x :: t, n + 1, f => x :: updAt t n f

end Sys2Proof.Machine
end

