-- ==== Sys2Proof/Machine/Real.lean ====
section
/-! DEFINITION. Exact reals and their rounding to the IEEE formats (05_numbers: R5, R6, R124, R125, R149). -/

namespace Sys2Proof.Machine

/-- An IEEE binary format: exponent bits and fraction bits (R124). -/
structure FFmt where
  ew : Nat
  fw : Nat
  deriving DecidableEq, Repr

/-- binary32 -/
def f32 : FFmt := ⟨8, 23⟩
/-- binary64 -/
def f64 : FFmt := ⟨11, 52⟩
/-- bfloat16 -/
def bf16 : FFmt := ⟨8, 7⟩

namespace FFmt

/-- The exponent bias. -/
def bias (f : FFmt) : Nat := 2 ^ (f.ew - 1) - 1
/-- The width in bits. -/
def width (f : FFmt) : Nat := 1 + f.ew + f.fw
/-- The exponent of the smallest normal. -/
def emin (f : FFmt) : Int := 1 - (f.bias : Int)
/-- The sign bit. -/
def signBit (f : FFmt) : Nat := 2 ^ (f.ew + f.fw)
/-- The bits of +∞. -/
def infBits (f : FFmt) : Nat := (2 ^ f.ew - 1) * 2 ^ f.fw
/-- The canonical quiet NaN (R124). -/
def nan (f : FFmt) : Nat := f.infBits + 2 ^ (f.fw - 1)

end FFmt

/-- The format of a floating-point type code: 4 f32, 5 f64, 6 bf16 (R99). -/
def fmtOfType (t : Nat) : FFmt := if t = 5 then f64 else if t = 6 then bf16 else f32

/-- An exact extended real: (−1)^neg × m × 2^e, an infinity or NaN. A zero keeps its sign (R125). -/
inductive XR where
  | nan
  | inf (neg : Bool)
  | fin (neg : Bool) (m : Nat) (e : Int)
  deriving DecidableEq, Repr, Inhabited

namespace XR

/-- +0 -/
def zero : XR := .fin false 0 0
/-- An integer. -/
def ofInt (z : Int) : XR := .fin (decide (z < 0)) z.natAbs 0

/-- Is it a NaN? -/
def isNan : XR → Bool
  | .nan => true
  | _ => false

/-- Is it a zero, of either sign? -/
def isZero : XR → Bool
  | .fin _ m _ => m == 0
  | _ => false

/-- The negative. -/
def neg : XR → XR
  | .nan => .nan
  | .inf s => .inf (!s)
  | .fin s m e => .fin (!s) m e

/-- The absolute value. -/
def abs : XR → XR
  | .nan => .nan
  | .inf _ => .inf false
  | .fin _ m e => .fin false m e

/-- The signed mantissa of a finite value at a lower exponent. -/
def mantAt (s : Bool) (m : Nat) (e lo : Int) : Int :=
  let v : Int := (m * 2 ^ (e - lo).toNat : Nat)
  if s then -v else v

/-- The exact sum. A zero sum is −0 only when both terms are −0 (R125, R149). -/
def add : XR → XR → XR
  | .nan, _ => .nan
  | _, .nan => .nan
  | .inf a, .inf b => if a = b then .inf a else .nan
  | .inf a, _ => .inf a
  | _, .inf b => .inf b
  | .fin s m e, .fin s' m' e' =>
    if m = 0 ∧ m' = 0 then .fin (s && s') 0 0
    else if m = 0 then .fin s' m' e'
    else if m' = 0 then .fin s m e
    else
      let lo := min e e'
      let z := mantAt s m e lo + mantAt s' m' e' lo
      if z = 0 then .fin false 0 0 else .fin (decide (z < 0)) z.natAbs lo

/-- The exact difference. -/
def sub (a b : XR) : XR := add a (neg b)

/-- The exact product; 0 × ∞ is NaN. -/
def mul : XR → XR → XR
  | .nan, _ => .nan
  | _, .nan => .nan
  | .inf a, .inf b => .inf (a != b)
  | .inf a, .fin s m _ => if m = 0 then .nan else .inf (a != s)
  | .fin s m _, .inf a => if m = 0 then .nan else .inf (a != s)
  | .fin s m e, .fin s' m' e' => .fin (s != s') (m * m') (e + e')

/-- The exact sum of a list, in the manner of R149: acc plus every term. -/
def sum (acc : XR) (ts : List XR) : XR := ts.foldl add acc

/-- Compares finite or infinite values: −1, 0 or 1; −0 equals +0; 2 when a NaN takes part. -/
def cmp : XR → XR → Int
  | .nan, _ => 2
  | _, .nan => 2
  | .inf a, .inf b => if a = b then 0 else if a then -1 else 1
  | .inf a, _ => if a then -1 else 1
  | _, .inf b => if b then 1 else -1
  | .fin s m e, .fin s' m' e' =>
    let lo := min e e'
    let d := mantAt s m e lo - mantAt s' m' e' lo
    if d < 0 then -1 else if d = 0 then 0 else 1

/-- a < b -/
def lt (a b : XR) : Bool := cmp a b == -1
/-- a ≤ b -/
def le (a b : XR) : Bool := cmp a b == -1 || cmp a b == 0

end XR

/-- The value of a datum of a format (R125 Exact). -/
def exact (f : FFmt) (bits : Nat) : XR :=
  let s := decide (bits / f.signBit % 2 = 1)
  let ex := bits / 2 ^ f.fw % 2 ^ f.ew
  let fr := bits % 2 ^ f.fw
  if ex = 2 ^ f.ew - 1 then (if fr = 0 then .inf s else .nan)
  else if ex = 0 then .fin s fr (f.emin - f.fw)
  else .fin s (2 ^ f.fw + fr) ((ex : Int) - f.bias - f.fw)

/-- The exception flags NR, NV, DZ, OF, UF, NX in bits 5 to 0 (R129). -/
abbrev Flags := BitVec 6

/-- An atom NaR. -/
def flagNR : Flags := 0x20
/-- Invalid operation. -/
def flagNV : Flags := 0x10
/-- Division by zero. -/
def flagDZ : Flags := 0x08
/-- Overflow. -/
def flagOF : Flags := 0x04
/-- Underflow. -/
def flagUF : Flags := 0x02
/-- Inexact. -/
def flagNX : Flags := 0x01

/-- How many bits a number has. -/
def bitLen (n : Nat) : Nat := if n = 0 then 0 else Nat.log2 n + 1

/-- The quotient of n / 2^k to an integer in the mode of R110 (0 nearest even, 1 toward zero, 2 toward −∞, 3 toward
+∞, 4 nearest away), for a value of sign s; more says that the value lies above n by less than 1. The second
component says whether the result differs. -/
def roundShift (mode : Nat) (s : Bool) (n k : Nat) (more : Bool) : Nat × Bool :=
  let q := n / 2 ^ k
  let r := n % 2 ^ k
  let inexact := r != 0 || more
  let twice := 2 * r
  let half := 2 ^ k
  let above := decide (twice > half) || (decide (twice = half) && more)
  let tie := decide (twice = half) && !more && k != 0
  let up :=
    match mode with
    | 0 => above || (tie && q % 2 == 1)
    | 1 => false
    | 2 => s && inexact
    | 3 => !s && inexact
    | _ => above || tie
  (if up then q + 1 else q, inexact)

/-- The magnitude that an overflow of sign s comes to in a mode: ∞, or the largest finite one. -/
def overflowMag (f : FFmt) (mode : Nat) (s : Bool) : Nat :=
  if mode = 1 ∨ mode = 5 ∨ (mode = 2 ∧ !s) ∨ (mode = 3 ∧ s) then f.infBits - 1 else f.infBits

/-- Rounds (−1)^s × v to a format in a mode of R110, or, in mode 5, to odd, where v is n × 2^e, or, when more holds, lies
strictly between n × 2^e and (n + 1) × 2^e; then n has more bits than the format holds. Tininess is detected after
rounding (R125). The result is the datum and OF, UF, NX. -/
def roundM (mode : Nat) (f : FFmt) (s : Bool) (n : Nat) (e : Int) (more : Bool) : Nat × Flags :=
  let sign := if s then f.signBit else 0
  if n = 0 && !more then (sign, 0)
  else
    let top : Int := e + bitLen n - 1
    let q0 := top - f.fw
    let q := max q0 (f.emin - f.fw)
    let rnd (q : Int) : Nat × Bool :=
      if q ≤ e then (n * 2 ^ (e - q).toNat, more)
      else if mode = 5 then
        let r := roundShift 1 s n (q - e).toNat more
        (if r.2 then r.1 ||| 1 else r.1, r.2)
      else roundShift mode s n (q - e).toNat more
    let (m, inexact) := rnd q
    -- the datum without sign: a carry out of the fraction moves the exponent up by itself
    let mag : Nat :=
      if m < 2 ^ f.fw then m else ((q + f.fw + f.bias).toNat - 1) * 2 ^ f.fw + m
    let m0 := (rnd q0).1
    let top0 : Int := if m0 ≥ 2 ^ (f.fw + 1) then top + 1 else top
    if mag ≥ f.infBits then (sign + overflowMag f mode s, flagOF ||| flagNX)
    else
      let nx : Flags := if inexact then flagNX else 0
      let uf : Flags := if top0 < f.emin && inexact then flagUF else 0
      (sign + mag, nx ||| uf)

/-- Rounds to nearest with ties to even (R125). -/
def roundTo (f : FFmt) (s : Bool) (n : Nat) (e : Int) (more : Bool) : Nat × Flags := roundM 0 f s n e more

/-- RNE32, RNE64 and RNEBF: an exact value rounded to a format (R125). -/
def rne (f : FFmt) : XR → Nat × Flags
  | .nan => (f.nan, 0)
  | .inf s => ((if s then f.signBit else 0) + f.infBits, 0)
  | .fin s m e => roundTo f s m e false

/-- The datum of rne. -/
def rneBits (f : FFmt) (x : XR) : Nat := (rne f x).1

/-- The exact quotient of two finite values, the divisor not zero, rounded once in a mode. -/
def quotM (mode : Nat) (f : FFmt) (s : Bool) (m : Nat) (e : Int) (m' : Nat) (e' : Int) : Nat × Flags :=
  let k := bitLen m' + f.fw + 8
  let n := m * 2 ^ k / m'
  roundM mode f s n (e - e' - k) (m * 2 ^ k % m' != 0)

/-- The quotient rounded to nearest. -/
def rneQuot (f : FFmt) (s : Bool) (m : Nat) (e : Int) (m' : Nat) (e' : Int) : Nat × Flags := quotM 0 f s m e m' e'

/-- A quotient of extended reals rounded once; 0/0 and ∞/∞ are NaN, and x/0 is an infinity (R210). -/
def rneDiv (f : FFmt) : XR → XR → Nat × Flags
  | .nan, _ => (f.nan, 0)
  | _, .nan => (f.nan, 0)
  | .inf _, .inf _ => (f.nan, flagNV)
  | .inf s, .fin s' _ _ => rne f (.inf (s != s'))
  | .fin s _ _, .inf s' => rne f (.fin (s != s') 0 0)
  | .fin s m e, .fin s' m' e' =>
    if m' = 0 then (if m = 0 then (f.nan, flagNV) else ((rne f (.inf (s != s'))).1, flagDZ))
    else rneQuot f (s != s') m e m' e'

/-- One step of the integer square root: bit i of the root is set when the square still fits. -/
def isqrtGo (n : Nat) : Nat → Nat → Nat
  | 0, r => r
  | i + 1, r =>
    let r' := r + 2 ^ i
    isqrtGo n i (if r' * r' ≤ n then r' else r)

/-- ⌊√n⌋ -/
def isqrt (n : Nat) : Nat := isqrtGo n (bitLen n / 2 + 1) 0

/-- The square root of m × 2^e rounded once to a format in a mode. -/
def sqrtM (mode : Nat) (f : FFmt) (m : Nat) (e : Int) : Nat × Flags :=
  let k : Nat := 2 * (f.fw + 8)
  let odd : Nat := (e % 2).toNat
  let n := m * 2 ^ (k + odd)
  let r := isqrt n
  roundM mode f false r ((e - odd) / 2 - (k / 2 : Nat)) (r * r != n)

/-- The square root rounded to nearest. -/
def rneSqrt (f : FFmt) (m : Nat) (e : Int) : Nat × Flags := sqrtM 0 f m e

/-- ⌊ln 2 × 2^320⌋ -/
def ln2Const : Nat := 0xb17217f7d1cf79abc9e3b39803f2f6af40f343267298b62d8a0d175b8baafa2be7b876206debac98

/-- The terms z^i / i! of the exponential series in fixed point with 320 fraction bits, summed. -/
def expGo (z : Nat) : (fuel : Nat) → (i term acc : Nat) → Nat
  | 0, _, _, acc => acc
  | fuel + 1, i, term, acc =>
    let t := term * z / 2 ^ 320 / i
    expGo z fuel (i + 1) t (acc + t)

/-- 2^(m × 2^e) of a finite value, as (n, exponent, more) in the manner of roundTo. An integral exponent is exact.
The fixed-point error of less than 2^−300 is taken never to reach a rounding boundary (UNVERIFIED, log 10). -/
def exp2Apx (s : Bool) (m : Nat) (e : Int) : Nat × Int × Bool :=
  if m = 0 then (1, 0, false)
  else if 0 ≤ e then
    -- an integer; far beyond every format's range it is cut to ± 2^20
    let v := if 13 < e + bitLen m then 2 ^ 13 else m * 2 ^ e.toNat
    (1, if s then -(v : Int) else v, false)
  else if 13 < e + bitLen m then (1, if s then -(2 : Int) ^ 20 else (2 : Int) ^ 20, true)
  else
    let k := (-e).toNat
    let z : Int := if s then -(m : Int) else m
    let i := z / (2 : Int) ^ k
    let fr := (z - i * (2 : Int) ^ k).toNat
    if fr = 0 then (1, i, false)
    else
      let x := fr * ln2Const / 2 ^ k
      (expGo x 90 1 (2 ^ 320) (2 ^ 320), i - 320, true)

/-- 2^x rounded once to a format (R212; E2 of 19_meridian: R387). -/
def rneExp2 (f : FFmt) : XR → Nat × Flags
  | .nan => (f.nan, 0)
  | .inf true => (0, 0)
  | .inf false => (f.infBits, 0)
  | .fin s m e =>
    let (n, x, more) := exp2Apx s m e
    if more && n == 1 then
      (if s then (0, flagUF ||| flagNX) else (f.infBits, flagOF ||| flagNX))
    else roundTo f false n x more

/-- Binary digits of the logarithm of y / 2^P in [1, 2), most significant first, gathered in acc. -/
def log2Go (P : Nat) : (fuel : Nat) → (y acc : Nat) → Nat
  | 0, _, acc => acc
  | fuel + 1, y, acc =>
    let y2 := y * y / 2 ^ P
    if 2 ^ (P + 1) ≤ y2 then log2Go P fuel (y2 / 2) (2 * acc + 1) else log2Go P fuel y2 (2 * acc)

/-- log2 of a positive m × 2^e rounded once to a format (R212). A power of two is exact. The 160 digits are taken to
lie off every rounding boundary (UNVERIFIED, log 10). -/
def rneLog2 (f : FFmt) (m : Nat) (e : Int) : Nat × Flags :=
  let top : Int := e + bitLen m - 1
  if m = 2 ^ (bitLen m - 1) then rne f (XR.ofInt top)
  else
    let P := 400
    let d := log2Go P 160 (m * 2 ^ P / 2 ^ (bitLen m - 1)) 0
    if 0 ≤ top then roundTo f false (top.toNat * 2 ^ 160 + d) (-160) true
    else roundTo f true ((-top).toNat * 2 ^ 160 - d - 1) (-160) true

/-- The product of a finite value with ln 2, rounded once (11_differentiable: R276, the template of fex2). -/
def rneMulLn2 (f : FFmt) : XR → Nat × Flags
  | .fin s m e =>
    if m = 0 then rne f (.fin s 0 0) else roundTo f s (m * ln2Const) (e - 320) true
  | x => rne f x

/-- A finite value over another times ln 2, rounded once (R276, the template of flg2). -/
def rneDivLn2 (f : FFmt) (x y : XR) : Nat × Flags :=
  match x, y with
  | .fin s m e, .fin s' m' e' =>
    if m = 0 || m' = 0 then rneDiv f x y
    else
      let d := m' * ln2Const
      let k := bitLen d + f.fw + 8
      roundTo f (s != s') (m * 2 ^ k / d) (e - (e' - 320) - k) true
  | _, _ => rneDiv f x y

/-- num / den to the nearest integer, ties to even. -/
def rneRat (num den : Nat) : Nat :=
  let q := num / den
  let r := num % den
  if 2 * r > den || (2 * r == den && q % 2 == 1) then q + 1 else q

/-- √(num / den) to the nearest integer, ties to even. -/
def rneRoot (num den : Nat) : Nat :=
  let t := isqrt (4 * num / den)
  if t % 2 == 1 && t * t * den == 4 * num then (if (t / 2) % 2 == 0 then t / 2 else t / 2 + 1) else (t + 1) / 2

/-- The integer that a mode of R110 rounds a finite value to. -/
def roundInt (mode : Nat) (s : Bool) (m : Nat) (e : Int) : Int × Bool :=
  let (v, inexact) :=
    if 0 ≤ e then (m * 2 ^ e.toNat, false) else roundShift mode s m (-e).toNat false
  (if s then -(v : Int) else v, inexact)

end Sys2Proof.Machine
end

