-- ==== Sys2Proof/Machine/Flags.lean ====
section
/-! DEFINITION. The IEEE operations of the fabric and the flags each raises (05_numbers: R124 to R134;
08_core_float_atom: R207 to R218). Every operation maps data of a format to a datum and the flags it raises. -/

namespace Sys2Proof.Machine

/-- A datum and the flags raised with it. -/
abbrev FRes := Nat × Flags

/-- Is the datum a NaN? -/
def isNanBits (f : FFmt) (x : Nat) : Bool := decide (x % f.signBit > f.infBits)

/-- Is the datum a signalling NaN: the top fraction bit is 0 (R214)? -/
def isSnan (f : FFmt) (x : Nat) : Bool := isNanBits f x && (x / 2 ^ (f.fw - 1) % 2 == 0)

/-- The sign bit of a datum. -/
def signOf (f : FFmt) (x : Nat) : Bool := x / f.signBit % 2 == 1

/-- NV when one of the data is a signalling NaN (R126). -/
def nvOf (f : FFmt) (xs : List Nat) : Flags := if xs.any (isSnan f) then flagNV else 0

/-- fadd (R207, R208). -/
def fpAdd (f : FFmt) (a b : Nat) : FRes :=
  let x := exact f a
  let y := exact f b
  let r := XR.add x y
  let nv : Flags := if r.isNan && !x.isNan && !y.isNan then flagNV else nvOf f [a, b]
  let (v, fl) := rne f r
  (v, fl ||| nv)

/-- The datum with its sign bit inverted (R126, R209). -/
def fpNeg (f : FFmt) (a : Nat) : Nat := if signOf f a then a - f.signBit else a + f.signBit

/-- The datum with its sign bit cleared (R126, R209). -/
def fpAbs (f : FFmt) (a : Nat) : Nat := a % f.signBit

/-- The magnitude of a under the sign of b (R209). -/
def fpCopysign (f : FFmt) (a b : Nat) : Nat := a % f.signBit + (if signOf f b then f.signBit else 0)

/-- fsub (R207, R208). -/
def fpSub (f : FFmt) (a b : Nat) : FRes :=
  let x := exact f a
  let y := exact f b
  let r := XR.sub x y
  let nv : Flags := if r.isNan && !x.isNan && !y.isNan then flagNV else nvOf f [a, b]
  let (v, fl) := rne f r
  (v, fl ||| nv)

/-- fmul (R207, R208). -/
def fpMul (f : FFmt) (a b : Nat) : FRes :=
  let x := exact f a
  let y := exact f b
  let r := XR.mul x y
  let nv : Flags := if r.isNan && !x.isNan && !y.isNan then flagNV else nvOf f [a, b]
  let (v, fl) := rne f r
  (v, fl ||| nv)

/-- fma: one rounding; 0 × ∞ is invalid whatever C holds (R207, R208). -/
def fpFma (f : FFmt) (a b c : Nat) : FRes :=
  let x := exact f a
  let y := exact f b
  let z := exact f c
  let p := XR.mul x y
  let r := XR.add p z
  let badProduct := p.isNan && !x.isNan && !y.isNan
  let badSum := r.isNan && !p.isNan && !z.isNan
  let nv : Flags := if badProduct || badSum then flagNV else nvOf f [a, b, c]
  let (v, fl) := rne f r
  (v, fl ||| nv)

/-- minimumNumber and maximumNumber, −0 below +0 (R127). -/
def fpMinMax (f : FFmt) (max : Bool) (a b : Nat) : FRes :=
  let nv := nvOf f [a, b]
  let r :=
    if isNanBits f a then (if isNanBits f b then f.nan else b)
    else if isNanBits f b then a
    else
      let c := XR.cmp (exact f a) (exact f b)
      let aLess := c == -1 || (c == 0 && signOf f a && !signOf f b)
      let bLess := c == 1 || (c == 0 && signOf f b && !signOf f a)
      if max then (if aLess then b else a) else (if bLess then b else a)
  (r, nv)

/-- fdiv (R210). -/
def fpDiv (f : FFmt) (a b : Nat) : FRes :=
  let (v, fl) := rneDiv f (exact f a) (exact f b)
  (v, fl ||| nvOf f [a, b])

/-- fsqrt (R210). -/
def fpSqrt (f : FFmt) (a : Nat) : FRes :=
  match exact f a with
  | .nan => (f.nan, nvOf f [a])
  | .inf true => (f.nan, flagNV)
  | .inf false => (a, 0)
  | .fin s m e => if m = 0 then (a, 0) else if s then (f.nan, flagNV) else rneSqrt f m e

/-- The significand of a positive binary32 value as a number of 24 bits and its exponent: the value is
s / 2^23 × 2^e with s in [2^23, 2^24) (R132). -/
def normal32 (m : Nat) (e : Int) : Nat × Int :=
  let k := 24 - bitLen m
  (m * 2 ^ k, e - k + 23)

/-- frcp.seed (R132, R134). -/
def fpRcpSeed (a : Nat) : FRes :=
  match exact f32 a with
  | .nan => (f32.nan, nvOf f32 [a])
  | .inf s => (if s then f32.signBit else 0, 0)
  | .fin sg m e =>
    if m = 0 then ((if sg then f32.signBit else 0) + f32.infBits, flagDZ)
    else
      let (s, e) := normal32 m e
      let i := (s - 2 ^ 23) / 2 ^ 16
      let c := 257 + 2 * i                      -- the centre is c / 256
      let ta := rneRat (2 * 2 ^ 12 * 256) c
      let tb := rneRat (2 * 2 ^ 12 * 65536) (c * c)
      -- a − b (s − m), in units of 2^−35
      let y35 : Int := (ta : Int) * 2 ^ 23 - (tb : Int) * ((s : Int) - (c : Int) * 2 ^ 15)
      let y := rneRat y35.toNat (2 ^ 19)
      let (v, fl) := roundTo f32 sg y (-16 - e - 1) false
      (v, if v % f32.signBit == f32.infBits then fl else 0)

/-- frsqrt.seed (R133, R134). -/
def fpRsqrtSeed (a : Nat) : FRes :=
  match exact f32 a with
  | .nan => (f32.nan, nvOf f32 [a])
  | .inf s => if s then (f32.nan, flagNV) else (0, 0)
  | .fin sg m e =>
    if m = 0 then ((if sg then f32.signBit else 0) + f32.infBits, flagDZ)
    else if sg then (f32.nan, flagNV)
    else
      let (s, e) := normal32 m e
      let p := (e % 2).toNat
      let j := (s - 2 ^ 23) / 2 ^ 17
      let c := (129 + 2 * j) * 2 ^ p            -- the centre is c / 128
      let u := s * 2 ^ p                        -- u / 2^23
      let ee := e - p
      let ta := rneRoot (4 * 2 ^ 24 * 128) c
      let tb := rneRoot (2 ^ 24 * 128 ^ 3) (c * c * c)
      let y35 : Int := (ta : Int) * 2 ^ 23 - (tb : Int) * ((u : Int) - (c : Int) * 2 ^ 16)
      let y := rneRat y35.toNat (2 ^ 19)
      ((roundTo f32 false y (-16 - ee / 2 - 1) false).1, 0)

/-- fex2 (R212). -/
def fpEx2 (a : Nat) : FRes :=
  let (v, fl) := rneExp2 f32 (exact f32 a)
  (v, fl ||| nvOf f32 [a])

/-- flg2 (R212). -/
def fpLg2 (a : Nat) : FRes :=
  match exact f32 a with
  | .nan => (f32.nan, nvOf f32 [a])
  | .inf s => if s then (f32.nan, flagNV) else (f32.infBits, 0)
  | .fin s m e =>
    if m = 0 then (f32.signBit + f32.infBits, flagDZ)
    else if s then (f32.nan, flagNV)
    else rneLog2 f32 m e

/-- fcmp: conditions 0 eq, 1 ne, 2 lt, 3 le, 4 gt, 5 ge, 6 ordered, 7 unordered (R213). -/
def fpCmp (f : FFmt) (cond a b : Nat) : Bool × Flags :=
  let c := XR.cmp (exact f a) (exact f b)
  let un := c == 2
  let r :=
    match cond with
    | 0 => c == 0
    | 1 => c != 0
    | 2 => c == -1
    | 3 => c == -1 || c == 0
    | 4 => c == 1
    | 5 => c == 1 || c == 0
    | 6 => !un
    | _ => un
  let quiet := cond ≤ 1 || 6 ≤ cond
  (r, if quiet then nvOf f [a, b] else if un then flagNV else 0)

/-- fclass: the number of the one bit set (R214). -/
def fpClass (f : FFmt) (a : Nat) : Nat :=
  let ex := a / 2 ^ f.fw % 2 ^ f.ew
  let fr := a % 2 ^ f.fw
  let s := signOf f a
  if isNanBits f a then (if isSnan f a then 0 else 1)
  else if ex = 2 ^ f.ew - 1 then (if s then 2 else 9)
  else if ex = 0 then
    (if fr = 0 then (if s then 5 else 6) else if s then 4 else 7)
  else if s then 3 else 8

/-- fcvt from a format to another (R215). -/
def fpCvt (dst src : FFmt) (a : Nat) : FRes :=
  let (v, fl) := rne dst (exact src a)
  (v, fl ||| nvOf src [a])

/-- icvtf of an integer value (R216). -/
def fpOfInt (f : FFmt) (z : Int) : FRes :=
  let (v, fl) := rne f (XR.ofInt z)
  (v, fl &&& flagNX)

/-- fcvti to an integer of a range in a mode (R217). -/
def fpToInt (f : FFmt) (mode : Nat) (lo hi : Int) (a : Nat) : Int × Flags :=
  match exact f a with
  | .nan => (0, flagNV)
  | .inf s => (if s then lo else hi, flagNV)
  | .fin s m e =>
    let (n, inexact) := roundInt mode s m e
    if n < lo then (lo, flagNV)
    else if hi < n then (hi, flagNV)
    else (n, if inexact then flagNX else 0)

/-- fround in a mode; the sign of A is kept (R218). -/
def fpRound (f : FFmt) (mode a : Nat) : FRes :=
  match exact f a with
  | .nan => (f.nan, nvOf f [a])
  | .inf _ => (a, 0)
  | .fin s m e =>
    if m = 0 then (a, 0)
    else
      let (n, _) := roundInt mode s m e
      ((rne f (.fin s n.natAbs 0)).1, 0)

/-- bfloat16 bits widened to a format exactly (R79). -/
def widenBf16 (f : FFmt) (b : Nat) : Nat :=
  if isNanBits bf16 b then
    -- the payload moves with the widening
    (if signOf bf16 b then f.signBit else 0) + f.infBits + (b % 2 ^ 7) * 2 ^ (f.fw - 7)
  else rneBits f (exact bf16 b)

end Sys2Proof.Machine
end

