-- ==== Sys2Proof/Machine/Atoms.lean ====
section
/-! DEFINITION. Pulse atoms: counting, enumeration, Decode and Encode, and the operations on atoms
(05_numbers: R135 to R149; 08_core_float_atom: R221 to R225). -/

namespace Sys2Proof.Machine

/-- An atom format (R135). -/
inductive AFmt where
  | pa4 | pa8 | pa8h
  deriving DecidableEq, Repr, Inhabited

namespace AFmt

/-- The format of a type code (R99). -/
def ofType (t : Nat) : AFmt := if t = 8 then .pa4 else if t = 9 then .pa8 else .pa8h

/-- The type code. -/
def code : AFmt → Nat
  | .pa4 => 8
  | .pa8 => 9
  | .pa8h => 10

/-- The number of elements N. -/
def n : AFmt → Nat
  | .pa4 => 4
  | _ => 8

/-- The pulse count K. -/
def k : AFmt → Nat
  | .pa4 => 4
  | .pa8 => 6
  | .pa8h => 16

/-- The width in bytes. -/
def bytes : AFmt → Nat
  | .pa4 => 2
  | _ => 4

/-- The bits of the index. -/
def idxBits : AFmt → Nat
  | .pa4 => 8
  | .pa8 => 16
  | .pa8h => 24

/-- The count of valid indices. -/
def valid : AFmt → Nat
  | .pa4 => 192
  | .pa8 => 27008
  | .pa8h => 15158272

/-- The canonical NaR. -/
def nar : AFmt → Nat
  | .pa4 => 0xFFFF
  | _ => 0xFFFF_FFFF

end AFmt

/-- The next row of the pattern counts, from the row before: V(n,k) = V(n−1,k) + V(n,k−1) + V(n−1,k−1) (R138). -/
def vNext : (left diag : Nat) → List Nat → List Nat
  | _, _, [] => []
  | left, diag, up :: t => let v := up + left + diag; v :: vNext v up t

/-- The counts V(n, 0) … V(n, 16). -/
def vRow : Nat → List Nat
  | 0 => 1 :: List.replicate 16 0
  | n + 1 => vNext 0 0 (vRow n)

/-- V(n, k), the number of patterns of length n with k pulses (R138). -/
def vCount (n k : Nat) : Nat := (vRow n).getD k 0

/-- Σ of 2 V(r, k − t) for t from 1 to j − 1. -/
def vSkip (r k : Nat) : Nat → Nat
  | 0 => 0
  | 1 => 0
  | j + 2 => vSkip r k (j + 1) + 2 * vCount r (k - (j + 1))

/-- The enumeration index of a pattern (R139). -/
def enumerate : List Int → Nat → Nat
  | [], _ => 0
  | y :: ys, k =>
    let r := ys.length
    let j := y.natAbs
    let off := if j = 0 then 0
      else vCount r k + vSkip r k j + (if y < 0 then vCount r (k - j) else 0)
    off + enumerate ys (k - j)

/-- The magnitude at which index i falls among pulse counts j, j + 1, … of the next element, and what is left. -/
def unenumGo (r k : Nat) : (fuel i j : Nat) → Nat × Nat
  | 0, i, j => (i, j)
  | fuel + 1, i, j =>
    if 2 * vCount r (k - j) ≤ i then unenumGo r k fuel (i - 2 * vCount r (k - j)) (j + 1) else (i, j)

/-- The pattern of an index (R140). -/
def unenumerate : (n : Nat) → (i k : Nat) → List Int
  | 0, _, _ => []
  | r + 1, i, k =>
    if i < vCount r k then 0 :: unenumerate r i k
    else
      let (i, j) := unenumGo r k k (i - vCount r k) 1
      if i < vCount r (k - j) then (j : Int) :: unenumerate r i (k - j)
      else (-(j : Int)) :: unenumerate r (i - vCount r (k - j)) (k - j)

/-- What an operation uses of a Legend: its clamp and its codebook as binary32 bits (R144). -/
structure Legend where
  clamp : Nat
  codebook : List Nat
  deriving DecidableEq, Repr, Inhabited

/-- The Legend that address 0 gives a PA8 operation (R145). -/
def Legend.pa8Default : Legend := ⟨0x7F7F, []⟩

/-- The gain code of an atom. -/
def gainCode (f : AFmt) (atom : Nat) : Nat := atom / 2 ^ f.idxBits

/-- Is the atom NaR under the Legend (R137)? -/
def isNaR (f : AFmt) (lg : Legend) (atom : Nat) : Bool :=
  decide (f.valid ≤ atom % 2 ^ f.idxBits) ||
    (match f with
     | .pa8 => decide (0x7F80 ≤ gainCode f atom)
     | _ => decide (lg.codebook.length ≤ gainCode f atom))

/-- The gain of an atom: a UG16 for PA8, else a codebook entry (R136, R141). -/
def gainOf (f : AFmt) (lg : Legend) (atom : Nat) : XR :=
  match f with
  | .pa8 => exact f32 (gainCode f atom * 2 ^ 16)
  | _ => exact f32 (lg.codebook.getD (gainCode f atom) 0)

/-- The pulse pattern of an atom. -/
def patternOf (f : AFmt) (atom : Nat) : List Int := unenumerate f.n (atom % 2 ^ f.idxBits) f.k

/-- Decode: the N exact element values, or none for NaR (R137, R141). -/
def decodeAtom (f : AFmt) (lg : Legend) (atom : Nat) : Option (List XR) :=
  if isNaR f lg atom then none
  else
    let g := gainOf f lg atom
    if g.isZero then some (List.replicate f.n XR.zero)
    else some ((patternOf f atom).map fun y => if y = 0 then XR.zero else XR.mul g (XR.ofInt y))

/-- Decode with NaN in every element for NaR, as R147 reads an operand. -/
def decodeOrNan (f : AFmt) (lg : Legend) (atom : Nat) : List XR :=
  (decodeAtom f lg atom).getD (List.replicate f.n .nan)

/-- num/den × 2^sh compared with the magnitude of a finite value: is the value at most it? -/
def magLe (v : XR) (num den : Nat) (sh : Int) : Bool :=
  match v with
  | .fin _ m e =>
    let lo := min e sh
    m * 2 ^ (e - lo).toNat * den ≤ num * 2 ^ (sh - lo).toNat
  | _ => false

/-- Is num/den × 2^sh nearer to the larger neighbour hi than to lo, or midway (R142)? -/
def nearerHi (lo hi : XR) (num den : Nat) (sh : Int) : Bool :=
  match XR.add lo hi with
  | .fin _ m e =>
    -- lo + hi ≤ 2 x
    let b := min e (sh + 1)
    m * 2 ^ (e - b).toNat * den ≤ num * 2 ^ (sh + 1 - b).toNat
  | _ => false

/-- The largest UG16 not above x, by bits from the highest down (R136, R142). -/
def ugFloor (num den : Nat) (sh : Int) : (bit : Nat) → (g : Nat) → Nat
  | 0, g => g
  | b + 1, g =>
    let g' := g + 2 ^ b
    ugFloor num den sh b
      (if g' ≤ 0x7F7F && magLe (exact f32 (g' * 2 ^ 16)) num den sh then g' else g)

/-- The codebook code nearest to x, ties to the larger, from the list of entries; the last when all are below. -/
def codeNearest (num den : Nat) (sh : Int) : (code : Nat) → List Nat → Nat
  | c, [] => c
  | c, [_] => c
  | c, a :: b :: t =>
    if nearerHi (exact f32 a) (exact f32 b) num den sh then codeNearest num den sh (c + 1) (b :: t) else c

/-- RTA of a non-negative rational x = num/den × 2^sh to the gain set of a format (R142). -/
def rta (f : AFmt) (lg : Legend) (num den : Nat) (sh : Int) : Nat :=
  match f with
  | .pa8 =>
    let g := ugFloor num den sh 15 0
    if g < 0x7F7F && nearerHi (exact f32 (g * 2 ^ 16)) (exact f32 ((g + 1) * 2 ^ 16)) num den sh then g + 1
    else g
  | _ => codeNearest num den sh 0 lg.codebook

/-- The lowest index of a non-zero element that maximises (c + a)² / (e + 2y + 1) (R143). -/
def bestPulse (c e : Nat) (as ys : List Nat) : Nat :=
  let score (a y : Nat) : Nat × Nat := ((c + a) * (c + a), e + 2 * y + 1)
  let cand := (as.zip ys).zipIdx.filter fun p => p.1.1 != 0
  let best := cand.foldl (init := (none : Option (Nat × Nat × Nat))) fun b p =>
    let (num, den) := score p.1.1 p.1.2
    match b with
    | none => some (p.2, num, den)
    | some (i, bn, bd) => if bn * den < num * bd then some (p.2, num, den) else some (i, bn, bd)
  match best with
  | some (i, _, _) => i
  | none => 0

/-- The pulses that are still missing, one at a time (R143): the pulse counts and c and e at the end. -/
def addPulses : (fuel : Nat) → (c e : Nat) → (as ys : List Nat) → List Nat × Nat × Nat
  | 0, c, e, _, ys => (ys, c, e)
  | fuel + 1, c, e, as, ys =>
    let j := bestPulse c e as ys
    let a := as.getD j 0
    let y := ys.getD j 0
    addPulses fuel (c + a) (e + 2 * y + 1) as (updAt ys j (· + 1))

/-- The largest finite binary32, (2 − 2^−23) × 2^127. -/
def max32 (s : Bool) : XR := .fin s (2 ^ 24 - 1) 104

/-- Encode (R143) of the elements xs over a common divisor. -/
def encodeOver (den : Nat) (f : AFmt) (lg : Legend) (xs : List XR) : Nat :=
  if xs.any XR.isNan then f.nar
  else
    let xs := xs.map fun x => match x with
      | .inf s => XR.mul (max32 s) (XR.ofInt den)
      | x => x
    let lo := xs.foldl (init := (0 : Int)) fun b x => match x with
      | .fin _ m e => if m = 0 then b else min b e
      | _ => b
    let as := xs.map fun x => match x with
      | .fin _ m e => m * 2 ^ (e - lo).toNat
      | _ => 0
    let s := as.foldl (· + ·) 0
    if s = 0 then 0
    else
      let ys := as.map fun a => f.k * a / s
      let c := (as.zip ys).foldl (fun t p => t + p.1 * p.2) 0
      let e := ys.foldl (fun t y => t + y * y) 0
      let (ys, c, e) := addPulses (f.k - ys.foldl (· + ·) 0) c e as ys
      let g := min (rta f lg c (e * den) lo) lg.clamp
      let zeroGain := match f with
        | .pa8 => g == 0
        | _ => lg.codebook.getD g 0 == 0
      if zeroGain then 0
      else
        let signed := (xs.zip ys).map fun p => match p.1 with
          | .fin true _ _ => -(p.2 : Int)
          | _ => (p.2 : Int)
        g * 2 ^ f.idxBits + enumerate signed f.k

/-- Encode (R143). -/
def encodeAtom (f : AFmt) (lg : Legend) (xs : List XR) : Nat := encodeOver 1 f lg xs

/-- The flags of an encoding of r (R147): NR for a NaR among the operands or as result, else NX when Decode of the
result differs from r. -/
def encodeFlags (f : AFmt) (lg : Legend) (operandNaR : Bool) (rs : List XR) (atom : Nat) : Flags :=
  match decodeAtom f lg atom with
  | none => flagNR
  | some ds =>
    let same := (rs.zip ds).all fun p => XR.cmp p.1 p.2 == 0
    (if operandNaR then flagNR else 0) ||| (if same then 0 else flagNX)

/-- Encode with its flags (R147). -/
def encodeRes (f : AFmt) (lg : Legend) (operandNaR : Bool) (rs : List XR) : FRes :=
  let a := encodeAtom f lg rs
  (a, encodeFlags f lg operandNaR rs a)

/-- An element operation on two atoms (R147, R221). -/
def atomOp2 (op : XR → XR → XR) (f : AFmt) (lg : Legend) (a b : Nat) : FRes :=
  encodeRes f lg (isNaR f lg a || isNaR f lg b)
    (((decodeOrNan f lg a).zip (decodeOrNan f lg b)).map fun p => op p.1 p.2)

/-- An element operation on one atom. -/
def atomOp1 (op : Nat → XR → XR) (f : AFmt) (lg : Legend) (a : Nat) : FRes :=
  encodeRes f lg (isNaR f lg a) ((decodeOrNan f lg a).zipIdx.map fun p => op p.2 p.1)

/-- pa.scale by a binary32 (R221). -/
def atomScale (f : AFmt) (lg : Legend) (a s : Nat) : FRes := atomOp1 (fun _ d => XR.mul (exact f32 s) d) f lg a

/-- pa.relu (R221). -/
def atomRelu (f : AFmt) (lg : Legend) (a : Nat) : FRes :=
  atomOp1 (fun _ d => match d with
    | .nan => .nan
    | d => if XR.lt XR.zero d then d else XR.zero) f lg a

/-- pa.mask (R221). A NaR operand makes every element NaN, whatever the mask. -/
def atomMask (f : AFmt) (lg : Legend) (a m : Nat) : FRes :=
  atomOp1 (fun i d => match d with
    | .nan => .nan
    | d => if m / 2 ^ i % 2 = 1 then XR.zero else d) f lg a

/-- pa.cvt (R224). -/
def atomCvt (f : AFmt) (lg : Legend) (g : AFmt) (lgG : Legend) (a : Nat) : FRes :=
  encodeRes g lgG (isNaR f lg a) (decodeOrNan f lg a)

/-- A scalar of atoms rounded once to binary32; NaR gives the canonical NaN and NR (R148). -/
def scalarRes (v : Option XR) : FRes :=
  match v with
  | none => (f32.nan, flagNR)
  | some x => rne f32 x

/-- The dot product of two decoded atoms (R148). A zero result of zero atoms is +0 (R225). -/
def atomDot (f : AFmt) (lg : Legend) (a b : Nat) : FRes :=
  scalarRes (do
    let x ← decodeAtom f lg a
    let y ← decodeAtom f lg b
    some (XR.sum XR.zero ((x.zip y).map fun p => XR.mul p.1 p.2)))

/-- The squared norm (R148). -/
def atomNrm (f : AFmt) (lg : Legend) (a : Nat) : FRes := atomDot f lg a a

/-- The sum of the elements (R148). -/
def atomSum (f : AFmt) (lg : Legend) (a : Nat) : FRes :=
  scalarRes ((decodeAtom f lg a).map fun x => XR.sum XR.zero x)

/-- The largest element (R148). -/
def atomMax (f : AFmt) (lg : Legend) (a : Nat) : FRes :=
  scalarRes ((decodeAtom f lg a).map fun x =>
    match x with
    | [] => XR.zero
    | h :: t => t.foldl (fun m v => if XR.lt m v then v else m) h)

/-- Element i (R148). -/
def atomGet (f : AFmt) (lg : Legend) (a i : Nat) : FRes :=
  scalarRes ((decodeAtom f lg a).map fun x => x.getD i XR.zero)

/-- The gain, which is exact; a zero atom gives +0 (R148, R225). -/
def atomGain (f : AFmt) (lg : Legend) (a : Nat) : FRes :=
  if isNaR f lg a then (f32.nan, flagNR) else rne f32 (gainOf f lg a)

/-- The binary32 elements that pa.dec writes, and the flags (R223). -/
def atomDec (f : AFmt) (lg : Legend) (a : Nat) : List Nat × Flags :=
  match decodeAtom f lg a with
  | none => (List.replicate f.n f32.nan, flagNR)
  | some xs =>
    let rs := xs.map (rne f32)
    (rs.map (·.1), rs.foldl (fun fl r => fl ||| r.2) 0)

/-- pa.enc of binary32 elements (R222). -/
def atomEnc (f : AFmt) (lg : Legend) (xs : List Nat) : FRes := encodeRes f lg false (xs.map (exact f32))

end Sys2Proof.Machine
end

