-- ==== Sys2Proof/Syntax.lean ====
section
/-! DEFINITION. The SN4's operations and events, one constructor of Instr for each row of
spec/opcode_table.json. A node, exit or microword carries the fields of its word (04_encoding: R98, R100,
R106, R112); an event carries what the outside decides about it. -/

namespace Sys2Proof

/-- The fields of a compute node word below OPC (R98). -/
structure CU where
  typ : BitVec 4
  mod : BitVec 4
  a : BitVec 8
  b : BitVec 8
  c : BitVec 8
  dest : BitVec 8
  imm : BitVec 16
  deriving DecidableEq, Repr, Inhabited

/-- The fields of a memory/engine/system node word below OPC (R100). -/
structure MU where
  typ : BitVec 4
  mod : BitVec 4
  a : BitVec 8
  b : BitVec 8
  c : BitVec 8
  dest : BitVec 8
  space : BitVec 4
  scope : BitVec 4
  ag : BitVec 4
  flags : BitVec 4
  off : BitVec 48
  imm : BitVec 16
  deriving DecidableEq, Repr, Inhabited

/-- The fields of an exit word below KIND (R106). -/
structure EX where
  a : BitVec 8
  b : BitVec 8
  c : BitVec 8
  t : BitVec 8
  f : BitVec 8
  status : BitVec 8
  mod : BitVec 8
  deriving DecidableEq, Repr, Inhabited

/-- The fields of a Meridian microword below MOP (R112). -/
structure MW where
  d : BitVec 4
  a : BitVec 4
  b : BitVec 4
  cond : BitVec 4
  target : BitVec 12
  imm : BitVec 60
  deriving DecidableEq, Repr, Inhabited

/-- A hardware error as R483 classifies it, and, when uncorrectable data results, what is bad from then on: a 64-byte
line of device memory, a line of a core's scratchpad, or an accumulator cell of a core (R39, R340). -/
structure EccError where
  source : BitVec 8
  cls : BitVec 8
  unit : BitVec 16
  addr : Word
  line : Option Nat
  scratch : Option (Nat × Nat)
  cell : Option (Nat × Nat)
  deriving DecidableEq, Repr, Inhabited

/-- The operations and events of the SN4. -/
inductive Instr where
  /-- MOV (R182): Delivers operand A unchanged in the bits of TYPE. -/
  | mov (w : CU)
  /-- CVT (R183): Reads A as integer source type S and wraps it to the destination integer type. -/
  | cvt (w : CU)
  /-- SEL (R184): Delivers B when bit 0 of A is 1, else C. -/
  | sel (w : CU)
  /-- STEER (R185): Delivers B when bit 0 of A is 1, otherwise emits a cancel token. -/
  | steer (w : CU)
  /-- MERGE (R186): Delivers A if it is a value, else B if it is a value, else cancel. -/
  | merge (w : CU)
  /-- ADD (R187): Integer addition modulo 2^W. -/
  | add (w : CU)
  /-- SUB (R187): Integer subtraction modulo 2^W. -/
  | sub (w : CU)
  /-- MUL (R187): Integer multiplication modulo 2^W. -/
  | mul (w : CU)
  /-- MULHI (R187): Upper W bits of the full signed or unsigned product. -/
  | mulhi (w : CU)
  /-- MAD (R187): Integer a times b plus c modulo 2^W. -/
  | mad (w : CU)
  /-- DIV (R187): Integer quotient truncated toward zero, with the zero-divisor and overflow cases. -/
  | div (w : CU)
  /-- REM (R187): Integer remainder with the sign of the dividend, with the special cases. -/
  | rem (w : CU)
  /-- ABS (R187): Absolute value of a signed integer. -/
  | iabs (w : CU)
  /-- NEG (R187): Negation of a signed integer. -/
  | ineg (w : CU)
  /-- MIN (R187): Smaller of two integers, signed or unsigned by type. -/
  | imin (w : CU)
  /-- MAX (R187): Larger of two integers, signed or unsigned by type. -/
  | imax (w : CU)
  /-- CMP (R188): Integer compare under a condition, delivering a pred. -/
  | cmp (w : CU)
  /-- AND (R189): Bitwise AND on the W bits of TYPE. -/
  | iand (w : CU)
  /-- OR (R189): Bitwise OR on the W bits of TYPE. -/
  | ior (w : CU)
  /-- XOR (R189): Bitwise XOR on the W bits of TYPE. -/
  | ixor (w : CU)
  /-- NOT (R189): Bitwise NOT on the W bits of TYPE. -/
  | inot (w : CU)
  /-- SHL (R189): Logical left shift, zero for counts at or above W. -/
  | shl (w : CU)
  /-- SHR (R189): Logical right shift, zero for counts at or above W. -/
  | shr (w : CU)
  /-- SAR (R189): Arithmetic right shift with the count clipped to W-1. -/
  | sar (w : CU)
  /-- CLZ (R190): Counts leading zero bits. -/
  | clz (w : CU)
  /-- POPC (R190): Counts one bits. -/
  | popc (w : CU)
  /-- BREV (R190): Reverses the bit order. -/
  | brev (w : CU)
  /-- BFX (R191): Extracts a clipped bit field, sign-extended for signed types. -/
  | bfx (w : CU)
  /-- BFI (R191): Inserts a clipped bit field. -/
  | bfi (w : CU)
  /-- RNG (R192): Counter-based stateless 32-bit draw from seed, stream and counter. -/
  | rng (w : CU)
  /-- FADD (R207): Floating-point addition rounded once. -/
  | fadd (w : CU)
  /-- FSUB (R207): Floating-point subtraction rounded once. -/
  | fsub (w : CU)
  /-- FMUL (R207): Floating-point multiplication rounded once. -/
  | fmul (w : CU)
  /-- FMA (R207): Fused multiply-add with a single rounding. -/
  | fma (w : CU)
  /-- FMIN (R209): IEEE minimumNumber. -/
  | fmin (w : CU)
  /-- FMAX (R209): IEEE maximumNumber. -/
  | fmax (w : CU)
  /-- FABS (R209): Clears the sign bit. -/
  | fabs (w : CU)
  /-- FNEG (R209): Inverts the sign bit. -/
  | fneg (w : CU)
  /-- FCOPYSIGN (R209): Replaces the sign bit of A with that of B. -/
  | fcopysign (w : CU)
  /-- FDIV (R210): Correctly rounded division with its special cases. -/
  | fdiv (w : CU)
  /-- FSQRT (R210): Correctly rounded square root. -/
  | fsqrt (w : CU)
  /-- FRCP_SEED (R211): Table-and-tangent reciprocal seed of R132. -/
  | frcpSeed (w : CU)
  /-- FRSQRT_SEED (R211): Table-and-tangent reciprocal-square-root seed of R133. -/
  | frsqrtSeed (w : CU)
  /-- FEX2 (R212): Correctly rounded 2 to the power of A. -/
  | fex2 (w : CU)
  /-- FLG2 (R212): Correctly rounded log2 of A. -/
  | flg2 (w : CU)
  /-- FCMP (R213): Floating-point compare under a condition, delivering a pred. -/
  | fcmp (w : CU)
  /-- FCLASS (R214): Delivers a one-hot class mask of the operand. -/
  | fclass (w : CU)
  /-- FCVT (R215): Converts between IEEE formats. -/
  | fcvt (w : CU)
  /-- ICVTF (R216): Converts an integer to an IEEE format. -/
  | icvtf (w : CU)
  /-- FCVTI (R217): Rounds a float to a saturated integer in the named mode. -/
  | fcvti (w : CU)
  /-- FROUND (R218): Rounds to an integral value in the format. -/
  | fround (w : CU)
  /-- PA_ENC (R222): Encodes binary32 elements from live slots into one atom. -/
  | paEnc (w : CU)
  /-- PA_DEC (R223): Decodes an atom into binary32 live slots at commit. -/
  | paDec (w : CU)
  /-- PA_ADD (R221): Exact elementwise atom addition with one Encode. -/
  | paAdd (w : CU)
  /-- PA_SUB (R221): Exact elementwise atom subtraction with one Encode. -/
  | paSub (w : CU)
  /-- PA_MUL (R221): Exact elementwise atom multiplication with one Encode. -/
  | paMul (w : CU)
  /-- PA_SCALE (R221): Scales an atom by a binary32 scalar with one Encode. -/
  | paScale (w : CU)
  /-- PA_RELU (R221): Rectifies an atom's elements with one Encode. -/
  | paRelu (w : CU)
  /-- PA_MASK (R221): Zeroes masked atom elements with one Encode. -/
  | paMask (w : CU)
  /-- PA_DOT (R225): Dot product of two atoms rounded to binary32. -/
  | paDot (w : CU)
  /-- PA_NRM (R225): Squared norm of an atom rounded to binary32. -/
  | paNrm (w : CU)
  /-- PA_SUM (R225): Sum of an atom's elements rounded to binary32. -/
  | paSum (w : CU)
  /-- PA_MAX (R225): Largest element of an atom as binary32. -/
  | paMax (w : CU)
  /-- PA_GET (R225): Selected element of an atom as binary32. -/
  | paGet (w : CU)
  /-- PA_CVT (R224): Converts an atom between PA8 and PA8H. -/
  | paCvt (w : CU)
  /-- PA_GAIN (R225): Delivers the atom's gain as binary32. -/
  | paGain (w : CU)
  /-- LD (R232): Loads a value when it fires, per the space's visibility rules. -/
  | ld (w : MU)
  /-- ST (R233): Checks and translates at firing; writes at commit. -/
  | st (w : MU)
  /-- LEA (R235): Delivers the effective address without access. -/
  | lea (w : MU)
  /-- PREF (R236): Fetches the line into the core data cache; never faults. -/
  | pref (w : MU)
  /-- RMW_ADD (R238): Atomic integer add at the scope's coherence point. -/
  | rmwAdd (w : MU)
  /-- RMW_FADD (R238): Atomic float add, order-dependent, no flags. -/
  | rmwFadd (w : MU)
  /-- RMW_MIN (R238): Atomic integer minimum. -/
  | rmwMin (w : MU)
  /-- RMW_MAX (R238): Atomic integer maximum. -/
  | rmwMax (w : MU)
  /-- RMW_AND (R238): Atomic bitwise AND. -/
  | rmwAnd (w : MU)
  /-- RMW_OR (R238): Atomic bitwise OR. -/
  | rmwOr (w : MU)
  /-- RMW_XOR (R238): Atomic bitwise XOR. -/
  | rmwXor (w : MU)
  /-- RMW_XCHG (R238): Atomic exchange. -/
  | rmwXchg (w : MU)
  /-- RMW_CAS (R238): Atomic compare-and-swap. -/
  | rmwCas (w : MU)
  /-- RMW_LD (R238): Atomic read at the coherence point. -/
  | rmwLd (w : MU)
  /-- RMW_ST (R238): Atomic store at the coherence point. -/
  | rmwSt (w : MU)
  /-- CHS (R240): Sends a value on a channel to the downstream partner, spilling when full. -/
  | chs (w : MU)
  /-- CHR (R240): Receives the head value of a channel from the upstream partner. -/
  | chr (w : MU)
  /-- ADJ_LD (R241): Loads an adjoint cell at firing. -/
  | adjLd (w : MU)
  /-- ADJ_ST (R241): Stores an adjoint cell at commit. -/
  | adjSt (w : MU)
  /-- ADJ_ACC (R242): Irrevocably accumulates into an adjoint cell. -/
  | adjAcc (w : MU)
  /-- ADJ_RC (R241): Reads an adjoint cell at firing and clears it at commit. -/
  | adjRc (w : MU)
  /-- DQ_PUSH (R244): Pushes onto a work deque at the home slice. -/
  | dqPush (w : MU)
  /-- DQ_POP (R244): Pops the newest deque entry. -/
  | dqPop (w : MU)
  /-- DQ_STEAL (R244): Steals the oldest deque entry. -/
  | dqSteal (w : MU)
  /-- PUB (R53): Publishes the core's core-visible stores at a scope; token on completion. -/
  | pub (w : MU)
  /-- REFRESH (R54): Moves the core's refresh point for a scope; token on completion. -/
  | refresh (w : MU)
  /-- TH_CTL_RESUME (R248): Queues a resume of a faulted or halted thread at its record's block. -/
  | thCtlResume (w : MU)
  /-- TH_CTL_RESTART (R247): Queues a restart of a thread at block C with its done mask cleared. -/
  | thCtlRestart (w : MU)
  /-- RDSR (R249): Reads a system register as it stands at firing. -/
  | rdsr (w : MU)
  /-- WRSR (R249): Writes a system register that has no behaviour of its own, with rights and field checks. -/
  | wrsr (w : MU)
  /-- XLINV_PAGE (R47): Invalidates every translation of one page in the current address space device-wide. -/
  | xlinvPage (w : MU)
  /-- XLINV_ASID (R47): Invalidates every translation of the current address space device-wide. -/
  | xlinvAsid (w : MU)
  /-- XLINV_ALL (R47): Invalidates every translation of every address space device-wide. -/
  | xlinvAll (w : MU)
  /-- TAPEBASE_WRITE (R259): Writes SYS_TAPEBASE while STATE is 0 and resets HEAD. -/
  | tapebaseWrite (w : MU)
  /-- TAPELIMIT_WRITE (R259): Writes SYS_TAPELIMIT, at least HEAD. -/
  | tapelimitWrite (w : MU)
  /-- MCSWIN_LOAD (R379): Verifies a signed control-store image and writes it into every core. -/
  | mcswinLoad (w : MU)
  /-- XRIMG_LOAD (R338): Verifies a signed routine image and writes it into a slot of every transform core. -/
  | xrimgLoad (w : MU)
  /-- EXIT_BR (R196): Sends the thread to wait at a fixed target block. -/
  | exitBr (w : EX)
  /-- EXIT_CBR (R196): Sends the thread to one of two blocks by a predicate. -/
  | exitCbr (w : EX)
  /-- EXIT_IND (R196): Sends the thread to a computed block, faulting CONFIG on a bad target. -/
  | exitInd (w : EX)
  /-- EXIT_SW (R196): Sends the thread through a 32-entry switch table. -/
  | exitSw (w : EX)
  /-- EXIT_RETIRE (R197): Commits and retires the thread. -/
  | exitRetire (w : EX)
  /-- EXIT_TRAP (R198): Commits, halts the thread and writes its fault record with the trap code. -/
  | exitTrap (w : EX)
  /-- EXIT_BAR (R199): Commits, parks and arrives at a barrier instance of a scope. -/
  | exitBar (w : EX)
  /-- EXIT_WAIT (R200): Commits, checks the address and parks testing a word under a condition. -/
  | exitWait (w : EX)
  /-- EXIT_PHASE (R203): Commits, parks and arrives at the core's phase instance. -/
  | exitPhase (w : EX)
  /-- EXIT_DFWD (R263): Commits, parks and arrives at the dfwd instance that enters recording. -/
  | exitDfwd (w : EX)
  /-- EXIT_DREV (R269): Commits, parks and arrives at the drev instance. -/
  | exitDrev (w : EX)
  /-- CP (R309): Linear copy, optionally expanding a compressed source. -/
  | cp (w : MU)
  /-- CP_T_BOX (R310): Tensor-map copy of a box with zero fill outside the tensor. -/
  | cpTBox (w : MU)
  /-- CP_T_WINDOW (R311): Tensor-map copy that writes implicit-matrix window rows. -/
  | cpTWindow (w : MU)
  /-- CP_G (R312): Gathers items by an index list. -/
  | cpG (w : MU)
  /-- CP_S (R312): Scatters items by an index list. -/
  | cpS (w : MU)
  /-- CP_Q (R313): Quantises dense elements into atoms. -/
  | cpQ (w : MU)
  /-- CP_Z (R327): Compresses logical blocks with rANS and writes their directory entries. -/
  | cpZ (w : MU)
  /-- CP_X (R334): Expands, runs a transform routine per buffer, optionally quantises, and writes. -/
  | cpX (w : MU)
  /-- CP_CANCEL (R315): Cancels earlier copy commands naming a completion address. -/
  | cpCancel (w : MU)
  /-- MMA (R346): Tile multiply-accumulate into an accumulator rectangle. -/
  | mma (w : MU)
  /-- MMA_SP (R348): Tile multiply-accumulate with a generated sparse A. -/
  | mmaSp (w : MU)
  /-- ACC_ZERO (R353): Writes +0 to every cell of a rectangle. -/
  | accZero (w : MU)
  /-- ACC_LD (R353): Loads a rectangle from memory with exact conversion. -/
  | accLd (w : MU)
  /-- ACC_ST (R354): Stores a rectangle through the scale, bias, rectify and quantise epilogue. -/
  | accSt (w : MU)
  /-- ACC_RED (R355): Joins a tree reduction of a rectangle across cluster members. -/
  | accRed (w : MU)
  /-- CT_FILL (R351): Enters rows into the corner-turn buffer's fill half. -/
  | ctFill (w : MU)
  /-- CT_FLUSH (R352): Pads a partial fill half with zero rows. -/
  | ctFlush (w : MU)
  /-- WUPD (R359): Fused optimizer update of W, M and V. -/
  | wupd (w : MU)
  /-- MX_POST (R361): Writes a completion word after all earlier matrix commands. -/
  | mxPost (w : MU)
  /-- ACC_DRAIN (R362): Writes accumulator cells and optionally engine state out as bits. -/
  | accDrain (w : MU)
  /-- ACC_FILL (R362): Restores accumulator cells and optionally engine state. -/
  | accFill (w : MU)
  /-- MX_TEST_RUN (R366): Tests all four quadrants and applies the self-test rules to failures. -/
  | mxTestRun (w : MU)
  /-- MX_TEST_UNFENCE (R366): Unfences quadrants that pass test and retest, with system privilege. -/
  | mxTestUnfence (w : MU)
  /-- ATTN_GO (R377): Queues an attention job to start at a microaddress. -/
  | attnGo (w : MU)
  /-- ATTN_GO_RESUME (R401): Reruns a stopped job's stopped microword. -/
  | attnGoResume (w : MU)
  /-- ATTN_GO_SKIP (R401): Continues a stopped job after the stopped microword. -/
  | attnGoSkip (w : MU)
  /-- ATTN_GO_ABANDON (R401): Ends a stopped job with ABORTED and starts the queued job. -/
  | attnGoAbandon (w : MU)
  /-- ATTN_PLAN (R397): Divides a batch of sequences into segments over cores and writes the plan. -/
  | attnPlan (w : MU)
  /-- KV_MAP (R394): Initialises a page and installs its entry in a sequence. -/
  | kvMap (w : MU)
  /-- KV_FORK (R395): Forks a child sequence sharing the parent's pages. -/
  | kvFork (w : MU)
  /-- KV_TRUNC (R396): Truncates a sequence, releasing or retaining its pages. -/
  | kvTrunc (w : MU)
  /-- ATTN_SAVE (R399): Writes a target core's Meridian state image. -/
  | attnSave (w : MU)
  /-- ATTN_SAVE_LOAD (R399): Loads registers, flags and the µPC of a stopped job from an image. -/
  | attnSaveLoad (w : MU)
  /-- MLI (R381): Loads a sign-extended immediate into a register. -/
  | mli (w : MW)
  /-- MADD (R381): Register add, setting Z and N. -/
  | madd (w : MW)
  /-- MSUB (R381): Register subtract, setting Z and N. -/
  | msub (w : MW)
  /-- MMUL (R381): Register multiply low 64 bits. -/
  | mmul (w : MW)
  /-- MAND (R381): Register AND. -/
  | mand (w : MW)
  /-- MSHL (R381): Register left shift. -/
  | mshl (w : MW)
  /-- MSHR (R381): Register logical right shift. -/
  | mshr (w : MW)
  /-- MLD (R382): Loads an aligned 8-byte word into a register. -/
  | mld (w : MW)
  /-- MST (R382): Posts an aligned 8-byte store. -/
  | mst (w : MW)
  /-- MBR (R381): Conditional branch on the flags. -/
  | mbr (w : MW)
  /-- MLOOP (R381): Decrements a loop counter and branches while non-zero. -/
  | mloop (w : MW)
  /-- MLOOP_LD (R381): Loads a loop counter from a register. -/
  | mloopLd (w : MW)
  /-- KVX (R383): Looks up a page entry for a layer and position. -/
  | kvx (w : MW)
  /-- MGAT (R384): Starts a tagged gather of one page's positions into scratch. -/
  | mgat (w : MW)
  /-- MWAIT (R385): Waits for a gather tag and takes its skip count or stops on failure. -/
  | mwait (w : MW)
  /-- MWAIT_COND (R382): Parks the job until a word satisfies a condition. -/
  | mwaitCond (w : MW)
  /-- MMMA (R386): Issues an mma or mma.sp on the matrix engine and waits for it. -/
  | mmma (w : MW)
  /-- MEXU_MAX (R387): Computes new row maxima and rescale factors. -/
  | mexuMax (w : MW)
  /-- MEXU_EXP (R387): Writes exponentiated score rows P. -/
  | mexuExp (w : MW)
  /-- MEXU_SUM (R387): Updates row sums and maxima. -/
  | mexuSum (w : MW)
  /-- MEXU_SCALE (R387): Rescales the rectangle's cells by alpha. -/
  | mexuScale (w : MW)
  /-- MACC_MERGE (R388): Merges a partial record into the row state and cells. -/
  | maccMerge (w : MW)
  /-- MACC_EXPORT (R388): Posts the row state and cells as a partial record. -/
  | maccExport (w : MW)
  /-- MACC_FINAL (R388): Writes the normalised output rows. -/
  | maccFinal (w : MW)
  /-- MPOST (R382): Writes a word after every earlier job write is performed. -/
  | mpost (w : MW)
  /-- MHALT (R389): Waits for tags and writes, then ends the job and writes its completion word. -/
  | mhalt (w : MW)
  /-- MTRAP (R389): Stops the job with a program-supplied cause. -/
  | mtrap (w : MW)
  /-- MNOP (R389): Does nothing. -/
  | mnop (w : MW)
  /-- CONF_TEST (R410): Computes the exit predicate and on exit marks skipped layers PENDING and queues a request. -/
  | confTest (w : MU)
  /-- FILL_REQ (R410): Marks skipped layers PENDING and queues a fill request. -/
  | fillReq (w : MU)
  /-- FILL_SYNC (R411): Completes once every noted request of a sequence is resolved. -/
  | fillSync (w : MU)
  /-- LR_PATCH (R429): Writes one word of an IDLE launch record. -/
  | lrPatch (w : MU)
  /-- LR_ARM (R430): Arms an IDLE launch record after the implicit publication. -/
  | lrArm (w : MU)
  /-- LR_BIND (R431): Binds a record to a trigger word under a condition. -/
  | lrBind (w : MU)
  /-- LR_UNBIND (R432): Removes a record's binding. -/
  | lrUnbind (w : MU)
  /-- Q_PRIO (R433): Sets a software queue's priority. -/
  | qPrio (w : MU)
  /-- CL_PUT (R447): Copies bytes to a peer, optionally signalling RSIG. -/
  | clPut (w : MU)
  /-- CL_GET (R447): Copies bytes from a peer. -/
  | clGet (w : MU)
  /-- CL_RED (R448): All-reduce in a fixed ring order. -/
  | clRed (w : MU)
  /-- CL_REDQ (R449): Quantised all-reduce with error feedback. -/
  | clRedq (w : MU)
  /-- CL_A2A (R451): All-to-all block exchange. -/
  | clA2a (w : MU)
  /-- CL_BAR (R452): Group barrier, optionally fencing earlier link operations. -/
  | clBar (w : MU)
  /-- CL_RING (R453): Stepwise ring exchange with progress reporting. -/
  | clRing (w : MU)
  /-- ILLEGAL_MICROWORD (R114): A running job reaches a microword with MOP 0x00 or 0x16–0xFF and stops there with cause illegal microword. -/
  | illegalMicroword (w : BitVec 96)
  /-- COPY_COMPLETE (R319): A copy command finishes its payload and writes its completion word. -/
  | copyComplete (core slot : Nat)
  /-- ACC_RED_START (R356): Runs the fixed reduction tree once every member's command is at its queue head. -/
  | accRedStart (core : Nat)
  /-- ACC_RED_TIMEOUT (R357): Fails the instance with TIMEOUT when members do not all arrive in time. -/
  | accRedTimeout (core : Nat)
  /-- MATRIX_CMD_EXECUTE (R343): The engine executes its next queued command and writes its completion word in order. -/
  | matrixCmdExecute (core : Nat)
  /-- MX_SELF_TEST (R364): After INTERVAL mma commands, tests every unfenced quadrant, retests and fences failures. -/
  | mxSelfTest (core : Nat) (bad lasting : BitVec 4)
  /-- JOB_START (R377): A queued job starts with its initial state once the engine is handed over. -/
  | jobStart (core : Nat)
  /-- GATHER_COMPLETE (R384): A gather finishes, marking its tag done with a skip count or failed with a code. -/
  | gatherComplete (core tag : Nat)
  /-- MWAIT_RELEASE (R382): A parked condition wait is released, clearing T. -/
  | mwaitRelease (core : Nat)
  /-- MWAIT_TIMEOUT (R382): A condition wait's timeout expires, setting T and continuing. -/
  | mwaitTimeout (core : Nat)
  /-- FILL_BATCH_FORM (R414): The Infill engine forms a batch, writes the batch record and arms the fill record. -/
  | fillBatchForm (cluster : Nat)
  /-- FILL_BATCH_RESOLVE (R415): On the fill launch's completion, writes VALID or FAILED for each entry. -/
  | fillBatchResolve (cluster : Nat)
  /-- TRIGGER_TEST (R431): Tests a binding's word after a write reaches its line, firing the arm when true and IDLE. -/
  | triggerTest (rec : Nat)
  /-- HEAD_PROMOTE (R433): A head reaches DEADLINE minus EST and is promoted to level 8. -/
  | headPromote (queue : Nat)
  /-- LAUNCH_COMPLETE (R426): Reads COND, writes CADDR or requeues a while record, and decrements successors. -/
  | launchComplete (rec : Nat)
  /-- CORE_SHARE_END (R426): A core with no live thread and all completions written publishes at system scope and is released. -/
  | coreShareEnd (core : Nat)
  /-- CL_BAR_TIMEOUT (R452): A member's barrier wait expires and completes with TIMEOUT. -/
  | clBarTimeout (op : Nat)
  /-- RING_FAILURE_DETECT (R454): A stall, unreachable or reset member for SYS_RINGTIMEOUT fails the instance and sends aborts. -/
  | ringFailureDetect (op : Nat)
  /-- RING_ABORT_RECEIVE (R454): A member receives the abort, writes FAILSTEP and completes with RING. -/
  | ringAbortReceive (op : Nat)
  /-- LINK_PACKET_RECEIVE (R440): A link packet arrives and is performed exactly once at its receiver. -/
  | linkPacketReceive (p : Packet)
  /-- LINK_OP_COMPLETE (R456): A link operation writes its completion word after every destination byte is visible. -/
  | linkOpComplete (op : Nat)
  /-- PASS_SELECT (R160): The selector updates ages, picks a block, snapshots its waiting set and fixes $pass. -/
  | passSelect (core : Nat)
  /-- SHADOW_PREDICT (R163): The loader predicts the next block and loads it into the shadow plane. -/
  | shadowPredict (core : Nat)
  /-- IMAGE_LOAD (R118): The loader's fetch of a block image completes and its checks run. -/
  | imageLoad (core : Nat)
  /-- BEAT_RETIRE (R168): A beat retires, committing stores, live writes, flags, Traverse records and exit actions per thread. -/
  | beatRetire (core : Nat)
  /-- WAIT_RELEASE (R201): A write reaching the word's line satisfies a parked wait, releasing the thread with status 1. -/
  | waitRelease (core tid : Nat)
  /-- PARK_TIMEOUT (R171): A parked thread's timeout expires and it is released with status 0. -/
  | parkTimeout (core tid : Nat)
  /-- PHASE_RELEASE (R203): After a completed phase's publication and refresh, releases the threads with status 1. -/
  | phaseRelease (core : Nat)
  /-- TH_CTL_APPLY (R248): The target core applies a queued thread request at a pass boundary. -/
  | thCtlApply (core : Nat)
  /-- TRANSLATION_WALK_COMPLETE (R45): A walker walk ends and the waiting slot's entry is refilled or faulted. -/
  | translationWalkComplete (core va : Nat)
  /-- HELD_ACCESS_RETRY (R286): A completed SYS_XLINV wakes held accesses to retry their walk once. -/
  | heldAccessRetry (core lane : Nat)
  /-- HELD_ACCESS_TIMEOUT (R286): A held access's CLOCKS expire and its token becomes TRANSLATION poison. -/
  | heldAccessTimeout (core lane : Nat)
  /-- FAULT_REPORT (R287): At a pass boundary, appends fault-list entries and raises the interrupt or arms the handler. -/
  | faultReport (core : Nat)
  /-- TRAVERSE_CMD_EXTEND (R268): A written extend command raises LIMIT and resumes selection. -/
  | traverseCmdExtend (core : Nat)
  /-- TRAVERSE_CMD_ABORT (R268): A written abort faults every live thread and resets the Traverse. -/
  | traverseCmdAbort (core : Nat)
  /-- REVERSE_SWEEP_START (R269): After the core's drain, STATE becomes 2 and the sweep begins. -/
  | reverseSweepStart (core : Nat)
  /-- SWEEP_RECORD (R270): The sweep pops a record or replays a recorded pass, ending at the MARK. -/
  | sweepRecord (core : Nat)
  /-- PREEMPT_REQUEST (R288): Stops the selector, drains the pass and stops or freezes the engines. -/
  | preemptRequest (core : Nat)
  /-- PASS_RETURN_AT_PREEMPT (R289): Ends a held pass, returning unfired threads to the waiting set with PEND. -/
  | passReturnAtPreempt (core : Nat)
  /-- CONTEXT_SAVE (R290): Publishes at system scope, writes the save area and reports the core saved. -/
  | contextSave (core : Nat)
  /-- CONTEXT_RESTORE (R292): Refreshes, restores the context and resumes PEND threads. -/
  | contextRestore (core : Nat)
  /-- HOST_CXL_MEM_ACCESS (R41): A host CXL.mem read or write is performed at the home slice. -/
  | hostCxlMemAccess (key : Nat) (bytes : Option (List Byte))
  /-- HOST_ARM (R475): A host ARM write arms a record as lr.arm and sets ARMSTAT. -/
  | hostArm (v : Word)
  /-- HOST_REG_WRITE (R474): A host window write to a register with no row of its own. -/
  | hostRegWrite (off : Nat) (v : Word)
  /-- CTXCMD_RESUME (R480): Host resume of a thread as th.ctl RESUME. -/
  | ctxcmdResume (v : Word)
  /-- CTXCMD_RESTART (R480): Host restart of a thread as th.ctl RESTART. -/
  | ctxcmdRestart (v : Word)
  /-- CTXCMD_DISCARD (R480): Discards a record's launch, completing it with ABORTED. -/
  | ctxcmdDiscard (v : Word)
  /-- DBGCMD_HALT (R295): Halts a named thread at the next pass boundary. -/
  | dbgcmdHalt (v : Word)
  /-- DBGCMD_WRITE_SLOT (R296): Writes DBGDATA into a thread's live slot at the next boundary. -/
  | dbgcmdWriteSlot (v : Word)
  /-- TABLE_UNIT_EXECUTE (R375): The core's table unit takes its next queued attn.plan, kv.map, kv.fork or kv.trunc command, performs it and writes its completion word. -/
  | tableUnitExecute (core : Nat)
  /-- FLIT_CRC_REPLAY (R440): A flit with a failed CRC is sent again from the replay buffer. -/
  | flitCrcReplay (tries : Nat)
  /-- PEER_UNREACHABLE (R440): A peer no port reaches for SYS_RINGTIMEOUT becomes unreachable, ending instances with LINK. -/
  | peerUnreachable (dev : Nat)
  /-- LINK_PACKET_DISCARD (R444): A packet with no matching local operation is discarded after SYS_RINGTIMEOUT. -/
  | linkPacketDiscard (idx : Nat)
  /-- UCIE_MODULE_FAIL (R471): A module that fails training is left down. -/
  | ucieModuleFail (m : Nat)
  /-- POWER_CAP_ADJUST (R484): Lowers island frequencies to keep 10 ms average power under PCAP. -/
  | powerCapAdjust (isl mhz : Nat)
  /-- THERMAL_THROTTLE (R484): An island at 105 °C is throttled. -/
  | thermalThrottle (isl : Nat)
  /-- THERMAL_GATE (R484): An island at 115 °C is logged and gated, a core taken out of service. -/
  | thermalGate (isl : Nat)
  /-- ISLAND_WRITE (R484): Sets an island's frequency limit or gate. -/
  | islandWrite (isl : Nat) (v : Word)
  /-- PCAP_WRITE (R484): Sets the package power limit. -/
  | pcapWrite (v : Word)
  /-- INTSTAT_CLEAR (R482): Clears raised interrupt vectors. -/
  | intstatClear (v : Word)
  /-- ATTEST_REQUEST (R479): Writes a signed attestation report and raises vector 3. -/
  | attestRequest (v : Word)
  /-- FEATACK_WRITE (R478): The host acknowledges feature bits before the first arm. -/
  | featackWrite (high : Bool) (v : Word)
  /-- BRINGUP_FAILED (R476): HBM training, a die self-test or the fuse check fails during bring-up, and PHASE becomes FAILED with its cause. -/
  | bringupFailed (cause : BitVec 8)
  /-- DEVICE_RESET (R476): Reset starts ROM verification of the firmware and bring-up. -/
  | deviceReset (image : List Byte) (sig : List Byte)
  /-- HOST_PAGE_WAIT_POLL (R201): A thread parked on a word of a host-mapped page has the word read again at least every 2 µs, and is released when the condition holds. -/
  | hostPageWaitPoll (core tid : Nat)
  /-- ECC_ERROR (R483): An ECC error is tested, classified, logged to MCLOG and vector 1 raised. -/
  | eccError (e : EccError)
  /-- DBGCMD_READ_SLOT (R481): Reads a thread's live slot into DBGDATA at the next boundary. -/
  | dbgcmdReadSlot (v : Word)
  /-- DBGCMD_STOP_JOB (R481): Stops the core's Meridian job with cause debugger. -/
  | dbgcmdStopJob (v : Word)
  /-- REDUCED_TO_READY (R477): Once no launch runs, opens all dies and stacks at 1.75 GHz and binds again. -/
  | reducedToReady
  /-- SELECT_HEAD (R434): The distributor selects a queue head by promotion, level and round robin. -/
  | selectHead
  /-- LAUNCH_BIND (R435): Binds the selected head to free allowed cores and initialises them. -/
  | launchBind
  /-- QUEUE_SLOT_EVICT (R436): Evicts a slot mapped 100 µs to map the first waiting queue. -/
  | queueSlotEvict
  deriving DecidableEq, Repr, Inhabited

end Sys2Proof
end

