-- ==== Sys2Proof/Machine/Formats.lean ====
section
/-! DEFINITION. The opcode maps and the format of every node, exit and microword: opcodes, classes, types,
modifiers, spaces, scopes, operand roles and null encodings (04_encoding: R98 to R114, and the encoding tables of
the instruction chapters). -/

namespace Sys2Proof.Machine

/-- The class of a node (R109, R111). -/
inductive Class where
  | alu | fpu | mem | eng
  deriving DecidableEq, Repr

/-- What a node reads an operand field as (R103, R179, R206, R229, R79). -/
inductive Role where
  /-- the field is not used and holds 0xFF -/
  | none
  /-- a value in the node's TYPE -/
  | val
  /-- a value in the type that MOD names as source -/
  | src
  /-- a predicate, bit 0 -/
  | pred
  /-- 64 bits: shift counts, control words, masks, indices, commands -/
  | u64
  /-- a binary32, whatever TYPE is -/
  | f32
  /-- a Legend address; 0xFF is address 0 -/
  | legend
  /-- an address, a channel number or a descriptor base; 0xFF is 0 -/
  | addr
  /-- a dependence, or 0xFF -/
  | dep
  /-- the first live slot that pa.enc reads -/
  | slots
  /-- the block of th.ctl, or 0xFF -/
  | block
  deriving DecidableEq, Repr

/-- The values of MOD that an instruction takes (R110, R224, R341, R374). -/
inductive ModRule where
  | zero
  | upTo (n : Nat)
  | srcInt
  | srcFlt
  | cvti
  | dstAtom
  | ct
  deriving DecidableEq, Repr

/-- How an instruction uses IMM (R101, R111). -/
inductive ImmRule where
  /-- an imm16 operand when a field holds 0xF0 -/
  | lit
  /-- not at all: no field may hold 0xF0 -/
  | none
  /-- a system register number -/
  | reg
  /-- the word number of lr.patch -/
  | patch
  deriving DecidableEq, Repr

/-- The format of an opcode. -/
structure Fmt where
  cls : Class
  irrev : Bool
  types : List Nat
  a : Role
  b : Role
  c : Role
  mod : ModRule
  result : Bool
  spaces : List Nat
  scopes : List Nat
  nt : Bool
  ag : Bool
  imm : ImmRule
  deriving DecidableEq, Repr

/-- The fields an exit kind uses; wait and code: MOD holds a condition, or is a trap code (R106, R107). -/
structure ExFmt where
  a : Bool
  b : Bool
  c : Bool
  t : Bool
  f : Bool
  status : Bool
  scopes : List Nat
  wait : Bool
  code : Bool
  deriving DecidableEq, Repr

/-- The integer types i32, u32, i64, u64 (R99). -/
def tInt : List Nat := [0, 1, 2, 3]
/-- i32 and i64. -/
def tSigned : List Nat := [0, 2]
/-- The integer types and pred. -/
def tLogic : List Nat := [0, 1, 2, 3, 7]
/-- f32, f64, bf16. -/
def tFlt : List Nat := [4, 5, 6]
/-- pa4, pa8, pa8h. -/
def tAtom : List Nat := [8, 9, 10]
/-- The integer and IEEE types. -/
def tNum : List Nat := [0, 1, 2, 3, 4, 5, 6]
/-- The types a load or store moves. -/
def tMem : List Nat := [0, 1, 2, 3, 4, 5, 6, 8, 9, 10]
/-- The element types of adjoint regions, also the types of mma. -/
def tAdj : List Nat := [4, 5, 6, 8, 9, 10]
/-- All type codes. -/
def tAny : List Nat := [0, 1, 2, 3, 4, 5, 6, 7, 8, 9, 10]

/-- A row of the CU map: a compute node is never irrevocable and has no space, scope or flags. -/
def cuRow (cls : Class) (types : List Nat) (a b c : Role) (mod : ModRule) (result : Bool) : Fmt :=
  ⟨cls, false, types, a, b, c, mod, result, [0], [0], false, false, .lit⟩

/-- The format of a compute opcode (R109, R179, R205); none for an opcode the CU map does not hold. -/
def cuFmt (opc : Nat) : Option Fmt :=
  match opc with
  | 0x01 => some (cuRow .alu tAny .val .none .none (.zero) true)
  | 0x02 => some (cuRow .alu tInt .src .none .none (.srcInt) true)
  | 0x03 => some (cuRow .alu tAny .pred .val .val (.zero) true)
  | 0x04 => some (cuRow .alu tAny .pred .val .none (.zero) true)
  | 0x05 => some (cuRow .alu tAny .val .val .none (.zero) true)
  | 0x10 => some (cuRow .alu tInt .val .val .none (.zero) true)
  | 0x11 => some (cuRow .alu tInt .val .val .none (.zero) true)
  | 0x12 => some (cuRow .alu tInt .val .val .none (.zero) true)
  | 0x13 => some (cuRow .alu tInt .val .val .none (.zero) true)
  | 0x14 => some (cuRow .alu tInt .val .val .val (.zero) true)
  | 0x15 => some (cuRow .alu tInt .val .val .none (.zero) true)
  | 0x16 => some (cuRow .alu tInt .val .val .none (.zero) true)
  | 0x17 => some (cuRow .alu tSigned .val .none .none (.zero) true)
  | 0x18 => some (cuRow .alu tSigned .val .none .none (.zero) true)
  | 0x19 => some (cuRow .alu tInt .val .val .none (.zero) true)
  | 0x1A => some (cuRow .alu tInt .val .val .none (.zero) true)
  | 0x1B => some (cuRow .alu tInt .val .val .none (.upTo 5) true)
  | 0x20 => some (cuRow .alu tLogic .val .val .none (.zero) true)
  | 0x21 => some (cuRow .alu tLogic .val .val .none (.zero) true)
  | 0x22 => some (cuRow .alu tLogic .val .val .none (.zero) true)
  | 0x23 => some (cuRow .alu tLogic .val .none .none (.zero) true)
  | 0x24 => some (cuRow .alu tInt .val .u64 .none (.zero) true)
  | 0x25 => some (cuRow .alu tInt .val .u64 .none (.zero) true)
  | 0x26 => some (cuRow .alu tInt .val .u64 .none (.zero) true)
  | 0x27 => some (cuRow .alu tInt .val .none .none (.zero) true)
  | 0x28 => some (cuRow .alu tInt .val .none .none (.zero) true)
  | 0x29 => some (cuRow .alu tInt .val .none .none (.zero) true)
  | 0x2A => some (cuRow .alu tInt .val .u64 .none (.zero) true)
  | 0x2B => some (cuRow .alu tInt .val .val .u64 (.zero) true)
  | 0x2C => some (cuRow .alu [1] .val .val .val (.zero) true)
  | 0x40 => some (cuRow .fpu tFlt .val .val .none (.zero) true)
  | 0x41 => some (cuRow .fpu tFlt .val .val .none (.zero) true)
  | 0x42 => some (cuRow .fpu tFlt .val .val .none (.zero) true)
  | 0x43 => some (cuRow .fpu tFlt .val .val .val (.zero) true)
  | 0x44 => some (cuRow .fpu tFlt .val .val .none (.zero) true)
  | 0x45 => some (cuRow .fpu tFlt .val .val .none (.zero) true)
  | 0x46 => some (cuRow .fpu tFlt .val .none .none (.zero) true)
  | 0x47 => some (cuRow .fpu tFlt .val .none .none (.zero) true)
  | 0x48 => some (cuRow .fpu [4, 5] .val .val .none (.zero) true)
  | 0x49 => some (cuRow .fpu [4, 5] .val .none .none (.zero) true)
  | 0x4A => some (cuRow .fpu [4] .val .none .none (.zero) true)
  | 0x4B => some (cuRow .fpu [4] .val .none .none (.zero) true)
  | 0x4C => some (cuRow .fpu [4] .val .none .none (.zero) true)
  | 0x4D => some (cuRow .fpu [4] .val .none .none (.zero) true)
  | 0x4E => some (cuRow .fpu tFlt .val .val .none (.upTo 7) true)
  | 0x4F => some (cuRow .fpu tFlt .val .none .none (.zero) true)
  | 0x50 => some (cuRow .fpu tFlt .src .none .none (.srcFlt) true)
  | 0x51 => some (cuRow .fpu tInt .src .none .none (.cvti) true)
  | 0x52 => some (cuRow .fpu tFlt .src .none .none (.srcInt) true)
  | 0x53 => some (cuRow .fpu tFlt .val .none .none (.upTo 4) true)
  | 0x54 => some (cuRow .fpu tFlt .val .val .none (.zero) true)
  | 0x60 => some (cuRow .fpu tAtom .slots .none .legend (.zero) true)
  | 0x61 => some (cuRow .fpu tAtom .val .none .legend (.zero) false)
  | 0x62 => some (cuRow .fpu tAtom .val .val .legend (.zero) true)
  | 0x63 => some (cuRow .fpu tAtom .val .val .legend (.zero) true)
  | 0x64 => some (cuRow .fpu tAtom .val .val .legend (.zero) true)
  | 0x65 => some (cuRow .fpu tAtom .val .f32 .legend (.zero) true)
  | 0x66 => some (cuRow .fpu tAtom .val .none .legend (.zero) true)
  | 0x67 => some (cuRow .fpu tAtom .val .u64 .legend (.zero) true)
  | 0x68 => some (cuRow .fpu tAtom .val .val .legend (.zero) true)
  | 0x69 => some (cuRow .fpu tAtom .val .none .legend (.zero) true)
  | 0x6A => some (cuRow .fpu tAtom .val .none .legend (.zero) true)
  | 0x6B => some (cuRow .fpu tAtom .val .none .legend (.zero) true)
  | 0x6C => some (cuRow .fpu tAtom .val .u64 .legend (.zero) true)
  | 0x6D => some (cuRow .fpu tAtom .val .legend .legend (.dstAtom) true)
  | 0x6E => some (cuRow .fpu tAtom .val .none .legend (.zero) true)
  | _ => none

/-- The format of a memory, engine or system opcode (R111, R229 and the entries of the ENG nodes); none for an
opcode the MU map does not hold. An entry that fixes IMM at 0 is taken to leave no room for an imm16, so that 0xF0 in an
operand field is refused there; 22_launch_scheduling says so of its five only (R305, R341, R374,
R445; DESIGN CHOICE, log 54). -/
def muFmt (opc : Nat) : Option Fmt :=
  match opc with
  | 0x01 => some ⟨.mem, false, tMem, .addr, .none, .dep, .zero, true, [0, 1, 2, 3], [0], true, true, .lit⟩
  | 0x02 => some ⟨.mem, false, tMem, .addr, .val, .dep, .zero, false, [0, 1, 2], [0], true, true, .lit⟩
  | 0x03 => some ⟨.mem, false, [3], .addr, .none, .none, .zero, true, [0, 1, 2, 3], [0], false, true, .lit⟩
  | 0x04 => some ⟨.mem, false, [0], .addr, .none, .none, .zero, false, [0, 3], [0], true, true, .lit⟩
  | 0x08 => some ⟨.mem, true, tInt, .addr, .val, .dep, .zero, true, [0, 1, 2], [1, 2, 3, 4], false, true, .lit⟩
  | 0x09 => some ⟨.mem, true, [4, 5], .addr, .val, .dep, .zero, true, [0, 1, 2], [1, 2, 3, 4], false, true, .lit⟩
  | 0x0A => some ⟨.mem, true, tInt, .addr, .val, .dep, .zero, true, [0, 1, 2], [1, 2, 3, 4], false, true, .lit⟩
  | 0x0B => some ⟨.mem, true, tInt, .addr, .val, .dep, .zero, true, [0, 1, 2], [1, 2, 3, 4], false, true, .lit⟩
  | 0x0C => some ⟨.mem, true, tInt, .addr, .val, .dep, .zero, true, [0, 1, 2], [1, 2, 3, 4], false, true, .lit⟩
  | 0x0D => some ⟨.mem, true, tInt, .addr, .val, .dep, .zero, true, [0, 1, 2], [1, 2, 3, 4], false, true, .lit⟩
  | 0x0E => some ⟨.mem, true, tInt, .addr, .val, .dep, .zero, true, [0, 1, 2], [1, 2, 3, 4], false, true, .lit⟩
  | 0x0F => some ⟨.mem, true, tNum, .addr, .val, .dep, .zero, true, [0, 1, 2], [1, 2, 3, 4], false, true, .lit⟩
  | 0x10 => some ⟨.mem, true, tInt, .addr, .val, .val, .zero, true, [0, 1, 2], [1, 2, 3, 4], false, true, .lit⟩
  | 0x11 => some ⟨.mem, true, tNum, .addr, .none, .dep, .zero, true, [0, 1, 2], [1, 2, 3, 4], false, true, .lit⟩
  | 0x12 => some ⟨.mem, true, tNum, .addr, .val, .dep, .zero, true, [0, 1, 2], [1, 2, 3, 4], false, true, .lit⟩
  | 0x18 => some ⟨.mem, true, [3], .addr, .val, .dep, .zero, true, [4], [0], false, false, .lit⟩
  | 0x19 => some ⟨.mem, true, [3], .addr, .none, .dep, .zero, true, [4], [0], false, false, .lit⟩
  | 0x20 => some ⟨.mem, false, tAdj, .addr, .none, .dep, .zero, true, [5], [0], false, false, .lit⟩
  | 0x21 => some ⟨.mem, false, tAdj, .addr, .val, .dep, .zero, false, [5], [0], false, false, .lit⟩
  | 0x22 => some ⟨.mem, true, tAdj, .addr, .val, .dep, .zero, true, [5], [0], false, false, .lit⟩
  | 0x23 => some ⟨.mem, false, tAdj, .addr, .none, .dep, .zero, true, [5], [0], false, false, .lit⟩
  | 0x28 => some ⟨.mem, true, [3], .addr, .val, .dep, .zero, true, [0], [3], false, false, .lit⟩
  | 0x29 => some ⟨.mem, true, [3], .addr, .none, .dep, .zero, true, [0], [3], false, false, .lit⟩
  | 0x2A => some ⟨.mem, true, [3], .addr, .none, .dep, .zero, true, [0], [3], false, false, .lit⟩
  | 0x40 => some ⟨.eng, true, [0], .addr, .dep, .dep, .zero, true, [1], [0], true, false, .none⟩
  | 0x41 => some ⟨.eng, true, [0], .addr, .dep, .dep, .zero, true, [1], [0], true, false, .none⟩
  | 0x42 => some ⟨.eng, true, [0], .addr, .dep, .dep, .zero, true, [1], [0], true, false, .none⟩
  | 0x43 => some ⟨.eng, true, [0], .addr, .dep, .dep, .zero, true, [1], [0], true, false, .none⟩
  | 0x44 => some ⟨.eng, true, [0], .addr, .dep, .dep, .zero, true, [1], [0], true, false, .none⟩
  | 0x45 => some ⟨.eng, true, [0], .addr, .dep, .dep, .zero, true, [1], [0], true, false, .none⟩
  | 0x46 => some ⟨.eng, true, [0], .addr, .dep, .dep, .zero, true, [1], [0], true, false, .none⟩
  | 0x47 => some ⟨.eng, true, [0], .addr, .dep, .dep, .zero, true, [1], [0], true, false, .none⟩
  | 0x50 => some ⟨.eng, true, tAdj, .addr, .dep, .dep, .ct, true, [1], [0], false, false, .none⟩
  | 0x51 => some ⟨.eng, true, tAtom, .addr, .dep, .dep, .zero, true, [1], [0], false, false, .none⟩
  | 0x52 => some ⟨.eng, true, [0], .addr, .dep, .dep, .zero, true, [1], [0], false, false, .none⟩
  | 0x53 => some ⟨.eng, true, [0], .addr, .dep, .dep, .zero, true, [1], [0], false, false, .none⟩
  | 0x54 => some ⟨.eng, true, [0], .addr, .dep, .dep, .zero, true, [1], [0], true, false, .none⟩
  | 0x55 => some ⟨.eng, true, [0], .addr, .dep, .dep, .zero, true, [1], [0], false, false, .none⟩
  | 0x56 => some ⟨.eng, true, [0], .addr, .dep, .dep, .zero, true, [1], [0], false, false, .none⟩
  | 0x57 => some ⟨.eng, true, [0], .addr, .dep, .dep, .zero, true, [1], [0], false, false, .none⟩
  | 0x58 => some ⟨.eng, true, [0], .addr, .dep, .dep, .zero, true, [1], [0], true, false, .none⟩
  | 0x59 => some ⟨.eng, true, [0], .addr, .u64, .dep, .zero, true, [0, 1], [0], false, false, .lit⟩
  | 0x5A => some ⟨.eng, true, [0], .addr, .dep, .dep, .zero, true, [1], [0], true, false, .none⟩
  | 0x5B => some ⟨.eng, true, [0], .addr, .dep, .dep, .zero, true, [1], [0], false, false, .none⟩
  | 0x5C => some ⟨.eng, true, [0], .addr, .dep, .dep, .zero, true, [1], [0], false, false, .none⟩
  | 0x60 => some ⟨.eng, true, [0], .addr, .dep, .dep, .upTo 1, true, [1], [0], true, false, .none⟩
  | 0x61 => some ⟨.eng, true, [0], .addr, .dep, .dep, .zero, true, [1], [0], true, false, .none⟩
  | 0x62 => some ⟨.eng, true, [0], .addr, .dep, .dep, .zero, true, [1], [0], true, false, .none⟩
  | 0x63 => some ⟨.eng, true, [0], .addr, .dep, .dep, .zero, true, [1], [0], true, false, .none⟩
  | 0x64 => some ⟨.eng, true, [0], .addr, .dep, .dep, .zero, true, [1], [0], true, false, .none⟩
  | 0x65 => some ⟨.eng, true, [0], .addr, .dep, .dep, .zero, true, [1], [0], true, false, .none⟩
  | 0x68 => some ⟨.eng, true, [7], .f32, .f32, .addr, .zero, true, [1], [0], false, false, .lit⟩
  | 0x69 => some ⟨.eng, true, [0], .addr, .dep, .dep, .zero, true, [1], [0], false, false, .none⟩
  | 0x6A => some ⟨.eng, true, [0], .addr, .dep, .dep, .zero, true, [1], [0], false, false, .none⟩
  | 0x70 => some ⟨.eng, true, [0], .u64, .u64, .dep, .zero, true, [0], [0], false, false, .patch⟩
  | 0x71 => some ⟨.eng, true, [0], .u64, .dep, .dep, .zero, true, [0], [0], false, false, .none⟩
  | 0x72 => some ⟨.eng, true, [0], .addr, .u64, .u64, .upTo 3, true, [0], [0], false, false, .none⟩
  | 0x73 => some ⟨.eng, true, [0], .u64, .dep, .dep, .zero, true, [0], [0], false, false, .none⟩
  | 0x74 => some ⟨.eng, true, [0], .u64, .u64, .dep, .zero, true, [0], [0], false, false, .none⟩
  | 0x80 => some ⟨.eng, true, [0], .addr, .dep, .dep, .zero, true, [1], [0], true, false, .none⟩
  | 0x81 => some ⟨.eng, true, [0], .addr, .dep, .dep, .zero, true, [1], [0], true, false, .none⟩
  | 0x82 => some ⟨.eng, true, [0], .addr, .dep, .dep, .zero, true, [1], [0], true, false, .none⟩
  | 0x83 => some ⟨.eng, true, [0], .addr, .dep, .dep, .zero, true, [1], [0], true, false, .none⟩
  | 0x84 => some ⟨.eng, true, [0], .addr, .dep, .dep, .zero, true, [1], [0], true, false, .none⟩
  | 0x85 => some ⟨.eng, true, [0], .addr, .dep, .dep, .zero, true, [1], [0], true, false, .none⟩
  | 0x86 => some ⟨.eng, true, [0], .addr, .dep, .dep, .zero, true, [1], [0], true, false, .none⟩
  | 0xC0 => some ⟨.mem, false, [3], .dep, .none, .none, .zero, true, [0], [1, 2, 3, 4], false, false, .lit⟩
  | 0xC1 => some ⟨.mem, false, [3], .dep, .none, .none, .zero, true, [0], [1, 2, 3, 4], false, false, .lit⟩
  | 0xC2 => some ⟨.mem, true, [3], .u64, .u64, .block, .zero, true, [0], [0], false, false, .lit⟩
  | 0xC3 => some ⟨.mem, false, [3], .dep, .none, .none, .zero, true, [0], [0], false, false, .reg⟩
  | 0xC4 => some ⟨.mem, true, [3], .u64, .dep, .none, .zero, true, [0], [0], false, false, .reg⟩
  | _ => none

/-- The compute instruction of an opcode and the fields of its word (R109). -/
def cuMake (opc : Nat) (w : CU) : Option Instr :=
  match opc with
  | 0x01 => some (.mov w)
  | 0x02 => some (.cvt w)
  | 0x03 => some (.sel w)
  | 0x04 => some (.steer w)
  | 0x05 => some (.merge w)
  | 0x10 => some (.add w)
  | 0x11 => some (.sub w)
  | 0x12 => some (.mul w)
  | 0x13 => some (.mulhi w)
  | 0x14 => some (.mad w)
  | 0x15 => some (.div w)
  | 0x16 => some (.rem w)
  | 0x17 => some (.iabs w)
  | 0x18 => some (.ineg w)
  | 0x19 => some (.imin w)
  | 0x1A => some (.imax w)
  | 0x1B => some (.cmp w)
  | 0x20 => some (.iand w)
  | 0x21 => some (.ior w)
  | 0x22 => some (.ixor w)
  | 0x23 => some (.inot w)
  | 0x24 => some (.shl w)
  | 0x25 => some (.shr w)
  | 0x26 => some (.sar w)
  | 0x27 => some (.clz w)
  | 0x28 => some (.popc w)
  | 0x29 => some (.brev w)
  | 0x2A => some (.bfx w)
  | 0x2B => some (.bfi w)
  | 0x2C => some (.rng w)
  | 0x40 => some (.fadd w)
  | 0x41 => some (.fsub w)
  | 0x42 => some (.fmul w)
  | 0x43 => some (.fma w)
  | 0x44 => some (.fmin w)
  | 0x45 => some (.fmax w)
  | 0x46 => some (.fabs w)
  | 0x47 => some (.fneg w)
  | 0x48 => some (.fdiv w)
  | 0x49 => some (.fsqrt w)
  | 0x4A => some (.frcpSeed w)
  | 0x4B => some (.frsqrtSeed w)
  | 0x4C => some (.fex2 w)
  | 0x4D => some (.flg2 w)
  | 0x4E => some (.fcmp w)
  | 0x4F => some (.fclass w)
  | 0x50 => some (.fcvt w)
  | 0x51 => some (.fcvti w)
  | 0x52 => some (.icvtf w)
  | 0x53 => some (.fround w)
  | 0x54 => some (.fcopysign w)
  | 0x60 => some (.paEnc w)
  | 0x61 => some (.paDec w)
  | 0x62 => some (.paAdd w)
  | 0x63 => some (.paSub w)
  | 0x64 => some (.paMul w)
  | 0x65 => some (.paScale w)
  | 0x66 => some (.paRelu w)
  | 0x67 => some (.paMask w)
  | 0x68 => some (.paDot w)
  | 0x69 => some (.paNrm w)
  | 0x6A => some (.paSum w)
  | 0x6B => some (.paMax w)
  | 0x6C => some (.paGet w)
  | 0x6D => some (.paCvt w)
  | 0x6E => some (.paGain w)
  | _ => none

/-- The memory, engine or system instruction of an opcode and the fields of its word (R111). Rows of the opcode
table that share one word (a command, a KIND or a descriptor field in memory tells them apart) answer the first
of them; see resolve in Machine/Node.lean. -/
def muMake (opc : Nat) (w : MU) : Option Instr :=
  match opc with
  | 0x01 => some (.ld w)
  | 0x02 => some (.st w)
  | 0x03 => some (.lea w)
  | 0x04 => some (.pref w)
  | 0x08 => some (.rmwAdd w)
  | 0x09 => some (.rmwFadd w)
  | 0x0A => some (.rmwMin w)
  | 0x0B => some (.rmwMax w)
  | 0x0C => some (.rmwAnd w)
  | 0x0D => some (.rmwOr w)
  | 0x0E => some (.rmwXor w)
  | 0x0F => some (.rmwXchg w)
  | 0x10 => some (.rmwCas w)
  | 0x11 => some (.rmwLd w)
  | 0x12 => some (.rmwSt w)
  | 0x18 => some (.chs w)
  | 0x19 => some (.chr w)
  | 0x20 => some (.adjLd w)
  | 0x21 => some (.adjSt w)
  | 0x22 => some (.adjAcc w)
  | 0x23 => some (.adjRc w)
  | 0x28 => some (.dqPush w)
  | 0x29 => some (.dqPop w)
  | 0x2A => some (.dqSteal w)
  | 0x40 => some (.cp w)
  | 0x41 => some (.cpTBox w)
  | 0x42 => some (.cpG w)
  | 0x43 => some (.cpS w)
  | 0x44 => some (.cpQ w)
  | 0x45 => some (.cpZ w)
  | 0x46 => some (.cpX w)
  | 0x47 => some (.cpCancel w)
  | 0x50 => some (.mma w)
  | 0x51 => some (.mmaSp w)
  | 0x52 => some (.accZero w)
  | 0x53 => some (.accLd w)
  | 0x54 => some (.accSt w)
  | 0x55 => some (.accRed w)
  | 0x56 => some (.ctFill w)
  | 0x57 => some (.ctFlush w)
  | 0x58 => some (.wupd w)
  | 0x59 => some (.mxPost w)
  | 0x5A => some (.accDrain w)
  | 0x5B => some (.accFill w)
  | 0x5C => some (.mxTestRun w)
  | 0x60 => some (if w.mod = 1 then .attnGoResume w else .attnGo w)
  | 0x61 => some (.attnPlan w)
  | 0x62 => some (.kvMap w)
  | 0x63 => some (.kvFork w)
  | 0x64 => some (.kvTrunc w)
  | 0x65 => some (.attnSave w)
  | 0x68 => some (.confTest w)
  | 0x69 => some (.fillReq w)
  | 0x6A => some (.fillSync w)
  | 0x70 => some (.lrPatch w)
  | 0x71 => some (.lrArm w)
  | 0x72 => some (.lrBind w)
  | 0x73 => some (.lrUnbind w)
  | 0x74 => some (.qPrio w)
  | 0x80 => some (.clPut w)
  | 0x81 => some (.clGet w)
  | 0x82 => some (.clRed w)
  | 0x83 => some (.clRedq w)
  | 0x84 => some (.clA2a w)
  | 0x85 => some (.clBar w)
  | 0x86 => some (.clRing w)
  | 0xC0 => some (.pub w)
  | 0xC1 => some (.refresh w)
  | 0xC2 => some (.thCtlResume w)
  | 0xC3 => some (.rdsr w)
  | 0xC4 => some (match w.imm.toNat with
    | 0x030 => .tapebaseWrite w
    | 0x031 => .tapelimitWrite w
    | 0x042 => .xlinvPage w
    | 0x060 => .xrimgLoad w
    | 0x080 => .mcswinLoad w
    | _ => .wrsr w)
  | _ => none

/-- The exit of a kind and the fields of its word (R107). -/
def exMake (kind : Nat) (w : EX) : Option Instr :=
  match kind with
  | 0x01 => some (.exitBr w)
  | 0x02 => some (.exitCbr w)
  | 0x03 => some (.exitInd w)
  | 0x04 => some (.exitSw w)
  | 0x05 => some (.exitRetire w)
  | 0x06 => some (.exitTrap w)
  | 0x08 => some (.exitBar w)
  | 0x09 => some (.exitWait w)
  | 0x0A => some (.exitPhase w)
  | 0x0C => some (.exitDfwd w)
  | 0x0D => some (.exitDrev w)
  | _ => none

/-- The fields an exit kind uses, and its scopes (R107). -/
def exFmt (kind : Nat) : Option ExFmt :=
  match kind with
  | 0x01 => some ⟨false, false, false, true, false, false, [], false, false⟩
  | 0x02 => some ⟨true, false, false, true, true, false, [], false, false⟩
  | 0x03 => some ⟨true, false, false, false, false, false, [], false, false⟩
  | 0x04 => some ⟨true, false, false, false, true, false, [], false, false⟩
  | 0x05 => some ⟨false, false, false, false, false, false, [], false, false⟩
  | 0x06 => some ⟨false, false, false, false, false, false, [], false, true⟩
  | 0x08 => some ⟨false, false, true, true, false, true, [1, 2, 3], false, false⟩
  | 0x09 => some ⟨true, true, true, true, false, true, [1, 2, 3, 4], true, false⟩
  | 0x0A => some ⟨false, false, true, true, false, true, [1, 2, 3, 4], false, false⟩
  | 0x0C => some ⟨false, false, false, true, true, false, [], false, false⟩
  | 0x0D => some ⟨false, false, false, false, false, false, [], false, false⟩
  | _ => none

/-- What an instruction's word is: the unit it stands in, its opcode, and its fields. An event has no word. -/
inductive WordOf where
  | cu (opc : Nat) (w : CU)
  | mu (opc : Nat) (w : MU)
  | ex (kind : Nat) (w : EX)
  | mw (mop : Nat) (w : MW)
  | raw (w : BitVec 96)
  | event
  deriving DecidableEq, Repr

/-- The word of an instruction. -/
def wordOf : Instr → WordOf
  | .mov w => .cu 0x01 w
  | .cvt w => .cu 0x02 w
  | .sel w => .cu 0x03 w
  | .steer w => .cu 0x04 w
  | .merge w => .cu 0x05 w
  | .add w => .cu 0x10 w
  | .sub w => .cu 0x11 w
  | .mul w => .cu 0x12 w
  | .mulhi w => .cu 0x13 w
  | .mad w => .cu 0x14 w
  | .div w => .cu 0x15 w
  | .rem w => .cu 0x16 w
  | .iabs w => .cu 0x17 w
  | .ineg w => .cu 0x18 w
  | .imin w => .cu 0x19 w
  | .imax w => .cu 0x1A w
  | .cmp w => .cu 0x1B w
  | .iand w => .cu 0x20 w
  | .ior w => .cu 0x21 w
  | .ixor w => .cu 0x22 w
  | .inot w => .cu 0x23 w
  | .shl w => .cu 0x24 w
  | .shr w => .cu 0x25 w
  | .sar w => .cu 0x26 w
  | .clz w => .cu 0x27 w
  | .popc w => .cu 0x28 w
  | .brev w => .cu 0x29 w
  | .bfx w => .cu 0x2A w
  | .bfi w => .cu 0x2B w
  | .rng w => .cu 0x2C w
  | .fadd w => .cu 0x40 w
  | .fsub w => .cu 0x41 w
  | .fmul w => .cu 0x42 w
  | .fma w => .cu 0x43 w
  | .fmin w => .cu 0x44 w
  | .fmax w => .cu 0x45 w
  | .fabs w => .cu 0x46 w
  | .fneg w => .cu 0x47 w
  | .fcopysign w => .cu 0x54 w
  | .fdiv w => .cu 0x48 w
  | .fsqrt w => .cu 0x49 w
  | .frcpSeed w => .cu 0x4A w
  | .frsqrtSeed w => .cu 0x4B w
  | .fex2 w => .cu 0x4C w
  | .flg2 w => .cu 0x4D w
  | .fcmp w => .cu 0x4E w
  | .fclass w => .cu 0x4F w
  | .fcvt w => .cu 0x50 w
  | .icvtf w => .cu 0x52 w
  | .fcvti w => .cu 0x51 w
  | .fround w => .cu 0x53 w
  | .paEnc w => .cu 0x60 w
  | .paDec w => .cu 0x61 w
  | .paAdd w => .cu 0x62 w
  | .paSub w => .cu 0x63 w
  | .paMul w => .cu 0x64 w
  | .paScale w => .cu 0x65 w
  | .paRelu w => .cu 0x66 w
  | .paMask w => .cu 0x67 w
  | .paDot w => .cu 0x68 w
  | .paNrm w => .cu 0x69 w
  | .paSum w => .cu 0x6A w
  | .paMax w => .cu 0x6B w
  | .paGet w => .cu 0x6C w
  | .paCvt w => .cu 0x6D w
  | .paGain w => .cu 0x6E w
  | .ld w => .mu 0x01 w
  | .st w => .mu 0x02 w
  | .lea w => .mu 0x03 w
  | .pref w => .mu 0x04 w
  | .rmwAdd w => .mu 0x08 w
  | .rmwFadd w => .mu 0x09 w
  | .rmwMin w => .mu 0x0A w
  | .rmwMax w => .mu 0x0B w
  | .rmwAnd w => .mu 0x0C w
  | .rmwOr w => .mu 0x0D w
  | .rmwXor w => .mu 0x0E w
  | .rmwXchg w => .mu 0x0F w
  | .rmwCas w => .mu 0x10 w
  | .rmwLd w => .mu 0x11 w
  | .rmwSt w => .mu 0x12 w
  | .chs w => .mu 0x18 w
  | .chr w => .mu 0x19 w
  | .adjLd w => .mu 0x20 w
  | .adjSt w => .mu 0x21 w
  | .adjAcc w => .mu 0x22 w
  | .adjRc w => .mu 0x23 w
  | .dqPush w => .mu 0x28 w
  | .dqPop w => .mu 0x29 w
  | .dqSteal w => .mu 0x2A w
  | .pub w => .mu 0xC0 w
  | .refresh w => .mu 0xC1 w
  | .thCtlResume w => .mu 0xC2 w
  | .thCtlRestart w => .mu 0xC2 w
  | .rdsr w => .mu 0xC3 w
  | .wrsr w => .mu 0xC4 w
  | .xlinvPage w => .mu 0xC4 w
  | .xlinvAsid w => .mu 0xC4 w
  | .xlinvAll w => .mu 0xC4 w
  | .tapebaseWrite w => .mu 0xC4 w
  | .tapelimitWrite w => .mu 0xC4 w
  | .mcswinLoad w => .mu 0xC4 w
  | .xrimgLoad w => .mu 0xC4 w
  | .exitBr w => .ex 0x01 w
  | .exitCbr w => .ex 0x02 w
  | .exitInd w => .ex 0x03 w
  | .exitSw w => .ex 0x04 w
  | .exitRetire w => .ex 0x05 w
  | .exitTrap w => .ex 0x06 w
  | .exitBar w => .ex 0x08 w
  | .exitWait w => .ex 0x09 w
  | .exitPhase w => .ex 0x0A w
  | .exitDfwd w => .ex 0x0C w
  | .exitDrev w => .ex 0x0D w
  | .cp w => .mu 0x40 w
  | .cpTBox w => .mu 0x41 w
  | .cpTWindow w => .mu 0x41 w
  | .cpG w => .mu 0x42 w
  | .cpS w => .mu 0x43 w
  | .cpQ w => .mu 0x44 w
  | .cpZ w => .mu 0x45 w
  | .cpX w => .mu 0x46 w
  | .cpCancel w => .mu 0x47 w
  | .mma w => .mu 0x50 w
  | .mmaSp w => .mu 0x51 w
  | .accZero w => .mu 0x52 w
  | .accLd w => .mu 0x53 w
  | .accSt w => .mu 0x54 w
  | .accRed w => .mu 0x55 w
  | .ctFill w => .mu 0x56 w
  | .ctFlush w => .mu 0x57 w
  | .wupd w => .mu 0x58 w
  | .mxPost w => .mu 0x59 w
  | .accDrain w => .mu 0x5A w
  | .accFill w => .mu 0x5B w
  | .mxTestRun w => .mu 0x5C w
  | .mxTestUnfence w => .mu 0x5C w
  | .attnGo w => .mu 0x60 w
  | .attnGoResume w => .mu 0x60 w
  | .attnGoSkip w => .mu 0x60 w
  | .attnGoAbandon w => .mu 0x60 w
  | .attnPlan w => .mu 0x61 w
  | .kvMap w => .mu 0x62 w
  | .kvFork w => .mu 0x63 w
  | .kvTrunc w => .mu 0x64 w
  | .attnSave w => .mu 0x65 w
  | .attnSaveLoad w => .mu 0x65 w
  | .mli w => .mw 0x01 w
  | .madd w => .mw 0x02 w
  | .msub w => .mw 0x03 w
  | .mmul w => .mw 0x04 w
  | .mand w => .mw 0x05 w
  | .mshl w => .mw 0x06 w
  | .mshr w => .mw 0x07 w
  | .mld w => .mw 0x08 w
  | .mst w => .mw 0x09 w
  | .mbr w => .mw 0x0A w
  | .mloop w => .mw 0x0B w
  | .mloopLd w => .mw 0x0B w
  | .kvx w => .mw 0x0C w
  | .mgat w => .mw 0x0D w
  | .mwait w => .mw 0x0E w
  | .mwaitCond w => .mw 0x0E w
  | .mmma w => .mw 0x0F w
  | .mexuMax w => .mw 0x10 w
  | .mexuExp w => .mw 0x10 w
  | .mexuSum w => .mw 0x10 w
  | .mexuScale w => .mw 0x10 w
  | .maccMerge w => .mw 0x11 w
  | .maccExport w => .mw 0x11 w
  | .maccFinal w => .mw 0x11 w
  | .mpost w => .mw 0x12 w
  | .mhalt w => .mw 0x13 w
  | .mtrap w => .mw 0x14 w
  | .mnop w => .mw 0x15 w
  | .confTest w => .mu 0x68 w
  | .fillReq w => .mu 0x69 w
  | .fillSync w => .mu 0x6A w
  | .lrPatch w => .mu 0x70 w
  | .lrArm w => .mu 0x71 w
  | .lrBind w => .mu 0x72 w
  | .lrUnbind w => .mu 0x73 w
  | .qPrio w => .mu 0x74 w
  | .clPut w => .mu 0x80 w
  | .clGet w => .mu 0x81 w
  | .clRed w => .mu 0x82 w
  | .clRedq w => .mu 0x83 w
  | .clA2a w => .mu 0x84 w
  | .clBar w => .mu 0x85 w
  | .clRing w => .mu 0x86 w
  | .illegalMicroword w => .raw w
  | .copyComplete _ _ => .event
  | .accRedStart _ => .event
  | .accRedTimeout _ => .event
  | .matrixCmdExecute _ => .event
  | .mxSelfTest _ _ _ => .event
  | .jobStart _ => .event
  | .gatherComplete _ _ => .event
  | .mwaitRelease _ => .event
  | .mwaitTimeout _ => .event
  | .fillBatchForm _ => .event
  | .fillBatchResolve _ => .event
  | .triggerTest _ => .event
  | .headPromote _ => .event
  | .launchComplete _ => .event
  | .coreShareEnd _ => .event
  | .clBarTimeout _ => .event
  | .ringFailureDetect _ => .event
  | .ringAbortReceive _ => .event
  | .linkPacketReceive _ => .event
  | .linkOpComplete _ => .event
  | .passSelect _ => .event
  | .shadowPredict _ => .event
  | .imageLoad _ => .event
  | .beatRetire _ => .event
  | .waitRelease _ _ => .event
  | .parkTimeout _ _ => .event
  | .phaseRelease _ => .event
  | .thCtlApply _ => .event
  | .translationWalkComplete _ _ => .event
  | .heldAccessRetry _ _ => .event
  | .heldAccessTimeout _ _ => .event
  | .faultReport _ => .event
  | .traverseCmdExtend _ => .event
  | .traverseCmdAbort _ => .event
  | .reverseSweepStart _ => .event
  | .sweepRecord _ => .event
  | .preemptRequest _ => .event
  | .passReturnAtPreempt _ => .event
  | .contextSave _ => .event
  | .contextRestore _ => .event
  | .hostCxlMemAccess _ _ => .event
  | .hostArm _ => .event
  | .hostRegWrite _ _ => .event
  | .ctxcmdResume _ => .event
  | .ctxcmdRestart _ => .event
  | .ctxcmdDiscard _ => .event
  | .dbgcmdHalt _ => .event
  | .dbgcmdWriteSlot _ => .event
  | .tableUnitExecute _ => .event
  | .flitCrcReplay _ => .event
  | .peerUnreachable _ => .event
  | .linkPacketDiscard _ => .event
  | .ucieModuleFail _ => .event
  | .powerCapAdjust _ _ => .event
  | .thermalThrottle _ => .event
  | .thermalGate _ => .event
  | .islandWrite _ _ => .event
  | .pcapWrite _ => .event
  | .intstatClear _ => .event
  | .attestRequest _ => .event
  | .featackWrite _ _ => .event
  | .bringupFailed _ => .event
  | .deviceReset _ _ => .event
  | .hostPageWaitPoll _ _ => .event
  | .eccError _ => .event
  | .dbgcmdReadSlot _ => .event
  | .dbgcmdStopJob _ => .event
  | .reducedToReady => .event
  | .selectHead => .event
  | .launchBind => .event
  | .queueSlotEvict => .event

/-! ## Checks that an instruction's word meets by itself

What depends on the rest of the image, on the launch or on the device (which nodes exist, the live width, the
constant count, DIFF, strict, features) is checked by the loader (Machine/Loader.lean). -/

/-- Why a word is no instruction (R94, R98 to R111, R114). -/
inductive Reject where
  /-- a slot of opcode 0 with every other bit 0: a hole, which is no node (R94) -/
  | hole
  /-- a slot of opcode 0 with another bit set (R94) -/
  | holeBits
  | opcode
  | type
  | modifier
  | space
  | scope
  | flags
  | ag
  | operandA
  | operandB
  | operandC
  | dest
  | off
  | imm
  | exitKind
  | exitField
  | status
  /-- the number of bits is that of no word -/
  | size
  deriving DecidableEq, Repr

/-- R110 and the entries: is MOD allowed with this TYPE? -/
def modOk (r : ModRule) (typ mod : Nat) : Bool :=
  match r with
  | .zero => mod == 0
  | .upTo n => mod ≤ n
  | .srcInt => mod ≤ 3
  | .srcFlt => (mod == 4 || mod == 5 || mod == 6) && mod != typ
  | .cvti => mod % 4 != 3
  | .dstAtom => (typ == 9 && mod == 10) || (typ == 10 && mod == 9)
  | .ct => mod == 0 || (mod == 1 && (typ == 4 || typ == 6))

/-- R79, R101, R219: may an operand field of this node hold 0xF0? No field of a pa8 or pa8h node may. -/
def immAllowed (r : ImmRule) (typ : Nat) : Bool :=
  r == .lit && typ != 9 && typ != 10

/-- R102, R103 and the entry: may a field of this role hold operand code v? -/
def operandOk (imm : ImmRule) (typ : Nat) (role : Role) (v : Nat) : Bool :=
  match role with
  | .none => v == 0xFF
  | .slots => 0x40 ≤ v && v < 0xC0 && v % 2 == 0
  | _ =>
    if v == 0xFF then role == .dep || role == .legend || role == .addr || role == .block
    else if v == 0xF0 then immAllowed imm typ
    else if v == 0xEF || 0xF0 < v then false
    else if 0xE0 ≤ v && role == .val && 4 ≤ typ && typ != 7 then v == 0xEB || (v == 0xEC && typ < 8)
    else true

/-- The system registers (R46, R129, R161, R258, R285, R337, R363, R379, R413, R420, R441, R478). -/
def regNums : List Nat :=
  [0x010, 0x011, 0x020, 0x030, 0x031, 0x032, 0x033, 0x040, 0x041, 0x042, 0x050, 0x051, 0x052, 0x060, 0x061, 0x070,
   0x071, 0x080, 0x081, 0x090, 0x091, 0x092, 0x0A0, 0x0A1, 0x0A2, 0x0A3, 0x0B0, 0x0B1, 0x0B2, 0x0C0, 0x0C1, 0x0C2,
   0x0C3]

/-- R101, R111: is IMM allowed, when usesImm says whether a field holds 0xF0? -/
def immOk (r : ImmRule) (usesImm : Bool) (imm : Nat) : Bool :=
  match r with
  | .lit => usesImm || imm == 0
  | .none => imm == 0
  | .reg => regNums.contains imm
  | .patch => imm < 32

/-- R98: DEST is a live slot or none, and none when the node has no result; pa.dec (opcode 0x61) names an even
slot (R223). -/
def destOk (isMu : Bool) (opc : Nat) (result : Bool) (v : Nat) : Bool :=
  if !isMu && opc == 0x61 then v < 0x80 && v % 2 == 0
  else v == 0xFF || (result && v < 0x80)

/-- The first defect of a compute word (R98 to R104, R109, R110), none for a well-formed one. -/
def cuDefect (opc : Nat) (w : CU) : Option Reject :=
  match cuFmt opc with
  | none => some .opcode
  | some f =>
    let t := w.typ.toNat
    let ok := operandOk f.imm t
    if !f.types.contains t then some .type
    else if !modOk f.mod t w.mod.toNat then some .modifier
    else if !ok f.a w.a.toNat then some .operandA
    else if !ok f.b w.b.toNat then some .operandB
    else if !ok f.c w.c.toNat then some .operandC
    else if !destOk false opc f.result w.dest.toNat then some .dest
    else if !immOk f.imm (w.a == 0xF0 || w.b == 0xF0 || w.c == 0xF0) w.imm.toNat then some .imm
    else none

/-- The scopes of rmw on the scratch spaces (R59, R238). -/
def rmwScopeOk (opc space scope : Nat) : Bool :=
  if 0x08 ≤ opc && opc ≤ 0x12 then
    !(space == 2 && scope == 1) && !((space == 1 || space == 2) && scope == 4)
  else true

/-- Does a role take part in an address, so that OFF is used? -/
def usesOff (f : Fmt) : Bool := f.a == .addr || f.c == .addr

/-- The first defect of a memory, engine or system word (R100 to R104, R111), none for a well-formed one; IMM of a
conf.test (opcode 0x68) serves its operands A and B only (R409). Bit 1 of FLAGS, .nd, is allowed on every node, also where
an entry says FLAGS 0 (R101, 22_launch_scheduling; DESIGN CHOICE, log 54). -/
def muDefect (opc : Nat) (w : MU) : Option Reject :=
  match muFmt opc with
  | none => some .opcode
  | some f =>
    let t := w.typ.toNat
    let ok := operandOk f.imm t
    if !f.types.contains t then some .type
    else if !modOk f.mod t w.mod.toNat then some .modifier
    else if !f.spaces.contains w.space.toNat then some .space
    else if !(f.scopes.contains w.scope.toNat && rmwScopeOk opc w.space.toNat w.scope.toNat) then some .scope
    else if 4 ≤ w.flags.toNat || (w.flags.toNat % 2 == 1 && !f.nt) then some .flags
    else if !(w.ag == 15 || f.ag) then some .ag
    else if !ok f.a w.a.toNat then some .operandA
    else if !ok f.b w.b.toNat then some .operandB
    else if !ok f.c w.c.toNat then some .operandC
    else if !destOk true opc f.result w.dest.toNat then some .dest
    else if !(usesOff f || w.off == 0) then some .off
    else if !immOk f.imm (w.a == 0xF0 || w.b == 0xF0 || (w.c == 0xF0 && opc != 0x68)) w.imm.toNat then some .imm
    else none

/-- R104, R106: an operand field of the exit word holds a node, slot, constant or special. -/
def exitOperandOk (used optional : Bool) (v : Nat) : Bool :=
  if used then v ≤ 0xEE || (optional && v == 0xFF) else v == 0xFF

/-- The first defect of an exit word (R106, R107, R195), none for a well-formed one. -/
def exDefect (kind : Nat) (w : EX) : Option Reject :=
  match exFmt kind with
  | none => some .exitKind
  | some f =>
    if !exitOperandOk f.a false w.a.toNat then some .operandA
    else if !exitOperandOk f.b false w.b.toNat then some .operandB
    else if !exitOperandOk f.c true w.c.toNat then some .operandC
    else if !(f.t || w.t == 0) || !(f.f || w.f == 0) then some .exitField
    else if !(w.status == 0xFF || (f.status && w.status.toNat < 0x80)) then some .status
    else if f.code then none
    else if f.scopes.isEmpty then (if w.mod == 0 then none else some .modifier)
    else if !f.scopes.contains (w.mod.toNat % 16) then some .scope
    else if w.mod.toNat / 16 ≤ (if f.wait then 3 else 0) then none
    else some .modifier

/-- R112, R113, R380: the microinstruction of a word, none for an illegal one (R114). A field that the
microinstruction does not use is 0; IMM60 bits that its entry leaves unused are 0. -/
def mwMake (mop : Nat) (w : MW) : Option Instr :=
  let noTarget := w.target == 0
  let noImm := w.imm == 0
  let c := w.cond.toNat
  let arith (i : Instr) : Option Instr :=
    if noTarget && ((c == 0 && noImm) || (c == 1 && w.b == 0)) then some i else none
  match mop with
  | 0x01 => if w.a == 0 && w.b == 0 && c == 0 && noTarget then some (.mli w) else none
  | 0x02 => arith (.madd w)
  | 0x03 => arith (.msub w)
  | 0x04 => arith (.mmul w)
  | 0x05 => arith (.mand w)
  | 0x06 => arith (.mshl w)
  | 0x07 => arith (.mshr w)
  | 0x08 => if w.b == 0 && c == 0 && noTarget then some (.mld w) else none
  | 0x09 => if w.b == 0 && c == 0 && noTarget then some (.mst w) else none
  | 0x0A => if w.d == 0 && w.a == 0 && w.b == 0 && c ≤ 6 && noImm then some (.mbr w) else none
  | 0x0B =>
    if w.d.toNat < 4 && w.b == 0 && noImm then
      (if c == 0 && w.a == 0 then some (.mloop w)
       else if c == 1 && noTarget then some (.mloopLd w) else none)
    else none
  | 0x0C => if c == 0 && noTarget && noImm then some (.kvx w) else none
  | 0x0D => if w.b == 0 && c == 0 && noTarget && w.imm.toNat < 2 ^ 55 then some (.mgat w) else none
  | 0x0E =>
    if w.b == 0 && noTarget then
      (if c == 0 then (if w.a == 0 && w.imm.toNat < 4 then some (.mwait w) else none)
       else if c ≤ 4 then some (.mwaitCond w) else none)
    else none
  | 0x0F =>
    if w.a == 0 && w.b == 0 && tAdj.contains c && noTarget && w.imm.toNat < 4 then some (.mmma w) else none
  | 0x10 =>
    if !noTarget then none
    else match c with
      | 0 => if w.imm.toNat < 2 ^ 22 then some (.mexuMax w) else none
      | 1 => if w.imm.toNat < 2 ^ 44 then some (.mexuExp w) else none
      | 2 => if w.b == 0 && w.imm.toNat < 2 ^ 44 && w.imm.toNat % 2 ^ 22 == 0 then some (.mexuSum w) else none
      | 3 => if w.b == 0 && noImm then some (.mexuScale w) else none
      | _ => none
  | 0x11 =>
    if !noTarget then none
    else match c with
      | 0 => if noImm then some (.maccMerge w) else none
      | 1 => if noImm then some (.maccExport w) else none
      | 2 => if w.imm.toNat < 2 then some (.maccFinal w) else none
      | _ => none
  | 0x12 => if w.b == 0 && c == 0 && noTarget && noImm then some (.mpost w) else none
  | 0x13 =>
    if w.d == 0 && w.a == 0 && w.b == 0 && c == 0 && noTarget && noImm then some (.mhalt w) else none
  | 0x14 =>
    if w.d == 0 && w.a == 0 && w.b == 0 && c == 0 && noTarget && w.imm.toNat < 2 ^ 32 then some (.mtrap w)
    else none
  | 0x15 =>
    if w.d == 0 && w.a == 0 && w.b == 0 && c == 0 && noTarget && noImm then some (.mnop w) else none
  | _ => none

end Sys2Proof.Machine
end

