-- ==== Sys2Proof/WellFormed.lean ====
section
/-! DEFINITION. Well-formed instructions: the encodings that the loader and Meridian accept for the word by itself
(04_encoding: R98 to R114). -/

namespace Sys2Proof

open Sys2Proof.Machine

/-- The first of the rows that share one word; every other instruction is its own. -/
def Instr.canonical : Instr → Instr
  | .thCtlRestart w => .thCtlResume w
  | .xlinvAsid w => .xlinvPage w
  | .xlinvAll w => .xlinvPage w
  | .cpTWindow w => .cpTBox w
  | .mxTestUnfence w => .mxTestRun w
  | .attnGoSkip w => .attnGoResume w
  | .attnGoAbandon w => .attnGoResume w
  | .attnSaveLoad w => .attnSave w
  | i => i

/-- Why a word is refused: none for the word of a well-formed instruction. -/
def Instr.defect (i : Instr) : Option Reject :=
  match wordOf i with
  | .cu opc w => cuDefect opc w
  | .mu opc w => if muMake opc w = some i.canonical then muDefect opc w else some .imm
  | .ex kind w => exDefect kind w
  | .mw mop w => if mwMake mop w = some i then none else some .opcode
  | .raw w =>
    let m : MW := { d := w.extractLsb' 84 4, a := w.extractLsb' 80 4, b := w.extractLsb' 76 4,
                    cond := w.extractLsb' 72 4, target := w.extractLsb' 60 12, imm := w.extractLsb' 0 60 }
    if (mwMake (w.toNat / 2 ^ 88) m).isNone then none else some .opcode
  | .event => none

/-- A well-formed instruction: its word, where it has one, is accepted. -/
def Instr.wf (i : Instr) : Bool := i.defect.isNone

end Sys2Proof
end

