-- ==== Sys2Proof/Decode.lean ====
section
/-! DEFINITION. Decoding of node words, exit words and microwords, total on every word and rejecting by name, and
after it the encoder (04_encoding: R98, R100, R106, R112). -/

namespace Sys2Proof

open Sys2Proof.Machine

/-- Where a word stands: a CU slot, an MU slot, the header's exit word, the control store. -/
inductive Slot where
  | cu | mu | exit | micro
  deriving DecidableEq, Repr

/-- How many bytes a word of the slot has. -/
def Slot.bytes : Slot → Nat
  | .cu => 8
  | .mu => 16
  | .exit => 8
  | .micro => 12

/-- The fields of a compute node word (R98). -/
def cuFields (w : Nat) : CU where
  typ := BitVec.ofNat 4 (w / 2 ^ 52)
  mod := BitVec.ofNat 4 (w / 2 ^ 48)
  a := BitVec.ofNat 8 (w / 2 ^ 40)
  b := BitVec.ofNat 8 (w / 2 ^ 32)
  c := BitVec.ofNat 8 (w / 2 ^ 24)
  dest := BitVec.ofNat 8 (w / 2 ^ 16)
  imm := BitVec.ofNat 16 w

/-- The fields of a memory, engine or system node word (R100). -/
def muFields (w : Nat) : MU where
  typ := BitVec.ofNat 4 (w / 2 ^ 116)
  mod := BitVec.ofNat 4 (w / 2 ^ 112)
  a := BitVec.ofNat 8 (w / 2 ^ 104)
  b := BitVec.ofNat 8 (w / 2 ^ 96)
  c := BitVec.ofNat 8 (w / 2 ^ 88)
  dest := BitVec.ofNat 8 (w / 2 ^ 80)
  space := BitVec.ofNat 4 (w / 2 ^ 76)
  scope := BitVec.ofNat 4 (w / 2 ^ 72)
  ag := BitVec.ofNat 4 (w / 2 ^ 68)
  flags := BitVec.ofNat 4 (w / 2 ^ 64)
  off := BitVec.ofNat 48 (w / 2 ^ 16)
  imm := BitVec.ofNat 16 w

/-- The fields of an exit word (R106). -/
def exFields (w : Nat) : EX where
  a := BitVec.ofNat 8 (w / 2 ^ 48)
  b := BitVec.ofNat 8 (w / 2 ^ 40)
  c := BitVec.ofNat 8 (w / 2 ^ 32)
  t := BitVec.ofNat 8 (w / 2 ^ 24)
  f := BitVec.ofNat 8 (w / 2 ^ 16)
  status := BitVec.ofNat 8 (w / 2 ^ 8)
  mod := BitVec.ofNat 8 w

/-- The fields of a microword (R112). -/
def mwFields (w : Nat) : MW where
  d := BitVec.ofNat 4 (w / 2 ^ 84)
  a := BitVec.ofNat 4 (w / 2 ^ 80)
  b := BitVec.ofNat 4 (w / 2 ^ 76)
  cond := BitVec.ofNat 4 (w / 2 ^ 72)
  target := BitVec.ofNat 12 (w / 2 ^ 60)
  imm := BitVec.ofNat 60 w

/-- Decodes a compute node word (R98, R109). -/
def decodeCU (w : Nat) : Except Reject Instr :=
  let opc := w / 2 ^ 56 % 256
  let f := cuFields w
  if opc = 0 then .error (if w % 2 ^ 64 = 0 then .hole else .holeBits)
  else match cuDefect opc f with
    | some r => .error r
    | none => match cuMake opc f with
      | some i => .ok i
      | none => .error .opcode

/-- Decodes a memory, engine or system node word (R100, R111). -/
def decodeMU (w : Nat) : Except Reject Instr :=
  let opc := w / 2 ^ 120 % 256
  let f := muFields w
  if opc = 0 then .error (if w % 2 ^ 128 = 0 then .hole else .holeBits)
  else match muDefect opc f with
    | some r => .error r
    | none => match muMake opc f with
      | some i => .ok i
      | none => .error .opcode

/-- Decodes an exit word (R106, R107). -/
def decodeExit (w : Nat) : Except Reject Instr :=
  let kind := w / 2 ^ 56 % 256
  let f := exFields w
  match exDefect kind f with
  | some r => .error r
  | none => match exMake kind f with
    | some i => .ok i
    | none => .error .exitKind

/-- Decodes a microword; one that R114 calls illegal is the illegal microword itself, which Meridian stops at. -/
def decodeMicro (w : Nat) : Instr :=
  match mwMake (w / 2 ^ 88 % 256) (mwFields w) with
  | some i => i
  | none => .illegalMicroword (BitVec.ofNat 96 w)

/-- Decodes the word of a slot. -/
def decode (s : Slot) (w : Nat) : Except Reject Instr :=
  match s with
  | .cu => decodeCU w
  | .mu => decodeMU w
  | .exit => decodeExit w
  | .micro => .ok (decodeMicro w)

/-- A little-endian number of a list of bytes (R4). -/
def leNat : List Byte → Nat
  | [] => 0
  | b :: bs => b.toNat + 256 * leNat bs

/-- Decodes the instruction at the front of a list of bytes, and gives the bytes behind it. -/
def decodeBytes (s : Slot) (bs : List Byte) : Except Reject (Instr × List Byte) :=
  if bs.length < s.bytes then .error .size
  else (decode s (leNat (bs.take s.bytes))).map fun i => (i, bs.drop s.bytes)

/-! ## The encoder -/

/-- The compute node word of an opcode and its fields (R98). -/
def packCU (opc : Nat) (w : CU) : Nat :=
  w.imm.toNat + 2 ^ 16 * (w.dest.toNat + 2 ^ 8 * (w.c.toNat + 2 ^ 8 * (w.b.toNat + 2 ^ 8 * (w.a.toNat
    + 2 ^ 8 * (w.mod.toNat + 2 ^ 4 * (w.typ.toNat + 2 ^ 4 * opc))))))

/-- The memory, engine or system node word of an opcode and its fields (R100). -/
def packMU (opc : Nat) (w : MU) : Nat :=
  w.imm.toNat + 2 ^ 16 * (w.off.toNat + 2 ^ 48 * (w.flags.toNat + 2 ^ 4 * (w.ag.toNat + 2 ^ 4 * (w.scope.toNat
    + 2 ^ 4 * (w.space.toNat + 2 ^ 4 * (w.dest.toNat + 2 ^ 8 * (w.c.toNat + 2 ^ 8 * (w.b.toNat
    + 2 ^ 8 * (w.a.toNat + 2 ^ 8 * (w.mod.toNat + 2 ^ 4 * (w.typ.toNat + 2 ^ 4 * opc)))))))))))

/-- The exit word of a kind and its fields (R106). -/
def packEX (kind : Nat) (w : EX) : Nat :=
  w.mod.toNat + 2 ^ 8 * (w.status.toNat + 2 ^ 8 * (w.f.toNat + 2 ^ 8 * (w.t.toNat + 2 ^ 8 * (w.c.toNat
    + 2 ^ 8 * (w.b.toNat + 2 ^ 8 * (w.a.toNat + 2 ^ 8 * kind))))))

/-- The microword of a micro-opcode and its fields (R112). -/
def packMW (mop : Nat) (w : MW) : Nat :=
  w.imm.toNat + 2 ^ 60 * (w.target.toNat + 2 ^ 12 * (w.cond.toNat + 2 ^ 4 * (w.b.toNat + 2 ^ 4 * (w.a.toNat
    + 2 ^ 4 * (w.d.toNat + 2 ^ 4 * mop)))))

/-- The slot and the word of an instruction; none for an event, which has no word. -/
def encode (i : Instr) : Option (Slot × Nat) :=
  match wordOf i with
  | .cu opc w => some (.cu, packCU opc w)
  | .mu opc w => some (.mu, packMU opc w)
  | .ex kind w => some (.exit, packEX kind w)
  | .mw mop w => some (.micro, packMW mop w)
  | .raw w => some (.micro, w.toNat)
  | .event => none

/-- The bytes of an instruction, as the hardware stores them (R4, R88, R91). -/
def encodeBytes (i : Instr) : List Byte :=
  match encode i with
  | some (s, w) => (List.range s.bytes).map fun k => BitVec.ofNat 8 (w / 256 ^ k)
  | none => []

/-! ## The host's question

spec/opcode_table.json gives its rows no bits. A word of at most 64 bits is read as a CU slot, of 96 bits as a
microword, of 128 bits as an MU slot, and of 256 bits as a header frame whose word 2 is the exit word (R92). -/

/-- The slot and the word that nbits bits stand for. -/
def tableSlot (nbits w : Nat) : Option (Slot × Nat) :=
  if nbits ≤ 64 then some (.cu, w)
  else if nbits ≤ 96 then some (.micro, w)
  else if nbits ≤ 128 then some (.mu, w)
  else if nbits ≤ 256 then some (.exit, w / 2 ^ 128 % 2 ^ 64)
  else none

/-- The instruction the decoder reads from an instruction whose bits are w. -/
def decodeTableWord (nbits w : Nat) : Option Instr :=
  match tableSlot nbits w with
  | none => none
  | some (s, v) => (decode s v).toOption

end Sys2Proof
end

