-- ==== Sys2Proof/Machine/Image.lean ====
section
/-! DEFINITION. Reading a block image: header fields, node slots, constants, address generators and the switch frame
(04_encoding: R91 to R97). An image is its list of 64-bit words, four to a frame. -/

namespace Sys2Proof.Machine

/-- Word i of an image. -/
def imgWord (ws : List Word) (i : Nat) : Word := ws.getD i 0

/-- The body frame count F (R92). -/
def imgFrames (ws : List Word) : Nat := fld (imgWord ws 0) 39 32

/-- The kind of body frame f, 1 ≤ f ≤ F: 0 CU, 1 MU, 2 SW, 3 AG (R92). -/
def imgKind (ws : List Word) (f : Nat) : Nat := (imgWord ws 1).toNat / 4 ^ (f - 1) % 4

/-- The body frame numbers. -/
def imgBody (ws : List Word) : List Nat := (List.range (imgFrames ws)).map (· + 1)

/-- The switch frame's number, 0 for none (R92). -/
def imgSwf (ws : List Word) : Nat := fld (imgWord ws 0) 7 2

/-- The DIFF bit (R92). -/
def imgDiff (ws : List Word) : Bool := bit (imgWord ws 0) 0

/-- The exit word (R92). -/
def imgExit (ws : List Word) : Nat := (imgWord ws 2).toNat

/-- The node slots in node-number order: the slot's unit and the index of its first word (R93, R94). -/
def imgSlots (ws : List Word) : List (Slot × Nat) :=
  (imgBody ws).flatMap fun f =>
    match imgKind ws f with
    | 0 => [(.cu, 4 * f), (.cu, 4 * f + 1), (.cu, 4 * f + 2), (.cu, 4 * f + 3)]
    | 1 => [(.mu, 4 * f), (.mu, 4 * f + 2)]
    | _ => []

/-- The word of a slot as a number. -/
def slotWord (ws : List Word) (s : Slot × Nat) : Nat :=
  match s.1 with
  | .mu => (imgWord ws s.2).toNat + 2 ^ 64 * (imgWord ws (s.2 + 1)).toNat
  | _ => (imgWord ws s.2).toNat

/-- The instruction at node number n; none for a hole or a number beyond the last slot. -/
def imgNode (ws : List Word) (n : Nat) : Option Instr :=
  match (imgSlots ws)[n]? with
  | none => none
  | some s => (decode s.1 (slotWord ws s)).toOption

/-- The numbers of the block's nodes, holes left out. -/
def imgNodes (ws : List Word) : List Nat :=
  (List.range (imgSlots ws).length).filter fun n => (imgNode ws n).isSome

/-- The constant frames' first words (R93, R95). -/
def imgConstFrames (ws : List Word) : List Nat :=
  ((imgBody ws).filter fun f => imgKind ws f == 2 && f != imgSwf ws).map (4 * ·)

/-- Constant Qk (R95). -/
def imgConst (ws : List Word) (k : Nat) : Word := imgWord ws ((imgConstFrames ws).getD (k / 4) 0 + k % 4)

/-- The address generator frames' first words (R93, R96). -/
def imgAgFrames (ws : List Word) : List Nat := ((imgBody ws).filter fun f => imgKind ws f == 3).map (4 * ·)

/-- Switch byte i (R95). -/
def imgSwitch (ws : List Word) (i : Nat) : Nat :=
  (imgWord ws (4 * imgSwf ws + i / 8)).toNat / 256 ^ (i % 8) % 256

/-- An address generator (R96). -/
structure Ag where
  base : Nat
  stid : Int
  spass : Int
  sop : Int
  space : Nat
  lo : Int
  hi : Int
  deriving DecidableEq, Repr, Inhabited

/-- Address generator j (R96). -/
def imgAg (ws : List Word) (j : Nat) : Ag :=
  let b := (imgAgFrames ws).getD j 0
  let w1 := imgWord ws (b + 1)
  let w2 := imgWord ws (b + 2)
  let w3 := imgWord ws (b + 3)
  { base := (imgWord ws b).toNat
    stid := sext 24 (fld w1 63 40)
    spass := sext 24 (fld w1 39 16)
    sop := sext 24 (fld w2 63 40)
    space := fld w2 39 36
    lo := sext 32 (fld w3 63 32)
    hi := sext 32 (fld w3 31 0) }

/-- The format of a node instruction. -/
def fmtOf (i : Instr) : Option Fmt :=
  match wordOf i with
  | .cu o _ => cuFmt o
  | .mu o _ => muFmt o
  | _ => none

/-- Is the instruction irrevocable (R111)? -/
def isIrrev (i : Instr) : Bool :=
  match fmtOf i with
  | some f => f.irrev
  | none => false

/-- Does node n of the image stand among the irrevocable ones? -/
def irrevAt (ws : List Word) (n : Nat) : Bool :=
  match imgNode ws n with
  | some i => isIrrev i
  | none => false

/-- The index of node n among the irrevocable nodes of the block (R281). -/
def irrevIndex (ws : List Word) (n : Nat) : Nat := ((List.range n).filter (irrevAt ws)).length

/-- The low words that make up an image of one node in a frame of its own (used where a single word is placed to be
executed): header, and the frame. -/
def oneFrameImage (block nodes irrev : Nat) (mu : Bool) (frame : List Word) : List Word :=
  [BitVec.ofNat 64 (2 ^ 56 + block * 2 ^ 48 + nodes * 2 ^ 40 + 2 ^ 32 + irrev * 2 ^ 8),
   if mu then 1 else 0, 0x05FFFFFF0000FF00, 0] ++ frame

end Sys2Proof.Machine
end

