-- ==== Sys2Proof/Machine/IntOps.lean ====
section
/-! DEFINITION. The integer arithmetic of the fabric (05_numbers: R122, R123, R152; 07_core_integer_control: R180 to
R192). Operands and results are 64-bit values. -/

namespace Sys2Proof.Machine

/-- The width of an integer or pred type (R180). -/
def tWidth (t : Nat) : Nat := if t = 0 ∨ t = 1 then 32 else if t = 7 then 1 else 64

/-- Is the integer type signed: i32, i64 (R180)? -/
def tSigned? (t : Nat) : Bool := t == 0 || t == 2

/-- uv: the unsigned value of an operand. -/
def uv (t : Nat) (x : Word) : Nat := x.toNat % 2 ^ tWidth t

/-- sv: the signed value of an operand. -/
def sv (t : Nat) (x : Word) : Int := sext (tWidth t) x.toNat

/-- val: signed for i32 and i64, unsigned otherwise. -/
def ival (t : Nat) (x : Word) : Int := if tSigned? t then sv t x else (uv t x : Int)

/-- The delivered value of a datum of a type (R122). -/
def deliver (t : Nat) (n : Nat) : Word :=
  match t with
  | 0 => ofInt (sext 32 n)
  | 1 | 4 | 9 | 10 => BitVec.ofNat 64 (n % 2 ^ 32)
  | 6 | 8 => BitVec.ofNat 64 (n % 2 ^ 16)
  | 7 => BitVec.ofNat 64 (n % 2)
  | _ => BitVec.ofNat 64 n

/-- The delivered value of an integer result, reduced modulo 2^W (R180). -/
def deliverInt (t : Nat) (z : Int) : Word := deliver t (z % (2 : Int) ^ tWidth t).toNat

/-- The width in bits of a datum of a type (R182, R231). -/
def bitsOfType (t : Nat) : Nat :=
  match t with
  | 0 | 1 | 4 | 9 | 10 => 32
  | 6 | 8 => 16
  | 7 => 1
  | _ => 64

/-- The access size of a type in bytes (R231). -/
def sizeOfType (t : Nat) : Nat := bitsOfType t / 8

/-- mov (R182). -/
def movVal (t : Nat) (a : Word) : Word := deliver t (a.toNat % 2 ^ bitsOfType t)

/-- cvt from type s (R183). -/
def cvtVal (t s : Nat) (a : Word) : Word := deliverInt t (ival s a)

/-- div and rem (R123, R187). -/
def divRem (t : Nat) (a b : Int) : Int × Int :=
  let w := tWidth t
  if b = 0 then ((2 : Int) ^ w - 1, a)
  else if tSigned? t ∧ a = -(2 : Int) ^ (w - 1) ∧ b = -1 then (a, 0)
  else
    let q := Int.tdiv a b
    (q, a - b * q)

/-- cmp: 0 eq, 1 ne, 2 lt, 3 le, 4 gt, 5 ge (R188). -/
def cmpVal (cond : Nat) (a b : Int) : Bool :=
  match cond with
  | 0 => a = b
  | 1 => a ≠ b
  | 2 => a < b
  | 3 => a ≤ b
  | 4 => a > b
  | _ => a ≥ b

/-- shl (R189). -/
def shlVal (t : Nat) (a b : Word) : Word :=
  let n := b.toNat
  deliver t (if tWidth t ≤ n then 0 else uv t a * 2 ^ n % 2 ^ tWidth t)

/-- shr (R189). -/
def shrVal (t : Nat) (a b : Word) : Word :=
  let n := b.toNat
  deliver t (if tWidth t ≤ n then 0 else uv t a / 2 ^ n)

/-- sar (R189): arithmetic for every type. -/
def sarVal (t : Nat) (a b : Word) : Word :=
  deliverInt t (sv t a / (2 : Int) ^ min b.toNat (tWidth t - 1))

/-- clz (R190). -/
def clzVal (t : Nat) (a : Word) : Nat :=
  let n := uv t a
  tWidth t - (if n = 0 then 0 else Nat.log2 n + 1)

/-- The number of one bits among the lowest w. -/
def popGo : (w : Nat) → (n : Nat) → Nat
  | 0, _ => 0
  | w + 1, n => n % 2 + popGo w (n / 2)

/-- popc (R190). -/
def popcVal (t : Nat) (a : Word) : Nat := popGo (tWidth t) (uv t a)

/-- The lowest w bits in reverse order. -/
def revGo : (w : Nat) → (n acc : Nat) → Nat
  | 0, _, acc => acc
  | w + 1, n, acc => revGo w (n / 2) (2 * acc + n % 2)

/-- brev (R190). -/
def brevVal (t : Nat) (a : Word) : Nat := revGo (tWidth t) (uv t a) 0

/-- Position and length of a field control, clipped to the width (R191). -/
def fieldOf (t : Nat) (ctl : Word) : Nat × Nat :=
  let w := tWidth t
  let p := min (ctl.toNat % 256) w
  (p, min (ctl.toNat / 256 % 256) (w - p))

/-- bfx (R191). -/
def bfxVal (t : Nat) (a ctl : Word) : Word :=
  let (p, l) := fieldOf t ctl
  let f := uv t a / 2 ^ p % 2 ^ l
  deliverInt t (if tSigned? t ∧ 0 < l then sext l f else (f : Int))

/-- bfi (R191). -/
def bfiVal (t : Nat) (a b ctl : Word) : Word :=
  let (p, l) := fieldOf t ctl
  let x := uv t a
  deliver t (x / 2 ^ (p + l) * 2 ^ (p + l) + (uv t b % 2 ^ l) * 2 ^ p + x % 2 ^ p)

/-- A 32-bit rotation left. -/
def rotl32 (x n : Nat) : Nat := (x * 2 ^ n + x / 2 ^ (32 - n)) % 2 ^ 32

/-- The counter-based draw of seed, stream and counter (R152). -/
def rngDraw (seed stream counter : Nat) : Nat :=
  let x := counter % 2 ^ 32 ^^^ seed % 2 ^ 32 ^^^ rotl32 (stream % 2 ^ 32) 16
  let x := (x ^^^ x / 2 ^ 15) * 0x2C1B3C6D % 2 ^ 32
  let x := (x ^^^ x / 2 ^ 12) * 0x297A2D39 % 2 ^ 32
  x ^^^ x / 2 ^ 15

/-- A pred result (R122). -/
def predVal (b : Bool) : Word := if b then 1 else 0

end Sys2Proof.Machine
end

