-- ==== Sys2Proof/Config.lean ====
section
/-! DEFINITION. What the spec leaves open: the free values, which have no body, and the turns, which say whose step
is next. -/

namespace Sys2Proof

/-- Whose step is next. The agents of the SN4 act in an order the spec does not fix (02_memory_model: R49, R56;
01_device: R20); `State.agenda` lists the turns to come, and when it is empty the turn is a free value. -/
inductive Turn where
  /-- the next thread of the running pass fires a node of the block -/
  | fire (core node : Nat)
  /-- the oldest complete beat of the running pass retires through the block's exit -/
  | exit (core : Nat)
  /-- Meridian of a core executes the microword at its microaddress -/
  | micro (core : Nat)
  /-- an event of the opcode table happens; an instruction that has a word is no event and changes nothing here -/
  | event (i : Instr)
  /-- n clocks pass -/
  | tick (n : Nat)
  /-- a walk for a page of the stream of a MEM slot, by node, starts (02_memory_model: R45) -/
  | walk (core node va : Nat)
  /-- a word of the set of the pub that fires at a node for a lane reaches the coherence point before the others
  (02_memory_model: R53) -/
  | spread (core lane node word : Nat)
  /-- the copy engine of a core reads the word of a command's source that a byte by its offset lies in, or, once it has
  been read, writes the word of the destination; off 2 ^ 64 + k stands for the directory entry of block k
  (15_copy_engine: R318, R319) -/
  | copy (core slot off : Nat) (write : Bool)
  /-- the copy engine of a core reads the aligned word at a global address ahead, for the records that a command names
  (part 0) or for stored block b (part b + 1) (15_copy_engine: R318) -/
  | copyAhead (core slot part at_ : Nat)
  /-- the matrix engine of a core reads the aligned word at an engine address for the command at its queue's head, or
  writes a word of that command's output, before the command completes (17_matrix_engine: R367, R368) -/
  | matrix (core : Nat) (at_ : BitVec 64) (write : Bool)
  /-- the host reads a register of the window (25_host_system: R473) -/
  | hostRead (off : Nat)
  /-- bring-up goes from one phase to the next (25_host_system: R476) -/
  | boot
  deriving DecidableEq, Repr, Inhabited

namespace Config

/-- The order of agents where no turn is listed (DESIGN CHOICE, log 1). -/
opaque freeTurn : Nat → Turn
/-- Free choices and values the spec leaves open, drawn in order by the counter `Device.free` (DESIGN CHOICE, log 1). -/
opaque freeNat : Nat → Nat
/-- The HBM stack, 0 to 11, that holds a 64-byte line of device memory, by its number: no rule gives it, and in REDUCED only stacks 0 to 2
are served (25_host_system: R477; DESIGN CHOICE, log 13). -/
opaque stackOf : Nat → Nat
/-- Does an ML-DSA-65 signature over a message hold under a public key (25_host_system: R479; PRESUMED, log 11)? -/
opaque signatureOk : (key message signature : List Byte) → Bool
/-- The public key whose digest is fused, under which the ROM verifies the firmware (R479). -/
opaque romKey : List Byte
/-- The signer keys that the firmware carries, by the measurement of it that M0 holds (R479). -/
opaque signerKeys : (m0 : List Byte) → List (List Byte)
/-- The ML-DSA-65 signature of a message by the identity key, which firmware derives from a fused secret and M0
(R479). -/
opaque sign : (m0 message : List Byte) → List Byte
/-- The 64-byte SHAKE256 digest (R479): a published function, left uninterpreted (PRESUMED, log 11). -/
opaque shake256 : List Byte → List Byte
/-- The public identity key, derived from a fused secret and M0 (R479). -/
opaque identity : (m0 : List Byte) → List Byte
/-- A byte that a transform routine finds where nothing gives one: in OUT before it writes it, or in IN past the last byte,
by the number of the buffer and the address (16_codec_transform: R333; DESIGN CHOICE, log 12). -/
opaque routineByte : (k address : Nat) → Byte
/-- Does the vector unit write ones to an agnostic element, by the instructions retired and the element, where the V
extension lets it keep or overwrite it (R332; DESIGN CHOICE, log 12)? -/
opaque agnosticOnes : (count element : Nat) → Bool
/-- Which vl a vset takes where AVL lies between VLMAX and twice VLMAX (R332; DESIGN CHOICE, log 12). -/
opaque vlChoice : (avl vlmax : Nat) → Nat
/-- The sum that vfredusum gives, in an order that the V extension leaves open, with its flags: by the element width, the
rounding mode, the first term and the others (R332; DESIGN CHOICE, log 12). -/
opaque unorderedSum : (width mode first : Nat) → (terms : List Nat) → Nat × BitVec 6

end Config

end Sys2Proof
end

