-- ==== Sys2Proof/Machine/State.lean ====
section
/-! DEFINITION. The state of the SN4 as plain data, and State.reset. Each structure names the rules of spec/ that
give its fields; what a field holds after reset stands in its reset value, and log 3 names the values the spec does
not give. -/

namespace Sys2Proof.Machine

/-! ## Tokens, lanes and passes (06_core_execution: R158 to R169; 12_core_faults: R279, R283) -/

/-- The origin of a poison token (R279); exc holds the flags that a trapping node raised (R281). -/
structure Origin where
  block : Nat
  node : Nat
  cls : Nat
  addr : Word
  exc : BitVec 6
  deriving DecidableEq, Repr, Inhabited

/-- What a node emits for a thread (R166). -/
inductive Token where
  | value (v : Word)
  | cancel
  | poison (o : Origin)
  deriving DecidableEq, Repr, Inhabited

/-- Where a store goes when it commits: the core's own scratchpad, the scratchpad of another core of the cluster,
or global memory at a home key (R58, R233). -/
inductive Place where
  | scratch (a : Nat)
  | remote (core off : Nat)
  | home (key : Nat)
  deriving DecidableEq, Repr, Inhabited

/-- What an access to global memory was translated through: an address space, and a page by its address and size (R24,
R47). -/
structure Mapped where
  asid : Nat
  va : Nat
  size : Nat
  deriving DecidableEq, Repr, Inhabited

/-- No translation, for what lies in a scratchpad. -/
def Mapped.none : Mapped := ⟨0, 0, 0⟩

/-- A deferred store of a thread (R48, R168): the low size bytes of value. va is the global address a store to
global memory was translated from, and page its translation; recorded marks an st in space g, which the Traverse records
in a region (R264). -/
structure Store where
  node : Nat
  place : Place
  va : Nat
  size : Nat
  value : Nat
  recorded : Bool
  page : Mapped
  deriving DecidableEq, Repr, Inhabited

/-- An access that a failed walk holds (R237, R285, R286): its address, the clock of its first hold, whether an
invalidation has woken it, and whether a report has named it. -/
structure Held where
  va : Nat
  since : Nat
  woken : Bool
  reported : Bool
  deriving DecidableEq, Repr, Inhabited

/-- One thread in a pass. -/
structure Lane where
  tid : Nat
  /-- the tokens that the block's nodes have emitted for the thread -/
  tokens : Tbl Token
  /-- the exceptions its FPU nodes have raised (R130) -/
  flags : BitVec 6
  /-- live-slot writes that take effect at commit (R167) -/
  writes : List (Nat × Word)
  /-- deferred stores -/
  stores : List Store
  /-- which irrevocable nodes have performed, and the values they delivered (R283) -/
  done : BitVec 4
  replay : List Word
  /-- the accesses that failed walks hold, by node (R165, R286) -/
  held : Tbl Held
  /-- a pre-emption turned its held access into poison (R292) -/
  pend : Bool
  deriving DecidableEq, Repr, Inhabited

/-- The running pass (R158). Beat q holds lanes 16q to 16q + 15 (R159). -/
structure Pass where
  block : Nat
  /-- what $pass reads -/
  num : Nat
  lanes : List Lane
  /-- beats that have retired: from the first on, in a reverse pass from the last on (R168, R271) -/
  retired : Nat
  /-- the image is still being loaded -/
  loading : Bool
  /-- that load was begun in the shadow plane, which becomes active (R163) -/
  shadowed : Bool
  /-- a reverse replay (R271) -/
  rev : Bool
  /-- bytes of STORE and LIVE records pushed, and the threads that retired, for the PASS record (R261, R264) -/
  recBytes : Nat
  recTids : List Nat
  deriving DecidableEq, Repr, Inhabited

/-! ## Threads (R153 to R157, R170 to R173) -/

/-- The word an exit.wait tests (R200): in the core's scratchpad or at a home key. -/
inductive WaitWord where
  | scratch (a : Nat)
  | home (key : Nat)
  deriving DecidableEq, Repr, Inhabited

/-- Why a thread is parked. -/
inductive ParkKind where
  | bar (scope : Nat)
  | wait (scope cond : Nat) (at_ : WaitWord) (value : Word)
  | phase (scope : Nat)
  | dfwd (t f : Nat)
  | drev
  deriving DecidableEq, Repr, Inhabited

/-- An entry of the parked-thread table (R170), with the block whose exit parked the thread. deadline is in clocks; woken marks a wake that has been decided and
takes effect at the next pass boundary (R264). -/
structure Park where
  kind : ParkKind
  block : Nat
  target : Nat
  status : Option Nat
  deadline : Option Nat
  woken : Bool
  deriving DecidableEq, Repr, Inhabited

/-- The state of a thread (R155). A FAULTED or HALTED thread names the block it resumes at. -/
inductive Status where
  | waiting (b : Nat)
  | streaming
  | parked (p : Park)
  | faulted (b : Nat)
  | halted (b : Nat)
  | retired
  deriving DecidableEq, Repr, Inhabited

/-- A thread of a core. -/
structure Thread where
  status : Status
  /-- live slots (R153) -/
  live : Cells 64
  /-- DONE and REPLAY that the thread starts its block from (R283), and PEND (R281) -/
  done : BitVec 4
  replay : List Word
  pend : Bool
  /-- what the thread has read: locations and the point of the coherence order it read at (R51) -/
  seen : Tbl Nat
  /-- reported in the fault list since it faulted or halted (R287) -/
  reported : Bool
  /-- the record could not be written (R282) -/
  recFailed : Bool
  /-- poisoned in a reverse replay (R274): a RETIRED thread that is still to be reported, or a FAULTED one that
  re-enters the block it is FAULTED at, whatever its record holds -/
  revFault : Bool
  /-- a debugger halt waits for it (R295) -/
  haltReq : Bool
  deriving DecidableEq, Repr, Inhabited

/-- A thread as the distributor binds it: WAITING at block 0 with every slot 0 (R154). -/
def Thread.fresh : Thread := ⟨.waiting 0, [], 0, [0, 0, 0, 0], false, [], false, false, false, false⟩

/-! ## A core's launch (22_launch_scheduling: R420, R421, R435) -/

/-- An entry of the region table (11_differentiable: R254). -/
structure Region where
  base : Nat
  size : Nat
  adj : Nat
  legend : Nat
  priv : Bool
  typ : Nat
  deriving DecidableEq, Repr, Inhabited

/-- What a core holds of the launch it is bound to: the fields of the launch record the core uses (R421), the
kernel's block table, and the run it belongs to. -/
structure Bound where
  run : Nat
  record : Nat
  ctx : Nat
  cidx : Nat
  ncores : Nat
  nthreads : Nat
  width : Nat
  stages : Nat
  table : Nat
  nblk : Nat
  param : Nat
  priv : Bool
  strict : Bool
  hold : Bool
  handler : Option Nat
  flist : Nat
  save : Nat
  regions : List Region
  /-- the fill batch of a fill launch: its address and entry count (21_infill: R415) -/
  fill : Option (Nat × Nat)
  deriving DecidableEq, Repr, Inhabited

/-- System registers of a core (R46, R129, R161, R258, R285, R363, R420). -/
structure CoreRegs where
  fpflags : Word
  fptrap : Word
  agelimit : Word
  tapebase : Word
  tapelimit : Word
  tapehead : Word
  dmode : Word
  xlroot : Word
  xlasid : Word
  faultbase : Word
  xltimeout : Word
  faultctl : Word
  mxtest : Word
  mxstat : Word
  launch : Word
  deriving DecidableEq, Repr, Inhabited

/-- The registers after reset: SYS_MXTEST 4,096 (R363), SYS_XLTIMEOUT 1 (0 is refused, R285), SYS_AGELIMIT 16
(R161), the others 0 (DESIGN CHOICE, log 3). -/
def CoreRegs.reset : CoreRegs := ⟨0, 0, 16, 0, 0, 0, 0, 0, 0, 0, 1, 0, 4096, 0, 0⟩

/-! ## A core's view of global memory (02_memory_model: R45, R48 to R58) -/

/-- A cached translation (R45): the leaf that maps size bytes from va in an address space. -/
structure Xl where
  root : Nat
  asid : Nat
  va : Nat
  size : Nat
  leaf : Word
  deriving DecidableEq, Repr, Inhabited

/-- One word of the set that a pub publishes (R53): bytes by home key, each with its place in the coherence order where
it was published at cluster scope before; or bytes of another core's scratchpad. -/
inductive PubWord where
  | home (bs : List (Nat × Byte × Option Nat))
  | remote (core : Nat) (bs : List (Nat × Byte))
  deriving DecidableEq, Repr, Inhabited

/-- A publication in progress (R53): the lane and the node of the pub, its scope, and the words of its set that have
not reached the coherence point. -/
structure Publishing where
  lane : Nat
  node : Nat
  scope : Nat
  words : List PubWord
  deriving DecidableEq, Repr, Inhabited

/-- What the core's caches hold: core-visible bytes that are not published (by home key), core-visible bytes of
Traverse records, which a pub leaves where they are (R260), bytes published at cluster scope that have not gone home,
with their place in the coherence order, core-visible bytes for the scratchpads of other cores (by core and offset), a
publication in progress, the refresh points, the point below which the core does not read a location, the translation
cache, and the translation entry of each MEM slot, by node (R45). -/
structure Cache where
  dirty : Tbl Byte
  tape : Tbl Byte
  sent : Tbl (Byte × Nat)
  remote : Tbl (Tbl Byte)
  pub : Option Publishing
  refreshCl : Nat
  refreshDev : Nat
  refreshSys : Nat
  floors : Tbl Nat
  xl : List Xl
  slots : Tbl Xl
  deriving DecidableEq, Repr, Inhabited

/-- Empty caches. -/
def Cache.empty : Cache := ⟨[], [], [], [], none, 0, 0, 0, [], [], []⟩

/-! ## Faults, the Traverse, pre-emption and the debugger (11_differentiable, 12_core_faults) -/

/-- A pending Traverse trap (R266, R267): the cause, the failing address (or HEAD), NEED, and the words of
the record whose write is retried (R268). -/
structure Trap where
  cause : Nat
  addr : Nat
  need : Nat
  retry : List Word
  deriving DecidableEq, Repr, Inhabited

/-- A queued th.ctl request (R248). -/
structure Ctl where
  tid : Nat
  restart : Bool
  block : Nat
  deriving DecidableEq, Repr, Inhabited

/-- A debugger request that waits for a pass boundary (R294 to R296, R481). -/
inductive Dbg where
  | halt (tid : Nat)
  | write (tid slot : Nat) (v : Word)
  | read (tid slot : Nat)
  | stopJob
  deriving DecidableEq, Repr, Inhabited

/-- Where a pre-emption of the core stands (R288 to R292). -/
inductive Preempt where
  | none
  | requested
  | saved
  deriving DecidableEq, Repr, Inhabited

/-- A configuration plane (R163): the block and the image's 64-bit words. -/
structure Plane where
  block : Nat
  words : List Word
  deriving DecidableEq, Repr, Inhabited

/-! ## Engine operations (01_device: R16 to R25) -/

/-- A completion word: where it is written, the address the command names it by, the value supplied (R23), and the
translation of a global one (R24). -/
structure Comp where
  place : Place
  name : Word
  value : Word
  page : Mapped
  deriving DecidableEq, Repr, Inhabited

/-- A command slot of a copy engine (R304): the descriptor's eight words, its place in the order in which slots were
taken (R315), the granules completed, from the first on (R320), the destination bytes a cp.z or cp.x has written, and,
once a cp.x has run a buffer, the generation of its routine plus 1 (R335). Once the engine has read the records that
the descriptor names, it keeps what they held (R310). note is the lowest code it has noted so far, 0 for none (R317);
failed is the first granule at which an access has failed, with the code (R316). Of granules not completed it keeps what
it has read and written so far (R318, R319): the indices or logical blocks by number, the source bytes by offset, none for
uncorrectable ones, the offsets of the destination bytes written, what blocks of cp.z or cp.x come to, by number, and the
blocks whose directory entry is written. parts holds what it has read ahead, by address: of the records (part 0) and of
stored blocks (1 + the number). xls holds the translation entries of its streams. -/
structure CopySlot where
  opc : Nat
  desc : List Word
  comp : Comp
  order : Nat
  cursor : Nat
  off : Nat
  gen : Nat
  recs : Option (List (List Byte))
  note : Nat
  failed : Option (Nat × Nat)
  pres : Tbl (List (Option Byte))
  got : Tbl (Option Byte)
  put : List Nat
  outs : Tbl (List (Option Byte))
  ents : List Nat
  parts : Tbl (Tbl Byte)
  xls : Tbl Xl
  deriving DecidableEq, Repr, Inhabited

/-- A queued matrix command (R342). since is the clock at which an acc.red reached the head, nth its number among
those with its MASK, mates the $cidx of the cores that its MASK names, in order, where they run the launch (R355, R357);
a wupd keeps its cursor in granules of 1,024 elements, the elements it has skipped and the lowest of them (R360, R369).
Of a command that has begun, early holds the aligned words it has read ahead, by engine address, none for uncorrectable
bytes, and outs its code and the pieces of its output that are still to be written (R367, R368). -/
structure MxCmd where
  opc : Nat
  typ : Nat
  ct : Bool
  desc : List Word
  comp : Comp
  priv : Bool
  cursor : Nat
  skips : Nat
  low : Nat
  nth : Nat
  mates : List (Option Nat)
  since : Option Nat
  early : List (Word × List (Option Byte))
  outs : Option (Nat × List (Word × List (Option Byte)))
  deriving DecidableEq, Repr, Inhabited

/-- The corner-turn buffer (R350): rows of 64 elements in the fill half and, not yet consumed, in the read half, and
the shadow counts. -/
structure Corner where
  efmt : Nat
  fill : List (List (BitVec 32))
  read : List (List (BitVec 32))
  shadowF : Nat
  shadowD : Nat
  deriving DecidableEq, Repr, Inhabited

/-- A matrix engine (17_matrix_engine): cell (r, c) of the accumulator store at 128 r + c, the bad cells, the queue,
the corner-turn buffer, the acc.red commands issued for each MASK, and the mma and mma.sp commands since the last
test and since the last passing test (R339, R340, R342, R350, R355, R364). -/
structure Matrix where
  acc : Cells 32
  bad : List Nat
  queue : List MxCmd
  corner : Corner
  reds : Tbl Nat
  sinceTest : Nat
  sincePass : Nat
  deriving DecidableEq, Repr, Inhabited

/-- The matrix engine after reset. -/
def Matrix.reset : Matrix := ⟨[], [], [], ⟨0, [], [], 0, 0⟩, [], 0, 0⟩

/-- The state of a gather tag (R378, R384, R385); a failed one keeps the code and the address that failed. -/
inductive TagSt where
  | idle
  | flight
  | done (skips : Nat)
  | failed (code addr : Nat)
  deriving DecidableEq, Repr, Inhabited

/-- A position that a gather has taken up (R384): whether its payload is used, whether it was skipped, its K row and
its V elements. -/
structure GatherRow where
  used : Bool
  skip : Bool
  k : List Byte
  v : List Byte
  deriving DecidableEq, Repr, Inhabited

/-- A gather tag: its state, the inputs it recorded, its gather's place in the order in which the job's gathers started
(R418), the positions taken up, from the first on, the clock from which a position waits, and whether an mwait has
waited on it (R389). -/
structure Tag where
  st : TagSt
  entry : Word
  seq : Word
  imm : Word
  nth : Nat
  rows : List GatherRow
  wait : Option Nat
  waited : Bool
  deriving DecidableEq, Repr, Inhabited

/-- An attn.go command (R376), with what M1 to M3 receive (R377). -/
structure JobCmd where
  desc : List Word
  comp : Comp
  cidx : Nat
  ncores : Nat
  coord : Nat
  deriving DecidableEq, Repr, Inhabited

/-- A Meridian job (R377, R378, R400): M0 to M15, N0 to N3, the flags, the micro-PC, the gather tags, the sticky ECC,
the stop word while it is stopped, the posted writes that are not yet performed, with their translations (R382), the
clock at which an mwait parked it, a debugger stop that waits for the next microword boundary (R400), and the number of gathers
started. -/
structure Job where
  cmd : JobCmd
  m : List Word
  n : List (BitVec 32)
  z : Bool
  neg : Bool
  t : Bool
  upc : Nat
  tags : List Tag
  ecc : Bool
  stop : Option Word
  posted : List (Place × Mapped × List Byte)
  wait : Option Nat
  dbgStop : Bool
  gathers : Nat
  deriving DecidableEq, Repr, Inhabited

/-- A command of a table unit (R375). -/
structure TabCmd where
  opc : Nat
  desc : List Word
  comp : Comp
  deriving DecidableEq, Repr, Inhabited

/-- An attn.save or attn.go.resume that waits for the next microword boundary of the Meridian it names (R375, R399), with
its issuer's run, $cidx and privilege. -/
structure SaveCmd where
  run : Nat
  cidx : Nat
  priv : Bool
  desc : List Word
  comp : Comp
  deriving DecidableEq, Repr, Inhabited

/-- Meridian of a core (R375, R399): the running or stopped job, the queued job, the last stop word, the pass that ran
when a job ended with the clock at which a matrix node of it last fired (R29), the table unit's queue, and the attn.save and
attn.go.resume commands that name this Meridian and wait. -/
structure Meridian where
  job : Option Job
  queued : Option JobCmd
  lastStop : Word
  grace : Option (Nat × Nat)
  table : List TabCmd
  saves : List SaveCmd
  deriving DecidableEq, Repr, Inhabited

/-- Meridian after reset. -/
def Meridian.reset : Meridian := ⟨none, none, 0, none, [], []⟩

/-- Where a core stands with its launch's handler record (R287, R426): nothing is reported; its launch's fault policy has
armed the record; it has, and there is something to report since; the record is busy with a run that the policy has not
armed, and a report waits; the handler that was armed has ended. -/
inductive Handling where
  | none
  | armed
  | again
  | busy
  | done
  deriving DecidableEq, Repr, Inhabited

/-- A block core (01_device: R8, R14). -/
structure Core where
  bound : Option Bound
  regs : CoreRegs
  threads : List Thread
  /-- block ages (R160) -/
  ages : Cells 8
  /-- selections since binding (R158) -/
  passes : Nat
  pass : Option Pass
  active : Option Plane
  shadow : Option Plane
  /-- the block that was predicted at the start of the pass and is being loaded into the shadow plane (R163) -/
  predicted : Option Nat
  /-- blocks whose images were found defective, with NODE and w1 of the fault (R120) -/
  defects : Tbl (Nat × Nat)
  /-- the scratchpad, and its 64-byte lines that hold uncorrectable data (R8, R39) -/
  scratch : Cells 8
  scratchBad : List Nat
  cache : Cache
  /-- the receiving side of 16 channels, and the spill rings of the sending side (R175, R176) -/
  fifos : Tbl (List Word)
  rings : Tbl (List Word)
  ctls : List Ctl
  dbgs : List Dbg
  /-- wakes that wait for a pass boundary, with their status values (R264) -/
  wakes : List (Nat × Bool)
  /-- a complete phase instance: its threads and its widest scope (R203) -/
  phase : Option (List Nat × Nat)
  /-- the Traverse trap that is pending or has been taken (R266, R267) -/
  trap : Option Trap
  /-- a Traverse failure inside a pass, kept for the boundary (R266) -/
  tapeFail : Option Trap
  trapReported : Bool
  preempt : Preempt
  /-- the distributor has sent a pre-emption request that has not arrived (R437) -/
  preemptSent : Bool
  /-- granules ever saved, and granules dirty since the last restore or binding (R290) -/
  accSaved : Nat
  scrSaved : Nat
  accDirty : Nat
  scrDirty : Nat
  /-- the distributor binds it (R439) -/
  inService : Bool
  /-- the command slots of the copy engine, and how many were ever taken (R304) -/
  copy : Tbl CopySlot
  copyCount : Nat
  mx : Matrix
  mer : Meridian
  handling : Handling
  /-- the engines have stopped or are frozen for a pre-emption (R288, R369, R402) -/
  frozen : Bool
  deriving DecidableEq, Repr, Inhabited

/-- A core after reset. -/
def Core.reset : Core where
  bound := none
  regs := CoreRegs.reset
  threads := []
  ages := []
  passes := 0
  pass := none
  active := none
  shadow := none
  predicted := none
  defects := []
  scratch := []
  scratchBad := []
  cache := Cache.empty
  fifos := []
  rings := []
  ctls := []
  dbgs := []
  wakes := []
  phase := none
  trap := none
  tapeFail := none
  trapReported := false
  preempt := .none
  preemptSent := false
  accSaved := 0
  scrSaved := 0
  accDirty := 0
  scrDirty := 0
  inService := true
  copy := []
  copyCount := 0
  mx := Matrix.reset
  mer := Meridian.reset
  handling := .none
  frozen := false

/-- One byte of a write in the coherence order (R56): at home, or at a cluster's coherence point, with what it wrote;
old is what stood at home. A home write of what a cluster's point held already does not concern that cluster: carried names
the cluster and the byte's place in the coherence order there. -/
structure LogEnt where
  point : Option Nat
  addr : Nat
  old : Byte
  new : Byte
  carried : Option (Nat × Nat)
  deriving DecidableEq, Repr, Inhabited

/-- Global memory (02_memory_model: R38 to R41, R50, R56). home holds device memory at physical addresses and, at
2^48 + address, host memory; log holds the writes since reset, newest first, which a load may not have seen yet: each is
single-copy atomic and lies in one aligned 8-byte word (R34, R60). -/
structure Mem where
  home : Cells 8
  log : List (List LogEnt)
  /-- 64-byte lines that hold uncorrectable data, by the address of the line (R39) -/
  bad : List Nat
  deriving DecidableEq, Repr, Inhabited

/-- Memory after reset: nothing is listed (DESIGN CHOICE, log 2). -/
def Mem.reset : Mem := ⟨[], [], []⟩

/-! ## Clusters: the coherence point and the Infill engine (21_infill) -/

/-- A request of an Infill engine (R410): its number, the token's exit layer, LAST, SEQ, POS, HIDDEN and TAG, and the
address space and privilege of the launch that issued it. -/
structure FillReq where
  id : Nat
  exitL : Nat
  last : Nat
  seq : Nat
  pos : Nat
  hidden : Word
  tag : Word
  root : Nat
  priv : Bool
  deriving DecidableEq, Repr, Inhabited

/-- The armed batch (R414, R415): the record armed, the batch area, the requests, and whether the launch ended
without error, once it has completed. -/
structure FillBatch where
  lr : Nat
  addr : Nat
  reqs : List FillReq
  ended : Option Bool
  deriving DecidableEq, Repr, Inhabited

/-- A walk in flight for the stream of a MEM slot (R45): its core and node, and the page that it looks up. -/
structure Walk where
  core : Nat
  node : Nat
  page : Nat
  deriving DecidableEq, Repr, Inhabited

/-- A cluster (01_device: R7): its coherence point holds bytes that its cores have published there and that no newer
write at home has replaced (R37, R52), and its walker the walks in flight (R45). -/
structure Cluster where
  point : Tbl Byte
  walks : List Walk
  /-- SYS_FILLLR, SYS_FILLBUF and the FAILED count of SYS_FILLSTAT (R413) -/
  fillLr : Word
  fillBuf : Word
  fillFailed : Nat
  /-- batches formed since reset (R414) -/
  fillBatches : Nat
  fillArmed : Option FillBatch
  fillQueue : List FillReq
  deriving DecidableEq, Repr, Inhabited

/-- A cluster after reset. -/
def Cluster.reset : Cluster where
  point := []
  walks := []
  fillLr := 0
  fillBuf := 0
  fillFailed := 0
  fillBatches := 0
  fillArmed := none
  fillQueue := []

/-! ## The distributor (22_launch_scheduling) -/

/-- A binding of a record to a trigger word (R431). -/
structure Binding where
  key : Nat
  cond : Nat
  value : Word
  deriving DecidableEq, Repr, Inhabited

/-- Where a launch stands from READY on (R422). -/
inductive LState where
  | ready
  | running
  | suspended
  deriving DecidableEq, Repr, Inhabited

/-- A launch from READY on: the copy of its record, region table and kernel descriptor that the distributor uses
(R423), the address space of its context as last read (R472), its state, the cluster a handler is confined to (R435), and, once bound: the run's number, the level it was
selected at, its place in the order of bindings, its cores in $cidx order, the $cidx whose share has ended, whether a
thread ended FAULTED or HALTED or was poisoned in reverse (R426), the contexts saved by $cidx (R290), the spill rings of ended shares by $cidx (R178), and whether it is to be
discarded once its cores are saved (R291, R439, R480). -/
structure Launch where
  words : List Word
  regions : List Region
  kdesc : List Word
  root : Nat
  asid : Nat
  state : LState
  only : Option Nat
  run : Nat
  level : Nat
  order : Nat
  cores : List Nat
  ended : List Nat
  partly : Bool
  saved : Tbl Core
  rings : Tbl (Tbl (List Word))
  drop : Bool
  deriving DecidableEq, Repr, Inhabited

/-- The distributor (R420, R431 to R436): the pool registers, whether a record has been armed since reset (R474),
the queues in FIFO order, the priorities q.prio has set, the 64 slots with their queue and the clock of its mapping,
the unmapped queues with work, rr by level, the selected heads that wait for cores with their levels, the bindings, the launches, the number
of the next run or binding, the clusters that armed handlers are confined to, and whether it has stopped binding, to
pass to READY (R477). -/
structure Dist where
  pool : Word
  count : Word
  armed : Bool
  queues : Tbl (List Nat)
  prios : Tbl Nat
  slots : List (Option (Nat × Nat))
  unmapped : List Nat
  rr : List Nat
  selected : List (Nat × Nat)
  bindings : Tbl Binding
  launches : Tbl Launch
  runs : Nat
  confined : Tbl Nat
  closed : Bool
  deriving DecidableEq, Repr, Inhabited

/-- The distributor after reset: rr[L] is 4,095 (R434); SYS_LRCOUNT holds 1, the least COUNT (DESIGN CHOICE, log 3). -/
def Dist.reset : Dist := ⟨0, 1, false, [], [], List.replicate 64 none, [], List.replicate 9 4095, [], [], [], 0, [], false⟩

/-! ## The link engines (23_link_engine) -/

/-- What a group descriptor says of an operation (R442). -/
structure Group where
  job : Nat
  gen : Nat
  rank : Nat
  members : List Nat
  deriving DecidableEq, Repr, Inhabited

/-- A link operation in flight (R445): its issuer, command, address space, the group once read, the clock of its
fork and the failure-detection time it forked under (R441), the contributions that have arrived by rank, with the
fields that must agree (R444), whether its own packets have left, the operations a fenced cl.bar waits for (R452), a
cl.ring's counts of steps completed, sent, received and acknowledged, with the clock since which PROGRESS has not
advanced while the next step was not seen to wait on GATE (R453, R454), the lowest code it has met, whether it ends with that code, and whether a cl.bar has timed out before it arrived. -/
structure LinkOp where
  run : Nat
  cidx : Nat
  opc : Nat
  desc : List Word
  comp : Comp
  root : Nat
  priv : Bool
  group : Option Group
  since : Nat
  timeout : Nat
  parts : Tbl (List Word × Wire)
  sent : Bool
  fence : List Nat
  steps : Nat
  sends : Nat
  recvs : Nat
  acks : Nat
  advance : Option Nat
  code : Nat
  failed : Bool
  ended : Bool
  deriving DecidableEq, Repr, Inhabited

/-- A fill.sync that waits for requests (R411). -/
structure FillSync where
  run : Nat
  cidx : Nat
  comp : Comp
  ids : List Nat
  deriving DecidableEq, Repr, Inhabited

/-- An instance of an acc.red that has failed, until every member's command has ended (R355, R357): its run, its MASK, the
$cidx of its members in rank order, its number, the code, and the $cidx of the members whose command has ended. -/
structure RedFail where
  run : Nat
  mask : Nat
  mates : List (Option Nat)
  nth : Nat
  code : Nat
  ended : List Nat
  deriving DecidableEq, Repr, Inhabited

/-- A routine of the transform cores (R336): code, offset, entry and budget. -/
structure Routine where
  code : List Byte
  off : Nat
  entry : Nat
  budget : Nat
  deriving DecidableEq, Repr, Inhabited

/-! ## The host's window (25_host_system) -/

/-- A voltage and frequency island (R484). -/
structure Island where
  mhz : Nat
  maxMhz : Nat
  temp : Nat
  gate : Bool
  throt : Bool
  deriving DecidableEq, Repr, Inhabited

/-- The registers of the MMIO window and of bring-up (R473, R476, R478, R479, R484): PHASE with its cause, ARMSTAT,
CTXTAB, INTSTAT, MCLOG, PCAP, DBGDATA, the feature registers, M0 to M2, the islands, and the UCIe modules that are up
(R471); and, the MODEL's own, what the host's last read returned: its bytes, and whether they were poisoned. -/
structure HostRegs where
  phase : Nat
  cause : BitVec 8
  armstat : Nat
  ctxtab : Word
  intstat : BitVec 4
  mclog : Word
  pcap : BitVec 12
  dbgdata : Word
  feat : Word
  featx : Word
  featack : Word
  featackx : Word
  m0 : List Byte
  m1 : List Byte
  m2 : List Byte
  islands : List Island
  modules : BitVec 8
  rdata : List Byte
  rpoison : Bool
  deriving DecidableEq, Repr, Inhabited

/-- The window after reset: PHASE 0 (R476), measurement registers of zero bytes (R479); the rest is log 3. -/
def HostRegs.reset : HostRegs where
  phase := 0
  cause := 0
  armstat := 0
  ctxtab := 0
  intstat := 0
  mclog := 0
  pcap := 3400
  dbgdata := 0
  feat := 0x3F
  featx := 0
  featack := 0
  featackx := 0
  m0 := List.replicate 64 0
  m1 := List.replicate 64 0
  m2 := List.replicate 64 0
  islands := List.replicate 512 ⟨1750, 0, 0, false, false⟩
  modules := 0xFF
  rdata := []
  rpoison := false

/-- The device. -/
structure Device where
  mem : Mem
  cores : List Core
  clusters : List Cluster
  /-- draws of the free values used so far: the MODEL's own counter (DESIGN CHOICE, log 1) -/
  free : Nat
  dist : Dist
  host : HostRegs
  /-- SYS_MCSWIN and RESULT of SYS_MCSSTAT; the microwords that differ from the mhalt word of R114 (R379) -/
  mcswin : Word
  mcsResult : Nat
  cstore : Tbl (BitVec 96)
  /-- SYS_XRIMG and RESULT of SYS_XRSTAT; the slots that hold a routine, and the slots' generations (R337, R338) -/
  xrimg : Word
  xrResult : Nat
  routines : Tbl Routine
  generations : Tbl Nat
  /-- SYS_DEVID, SYS_RINGTIMEOUT, and REPLAYS and UP of SYS_LINKSTAT (R441) -/
  devid : Word
  ringTimeout : Word
  replays : Nat
  portsUp : Nat
  /-- link operations in flight and how many were ever issued; packets that wait for a local operation with their
  arrival clock; packets sent, newest first, with their device; the peers that no port reaches, with the clock since when
(R440, R444) -/
  links : Tbl LinkOp
  linkCount : Nat
  inbox : List (Packet × Nat)
  outbox : List (Nat × Packet)
  unreachable : Tbl Nat
  /-- requests ever entered, and the fill.sync commands that wait (R410, R411) -/
  fillCount : Nat
  syncs : List FillSync
  redFailed : List RedFail
  deriving DecidableEq, Repr, Inhabited

/-- The device after reset: 384 cores and 48 clusters (R7). -/
def Device.reset : Device where
  mem := Mem.reset
  cores := List.replicate 384 Core.reset
  clusters := List.replicate 48 Cluster.reset
  free := 0
  dist := Dist.reset
  host := HostRegs.reset
  mcswin := 0
  mcsResult := 0xFF
  cstore := []
  xrimg := 0
  xrResult := 0xFF
  routines := []
  generations := []
  devid := 0
  ringTimeout := 40000
  replays := 0
  portsUp := 36
  links := []
  linkCount := 0
  inbox := []
  outbox := []
  unreachable := []
  fillCount := 0
  syncs := []
  redFailed := []

/-! ## The machine -/

/-- Which core, which of its pass's lanes and which node acts: the MODEL's own field, set by step before exec. -/
structure Focus where
  core : Nat
  lane : Nat
  node : Nat
  deriving DecidableEq, Repr, Inhabited

/-- The state of the machine: clocks of 1.75 GHz since reset (R4), the turns to come and the focus (the MODEL's own,
log 1), and the device. -/
structure State where
  clock : Nat
  agenda : List Turn
  focus : Focus
  dev : Device
  deriving DecidableEq, Repr

/-- Why a step stops with a fault. -/
inductive Fault where
  /-- raised by step when a turn names a core that the part does not have: there are 384 (R7). Safe: no step of the
  hardware is left out -/
  | noSuchCore (core : Nat)
  deriving DecidableEq, Repr

/-- Why a step is refused. -/
inductive Refusal where
  /-- raised by an arm of exec whose instruction has no meaning yet. Safe: nothing follows from it -/
  | notModelled (mnemonic : String)
  deriving DecidableEq, Repr

/-- The machine right after reset. -/
def State.reset : State := ⟨0, [], ⟨0, 0, 0⟩, Device.reset⟩

end Sys2Proof.Machine
end

