-- ==== Sys2Proof/Machine/Memory.lean ====
section
/-! DEFINITION. Global memory as a core, a cluster and an engine see it, scratchpads, publication, refresh and
translation (02_memory_model: R33 to R60, R485). -/

namespace Sys2Proof.Machine

/-! ## Fault classes (12_core_faults: R278), which are also completion codes (01_device: R26) -/

def clsTranslation : Nat := 0x0002
def clsPermission : Nat := 0x0003
def clsAlign : Nat := 0x0004
def clsBounds : Nat := 0x0005
def clsEcc : Nat := 0x0006
def clsConfig : Nat := 0x0010
def clsEngine : Nat := 0x0011
def clsFp : Nat := 0x0012
def clsNar : Nat := 0x0013
def clsCancel : Nat := 0x0014
def clsAdj : Nat := 0x0015
def clsTape : Nat := 0x0016

/-! ## Access to the parts of the device -/

namespace Device

/-- Core n. -/
def core (d : Device) (n : Nat) : Core := d.cores.getD n Core.reset

/-- The device with core n replaced by f of it. -/
def modCore (d : Device) (n : Nat) (f : Core → Core) : Device := { d with cores := updAt d.cores n f }

/-- Cluster n. -/
def cluster (d : Device) (n : Nat) : Cluster := d.clusters.getD n Cluster.reset

/-- The device with cluster n replaced by f of it. -/
def modCluster (d : Device) (n : Nat) (f : Cluster → Cluster) : Device :=
  { d with clusters := updAt d.clusters n f }

/-- Draws the next free value (DESIGN CHOICE, log 1). -/
def draw (d : Device) : Nat × Device := (Config.freeNat d.free, { d with free := d.free + 1 })

end Device

/-- The cluster of a core: 8 cores each (R7). -/
def clusterOf (core : Nat) : Nat := core / 8

/-- $core of core n = 96 d + 8 c + k (R11). -/
def coreCode (n : Nat) : Nat := n / 96 * 256 + n / 8 % 12 * 16 + n % 8

/-- The core that bits 9:0 in the layout of $core name, where they name one (R11). -/
def coreOfCode (v : Nat) : Option Nat :=
  let d := v / 256 % 4
  let c := v / 16 % 16
  if v / 8 % 2 = 0 ∧ c < 12 then some (96 * d + 8 * c + v % 8) else none

/-- Home keys at and above this number are host memory (R40). -/
def hostBase : Nat := 2 ^ 48

/-- Is a home key in host memory? -/
def isHostKey (k : Nat) : Bool := decide (hostBase ≤ k)

/-- The size of a scratchpad (R8). -/
def scratchSize : Nat := 0x18_0000

/-! ## The home slices (R38) -/

/-- The home L2 slice of a device physical address. -/
def homeSlice (pa : Nat) : Nat :=
  nfld pa 14 8 ^^^ nfld pa 21 15 ^^^ nfld pa 28 22 ^^^ nfld pa 35 29 ^^^ nfld pa 42 36 ^^^ nfld pa 47 43

/-- The die of a slice. -/
def sliceDie (s : Nat) : Nat := s / 32

/-- The quadrant, on its die, of a slice. -/
def sliceQuadrant (s : Nat) : Nat := s / 8 % 4

/-- The position of a slice in its quadrant. -/
def slicePosition (s : Nat) : Nat := s % 8

/-! ## The coherence points (R34, R37, R56) -/

/-- A byte at home. -/
def homeByte (d : Device) (a : Nat) : Byte := d.mem.home.get a

/-- n bytes at home, from a on. -/
def homeRead (d : Device) (a n : Nat) : List Byte := d.mem.home.read a n

/-- The number of writes in the coherence order so far. -/
def writesSoFar (d : Device) : Nat := d.mem.log.length

/-- The addresses of an access. -/
def span (a n : Nat) : List Nat := (List.range n).map (a + ·)

/-- Entries by address, cut into the aligned 8-byte words they lie in (R34). -/
def wordRuns {α : Type} : List (Nat × α) → List (List (Nat × α))
  | [] => []
  | e :: t =>
    match wordRuns t with
    | (f :: g) :: rest => if f.1 / 8 = e.1 / 8 then (e :: f :: g) :: rest else [e] :: (f :: g) :: rest
    | rest => [e] :: rest

/-- Bytes from a on, by address, that no coherence point holds yet. -/
def newBytes (a : Nat) (bs : List Byte) : List (Nat × Byte × Option Nat) :=
  ((span a bs.length).zip bs).map fun p => (p.1, p.2, none)

/-- The clusters after a write at home of the bytes ps: it replaces what their coherence points hold, but for what
cluster cl held already. -/
def dropPoints (cl : Nat) (ps : List (Nat × Byte × Option Nat)) (cs : List Cluster) : List Cluster :=
  cs.zipIdx.map fun c =>
    if c.1.point.isEmpty then c.1
    else { c.1 with point := c.1.point.filter fun e => !ps.any fun p => p.1 == e.1 && (p.2.2.isNone || c.2 != cl) }

/-- Writes bytes at home, each aligned 8-byte word as one single-copy-atomic write (R34, R60); a byte with a place in
the coherence order stood at the point of cluster cl. -/
def homePut (d : Device) (cl : Nat) (ps : List (Nat × Byte × Option Nat)) : Device :=
  { d with
    mem := { d.mem with
      home := ps.foldl (fun m p => m.set p.1 p.2.1) d.mem.home
      log := ((wordRuns ps).map fun r =>
        r.map fun p => ⟨none, p.1, homeByte d p.1, p.2.1, p.2.2.map fun q => (cl, q)⟩).reverse ++ d.mem.log }
    clusters := dropPoints cl ps d.clusters }

/-- Writes bytes at home, from a on. -/
def homeWrite (d : Device) (a : Nat) (bs : List Byte) : Device := homePut d 0 (newBytes a bs)

/-- A 64-bit word at home. -/
def homeWord (d : Device) (a : Nat) : Word := BitVec.ofNat 64 (ofBytes (homeRead d a 8))

/-- Writes a 64-bit word at home as one store. -/
def homeWriteWord (d : Device) (a : Nat) (v : Word) : Device := homeWrite d a (toBytes 8 v.toNat)

/-- The byte at a cluster's coherence point: what a core has published there, else the byte at home. -/
def pointByte (d : Device) (cl a : Nat) : Byte := ((d.cluster cl).point.find a).getD (homeByte d a)

/-- Writes bytes of one aligned word at a cluster's coherence point. -/
def pointPut (d : Device) (cl : Nat) (ps : List (Nat × Byte)) : Device :=
  let ents : List LogEnt := ps.map fun p => ⟨some cl, p.1, homeByte d p.1, p.2, none⟩
  { d with mem := { d.mem with log := ents :: d.mem.log } }.modCluster cl fun c =>
    { c with point := ps.foldl (fun (t : Tbl Byte) (p : Nat × Byte) => t.put p.1 p.2) c.point }

/-- Is it a write of byte a that cluster cl sees? -/
def LogEnt.seenAt (e : LogEnt) (cl a : Nat) : Bool :=
  e.addr == a && (match e.point with
    | none => e.carried.map Prod.fst != some cl
    | some c => c == cl)

/-- The newest byte of a log for which f holds. -/
def findLog (f : LogEnt → Bool) (log : List (List LogEnt)) : Option LogEnt := log.findSome? fun es => es.find? f

/-- The byte that cluster cl saw at a when the coherence order held p writes (R50, R56): what the newest of them wrote
there, else what stood at home before any. -/
def viewAt (d : Device) (cl p a : Nat) : Byte :=
  if writesSoFar d ≤ p then pointByte d cl a
  else match findLog (·.seenAt cl a) (d.mem.log.drop (writesSoFar d - p)) with
    | some e => e.new
    | none => match findLog (fun e => e.point == none && e.addr == a) d.mem.log.reverse with
      | some e => e.old
      | none => homeByte d a

/-! ## What a core reads (R48 to R52) -/

/-- The place of the newest write to a at the cluster's point before the core's refresh point for that scope, where it
lies above a place that the core has passed already; else 0 (R50). -/
def clPublished (d : Device) (cl passed point a : Nat) : Nat :=
  let older := (d.mem.log.drop (writesSoFar d - point)).take (point - passed)
  let i := older.findIdx fun es => es.any fun e => e.addr == a && e.point == some cl
  if i < older.length then point - i else 0

/-- The lowest position of the coherence order that a thread of the core may read byte a at: no older than what was
published at a scope before the refresh point for it, than what the core itself wrote, and than what the thread has
read (R50, R51). -/
def readFloor (d : Device) (core : Nat) (seen : Tbl Nat) (a : Nat) : Nat :=
  let c := (d.core core).cache
  let base := max (if isHostKey a then c.refreshSys else c.refreshDev)
    (max ((c.floors.find a).getD 0) ((seen.find a).getD 0))
  max base (clPublished d (clusterOf core) base c.refreshCl a)

/-- A byte in a word of a publication in progress that no coherence point holds yet. -/
def PubWord.find (w : PubWord) (a : Nat) : Option Byte :=
  match w with
  | .home bs => (Tbl.find bs a).bind fun e => if e.2.isNone then some e.1 else none
  | _ => none

/-- The core's own core-visible byte at a: of a store, of a Traverse record, or of a store that is being published. -/
def Cache.own (c : Cache) (a : Nat) : Option Byte :=
  match c.dirty.find a with
  | some b => some b
  | none => match c.tape.find a with
    | some b => some b
    | none => match c.pub with
      | some p => p.words.findSome? (·.find a)
      | none => none

/-- Bytes a thread of a core loads from a home key, with what it has seen afterwards: the core's own core-visible
bytes, else what its cluster saw at one allowed position, which is a free value where writes that the core need not
have seen touch the bytes (R50, R51; DEDUCED, log 4). -/
def coreRead (d : Device) (core : Nat) (seen : Tbl Nat) (a n : Nat) : List Byte × Tbl Nat × Device :=
  let cl := clusterOf core
  let now := writesSoFar d
  let lo := (span a n).foldl (fun m x => max m (readFloor d core seen x)) 0
  let fresh := (d.mem.log.take (now - lo)).any fun es => es.any fun e =>
    decide (a ≤ e.addr ∧ e.addr < a + n) && (e.point == none || e.point == some cl)
  let (v, d') := d.draw
  let p := if fresh then lo + v % (now - lo + 1) else now
  let bytes := (span a n).map fun x => ((d.core core).cache.own x).getD (viewAt d cl p x)
  if fresh then (bytes, (span a n).foldl (fun s x => s.put x p) seen, d') else (bytes, seen, d)

/-- A core's cache changed by f. -/
def modCache (d : Device) (core : Nat) (f : Cache → Cache) : Device :=
  d.modCore core fun c => { c with cache := f c.cache }

/-- Makes bytes core-visible: a committed store of the core (R48). -/
def coreWrite (d : Device) (core a : Nat) (bs : List Byte) : Device :=
  modCache d core fun c =>
    { c with
      dirty := ((span a bs.length).zip bs).foldl (fun t p => t.put p.1 p.2) c.dirty
      tape := c.tape.filter fun e => !decide (a ≤ e.1 ∧ e.1 < a + bs.length) }

/-- Makes bytes of a Traverse record core-visible (R260). -/
def tapeWrite (d : Device) (core a : Nat) (bs : List Byte) : Device :=
  modCache d core fun c =>
    { c with
      tape := ((span a bs.length).zip bs).foldl (fun t p => t.put p.1 p.2) c.tape
      dirty := c.dirty.filter fun e => !decide (a ≤ e.1 ∧ e.1 < a + bs.length) }

/-- Raises the core's floor for bytes to the present position (R50, R57). -/
def raiseFloors (d : Device) (core : Nat) (as : List Nat) : Device :=
  let now := writesSoFar d
  modCache d core fun c => { c with floors := as.foldl (fun t x => t.put x now) c.floors }

/-- A word of a publication without the bytes for which f holds. -/
def PubWord.without (w : PubWord) (f : Nat → Bool) : PubWord :=
  match w with
  | .home bs => .home (bs.filter fun e => !f e.1)
  | w => w

/-- Removes the core's own unpublished bytes from a on, which a write at a coherence point replaces (R57, R246;
DEDUCED, log 4). -/
def dropOwn (d : Device) (core a n : Nat) : Device :=
  let inside (x : Nat) : Bool := decide (a ≤ x ∧ x < a + n)
  modCache d core fun c =>
    { c with
      dirty := c.dirty.filter fun e => !inside e.1
      tape := c.tape.filter fun e => !inside e.1
      pub := c.pub.map fun p => { p with words := p.words.map (·.without inside) } }

/-! ## Scratchpads (R35, R58) -/

/-- Bytes of a scratchpad. -/
def scratchRead (d : Device) (core a n : Nat) : List Byte := (d.core core).scratch.read a n

/-- Is a line of the scratchpad that the bytes touch uncorrectable? -/
def scratchBadAt (d : Device) (core a n : Nat) : Bool :=
  (d.core core).scratchBad.any fun l => decide (l / 64 * 64 < a + n ∧ a < l / 64 * 64 + 64)

/-- The first byte of n bytes of a scratchpad, from a on, that lies in a poisoned line. -/
def scratchBadFrom (d : Device) (core a n : Nat) : Option Nat :=
  (((d.core core).scratchBad.map (· / 64 * 64)).filterMap fun l =>
    if l < a + n ∧ a < l + 64 then some (max l a) else none).min?

/-- The bit mask of the 4 KiB granules that n bytes from a touch (R290). -/
def scrGranules (a n : Nat) : Nat :=
  if n = 0 then 0
  else (List.range ((a + n - 1) / 4096 - a / 4096 + 1)).foldl (fun m i => m ||| 2 ^ (a / 4096 + i)) 0

/-- Writes bytes into a scratchpad. -/
def scratchWrite (d : Device) (core a : Nat) (bs : List Byte) : Device :=
  d.modCore core fun c =>
    { c with scratch := c.scratch.write a bs, scrDirty := c.scrDirty ||| scrGranules a bs.length }

/-- A 64-bit word of a scratchpad. -/
def scratchWord (d : Device) (core a : Nat) : Word := BitVec.ofNat 64 (ofBytes (scratchRead d core a 8))

/-- A byte for a scratchpad in a word of a publication in progress. -/
def PubWord.findRemote (w : PubWord) (target a : Nat) : Option Byte :=
  match w with
  | .remote t bs => if t = target then Tbl.find bs a else none
  | _ => none

/-- The core's own byte for another scratchpad that it has not published yet. -/
def Cache.ownRemote (c : Cache) (target a : Nat) : Option Byte :=
  match Tbl.find ((c.remote.find target).getD []) a with
  | some b => some b
  | none => match c.pub with
    | some p => p.words.findSome? (·.findRemote target a)
    | none => none

/-- Bytes another core's scratchpad shows this core: its own core-visible bytes that it has not published yet, else
the target's (R48, R58; DEDUCED, log 4). -/
def remoteRead (d : Device) (core target a n : Nat) : List Byte :=
  (span a n).map fun x => ((d.core core).cache.ownRemote target x).getD ((d.core target).scratch.get x)

/-- Removes the core's own unpublished bytes for another scratchpad, which an rmw there replaces (R59, R246; DEDUCED,
log 4). -/
def dropRemote (d : Device) (core target a n : Nat) : Device :=
  let inside (x : Nat) : Bool := decide (a ≤ x ∧ x < a + n)
  modCache d core fun c =>
    { c with
      remote := c.remote.map fun t => if t.1 = target then (t.1, t.2.filter fun e => !inside e.1) else t
      pub := c.pub.map fun p => { p with words := p.words.map fun w => match w with
        | .remote t bs => if t = target then .remote t (bs.filter fun e => !inside e.1) else w
        | w => w } }

/-! ## Publication and refresh (R53, R54, R55) -/

/-- The bytes of global memory that a pub of a scope publishes: at cluster scope the unpublished bytes of device memory,
at device scope also what was published at cluster scope only, at system scope host-mapped bytes too (R40, R53). -/
def pubBytes (c : Cache) (scope : Nat) : Tbl (Byte × Option Nat) :=
  let old : Tbl (Byte × Option Nat) := if scope = 2 then [] else c.sent.map fun e => (e.1, e.2.1, some e.2.2)
  c.dirty.foldl (fun t e => if scope == 4 || !isHostKey e.1 then t.put e.1 (e.2, none) else t) old

/-- The words of the set that a pub of a scope publishes, and the cache without them; the bytes for other scratchpads
are among them. Traverse records stay (R53, R58, R260). -/
def capture (c : Cache) (scope : Nat) : List PubWord × Cache :=
  let goes (e : Nat × Byte) : Bool := scope == 4 || !isHostKey e.1
  ((wordRuns (pubBytes c scope)).map PubWord.home
      ++ c.remote.flatMap fun t => (wordRuns t.2).map (PubWord.remote t.1),
    { c with
      dirty := c.dirty.filter fun e => !goes e
      sent := if scope = 2 then c.sent else []
      remote := [] })

/-- Was byte a written at home after the coherence order held p writes? What was carried home from the point of
cluster cl keeps the place that it had there (R56; DEDUCED, log 4). -/
def replaced (d : Device) (cl a p : Nat) : Bool :=
  (d.mem.log.take (writesSoFar d - p)).any fun es => es.any fun e =>
    e.addr == a && e.point == none && (match e.carried with
      | some (k, q) => k != cl || decide (p < q)
      | none => true)

/-- The core's Traverse records become stores like others: as its context is saved, or its share of the launch ends, all
that is core-visible is published (R288, R426; DEDUCED, log 4). -/
def untape (d : Device) (core : Nat) : Device :=
  modCache d core fun c => { c with dirty := c.tape.foldl (fun t e => t.put e.1 e.2) c.dirty, tape := [] }

/-- One word of a set reaches the coherence point of a scope, as one write. What was published at cluster scope before
goes home unless a newer write at home has replaced it; the cluster has seen it already. -/
def publishWord (d : Device) (core scope : Nat) (w : PubWord) : Device :=
  let cl := clusterOf core
  match w with
  | .home bs =>
    if scope = 2 then
      let d := pointPut d cl (bs.map fun e => (e.1, e.2.1))
      let now := writesSoFar d
      raiseFloors (modCache d core fun c => { c with sent := bs.foldl (fun t e => t.put e.1 (e.2.1, now)) c.sent }) core
        (bs.map (·.1))
    else
      let out := bs.filter fun e => match e.2.2 with
        | some p => !replaced d cl e.1 p
        | none => true
      raiseFloors (homePut d cl out) core (out.map (·.1))
  | .remote t bs => bs.foldl (fun d e => scratchWrite d t e.1 [e.2]) d

/-- Words of a set reach the coherence point in order. -/
def publishWords (d : Device) (core scope : Nat) (ws : List PubWord) : Device :=
  ws.foldl (fun d w => publishWord d core scope w) d

/-- The publication in progress is completed. -/
def finishPub (d : Device) (core : Nat) : Device :=
  match (d.core core).cache.pub with
  | none => d
  | some p => publishWords (modCache d core fun c => { c with pub := none }) core p.scope p.words

/-- pub at a scope: 1 core, 2 cluster, 3 device, 4 system (R53, R245), of everything core-visible. -/
def publish (d : Device) (core scope : Nat) : Device :=
  if 2 ≤ scope ∧ scope ≤ 4 then
    let d := finishPub d core
    let s := capture (d.core core).cache scope
    publishWords (modCache d core fun _ => s.2) core scope s.1
  else d

/-- A pub's set as its node fires for a lane, where no other publication is in progress; at core scope nothing leaves
the core (R53, R58). -/
def startPub (d : Device) (core lane node scope : Nat) : Device :=
  match (d.core core).cache.pub with
  | some _ => d
  | none =>
    if scope < 2 then d
    else modCache d core fun c =>
      let s := capture c scope
      { s.2 with pub := some ⟨lane, node, scope, s.1⟩ }

/-- Word k of the set of a pub that is in progress reaches the coherence point before the others: publication is not
atomic (R53). -/
def spread (d : Device) (core lane node scope k : Nat) : Device :=
  let d := startPub d core lane node scope
  match (d.core core).cache.pub with
  | none => d
  | some p =>
    if p.lane = lane ∧ p.node = node then
      match p.words[k]? with
      | none => d
      | some w => publishWord (modCache d core fun c => { c with pub := some { p with words := p.words.eraseIdx k } }) core
          p.scope w
    else d

/-- The pub of a lane's node completes: the rest of its set, or all of it (R53). -/
def completePub (d : Device) (core lane node scope : Nat) : Device :=
  match (d.core core).cache.pub with
  | some p => if p.lane = lane ∧ p.node = node then finishPub d core else publish d core scope
  | none => publish d core scope

/-- refresh at a scope: the refresh points for it and every narrower scope move to now (R54). -/
def refresh (d : Device) (core scope : Nat) : Device :=
  let now := writesSoFar d
  modCache d core fun c =>
    { c with
      refreshCl := if 2 ≤ scope then now else c.refreshCl
      refreshDev := if 3 ≤ scope then now else c.refreshDev
      refreshSys := if 4 ≤ scope then now else c.refreshSys }

/-! ## Atomic access at a coherence point (R51, R57) -/

/-- What a thread has seen of bytes, raised to the present position. -/
def seeNow (d : Device) (seen : Tbl Nat) (a n : Nat) : Tbl Nat :=
  (span a n).foldl (fun s x => s.put x (writesSoFar d)) seen

/-- The bytes an rmw of a scope reads at a home key, with the thread's seen list: the core's own view at core scope;
else what stands at the cluster's point, or at home, and from then on no thread of the core reads anything older. A
store of the core that is not published yet stays the core's own (DEDUCED, log 4). -/
def atomicRead (d : Device) (core scope : Nat) (seen : Tbl Nat) (a n : Nat) : List Byte × Tbl Nat × Device :=
  match scope with
  | 1 => coreRead d core seen a n
  | 2 => ((span a n).map (pointByte d (clusterOf core)), seeNow d seen a n, raiseFloors d core (span a n))
  | _ => (homeRead d a n, seeNow d seen a n, raiseFloors d core (span a n))

/-- Writes what an rmw of a scope writes at a home key, of bytes within one aligned word. A write at a coherence point
replaces the core's own unpublished bytes of the location, as the store is older; the other bytes of the line, which
the rule does not publish, stay as they are (R57, R246; DEDUCED, log 4). -/
def atomicWrite (d : Device) (core scope a : Nat) (bs : List Byte) : Device :=
  match scope with
  | 1 => coreWrite d core a bs
  | 2 =>
    publishWord (dropOwn d core a bs.length) core 2 (.home (newBytes a bs))
  | _ => raiseFloors (homeWrite (dropOwn d core a bs.length) a bs) core (span a bs.length)

/-! ## Uncorrectable data (R39) -/

/-- Does an access touch a line that holds uncorrectable data? -/
def badAt (d : Device) (a n : Nat) : Bool :=
  d.mem.bad.any fun l => decide (l / 64 * 64 < a + n ∧ a < l / 64 * 64 + 64)

/-- An engine's write at home: a line it writes whole is good again (R39, R60). -/
def engWrite (d : Device) (a : Nat) (bs : List Byte) : Device :=
  let d := homeWrite d a bs
  { d with mem := { d.mem with
      bad := d.mem.bad.filter fun l => !decide (a ≤ l / 64 * 64 ∧ l / 64 * 64 + 64 ≤ a + bs.length) } }

/-- An engine's write into a scratchpad: a line it writes whole is good again. -/
def engScratchWrite (d : Device) (core a : Nat) (bs : List Byte) : Device :=
  (scratchWrite d core a bs).modCore core fun c =>
    { c with scratchBad :=
        c.scratchBad.filter fun l => !decide (a ≤ l / 64 * 64 ∧ l / 64 * 64 + 64 ≤ a + bs.length) }

/-! ## Translation (R42 to R47, R485) -/

/-- A translation: the home key, and whether the page maps host memory. -/
structure Xlated where
  key : Nat
  host : Bool
  deriving DecidableEq, Repr, Inhabited

/-- The page size of a SIZE code as a power of two (R43). -/
def pageLog (size : Nat) : Nat :=
  match size with
  | 0 => 12
  | 1 => 16
  | 2 => 18
  | 3 => 21
  | 4 => 24
  | 5 => 27
  | 6 => 30
  | _ => 34

/-- Which SIZE codes a leaf of a level may have (R42). -/
def sizeOk (level size : Nat) : Bool :=
  match level with
  | 0 => size ≤ 2
  | 1 => 3 ≤ size && size ≤ 5
  | 2 => 6 ≤ size
  | _ => false

/-- Is the memory at a home key served? In REDUCED only HBM stacks 0 to 2 are (25_host_system: R477). A line of 64 bytes
lies in one stack (DESIGN CHOICE, log 13). -/
def served (d : Device) (key : Nat) : Bool :=
  d.host.phase != 2 || isHostKey key || decide (Config.stackOf (key / 64) ≤ 2)

/-- How far into n bytes from a home key the first byte that is not served lies, where one does. -/
def unserved (d : Device) (key n : Nat) : Option Nat :=
  if d.host.phase = 2 then (List.range n).find? fun i => !served d (key + i) else none

/-- The walk from a table of a level down, at the home slices (R42, R44): the leaf, or none for a TRANSLATION fault. A
level-0 entry with V 1 and LEAF 0, for which R44 lists no property, is taken for one that ends the walk (DESIGN
CHOICE, log 46). -/
def walkGo (d : Device) (va : Nat) : (level : Nat) → (table : Nat) → Option Word
  | level, table =>
    let idx := va / 2 ^ (12 + 9 * level) % (if level = 4 then 256 else 512)
    let e := homeWord d (table + 8 * idx)
    if !served d (table + 8 * idx) then none
    else if !bit e 0 || fld e 63 48 != 0 || fld e 11 8 != 0 then none
    else if bit e 1 then
      (if sizeOk level (fld e 7 5) && mult (fld e 47 12 * 2 ^ 12) (2 ^ pageLog (fld e 7 5)) then some e else none)
    else if fld e 7 5 != 0 || bit e 4 then none
    else match level with
      | 0 => none
      | l + 1 => walkGo d va l (fld e 47 12 * 2 ^ 12)

/-- The walker's walk from a root (R42 to R44). -/
def walk (d : Device) (root va : Nat) : Option Word := walkGo d va 4 root

/-- The home key of an address under a leaf (R43). -/
def leafKey (leaf : Word) (va : Nat) : Xlated :=
  let k := fld leaf 47 12 * 2 ^ 12 + va % 2 ^ pageLog (fld leaf 7 5)
  ⟨if bit leaf 4 then hostBase + k else k, bit leaf 4⟩

/-- Does a leaf permit an access (R43, R44, R485)? -/
def leafAllows (leaf : Word) (priv write : Bool) : Bool :=
  (priv || !bit leaf 3) && (!write || bit leaf 2)

/-- What keeps a translation entry of its own: nothing, the stream of a MEM slot, by node, or a stream of a command in
a copy engine's slot (R45, 15_copy_engine: R304). -/
inductive Via where
  | none
  | node (n : Nat)
  | stream (slot k : Nat)
  deriving DecidableEq, Repr, Inhabited

/-- The translation entry of a stream. -/
def entryOf (c : Core) : Via → Option Xl
  | .none => none
  | .node n => c.cache.slots.find n
  | .stream s k => (c.copy.find s).bind fun t => t.xls.find k

/-- Sets the translation entry of a stream. -/
def setEntry (d : Device) (core : Nat) (via : Via) (x : Xl) : Device :=
  match via with
  | .none => d
  | .node n => modCache d core fun c => { c with slots := c.slots.put n x }
  | .stream s k => d.modCore core fun c =>
      { c with copy := c.copy.map fun t => if t.1 = s then (t.1, { t.2 with xls := t.2.xls.put k x }) else t }

/-- Does an entry map an address in an address space? -/
def Xl.covers (x : Xl) (root asid va : Nat) : Bool :=
  x.root == root && x.asid == asid && decide (x.va ≤ va ∧ va < x.va + x.size)

/-- Does the core use an entry: one that the tables still give, or one that they no longer give, which may go on being
used and is a free choice (R45, R47; DESIGN CHOICE, log 5)? -/
def useEntry (d : Device) (walked : Option Word) (x : Xl) : Bool × Device :=
  if walked = some x.leaf then (true, d)
  else
    let (v, d) := d.draw
    (v % 2 == 0, d)

/-- Puts an entry into the core's translation cache of 512; which one makes room in a full one is free (R45). -/
def cacheXl (d : Device) (core : Nat) (x : Xl) : Device :=
  let xs := (d.core core).cache.xl.filter fun y => y != x
  if xs.length < 512 then modCache d core fun c => { c with xl := x :: xs }
  else
    let (v, d) := d.draw
    modCache d core fun c => { c with xl := x :: xs.eraseIdx (v % xs.length) }

/-- A walk's result refills the translation cache and the stream's entry. -/
def keepWalk (d : Device) (core : Nat) (via : Via) (root asid va : Nat) (walked : Option Word) : Device :=
  match walked with
  | none => d
  | some leaf =>
    let size := 2 ^ pageLog (fld leaf 7 5)
    let x : Xl := ⟨root, asid, va / size * size, size, leaf⟩
    setEntry (cacheXl d core x) core via x

/-- The translation by a core's translation cache, which refills the stream's entry, else by a walk, which refills
both (R45). -/
def xlateCached (d : Device) (core : Nat) (via : Via) (root asid va : Nat) (walked : Option Word) : Option Word × Device :=
  match (d.core core).cache.xl.find? (·.covers root asid va) with
  | none => (walked, keepWalk d core via root asid va walked)
  | some x => match useEntry d walked x with
    | (true, d) => (some x.leaf, setEntry d core via x)
    | (false, d) => (walked, keepWalk d core via root asid va walked)

/-- The translation of an address in a core's current address space: by the stream's entry, else by the core's
translation cache or a walk (R45). -/
def xlate (d : Device) (core : Nat) (via : Via) (va : Nat) : Option Word × Device :=
  let c := d.core core
  let root := c.regs.xlroot.toNat
  let asid := c.regs.xlasid.toNat
  let walked := walk d root va
  match (entryOf c via).filter (·.covers root asid va) with
  | none => xlateCached d core via root asid va walked
  | some x => match useEntry d walked x with
    | (true, d) => (some x.leaf, d)
    | (false, d) => xlateCached d core via root asid va walked

/-- What the core's last access to an address, by a stream, was translated through (R24, R45). -/
def mappedBy (d : Device) (core : Nat) (via : Via) (va : Nat) : Mapped :=
  let c := d.core core
  let root := c.regs.xlroot.toNat
  let asid := c.regs.xlasid.toNat
  match (entryOf c via).filter (·.covers root asid va) with
  | some x => ⟨asid, x.va, x.size⟩
  | none => match c.cache.xl.find? (·.covers root asid va) with
    | some x => ⟨asid, x.va, x.size⟩
    | none => ⟨asid, va / 4096 * 4096, 4096⟩

/-- Does a walk for a page of a MEM slot's stream stand in flight (R45)? -/
def walkPending (d : Device) (core node va : Nat) : Bool :=
  (d.cluster (clusterOf core)).walks.any fun w => w.core == core && w.node == node && w.page == va / 4096

/-- Checks an access through a leaf (R44, R477, R485). -/
def leafAccess (d : Device) (leaf : Word) (va : Nat) (priv write : Bool) : Except Nat Xlated :=
  if leafAllows leaf priv write then
    (if served d (leafKey leaf va).key then .ok (leafKey leaf va) else .error clsTranslation)
  else .error clsPermission

/-- Translates an access of a stream and checks it (R44, R485): the translation, or the class it fails with. -/
def accessVia (d : Device) (core : Nat) (via : Via) (va : Nat) (priv write : Bool) : Except Nat Xlated × Device :=
  if 2 ^ 56 ≤ va then (.error clsTranslation, d)
  else
    match xlate d core via va with
    | (none, d) => (.error clsTranslation, d)
    | (some leaf, d) => (leafAccess d leaf va priv write, d)

/-- Translates an access of a core that no stream makes, and checks it. -/
def access (d : Device) (core va : Nat) (priv write : Bool) : Except Nat Xlated × Device :=
  accessVia d core .none va priv write

/-- Translates and checks n bytes of a page for a stream: the translation, or the class and the address that fail. -/
def reachVia (d : Device) (core : Nat) (via : Via) (va n : Nat) (priv write : Bool) :
    Except (Nat × Nat) Xlated × Device :=
  match accessVia d core via va priv write with
  | (.error c, d) => (.error (c, va), d)
  | (.ok x, d) =>
    match unserved d x.key n with
    | some i => (.error (clsTranslation, va + i), d)
    | none => (.ok x, d)

/-- How far into n bytes from a home key the first uncorrectable line begins. -/
def badOff (d : Device) (key n : Nat) : Nat :=
  d.mem.bad.foldl (init := n) fun m l =>
    let x := l / 64 * 64
    if x < key + n ∧ key < x + 64 then min m (x - key) else m

/-- Reads bytes of global memory at home, page by page, for a stream of an engine or for the loader (R60, R90): the
bytes, or the class and the address that failed. -/
def vread (d : Device) (core : Nat) (via : Via) (priv : Bool) : (fuel : Nat) → (va n : Nat) →
    Except (Nat × Nat) (List Byte) × Device
  | 0, _, _ => (.ok [], d)
  | fuel + 1, va, n =>
    if n = 0 then (.ok [], d)
    else
      let k := min n (4096 - va % 4096)
      match reachVia d core via va k priv false with
      | (.error e, d) => (.error e, d)
      | (.ok x, d) =>
        if badAt d x.key k then (.error (clsEcc, va + badOff d x.key k), d)
        else
          match vread d core via priv fuel (va + k) (n - k) with
          | (.error e, d') => (.error e, d')
          | (.ok rest, d') => (.ok (homeRead d x.key k ++ rest), d')

/-- Reads n bytes of global memory at home for a stream. -/
def engReadVia (d : Device) (core : Nat) (via : Via) (priv : Bool) (va n : Nat) :
    Except (Nat × Nat) (List Byte) × Device :=
  vread d core via priv (n / 4096 + 2) va n

/-- Reads n bytes of global memory at home, where no stream keeps a translation. -/
def engRead (d : Device) (core : Nat) (priv : Bool) (va n : Nat) : Except (Nat × Nat) (List Byte) × Device :=
  engReadVia d core .none priv va n

/-- Bytes read ahead, by address, stand over those that are read at an address now (R318). -/
def layOver (t : Tbl Byte) (a : Nat) (bs : List Byte) : List Byte :=
  if t = [] then bs else bs.zipIdx.map fun x => (t.find (a + x.2)).getD x.1

/-- What a command's slot has read ahead of a part. -/
def aheadOf (d : Device) (core slot part : Nat) : Tbl Byte :=
  (((d.core core).copy.find slot).bind fun s => s.parts.find part).getD []

/-- The pieces of a range, page by page, translated for writing by a stream; or the class and the address that fail. -/
def vplanVia (d : Device) (core : Nat) (via : Via) (priv : Bool) : (fuel : Nat) → (va n : Nat) →
    Except (Nat × Nat) (List (Nat × Nat)) × Device
  | 0, _, _ => (.ok [], d)
  | fuel + 1, va, n =>
    if n = 0 then (.ok [], d)
    else
      let k := min n (4096 - va % 4096)
      match reachVia d core via va k priv true with
      | (.error e, d) => (.error e, d)
      | (.ok x, d) =>
        match vplanVia d core via priv fuel (va + k) (n - k) with
        | (.error e, d') => (.error e, d')
        | (.ok rest, d') => (.ok ((x.key, k) :: rest), d')

/-- The pieces of a range that no stream translates. -/
def vplan (d : Device) (core : Nat) (priv : Bool) (fuel va n : Nat) : Except (Nat × Nat) (List (Nat × Nat)) × Device :=
  vplanVia d core .none priv fuel va n

/-- Writes bytes over the planned pieces at home. -/
def writePieces (d : Device) : List (Nat × Nat) → List Byte → Device
  | [], _ => d
  | (k, n) :: t, bs => writePieces (engWrite d k (bs.take n)) t (bs.drop n)

/-- Writes bytes of global memory at home for an engine, all or none (R60): ok, or the class and the address that
failed. -/
def engWriteV (d : Device) (core : Nat) (priv : Bool) (va : Nat) (bs : List Byte) :
    Except (Nat × Nat) Unit × Device :=
  match vplan d core priv (bs.length / 4096 + 2) va bs.length with
  | (.error e, d) => (.error e, d)
  | (.ok ps, d) => (.ok (), writePieces d ps bs)

/-- Reads a 64-bit word of global memory at home. -/
def engReadWord (d : Device) (core : Nat) (priv : Bool) (va : Nat) : Except (Nat × Nat) Word × Device :=
  match engRead d core priv va 8 with
  | (.error e, d) => (.error e, d)
  | (.ok bs, d) => (.ok (BitVec.ofNat 64 (ofBytes bs)), d)

/-! ## Accesses of units that belong to no core (21 to 25: R410, R420, R443)

The distributor, the Infill engines and the link engines translate in the address space of a context, without a
core's cached translations. -/

/-- Translates and checks an access under a root. -/
def rootAccess (d : Device) (root va : Nat) (priv write : Bool) : Except Nat Xlated :=
  if 2 ^ 56 ≤ va then .error clsTranslation
  else
    match walk d root va with
    | none => .error clsTranslation
    | some leaf => leafAccess d leaf va priv write

/-- The pieces of a range under a root, page by page; or the class and the address that fail. -/
def rootPlan (d : Device) (root : Nat) (priv write : Bool) : (fuel : Nat) → (va n : Nat) →
    Except (Nat × Nat) (List (Nat × Nat))
  | 0, _, _ => .ok []
  | fuel + 1, va, n =>
    if n = 0 then .ok []
    else
      let k := min n (4096 - va % 4096)
      match rootAccess d root va priv write with
      | .error c => .error (c, va)
      | .ok x =>
        match unserved d x.key k with
        | some i => .error (clsTranslation, va + i)
        | none =>
          match rootPlan d root priv write fuel (va + k) (n - k) with
          | .error e => .error e
          | .ok rest => .ok ((x.key, k) :: rest)

/-- How far into planned pieces the first uncorrectable line begins, where one does. -/
def piecesBad (d : Device) : List (Nat × Nat) → Option Nat
  | [] => none
  | (k, n) :: t => if badAt d k n then some (badOff d k n) else (piecesBad d t).map (n + ·)

/-- Reads bytes under a root at home (R60): the bytes, or the class and the address that failed. -/
def rootRead (d : Device) (root : Nat) (priv : Bool) (va n : Nat) : Except (Nat × Nat) (List Byte) :=
  match rootPlan d root priv false (n / 4096 + 2) va n with
  | .error e => .error e
  | .ok ps =>
    match piecesBad d ps with
    | some n => .error (clsEcc, va + n)
    | none => .ok (ps.flatMap fun p => homeRead d p.1 p.2)

/-- Reads a 64-bit word under a root at home. -/
def rootWord (d : Device) (root : Nat) (priv : Bool) (va : Nat) : Except (Nat × Nat) Word :=
  match rootRead d root priv va 8 with
  | .error e => .error e
  | .ok bs => .ok (BitVec.ofNat 64 (ofBytes bs))

/-- Writes bytes under a root at home, all or none. -/
def rootWrite (d : Device) (root : Nat) (priv : Bool) (va : Nat) (bs : List Byte) : Except (Nat × Nat) Device :=
  match rootPlan d root priv true (bs.length / 4096 + 2) va bs.length with
  | .error e => .error e
  | .ok ps => .ok (writePieces d ps bs)

end Sys2Proof.Machine
end

