-- ==== Sys2Proof/Machine/Operands.lean ====
section
/-! DEFINITION. The operands of a node and of an exit word: node results, live slots, constants, specials, imm16, and
effective addresses (03: R79; 04_encoding: R97, R102, R103; 06_core_execution: R165, R166; 12_core_faults: R279). -/

namespace Sys2Proof.Machine

/-- Where a thread stands in a pass: the core, the lane's position, and what they hold. -/
structure Env where
  core : Nat
  lane : Nat
  node : Nat
  now : Nat
  bound : Bound
  pass : Pass
  l : Lane
  t : Thread
  words : List Word
  deriving DecidableEq, Repr

/-- The value of a special operand as a u64 (R103). -/
def special (d : Device) (e : Env) (code : Nat) : Word :=
  let b := e.bound
  match code with
  | 0xE0 => BitVec.ofNat 64 e.l.tid
  | 0xE1 => BitVec.ofNat 64 (b.cidx * b.nthreads + e.l.tid)
  | 0xE2 => BitVec.ofNat 64 b.nthreads
  | 0xE3 => BitVec.ofNat 64 (coreCode e.core)
  | 0xE4 => BitVec.ofNat 64 (b.cidx / (b.ncores / b.stages))
  | 0xE5 => BitVec.ofNat 64 (e.lane % 16)
  | 0xE6 => BitVec.ofNat 64 e.pass.num
  | 0xE7 => if e.pass.rev then 1 else 0
  | 0xE8 => BitVec.ofNat 64 b.param
  | 0xE9 => BitVec.ofNat 64 b.ncores
  | 0xEA => BitVec.ofNat 64 b.cidx
  | 0xEB => 0
  | 0xEC => 1
  | 0xED => (d.core e.core).regs.faultbase + BitVec.ofNat 64 (64 * e.l.tid)
  | 0xEE =>
    match b.fill with
    | some (addr, count) =>
      let g := b.cidx * b.nthreads + e.l.tid
      if g < count then BitVec.ofNat 64 (addr + 64 + 64 * g) else 0
    | none => 0
  | _ => 0

/-- $one as a value of a type (R103). -/
def oneOf (t : Nat) : Word :=
  match t with
  | 4 => 0x3F800000
  | 5 => 0x3FF0000000000000
  | 6 => 0x3F80
  | _ => 1

/-- imm16 widened to a type (R79). -/
def widenImm (t : Nat) (imm : BitVec 16) : Word :=
  match t with
  | 0 | 2 => imm.signExtend 64
  | 4 => BitVec.ofNat 64 (widenBf16 f32 imm.toNat)
  | 5 => BitVec.ofNat 64 (widenBf16 f64 imm.toNat)
  | 7 => BitVec.ofNat 64 (imm.toNat % 2)
  | _ => imm.zeroExtend 64

/-- The type of the source operand of cvt, fcvt, icvtf and fcvti (R110). -/
def srcType (isCvti : Bool) (mod : Nat) : Nat :=
  if isCvti then (match mod % 4 with
    | 0 => 4
    | 1 => 5
    | _ => 6) else mod

/-- imm16 in a role: a value of TYPE, of the source type, a pred, a binary32, or a u64; the operand of an address
generator, for which no widening is named, is widened as an address, with zeros (R79, R97, R219; DESIGN CHOICE, log
47). -/
def immIn (role : Role) (typ src : Nat) (imm : BitVec 16) : Word :=
  match role with
  | .val => widenImm typ imm
  | .src => widenImm src imm
  | .pred => widenImm 7 imm
  | .f32 => if 8 ≤ typ then imm.zeroExtend 64 else widenImm 4 imm
  | _ => imm.zeroExtend 64

/-- The token that an operand field holds for the thread, none while it is absent (R102, R165). The codes 0xFF and
0xF0 are those of a node's own fields. -/
def operand (d : Device) (e : Env) (role : Role) (typ src : Nat) (imm : BitVec 16) (code : BitVec 8) :
    Option Token :=
  let c := code.toNat
  if c < 0x40 then e.l.tokens.find c
  else if c < 0xC0 then some (.value (e.t.live.get (c - 0x40)))
  else if c < 0xE0 then some (.value (imgConst e.words (c - 0xC0)))
  else if c = 0xEC ∧ role = .val then some (.value (oneOf typ))
  else if c < 0xEF then some (.value (special d e c))
  else if c = 0xF0 then some (.value (immIn role typ src imm))
  else some (.value 0)

/-- What the three operand fields of a node give it (R166, R279). -/
inductive Args where
  /-- a token is still missing -/
  | absent
  /-- the origin of the poison to pass on: of several, the one with the lowest origin node, the earlier operand where
  they are equal -/
  | poison (o : Origin)
  | cancel
  | values (a b c : Word)
  deriving DecidableEq, Repr

/-- The poison of two to pass on (R279). -/
def worse (x y : Option Origin) : Option Origin :=
  match x, y with
  | some a, some b => if b.node < a.node then some b else some a
  | some a, none => some a
  | none, y => y

/-- The origin of a token, where it is poison. -/
def originOf : Token → Option Origin
  | .poison o => some o
  | _ => none

/-- The value of a token, 0 where it is none. -/
def valueOf : Token → Word
  | .value v => v
  | _ => 0

/-- Three tokens together: poison before cancel before values (R166). -/
def combine (x y z : Option Token) : Args :=
  match x, y, z with
  | some a, some b, some c =>
    match worse (worse (originOf a) (originOf b)) (originOf c) with
    | some o => .poison o
    | none =>
      if a = .cancel ∨ b = .cancel ∨ c = .cancel then .cancel
      else .values (valueOf a) (valueOf b) (valueOf c)
  | _, _, _ => .absent

/-- The effective address of an address operand, an address generator, OFF and the access size, and whether it keeps
the generator's bounds (R33, R97). -/
def effAddr (e : Env) (ag : BitVec 4) (a : Word) (off : BitVec 48) (size : Nat) : Nat × Bool :=
  if ag = 15 then ((a.toNat + (off.signExtend 64).toNat) % 2 ^ 64, true)
  else
    let g := imgAg e.words ag.toNat
    let dist : Int := g.stid * e.l.tid + g.spass * e.pass.num + g.sop * sext 64 a.toNat + off.toInt
    ((((g.base : Int) + dist) % (2 : Int) ^ 64).toNat,
      decide ((g.lo = 0 ∧ g.hi = 0) ∨ (g.lo ≤ dist ∧ dist + size ≤ g.hi)))

/-- The range of a space (R33): none for an address in it, else the class of the fault. -/
def spaceFault (space ea : Nat) : Option Nat :=
  match space with
  | 0 => if 2 ^ 56 ≤ ea then some clsTranslation else none
  | 1 => if scratchSize ≤ ea then some clsBounds else none
  | 2 => if 0x0100_0000 ≤ ea ∨ scratchSize ≤ ea % 2 ^ 21 then some clsBounds else none
  | 3 => if 0x1_0000 ≤ ea then some clsBounds else none
  | _ => none

end Sys2Proof.Machine
end

