-- ==== Sys2Proof/Machine/Ops.lean ====
section
/-! DEFINITION. The shared operations of the fabric: a thread fires a node, taking a fault and resuming from one
(06_core_execution: R165 to R169; 12_core_faults: R278 to R286, R292; 09_core_memory: R248). -/

namespace Sys2Proof.Machine

/-! ## Changing a lane or a thread -/

/-- The device with a thread of a core replaced by f of it. -/
def modThread (d : Device) (core tid : Nat) (f : Thread → Thread) : Device :=
  d.modCore core fun c => { c with threads := updAt c.threads tid f }

/-- A thread of a core. -/
def threadOf (d : Device) (core tid : Nat) : Thread := (d.core core).threads.getD tid Thread.fresh

/-- The device with a lane of a core's pass replaced by f of it. -/
def modLane (d : Device) (core lane : Nat) (f : Lane → Lane) : Device :=
  d.modCore core fun c =>
    { c with pass := c.pass.map fun p => { p with lanes := updAt p.lanes lane f } }

/-- The environment of a focus: none unless a pass is streaming there, the lane exists and the core is bound. -/
def envOf (d : Device) (now : Nat) (fo : Focus) : Option Env :=
  let c := d.core fo.core
  match c.bound, c.pass, c.active with
  | some b, some p, some pl =>
    if p.loading then none
    else match p.lanes[fo.lane]? with
      | none => none
      | some l =>
        some { core := fo.core, lane := fo.lane, node := fo.node, now := now, bound := b, pass := p, l := l
               t := threadOf d fo.core l.tid, words := pl.words }
  | _, _, _ => none

/-! ## Fault records (R281, R282) -/

/-- What a fault record says beside its address. -/
structure Record where
  passNum : Nat
  node : Nat
  block : Nat
  code : Nat
  addr : Word
  pend : Bool
  held : Bool
  rev : Bool
  exc : BitVec 6
  done : BitVec 4
  replay : List Word
  deriving DecidableEq, Repr, Inhabited

/-- 1 for true. -/
def b2n (b : Bool) : Nat := if b then 1 else 0

/-- The eight words of a fault record (R281). -/
def Record.words (r : Record) : List Word :=
  [ BitVec.ofNat 64 (r.passNum % 2 ^ 32 * 2 ^ 32 + r.node % 256 * 2 ^ 24 + r.block % 256 * 2 ^ 16 + r.code),
    r.addr,
    BitVec.ofNat 64 (b2n r.pend * 2 ^ 19 + b2n r.held * 2 ^ 18 + b2n r.rev * 2 ^ 17 + 2 ^ 16
      + r.exc.toNat * 2 ^ 8 + r.done.toNat),
    r.replay.getD 0 0, r.replay.getD 1 0, r.replay.getD 2 0, r.replay.getD 3 0, 0 ]

/-- A core's own store of bytes that is core-visible and published at device scope at once: what the core writes of
itself (records, lists, headers, save areas). -/
def ownStore (d : Device) (core key : Nat) (bs : List Byte) : Device :=
  raiseFloors (homeWrite (dropOwn d core key bs.length) key bs) core (span key bs.length)

/-- Stores bytes the core writes of itself over planned pieces. -/
def ownPieces (d : Device) (core : Nat) : List (Nat × Nat) → List Byte → Device
  | [], _ => d
  | (k, n) :: t, bs => ownPieces (ownStore d core k (bs.take n)) core t (bs.drop n)

/-- The core writes bytes of itself at a global address, with system privilege, all or none; or the class and the
address that failed, which is ECC on a line that holds uncorrectable data (R267, R282, R287, R291, R485). -/
def ownWrite (d : Device) (core va : Nat) (bs : List Byte) : Except (Nat × Nat) Unit × Device :=
  match vplan d core true (bs.length / 4096 + 2) va bs.length with
  | (.error e, d) => (.error e, d)
  | (.ok ps, d) =>
    match piecesBad d ps with
    | some n => (.error (clsEcc, va + n), d)
    | none => (.ok (), ownPieces d core ps bs)

/-- The address of a thread's fault record (R281). -/
def recordAddr (d : Device) (core tid : Nat) : Nat := (d.core core).regs.faultbase.toNat + 64 * tid

/-- Notes whether the last write of a thread's record has failed (R282). -/
def noteRecord (d : Device) (core tid : Nat) (failed : Bool) : Device :=
  modThread d core tid fun t => { t with recFailed := failed }

/-- Writes a thread's fault record; recFailed notes whether that failed (R282). -/
def writeRecord (d : Device) (core tid : Nat) (r : Record) : Device :=
  match ownWrite d core (recordAddr d core tid) (bytesOfWords r.words) with
  | (.ok _, d) => noteRecord d core tid false
  | (.error _, d) => noteRecord d core tid true

/-- Taking an exception: the thread's fault record is written, then the thread becomes FAULTED, or HALTED, with the
record's block to resume at, and its DONE and REPLAY are those of the record (R281, R282, R155). -/
def takeFault (d : Device) (core tid : Nat) (halted : Bool) (r : Record) : Device :=
  modThread (writeRecord d core tid r) core tid fun t =>
    { t with
      status := if halted then .halted r.block else .faulted r.block
      done := r.done
      replay := r.replay
      pend := r.pend
      reported := false }

/-- What the record in memory says a thread resumes with: its block, DONE and REPLAY; what the core kept, where the
record cannot be read (R248, R284; DEDUCED, log 6). -/
def resumeFrom (d : Device) (core tid : Nat) (kept : Nat) : Nat × BitVec 4 × List Word :=
  let t := threadOf d core tid
  match (engRead d core true (recordAddr d core tid) 64).1 with
  | .error _ => (kept, t.done, t.replay)
  | .ok bs =>
    let ws := wordsOf 8 bs
    (fld (ws.getD 0 0) 23 16, BitVec.ofNat 4 (fld (ws.getD 2 0) 3 0), (ws.drop 3).take 4)

/-- Returning from an exception: a FAULTED or HALTED thread becomes WAITING at the block its record names, with the
record's DONE and REPLAY; for RESTART at the given block, which the record then names, with DONE cleared
(R155, R247, R284). A thread in any other state is left alone (R248). -/
def resumeThread (d : Device) (core tid : Nat) (restart : Option Nat) : Device :=
  let go (kept : Nat) : Device :=
    match restart with
    | none =>
      let (b, done, replay) := resumeFrom d core tid kept
      modThread d core tid fun t =>
        { t with status := .waiting b, done := done, replay := replay, pend := false, recFailed := false }
    | some b =>
      let a := recordAddr d core tid
      let d :=
        match engRead d core true a 64 with
        | (.error _, d) => d
        | (.ok bs, d) =>
          let ws := wordsOf 8 bs
          let ws := (ws.set 0 (setFld (ws.getD 0 0) 23 16 b)).set 2 (setFld (ws.getD 2 0) 3 0 0)
          (ownWrite d core a (bytesOfWords ws)).2
      modThread d core tid fun t =>
        { t with status := .waiting b, done := 0, replay := [0, 0, 0, 0], pend := false, recFailed := false }
  match (threadOf d core tid).status with
  | .faulted kept => go kept
  | .halted kept => go kept
  | _ => d

/-! ## A node fires (R165, R166, R169, R283, R284) -/

/-- What a node leaves with the thread beside its result: the exceptions it raised, live slots that it writes at
commit apart from DEST, and deferred stores. -/
structure Fx where
  flags : Flags
  writes : List (Nat × Word)
  stores : List Store
  deriving DecidableEq, Repr, Inhabited

/-- Nothing beside the result. -/
def Fx.none : Fx := ⟨0, [], []⟩

/-- What a node does when its operands are values. -/
inductive Out where
  /-- it cannot fire now (R15, R165) -/
  | wait
  /-- a failed walk holds it, in hold mode (R237) -/
  | hold (va : Nat)
  | poison (cls : Nat) (addr : Word)
  | cancel
  | val (v : Word) (fx : Fx)
  deriving DecidableEq, Repr

/-- A node's own work: from the thread's place, the operand values and the device. -/
abbrev NodeFn := Env → Word → Word → Word → Device → Out × Device

/-- The fields of a node word that firing uses. -/
structure NodeWord where
  fmt : Fmt
  typ : Nat
  src : Nat
  a : BitVec 8
  b : BitVec 8
  c : BitVec 8
  dest : BitVec 8
  imm : BitVec 16
  deriving DecidableEq, Repr

/-- The format that an opcode of the tables has; an opcode outside them never reaches a meaning. -/
def fmtOr (f : Option Fmt) : Fmt := f.getD (cuRow .alu [] .none .none .none .zero true)

/-- The node word of a compute instruction. -/
def cuWord (opc : Nat) (w : CU) : NodeWord :=
  ⟨fmtOr (cuFmt opc), w.typ.toNat, srcType (opc == 0x51) w.mod.toNat, w.a, w.b, w.c, w.dest, w.imm⟩

/-- The node word of a memory, engine or system instruction. -/
def muWord (opc : Nat) (w : MU) : NodeWord :=
  ⟨fmtOr (muFmt opc), w.typ.toNat, w.typ.toNat, w.a, w.b, w.c, w.dest, w.imm⟩

/-- The three operands of a node. -/
def argsOf (d : Device) (e : Env) (w : NodeWord) : Args :=
  combine (operand d e w.fmt.a w.typ w.src w.imm w.a) (operand d e w.fmt.b w.typ w.src w.imm w.b)
    (operand d e w.fmt.c w.typ w.src w.imm w.c)

/-- The lane after the node has emitted a token for its thread. -/
def Lane.emit (l : Lane) (node : Nat) (t : Token) : Lane :=
  { l with tokens := l.tokens.put node t, held := l.held.del node }

/-- The device after the node has emitted a token. -/
def emit (d : Device) (e : Env) (t : Token) : Device := modLane d e.core e.lane fun l => l.emit e.node t

/-- Marks an irrevocable node as performed with the value it delivered (R283). -/
def Lane.perform (l : Lane) (j : Nat) (v : Word) : Lane :=
  { l with done := l.done ||| BitVec.ofNat 4 (2 ^ j), replay := l.replay.set j v }

/-- The lane after the node has delivered a value: its token, its DEST write, its effects at commit, and, for an
irrevocable node, its done bit and replay value. -/
def Lane.deliver (l : Lane) (e : Env) (w : NodeWord) (v : Word) (fx : Fx) : Lane :=
  let l := l.emit e.node (.value v)
  let l := { l with
    flags := l.flags ||| fx.flags
    writes := l.writes ++ fx.writes ++ (if w.fmt.result && w.dest != 0xFF then [(w.dest.toNat, v)] else [])
    stores := l.stores ++ fx.stores }
  if w.fmt.irrev then l.perform (irrevIndex e.words e.node) v else l

/-- The device after the node has delivered a value. -/
def deliverNode (d : Device) (e : Env) (w : NodeWord) (v : Word) (fx : Fx) : Device :=
  modLane d e.core e.lane fun l => l.deliver e w v fx

/-- The exceptions of a node that are enabled to trap (R131); a reverse replay raises none (R270). -/
def trapsOf (d : Device) (e : Env) (fl : Flags) : Flags :=
  if e.pass.rev then 0 else fl &&& (d.core e.core).regs.fptrap.truncate 6

/-- A failed walk in hold mode: its first hold is recorded as R285 gives, a retry that fails holds again, at the address
that now fails, with the clock of the first hold (R237, R286), and
once a pre-emption has been requested the access becomes poison at once, with PEND (R286, R292). -/
def holdNode (d : Device) (e : Env) (va : Nat) : Device :=
  if (d.core e.core).preempt != .none then
    modLane d e.core e.lane fun l =>
      { l.emit e.node (.poison ⟨e.pass.block, e.node, clsTranslation, BitVec.ofNat 64 va, 0⟩) with pend := true }
  else match e.l.held.find e.node with
  | some h => modLane d e.core e.lane fun l => { l with held := l.held.put e.node { h with va := va, woken := false } }
  | none =>
    let d := modLane d e.core e.lane fun l => { l with held := l.held.put e.node ⟨va, e.now, false, false⟩ }
    writeRecord d e.core e.l.tid
      { passNum := e.pass.num, node := e.node, block := e.pass.block, code := clsTranslation
        addr := BitVec.ofNat 64 va, pend := false, held := true, rev := e.pass.rev, exc := 0
        done := e.l.done, replay := e.l.replay }

/-- What a node's own work comes to (R131, R166, R167, R237). -/
def finishNode (d : Device) (e : Env) (w : NodeWord) : Out → Device
  | .wait => d
  | .hold va => holdNode d e va
  | .poison cls addr => emit d e (.poison ⟨e.pass.block, e.node, cls, addr, 0⟩)
  | .cancel => emit d e .cancel
  | .val v fx =>
    let tr := trapsOf d e fx.flags
    if tr != 0 then
      emit d e (.poison ⟨e.pass.block, e.node, if tr &&& flagNR != 0 then clsNar else clsFp, 0, fx.flags⟩)
    else deliverNode d e w v (if e.pass.rev then { fx with flags := 0 } else fx)

/-- Have the beats before the lane's retired: in a reverse replay, the higher ones (R48, R271)? -/
def beatTurn (e : Env) : Bool :=
  if e.pass.rev then decide (ceilDiv e.pass.lanes.length 16 ≤ e.pass.retired + e.lane / 16 + 1)
  else decide (e.lane / 16 ≤ e.pass.retired)

/-- May the node fire for the lane by its place: it has not fired for it, it does not hold an access that waits for a
wake, and, for an irrevocable node, every earlier beat has retired (R48, R165, R271, R286). The nodes downstream of one
that holds wait for its token. -/
def mayFire (e : Env) (w : NodeWord) : Bool :=
  (e.l.tokens.find e.node).isNone
    && (match e.l.held.find e.node with
        | some h => h.woken
        | none => true)
    && (!w.fmt.irrev || beatTurn e)

/-- Has the irrevocable node performed in an earlier run of the block (R284)? -/
def hasDone (e : Env) (w : NodeWord) : Bool :=
  w.fmt.irrev && e.l.done.getLsbD (irrevIndex e.words e.node)

/-- In a reverse replay, does an operand field take the result of an rmw.fadd as more than a dependence (R276)? -/
def readsFadd (e : Env) (role : Role) (code : BitVec 8) : Bool :=
  role != .dep && decide (code.toNat < 0x40) &&
    (match imgNode e.words code.toNat with
     | some (.rmwFadd _) => true
     | _ => false)

/-- A node fires for the thread of an environment: a node that has performed delivers its replay value whatever its
operands hold (R284); poison and cancel pass through (R166); values are worked on. -/
def fireEnv (d : Device) (e : Env) (w : NodeWord) (fn : NodeFn) : Device :=
  if !mayFire e w then d
  else if hasDone e w then
    deliverNode d e w (e.l.replay.getD (irrevIndex e.words e.node) 0) Fx.none
  else
    match argsOf d e w with
    | .absent => d
    | .poison o => emit d e (.poison o)
    | .cancel => emit d e .cancel
    | .values a b c =>
      if e.pass.rev && (readsFadd e w.fmt.a w.a || readsFadd e w.fmt.b w.b || readsFadd e w.fmt.c w.c) then
        finishNode d e w (.poison clsAdj 0)
      else
        let r := fn e a b c d
        finishNode r.2 e w r.1

/-- A node fires at the focus; without a pass there, nothing happens. -/
def fireNode (s : State) (w : NodeWord) (fn : NodeFn) : Device :=
  match envOf s.dev s.clock s.focus with
  | none => s.dev
  | some e => fireEnv s.dev e w fn

/-- The step of a node: the device changes as fireNode says. -/
def nodeStep (s : State) (w : NodeWord) (fn : NodeFn) : Host.Outcome State Fault Refusal :=
  .next { s with dev := fireNode s w fn }

/-- A compute node fires (R98, R165). -/
def cuStep (s : State) (opc : Nat) (w : CU) (fn : NodeFn) : Host.Outcome State Fault Refusal :=
  nodeStep s (cuWord opc w) fn

/-- A memory, engine or system node fires (R100, R165). -/
def muStep (s : State) (opc : Nat) (w : MU) (fn : NodeFn) : Host.Outcome State Fault Refusal :=
  nodeStep s (muWord opc w) fn

/-- The step of an event: the device changes as f says. -/
def onDevice (s : State) (f : Device → Device) : Host.Outcome State Fault Refusal :=
  .next { s with dev := f s.dev }

/-- The work of a node that only computes a value. -/
def pureFn (g : Word → Word → Word → Word) : NodeFn := fun _ a b c d => (.val (g a b c) Fx.none, d)

/-- The work of a node that computes a value and raises exceptions. -/
def floatFn (g : Word → Word → Word → Word × Flags) : NodeFn := fun _ a b c d =>
  let r := g a b c
  (.val r.1 ⟨r.2, [], []⟩, d)

end Sys2Proof.Machine
end

