-- ==== Sys2Proof/Machine/Legends.lean ====
section
/-! DEFINITION. Loads by a thread, and reading Legend records (02_memory_model: R50; 05_numbers: R144 to R146;
08_core_float_atom: R220). -/

namespace Sys2Proof.Machine

/-- The bytes a thread loads from a home key (R50, R51). -/
def loadAt (d : Device) (core tid key n : Nat) : List Byte × Device :=
  let r := coreRead d core (threadOf d core tid).seen key n
  (r.1, modThread r.2.2 core tid fun t => { t with seen := r.2.1 })

/-- A 64-bit word of global memory that a thread loads with its privilege: the word, or the class of the fault; hold
mode does not apply (R220, R232). -/
def loadWordV (d : Device) (core tid : Nat) (priv : Bool) (va : Nat) : Except Nat Word × Device :=
  match access d core va priv false with
  | (.error c, d) => (.error c, d)
  | (.ok x, d) =>
    if badAt d x.key 8 then (.error clsEcc, d)
    else
      let r := loadAt d core tid x.key 8
      (.ok (BitVec.ofNat 64 (ofBytes r.1)), r.2)

/-- n words from va on, or the class of the first fault. -/
def loadWordsV (d : Device) (core tid : Nat) (priv : Bool) : (n : Nat) → (va : Nat) → Except Nat (List Word) × Device
  | 0, _ => (.ok [], d)
  | n + 1, va =>
    match loadWordV d core tid priv va with
    | (.error c, d) => (.error c, d)
    | (.ok w, d) =>
      match loadWordsV d core tid priv n (va + 8) with
      | (.error c, d) => (.error c, d)
      | (.ok ws, d) => (.ok (w :: ws), d)

/-- The codebook entries of a list of words, two to a word (R144). -/
def codebookOf (ws : List Word) : List Nat := ws.flatMap fun w => [fld w 31 0, fld w 63 32]

/-- Are binary32 data finite, non-negative and strictly increasing (R144)? -/
def increasing : List Nat → Bool
  | [] => true
  | [a] => a < 0x7F80_0000
  | a :: b :: t => decide (a < b) && decide (b < 0x7F80_0000) && increasing (b :: t)

/-- Does a header with its codebook meet R144, as Encode and Decode depend on it (R145)? -/
def legendOk (f : AFmt) (w0 w1 : Word) (cb : List Nat) : Bool :=
  let size := fld w0 47 32
  let clamp := fld w1 15 0
  fld w0 15 0 == 0x4C47 && fld w0 23 16 == 1 && fld w0 31 24 == f.code && fld w0 63 48 == f.k
    && (size == 16 || size == 256) && fld w1 63 24 == 0 && fld w1 23 16 ≤ 4
    && 1 ≤ clamp && (match f with
      | .pa8 => clamp ≤ 0x7F7F
      | _ => clamp < size)
    && cb.getD 0 1 == 0 && increasing (cb.take size) && (cb.drop size).all (· == 0)

/-- The Legend of a header and codebook, none for one with a defect. -/
def legendOf (f : AFmt) (w0 w1 : Word) (cbWords : List Word) : Option Legend :=
  let cb := codebookOf cbWords
  if legendOk f w0 w1 cb then some ⟨fld w1 15 0, cb.take (fld w0 47 32)⟩ else none

/-- A node's read of the Legend at an address for a format (R145, R146, R219, R220): the Legend, or the class. Where
several conditions of R220 hold, the class is that of the first in this order, which R220 does not give: ALIGN,
TRANSLATION for bits 63:56, the first word that fails, ENGINE (DESIGN CHOICE, log 48). -/
def legendFor (d : Device) (e : Env) (f : AFmt) (a : Word) : Except Nat Legend × Device :=
  let va := a.toNat
  if va = 0 then
    (match f with
     | .pa8 => (.ok Legend.pa8Default, d)
     | _ => (.error clsEngine, d))
  else if va % 64 ≠ 0 then (.error clsAlign, d)
  else if 2 ^ 56 ≤ va then (.error clsTranslation, d)
  else
    match loadWordsV d e.core e.l.tid e.bound.priv 2 va with
    | (.error c, d) => (.error c, d)
    | (.ok hd, d) =>
      match loadWordsV d e.core e.l.tid e.bound.priv 128 (va + 64) with
      | (.error c, d) => (.error c, d)
      | (.ok cb, d) =>
        match legendOf f (hd.getD 0 0) (hd.getD 1 0) cb with
        | none => (.error clsEngine, d)
        | some lg => (.ok lg, d)

/-- The Legend of a record's bytes, the default one where there is no record; none for a defect. -/
def legendRec (f : AFmt) (bs : List Byte) : Option Legend :=
  if bs = [] then some Legend.pa8Default
  else
    let ws := wordsOf 136 bs
    legendOf f (ws.getD 0 0) (ws.getD 1 0) (ws.drop 8)

/-- An engine's read of a Legend at home for a stream (R145, R146), of which it may have read words ahead: the record's
bytes, none for the default Legend, or
the completion code and the address that failed; an address that names no global record is a breach of the descriptor
(R308, R345). -/
def engLegendVia (d : Device) (core : Nat) (via : Via) (priv : Bool) (ahead : Tbl Byte) (f : AFmt) (va : Nat) :
    Except (Nat × Nat) (List Byte) × Device :=
  if va = 0 then
    (match f with
     | .pa8 => (.ok [], d)
     | _ => (.error (0x0001, va), d))
  else if va % 64 ≠ 0 ∨ 2 ^ 56 ≤ va then (.error (0x0001, va), d)
  else
    match engReadVia d core via priv va 1088 with
    | (.error e, d) => (.error e, d)
    | (.ok bs, d) =>
      let bs := layOver ahead va bs
      if (legendRec f bs).isNone then (.error (0x0001, va), d) else (.ok bs, d)

/-- An engine's read of a Legend, where no stream keeps a translation: the Legend, or the completion code and the address
that failed. -/
def engLegend (d : Device) (core : Nat) (priv : Bool) (f : AFmt) (va : Nat) : Except (Nat × Nat) Legend × Device :=
  match engLegendVia d core .none priv [] f va with
  | (.error c, d) => (.error c, d)
  | (.ok bs, d) => (.ok ((legendRec f bs).getD Legend.pa8Default), d)

end Sys2Proof.Machine
end

