-- ==== Sys2Proof/Machine/AtomOps.lean ====
section
/-! DEFINITION. The meanings of the atom instructions of the CU map, opcodes 0x60 to 0x6E (08_core_float_atom: R219 to
R227). -/

namespace Sys2Proof.Machine

/-- The bits of an atom operand of a format (R206). -/
def abits (f : AFmt) (x : Word) : Nat := x.toNat % 2 ^ (8 * f.bytes)

/-- A node that reads the Legend at address lg for format f and then works with it; a Legend fault is poison with the
Legend's address (R220). -/
def withLegend (f : AFmt) (lg : Word) (e : Env) (d : Device) (k : Legend → Out) : Out × Device :=
  match legendFor d e f lg with
  | (.error c, d) => (.poison c lg, d)
  | (.ok l, d) => (k l, d)

/-- An atom result of a format with its flags, as a node delivers it (R122). -/
def atomOut (f : AFmt) (r : FRes) : Out := .val (deliver f.code r.1) ⟨r.2, [], []⟩

/-- A binary32 result of an atom node (R206). -/
def scalarOut (r : FRes) : Out := .val (deliver 4 r.1) ⟨r.2, [], []⟩

/-- The work of an element operation on atoms of the node's format (R221). -/
def elemFn (typ : Nat) (g : AFmt → Legend → Word → Word → FRes) : NodeFn := fun e a b c d =>
  let f := AFmt.ofType typ
  withLegend f c e d fun lg => atomOut f (g f lg a b)

/-- Is the atom the PA8 canonical zero, for which a scalar operation reads no Legend (R225)? -/
def pa8Zero (f : AFmt) (x : Word) : Bool := f == .pa8 && abits f x == 0

/-- The work of a scalar operation on atoms of the node's format; zeros lists the atom operands (R225). -/
def scalarFn (typ : Nat) (zeros : Word → Word → List Word) (g : AFmt → Legend → Word → Word → FRes) : NodeFn :=
  fun e a b c d =>
    let f := AFmt.ofType typ
    if (zeros a b).any (pa8Zero f) then (scalarOut (g f Legend.pa8Default a b), d)
    else withLegend f c e d fun lg => scalarOut (g f lg a b)

/-- How many live slots the elements of a format take (R222). -/
def slotSpan (f : AFmt) : Nat := f.n / 2

/-- The binary32 elements that live slots from q on hold, two to a slot (R222). -/
def slotElems (t : Thread) (q n : Nat) : List Nat :=
  (List.range n).map fun i => (t.live.get (q + i / 2)).toNat / 2 ^ (32 * (i % 2)) % 2 ^ 32

/-- Live-slot writes of binary32 elements from slot q on (R223). -/
def slotWrites (q : Nat) : List Nat → List (Nat × Word)
  | a :: b :: t => (q, BitVec.ofNat 64 (a + 2 ^ 32 * b)) :: slotWrites (q + 1) t
  | _ => []

/-- pa.enc (R222): A names the first of the live slots that hold the elements. -/
def execPaEnc (w : CU) (s : State) : Host.Outcome State Fault Refusal :=
  cuStep s 0x60 w (fun e _ _ c d =>
    let f := AFmt.ofType w.typ.toNat
    withLegend f c e d fun lg => atomOut f (atomEnc f lg (slotElems e.t (w.a.toNat - 0x40) f.n)))

/-- pa.dec (R223): DEST names the first of the live slots it writes at commit. -/
def execPaDec (w : CU) (s : State) : Host.Outcome State Fault Refusal :=
  cuStep s 0x61 w (fun e a _ c d =>
    let f := AFmt.ofType w.typ.toNat
    withLegend f c e d fun lg =>
      let r := atomDec f lg (abits f a)
      .val 0 ⟨r.2, slotWrites w.dest.toNat r.1, []⟩)

/-- pa.add (R221). -/
def execPaAdd (w : CU) (s : State) : Host.Outcome State Fault Refusal :=
  cuStep s 0x62 w (elemFn w.typ.toNat fun f lg a b => atomOp2 XR.add f lg (abits f a) (abits f b))

/-- pa.sub (R221). -/
def execPaSub (w : CU) (s : State) : Host.Outcome State Fault Refusal :=
  cuStep s 0x63 w (elemFn w.typ.toNat fun f lg a b => atomOp2 XR.sub f lg (abits f a) (abits f b))

/-- pa.mul (R221). -/
def execPaMul (w : CU) (s : State) : Host.Outcome State Fault Refusal :=
  cuStep s 0x64 w (elemFn w.typ.toNat fun f lg a b => atomOp2 XR.mul f lg (abits f a) (abits f b))

/-- pa.scale by the binary32 in B (R221). -/
def execPaScale (w : CU) (s : State) : Host.Outcome State Fault Refusal :=
  cuStep s 0x65 w (elemFn w.typ.toNat fun f lg a b => atomScale f lg (abits f a) (b.toNat % 2 ^ 32))

/-- pa.relu (R221). -/
def execPaRelu (w : CU) (s : State) : Host.Outcome State Fault Refusal :=
  cuStep s 0x66 w (elemFn w.typ.toNat fun f lg a _ => atomRelu f lg (abits f a))

/-- pa.mask by bits 7:0 of B (R221). -/
def execPaMask (w : CU) (s : State) : Host.Outcome State Fault Refusal :=
  cuStep s 0x67 w (elemFn w.typ.toNat fun f lg a b => atomMask f lg (abits f a) (b.toNat % 256))

/-- pa.dot (R148, R225). -/
def execPaDot (w : CU) (s : State) : Host.Outcome State Fault Refusal :=
  cuStep s 0x68 w (scalarFn w.typ.toNat (fun a b => [a, b]) fun f lg a b => atomDot f lg (abits f a) (abits f b))

/-- pa.nrm (R148, R225). -/
def execPaNrm (w : CU) (s : State) : Host.Outcome State Fault Refusal :=
  cuStep s 0x69 w (scalarFn w.typ.toNat (fun a _ => [a]) fun f lg a _ => atomNrm f lg (abits f a))

/-- pa.sum (R148, R225). -/
def execPaSum (w : CU) (s : State) : Host.Outcome State Fault Refusal :=
  cuStep s 0x6A w (scalarFn w.typ.toNat (fun a _ => [a]) fun f lg a _ => atomSum f lg (abits f a))

/-- pa.max (R148, R225). -/
def execPaMax (w : CU) (s : State) : Host.Outcome State Fault Refusal :=
  cuStep s 0x6B w (scalarFn w.typ.toNat (fun a _ => [a]) fun f lg a _ => atomMax f lg (abits f a))

/-- pa.get of element B (R225). An element that is not there gives BOUNDS before any Legend is read (DESIGN CHOICE,
log 48). -/
def execPaGet (w : CU) (s : State) : Host.Outcome State Fault Refusal :=
  cuStep s 0x6C w (fun e a b c d =>
    let n := (AFmt.ofType w.typ.toNat).n
    if n ≤ b.toNat then (.poison clsBounds b, d)
    else scalarFn w.typ.toNat (fun a _ => [a]) (fun f lg a b => atomGet f lg (abits f a) b.toNat) e a b c d)

/-- pa.cvt (R219, R224): MOD names the destination format, whose Legend B names. Where both Legends are faulty, the fault
is the source's, which R224 does not say (DESIGN CHOICE, log 48). -/
def execPaCvt (w : CU) (s : State) : Host.Outcome State Fault Refusal :=
  cuStep s 0x6D w (fun e a b c d =>
    let f := AFmt.ofType w.typ.toNat
    let g := AFmt.ofType w.mod.toNat
    match legendFor d e f c with
    | (.error cls, d) => (.poison cls c, d)
    | (.ok lf, d) => withLegend g b e d fun lg => atomOut g (atomCvt f lf g lg (abits f a)))

/-- pa.gain (R148, R225): of a PA8 atom without a Legend read. -/
def execPaGain (w : CU) (s : State) : Host.Outcome State Fault Refusal :=
  cuStep s 0x6E w (fun e a _ c d =>
    let f := AFmt.ofType w.typ.toNat
    if f = .pa8 then (scalarOut (atomGain f Legend.pa8Default (abits f a)), d)
    else withLegend f c e d fun lg => scalarOut (atomGain f lg (abits f a)))

end Sys2Proof.Machine
end

