-- ==== Sys2Proof/Machine/MemOps.lean ====
section
/-! DEFINITION. The meanings of loads, stores, atomics, channels, adjoint access, deques, publication, refresh and
thread control (09_core_memory: R229 to R251). -/

namespace Sys2Proof.Machine

/-! ## Addresses -/

/-- The bits of an address as a word. -/
def addrWord (n : Nat) : Word := BitVec.ofNat 64 n

/-- Is the launch in hold mode (R237, R285)? What a pre-emption request makes of a held access, holdNode says. -/
def holdMode (d : Device) (core : Nat) : Bool := bit (d.core core).regs.faultctl 0

/-- A node's fault of a class at a global address: a failed walk holds in hold mode, everything else is poison at
once (R237). -/
def xlFault (d : Device) (e : Env) (cls va : Nat) : Out :=
  if cls = clsTranslation ∧ va < 2 ^ 56 ∧ holdMode d e.core then .hold va else .poison cls (addrWord va)

/-- What a node's last access to an address was translated through. -/
def nodePage (d : Device) (e : Env) (va : Nat) : Mapped := mappedBy d e.core (.node e.node) va

/-- A node that accesses global memory at va: it waits while a walk for it stands in flight (R45); then its fault, or k
of the translation. -/
def withAccess (d : Device) (e : Env) (va : Nat) (write : Bool) (k : Xlated → Device → Out × Device) :
    Out × Device :=
  if walkPending d e.core e.node va then (.wait, d)
  else match accessVia d e.core (.node e.node) va e.bound.priv write with
  | (.error c, d) => (xlFault d e c va, d)
  | (.ok x, d) => k x d

/-- The launch's core that a cluster-scratch address names, none when that core is not bound to the issuer's launch
(R35). -/
def cxTarget (d : Device) (e : Env) (ea : Nat) : Option Nat :=
  let t := clusterOf e.core * 8 + ea / 2 ^ 21 % 8
  match (d.core t).bound with
  | some b => if b.run = e.bound.run then some t else none
  | none => none

/-- The checks of an address by its generator, its space and its alignment (R33, R34, R97): the class of the first
that fails. -/
def addrFault (inBounds : Bool) (space ea size : Nat) : Option Nat :=
  if !inBounds then some clsBounds
  else match spaceFault space ea with
    | some c => some c
    | none => if ea % size ≠ 0 then some clsAlign else none

/-! ## Differentiable regions in a reverse replay (R251, R256, R273) -/

/-- How an access lies to the launch's regions (R256). -/
inductive Within where
  | outside
  | partly
  | whole (r : Region)
  deriving DecidableEq, Repr

/-- The region that an access of size bytes at va lies in, or that it touches. -/
def regionOf (rs : List Region) (va size : Nat) : Within :=
  match rs.find? fun r => decide (r.base ≤ va ∧ va + size ≤ r.base + r.size) with
  | some r => .whole r
  | none =>
    if rs.any fun r => decide (r.base < va + size ∧ va < r.base + r.size) then .partly else .outside

/-- The adjoint cell of a primal address in a region (R63). -/
def cellOf (b : Bound) (r : Region) (a : Nat) : Nat :=
  if r.priv then r.adj + b.cidx * r.size + (a - r.base) else r.adj + (a - r.base)

/-- Is the flag .nd set (R101)? -/
def ndFlag (w : MU) : Bool := w.flags.getLsbD 1

/-- What a global ld or st of a reverse replay is, by R251, R256 and R273: an ordinary access, a region access whose
adjoint flows, or unsupported. -/
inductive RevKind where
  | plain
  | region (r : Region)
  | bad
  deriving DecidableEq, Repr

/-- The kind of a global access in a reverse replay. -/
def revKind (b : Bound) (w : MU) (va : Nat) : RevKind :=
  if ndFlag w then .plain
  else match regionOf b.regions va (sizeOfType w.typ.toNat) with
    | .outside => .plain
    | .partly => .bad
    | .whole r => if r.typ = w.typ.toNat then .region r else .bad

/-! ## Loads and stores (R232, R233) -/

/-- The address of a core's save area (R421). -/
def saveBase (b : Bound) : Nat := b.save + 0x40_0000 * b.cidx

/-- Does an access lie in the spill rings of a running launch of the context, whose contents in memory are unspecified
(R62, R290)? -/
def inSpillRings (d : Device) (ctx va n : Nat) : Bool :=
  d.cores.any fun c => match c.bound with
    | some b => b.ctx == ctx && c.preempt != .saved && decide (saveBase b + 0x1000 < va + n ∧ va < saveBase b + 0x8_1000)
    | none => false

/-- A load of size bytes of a type from a home key by the thread. -/
def loadOut (d : Device) (e : Env) (typ key va : Nat) : Out × Device :=
  let n := sizeOfType typ
  if badAt d key n then (.poison clsEcc (addrWord va), d)
  else if inSpillRings d e.bound.ctx va n then
    let (v, d) := d.draw
    (.val (deliver typ (v % 2 ^ (8 * n))) Fx.none, d)
  else
    let r := loadAt d e.core e.l.tid key n
    (.val (deliver typ (ofBytes r.1)) Fx.none, r.2)

/-- A load from the scratchpad of a core. -/
def scratchLoad (d : Device) (typ core a : Nat) (ea : Nat) : Out × Device :=
  let n := sizeOfType typ
  if scratchBadAt d core a n then (.poison clsEcc (addrWord ea), d)
  else (.val (deliver typ (ofBytes (scratchRead d core a n))) Fx.none, d)

/-- A ld of a region in a reverse replay: it also translates the cell that its adjoint goes to at commit, which a store of
no bytes at its node holds (R237, R273). -/
def regionLoad (d : Device) (e : Env) (w : MU) (ea : Nat) (r : Region) : Out × Device :=
  let cell := cellOf e.bound r ea
  withAccess d e ea false fun x d =>
    withAccess d e cell true fun y d =>
      let page := nodePage d e cell
      match loadOut d e w.typ.toNat x.key ea with
      | (.val v _, d) => (.val v ⟨0, [], [⟨e.node, .home y.key, cell, 0, 0, false, page⟩]⟩, d)
      | r => r

/-- The work of ld at an effective address (R36, R58, R232, R251). -/
def loadFrom (d : Device) (e : Env) (w : MU) (ea : Nat) : Out × Device :=
  let t := w.typ.toNat
  match w.space.toNat with
  | 0 =>
    match (if e.pass.rev then revKind e.bound w ea else .plain) with
    | .bad => (.poison clsAdj (addrWord ea), d)
    | .plain => withAccess d e ea false fun x d => loadOut d e t x.key ea
    | .region r => regionLoad d e w ea r
  | 1 => scratchLoad d t e.core ea ea
  | 2 =>
    match cxTarget d e ea with
    | none => (.poison clsPermission (addrWord ea), d)
    | some c =>
      let off := ea % 2 ^ 21
      if scratchBadAt d c off (sizeOfType t) then (.poison clsEcc (addrWord ea), d)
      else (.val (deliver t (ofBytes (remoteRead d e.core c off (sizeOfType t)))) Fx.none, d)
  | _ => withAccess d e (e.bound.param + ea) false fun x d => loadOut d e t x.key (e.bound.param + ea)

/-- The work of ld. -/
def loadFn (w : MU) : NodeFn := fun e a _ _ d =>
  let n := sizeOfType w.typ.toNat
  let (ea, ok) := effAddr e w.ag a w.off n
  -- a constant load is checked at its constant address (R232) and as a global load of P + a (R36)
  let va := if w.space = 3 then e.bound.param + ea else ea
  match addrFault ok w.space.toNat ea n with
  | some c => (.poison c (addrWord va), d)
  | none => if va % n ≠ 0 then (.poison clsAlign (addrWord va), d) else loadFrom d e w ea

/-- ld (R232). -/
def execLd (w : MU) (s : State) : Host.Outcome State Fault Refusal := muStep s 0x01 w (loadFn w)

/-- A store that the thread makes at commit, and its token. -/
def storeOut (w : MU) (e : Env) (p : Place) (va : Nat) (v : Word) (page : Mapped) : Out :=
  .val 0 ⟨0, [], [⟨e.node, p, va, sizeOfType w.typ.toNat, v.toNat, w.space == 0, page⟩]⟩

/-- The work of st: its checks and its translation at firing (R58, R233). In a reverse replay nothing is stored; a
region store reads the adjoint of what it stored from the cell, which is cleared at commit (R272, R273). -/
def storeFn (w : MU) : NodeFn := fun e a b _ d =>
  let n := sizeOfType w.typ.toNat
  let (ea, ok) := effAddr e w.ag a w.off n
  match addrFault ok w.space.toNat ea n with
  | some c => (.poison c (addrWord ea), d)
  | none =>
    match w.space.toNat with
    | 0 =>
      if e.pass.rev then
        match revKind e.bound w ea with
        | .bad => (.poison clsAdj (addrWord ea), d)
        | .plain => (.val 0 Fx.none, d)
        | .region r =>
          let cell := cellOf e.bound r ea
          if !beatTurn e then (.wait, d)
          else withAccess d e cell true fun x d =>
            match loadOut d e w.typ.toNat x.key cell with
            | (.val v _, d) => (.val v ⟨0, [], [⟨e.node, .home x.key, cell, n, 0, false, nodePage d e cell⟩]⟩, d)
            | r => r
      else withAccess d e ea true fun x d => (storeOut w e (.home x.key) ea b (nodePage d e ea), d)
    | 1 => if e.pass.rev then (.val 0 Fx.none, d) else (storeOut w e (.scratch ea) ea b .none, d)
    | _ =>
      match cxTarget d e ea with
      | none => (.poison clsPermission (addrWord ea), d)
      | some c =>
        if e.pass.rev then (.val 0 Fx.none, d)
        else if c = e.core then (storeOut w e (.scratch (ea % 2 ^ 21)) ea b .none, d)
        else (storeOut w e (.remote c (ea % 2 ^ 21)) ea b .none, d)

/-- st (R233). -/
def execSt (w : MU) (s : State) : Host.Outcome State Fault Refusal := muStep s 0x02 w (storeFn w)

/-- lea: the effective address, with size 1 for the bounds (R235). -/
def execLea (w : MU) (s : State) : Host.Outcome State Fault Refusal :=
  muStep s 0x03 w fun e a _ _ d =>
    let (ea, ok) := effAddr e w.ag a w.off 1
    match addrFault ok w.space.toNat ea 1 with
    | some c => (.poison c (addrWord ea), d)
    | none => (.val (addrWord ea) Fx.none, d)

/-- pref: never faults and changes no value a load may return (R236). -/
def execPref (w : MU) (s : State) : Host.Outcome State Fault Refusal := muStep s 0x04 w (pureFn fun _ _ _ => 0)

/-! ## Atomics (R238, R239) -/

/-- How an rmw of a space finds its bytes: reading, and writing, with the device between. In a scratchpad the coherence
point is the scratchpad itself (R59), and the write replaces what the core has stored there and not published (R246). -/
def rmwAt (d : Device) (e : Env) (w : MU) (ea : Nat)
    (k : (read : List Byte × Device) → (write : Device → List Byte → Device) → Out × Device) : Out × Device :=
  let n := sizeOfType w.typ.toNat
  match w.space.toNat with
  | 0 =>
    withAccess d e ea true fun x d =>
      if x.host then (.poison clsPermission (addrWord ea), d)
      else if badAt d x.key n then (.poison clsEcc (addrWord ea), d)
      else
        let r := atomicRead d e.core w.scope.toNat (threadOf d e.core e.l.tid).seen x.key n
        let d := modThread r.2.2 e.core e.l.tid fun t => { t with seen := r.2.1 }
        k (r.1, d) fun d bs => atomicWrite d e.core w.scope.toNat x.key bs
  | sp =>
    let target := if sp = 1 then some e.core else cxTarget d e ea
    let off := if sp = 1 then ea else ea % 2 ^ 21
    match target with
    | none => (.poison clsPermission (addrWord ea), d)
    | some c =>
      if scratchBadAt d c off n then (.poison clsEcc (addrWord ea), d)
      else k (scratchRead d c off n, d) fun d bs => scratchWrite (dropRemote d e.core c off n) c off bs

/-- The work of an rmw: new gives what is written from the old bits, none for a node that writes nothing; out gives
the result (R238). In a reverse replay it is unsupported (R251). -/
def rmwFn (w : MU) (new : Nat → Word → Word → Option Nat) (out : Nat → Word) : NodeFn := fun e a b c d =>
  let n := sizeOfType w.typ.toNat
  let (ea, ok) := effAddr e w.ag a w.off n
  if e.pass.rev then (.poison clsAdj (addrWord ea), d)
  else match addrFault ok w.space.toNat ea n with
    | some cls => (.poison cls (addrWord ea), d)
    | none =>
      rmwAt d e w ea fun r write =>
        let old := ofBytes r.1
        match new old b c with
        | none => (.val (out old) Fx.none, r.2)
        | some v => (.val (out old) Fx.none, write r.2 (toBytes n v))

/-- The old value as the result (R122, R238). -/
def oldOut (w : MU) (old : Nat) : Word := deliver w.typ.toNat old

/-- A datum of an integer type as an operand value. -/
def oldVal (w : MU) (old : Nat) : Int := ival w.typ.toNat (BitVec.ofNat 64 old)

/-- The bits an integer result leaves. -/
def intBits (w : MU) (z : Int) : Nat := (z % (2 : Int) ^ tWidth w.typ.toNat).toNat

/-- rmw.add (R238). -/
def execRmwAdd (w : MU) (s : State) : Host.Outcome State Fault Refusal :=
  muStep s 0x08 w (rmwFn w (fun old v _ => some (intBits w (oldVal w old + ival w.typ.toNat v))) (oldOut w))

/-- The bits that rmw.fadd writes (R125, R238). -/
def faddBits (typ old : Nat) (v : Word) : Nat :=
  let f := fmtOfType typ
  (fpAdd f old (v.toNat % 2 ^ f.width)).1

/-- rmw.fadd in a reverse replay: it is not performed; its operand's adjoint is the region cell's, read without
clearing (R276). -/
def faddRev (w : MU) (e : Env) (ea : Nat) (d : Device) : Out × Device :=
  if w.space ≠ 0 then (.val 0 Fx.none, d)
  else match revKind e.bound w ea with
    | .bad => (.poison clsAdj (addrWord ea), d)
    | .plain => (.val 0 Fx.none, d)
    | .region r =>
      let cell := cellOf e.bound r ea
      withAccess d e cell false fun x d => loadOut d e w.typ.toNat x.key cell

/-- rmw.fadd (R238); its results depend on the order of arrival (R150). -/
def execRmwFadd (w : MU) (s : State) : Host.Outcome State Fault Refusal :=
  muStep s 0x09 w fun e a b c d =>
    if e.pass.rev then
      let n := sizeOfType w.typ.toNat
      let (ea, ok) := effAddr e w.ag a w.off n
      match addrFault ok w.space.toNat ea n with
      | some cls => (.poison cls (addrWord ea), d)
      | none => faddRev w e ea d
    else rmwFn w (fun old v _ => some (faddBits w.typ.toNat old v)) (oldOut w) e a b c d

/-- rmw.min (R238). -/
def execRmwMin (w : MU) (s : State) : Host.Outcome State Fault Refusal :=
  muStep s 0x0A w (rmwFn w (fun old v _ => some (intBits w (min (oldVal w old) (ival w.typ.toNat v)))) (oldOut w))

/-- rmw.max (R238). -/
def execRmwMax (w : MU) (s : State) : Host.Outcome State Fault Refusal :=
  muStep s 0x0B w (rmwFn w (fun old v _ => some (intBits w (max (oldVal w old) (ival w.typ.toNat v)))) (oldOut w))

/-- rmw.and (R238). -/
def execRmwAnd (w : MU) (s : State) : Host.Outcome State Fault Refusal :=
  muStep s 0x0C w (rmwFn w (fun old v _ => some (old &&& v.toNat)) (oldOut w))

/-- rmw.or (R238). -/
def execRmwOr (w : MU) (s : State) : Host.Outcome State Fault Refusal :=
  muStep s 0x0D w (rmwFn w (fun old v _ => some (old ||| v.toNat)) (oldOut w))

/-- rmw.xor (R238). -/
def execRmwXor (w : MU) (s : State) : Host.Outcome State Fault Refusal :=
  muStep s 0x0E w (rmwFn w (fun old v _ => some (old ^^^ v.toNat)) (oldOut w))

/-- rmw.xchg (R238). -/
def execRmwXchg (w : MU) (s : State) : Host.Outcome State Fault Refusal :=
  muStep s 0x0F w (rmwFn w (fun _ v _ => some v.toNat) (oldOut w))

/-- rmw.cas: B is the new value, C the expected one (R229, R238). -/
def execRmwCas (w : MU) (s : State) : Host.Outcome State Fault Refusal :=
  muStep s 0x10 w (rmwFn w
    (fun old v x => some (if old = uv w.typ.toNat x then v.toNat else old)) (oldOut w))

/-- rmw.ld (R238). -/
def execRmwLd (w : MU) (s : State) : Host.Outcome State Fault Refusal :=
  muStep s 0x11 w (rmwFn w (fun _ _ _ => none) (oldOut w))

/-- rmw.st: its result is token 0 (R229, R238). -/
def execRmwSt (w : MU) (s : State) : Host.Outcome State Fault Refusal :=
  muStep s 0x12 w (rmwFn w (fun _ v _ => some v.toNat) (fun _ => 0))

/-! ## Channels (R175, R176, R240) -/

/-- The core of a run with an index. -/
def coreOfRun (d : Device) (run cidx : Nat) : Option Nat :=
  d.cores.findIdx? fun c => match c.bound with
    | some b => b.run == run && b.cidx == cidx
    | none => false

/-- The number of cores in a stage (R13). -/
def stageCores (b : Bound) : Nat := b.ncores / b.stages

/-- The channel number of a node (R231). -/
def channelOf (w : MU) (a : Word) : Nat := (a.toNat + (w.off.signExtend 64).toNat) % 2 ^ 64

/-- A value behind the others in the sender's spill ring of a channel, while it holds fewer than 4,096 (R176). -/
def spillChs (d : Device) (core n : Nat) (v : Word) : Out × Device :=
  let ring := ((d.core core).rings.find n).getD []
  if ring.length < 4096 then
    (.val 0 Fx.none, d.modCore core fun c => { c with rings := c.rings.put n (ring ++ [v]) })
  else (.poison clsBounds (addrWord n), d)

/-- The work of chs: to the FIFO of the downstream partner, or behind it to the sender's spill ring (R176). A partner
whose share has ended receives no more: the value stays in the ring (DEDUCED, log 45). -/
def chsFn (w : MU) : NodeFn := fun e a v _ d =>
  let n := channelOf w a
  let b := e.bound
  if e.pass.rev then (.poison clsAdj (addrWord n), d)
  else if 16 ≤ n ∨ ¬ b.cidx + stageCores b < b.ncores then (.poison clsBounds (addrWord n), d)
  else match coreOfRun d b.run (b.cidx + stageCores b) with
    | none => spillChs d e.core n v
    | some p =>
      let fifo := ((d.core p).fifos.find n).getD []
      if fifo.length < 64 ∧ ((d.core e.core).rings.find n).getD [] = [] then
        (.val 0 Fx.none, d.modCore p fun c => { c with fifos := c.fifos.put n (fifo ++ [v]) })
      else spillChs d e.core n v

/-- chs (R240). -/
def execChs (w : MU) (s : State) : Host.Outcome State Fault Refusal := muStep s 0x18 w (chsFn w)

/-- The oldest value of the sender's spill ring of a channel, taken out of it: of the upstream core, or, once its share has
ended, of what its launch keeps of its context (R176, R178). -/
def popRing (d : Device) (b : Bound) (n : Nat) : Option (Word × Device) :=
  let u := b.cidx - stageCores b
  match coreOfRun d b.run u with
  | some k => match ((d.core k).rings.find n).getD [] with
    | [] => none
    | x :: more => some (x, d.modCore k fun c => { c with rings := c.rings.put n more })
  | none => match d.dist.launches.find b.record with
    | none => none
    | some l =>
      let rs := (l.rings.find u).getD []
      match (rs.find n).getD [] with
      | [] => none
      | x :: more =>
        let l := { l with rings := l.rings.put u (rs.put n more) }
        some (x, { d with dist := { d.dist with launches := d.dist.launches.put b.record l } })

/-- The work of chr: the head of the channel; the upstream partner's ring refills the FIFO, so that its values come
before later ones (R176). On an empty channel the node does not fire (R175). -/
def chrFn (w : MU) : NodeFn := fun e a _ _ d =>
  let n := channelOf w a
  let b := e.bound
  if e.pass.rev then (.poison clsAdj (addrWord n), d)
  else if 16 ≤ n ∨ b.cidx < stageCores b then (.poison clsBounds (addrWord n), d)
  else match ((d.core e.core).fifos.find n).getD [] with
    | [] => (.wait, d)
    | v :: rest => match popRing d b n with
      | none => (.val v Fx.none, d.modCore e.core fun c => { c with fifos := c.fifos.put n rest })
      | some (x, d) => (.val v Fx.none, d.modCore e.core fun c => { c with fifos := c.fifos.put n (rest ++ [x]) })

/-- chr (R240). -/
def execChr (w : MU) (s : State) : Host.Outcome State Fault Refusal := muStep s 0x19 w (chrFn w)

/-! ## Adjoint access (R63, R241, R242) -/

/-- A node of space 5: its fault, or k of the region, the cell's address and its translation (R33, R241). -/
def withCell (w : MU) (e : Env) (a : Word) (write : Bool) (d : Device)
    (k : Region → Nat → Xlated → Device → Out × Device) : Out × Device :=
  let n := sizeOfType w.typ.toNat
  let (ea, _) := effAddr e 15 a w.off n
  match e.bound.regions.find? fun r => decide (r.base ≤ ea ∧ ea < r.base + r.size) with
  | none => (.poison clsBounds (addrWord ea), d)
  | some r =>
    if r.typ ≠ w.typ.toNat then (.poison clsBounds (addrWord ea), d)
    else if ea % n ≠ 0 then (.poison clsAlign (addrWord ea), d)
    else
      let cell := cellOf e.bound r ea
      withAccess d e cell write (k r cell)

/-- adj.ld (R241). -/
def execAdjLd (w : MU) (s : State) : Host.Outcome State Fault Refusal :=
  muStep s 0x20 w fun e a _ _ d => withCell w e a false d fun _ cell x d => loadOut d e w.typ.toNat x.key cell

/-- adj.st: a deferred store of B to the cell (R241). -/
def execAdjSt (w : MU) (s : State) : Host.Outcome State Fault Refusal :=
  muStep s 0x21 w fun e a b _ d => withCell w e a true d fun _ cell x d =>
    (.val 0 ⟨0, [], [⟨e.node, .home x.key, cell, sizeOfType w.typ.toNat, b.toNat, false,
      nodePage d e cell⟩]⟩, d)

/-- The sum of two data of an element type, by the type's helper, or by one Encode for atoms (R242). -/
def adjSum (typ : Nat) (lg : Legend) (x y : Nat) : Nat :=
  if 8 ≤ typ then (atomOp2 XR.add (AFmt.ofType typ) lg x y).1
  else (fpAdd (fmtOfType typ) x y).1

/-- The scope at which a region's cells accumulate: home for device scope, the core for core-private (R63). -/
def accScope (r : Region) : Nat := if r.priv then 1 else 3

/-- Adds v into the cell at a home key, as adj.acc does (R63, R242). -/
def accumulate (d : Device) (core tid typ : Nat) (r : Region) (lg : Legend) (key v : Nat) : Device :=
  let n := sizeOfType typ
  let q := atomicRead d core (accScope r) (threadOf d core tid).seen key n
  let d := modThread q.2.2 core tid fun t => { t with seen := q.2.1 }
  atomicWrite d core (accScope r) key (toBytes n (adjSum typ lg (ofBytes q.1) (v % 2 ^ (8 * n))))

/-- The Legend of a region, for an atom type (R242). -/
def regionLegend (d : Device) (e : Env) (typ : Nat) (r : Region) : Except Nat Legend × Device :=
  if 8 ≤ typ then legendFor d e (AFmt.ofType typ) (addrWord r.legend) else (.ok Legend.pa8Default, d)

/-- adj.acc (R241, R242). R40 forbids rmw.* and dq.* on a host-mapped page and says nothing of adj.acc: a cell there is
accumulated in host memory (DESIGN CHOICE, log 54). -/
def execAdjAcc (w : MU) (s : State) : Host.Outcome State Fault Refusal :=
  muStep s 0x22 w fun e a b _ d => withCell w e a true d fun r cell x d =>
    match regionLegend d e w.typ.toNat r with
    | (.error c, d) => (.poison c (addrWord r.legend), d)
    | (.ok lg, d) =>
      if badAt d x.key (sizeOfType w.typ.toNat) then (.poison clsEcc (addrWord cell), d)
      else (.val 0 Fx.none, accumulate d e.core e.l.tid w.typ.toNat r lg x.key b.toNat)

/-- adj.rc: reads the cell at firing and clears it at commit (R241). -/
def execAdjRc (w : MU) (s : State) : Host.Outcome State Fault Refusal :=
  muStep s 0x23 w fun e a _ _ d => withCell w e a true d fun _ cell x d =>
    match loadOut d e w.typ.toNat x.key cell with
    | (.val v _, d) =>
      (.val v ⟨0, [], [⟨e.node, .home x.key, cell, sizeOfType w.typ.toNat, 0, false,
        nodePage d e cell⟩]⟩, d)
    | r => r

/-! ## Deques (R243, R244) -/

/-- Bytes that a thread reads at home as a device-scope atomic (R51, R57, R244). -/
def dqRead (d : Device) (e : Env) (key n : Nat) : List Byte × Device :=
  let r := atomicRead d e.core 3 (threadOf d e.core e.l.tid).seen key n
  (r.1, modThread r.2.2 e.core e.l.tid fun t => { t with seen := r.2.1 })

/-- A node on a deque: the faults of its header (R243), or k of TOP, BOTTOM, LOG2CAP, BASE and the header's home
key. R243 orders no faults; they count in the order written here (DESIGN CHOICE, log 48). -/
def withDeque (w : MU) (e : Env) (a : Word) (d : Device)
    (k : (top bottom cap base key : Nat) → Device → Out × Device) : Out × Device :=
  let (h, _) := effAddr e 15 a w.off 8
  if e.pass.rev then (.poison clsAdj (addrWord h), d)
  else if 2 ^ 56 ≤ h then (.poison clsTranslation (addrWord h), d)
  else if h % 64 ≠ 0 then (.poison clsAlign (addrWord h), d)
  else withAccess d e h true fun x d =>
    if x.host then (.poison clsPermission (addrWord h), d)
    else if badAt d x.key 64 then (.poison clsEcc (addrWord h), d)
    else
      let (hd, d) := dqRead d e x.key 64
      let ws := wordsOf 8 hd
      let g (i : Nat) : Nat := (ws.getD i 0).toNat
      let cap := 2 ^ (g 2 % 32)
      if 2 ^ 5 ≤ g 2 ∨ g 2 = 0 ∨ 24 < g 2 ∨ (ws.drop 4).any (· != 0) ∨ cap < (g 1 + 2 ^ 64 - g 0) % 2 ^ 64 then
        (.poison clsBounds (addrWord h), d)
      else if g 3 % 8 ≠ 0 then (.poison clsAlign (addrWord (g 3)), d)
      else k (g 0) (g 1) cap (g 3) x.key d

/-- The entry i of a deque's ring, translated for writing. -/
def withEntry (e : Env) (d : Device) (base cap i : Nat) (k : Nat → Device → Out × Device) : Out × Device :=
  let va := base + 8 * (i % cap)
  withAccess d e va true fun x d =>
    if x.host then (.poison clsPermission (addrWord va), d)
    else if badAt d x.key 8 then (.poison clsEcc (addrWord va), d)
    else k x.key d

/-- Writes a 64-bit word at home as a device-scope atomic of a core. -/
def dqWrite (d : Device) (core key : Nat) (v : Nat) : Device := atomicWrite d core 3 key (toBytes 8 v)

/-- dq.push (R244). -/
def execDqPush (w : MU) (s : State) : Host.Outcome State Fault Refusal :=
  muStep s 0x28 w fun e a v _ d => withDeque w e a d fun t b cap base key d =>
    if v.getLsbD 63 then (.poison clsBounds (addrWord (effAddr e 15 a w.off 8).1), d)
    else if (b + 2 ^ 64 - t) % 2 ^ 64 = cap then (.val 0x8000000000000001 Fx.none, d)
    else withEntry e d base cap b fun en d =>
      (.val 0 Fx.none, dqWrite (dqWrite d e.core en v.toNat) e.core (key + 8) ((b + 1) % 2 ^ 64))

/-- dq.pop (R244). -/
def execDqPop (w : MU) (s : State) : Host.Outcome State Fault Refusal :=
  muStep s 0x29 w fun e a _ _ d => withDeque w e a d fun t b cap base key d =>
    if b = t then (.val 0x8000000000000000 Fx.none, d)
    else
      let i := (b + 2 ^ 64 - 1) % 2 ^ 64
      withEntry e d base cap i fun en d =>
        let (v, d) := dqRead d e en 8
        (.val (BitVec.ofNat 64 (ofBytes v)) Fx.none, dqWrite d e.core (key + 8) i)

/-- dq.steal (R244). -/
def execDqSteal (w : MU) (s : State) : Host.Outcome State Fault Refusal :=
  muStep s 0x2A w fun e a _ _ d => withDeque w e a d fun t b cap base key d =>
    if b = t then (.val 0x8000000000000000 Fx.none, d)
    else withEntry e d base cap t fun en d =>
      let (v, d) := dqRead d e en 8
      (.val (BitVec.ofNat 64 (ofBytes v)) Fx.none, dqWrite d e.core key ((t + 1) % 2 ^ 64))

/-! ## Publication and refresh (R53, R54, R245) -/

/-- pub (R53, R245): token 0 once the set is published; words of it may have been published before. -/
def execPub (w : MU) (s : State) : Host.Outcome State Fault Refusal :=
  muStep s 0xC0 w fun e _ _ _ d => (.val 0 Fx.none, completePub d e.core e.lane e.node w.scope.toNat)

/-- refresh (R54, R245). -/
def execRefresh (w : MU) (s : State) : Host.Outcome State Fault Refusal :=
  muStep s 0xC1 w fun e _ _ _ d => (.val 0 Fx.none, refresh d e.core w.scope.toNat)

/-! ## Thread control (R247, R248) -/

/-- May a thread of the launch b command threads of the launch t: with system privilege, or as the handler launch that
t's fault policy has armed, and no other run of that record (R248)? -/
def mayControl (d : Device) (b t : Bound) : Bool :=
  b.priv || (t.handler == some b.record && d.cores.any fun c =>
    c.bound.any (·.run == t.run) && (c.handling == .armed || c.handling == .again))

/-- The work of th.ctl: checks the designator, the command, the target, the issuer and the block, and queues the
request with the target core (R247, R248). -/
def thCtlFn (w : MU) : NodeFn := fun e a b c d =>
  let bad (cls : Nat) : Out × Device := (.poison cls a, d)
  if e.pass.rev then bad clsAdj
  else if a.toNat / 2 ^ 26 ≠ 0 ∨ fld a 15 12 ≠ 0 ∨ 2 ≤ b.toNat then bad clsBounds
  else match coreOfCode (fld a 25 16) with
    | none => bad clsBounds
    | some t =>
      match (d.core t).bound with
      | none => bad clsBounds
      | some tb =>
        if clusterOf t ≠ clusterOf e.core ∨ tb.nthreads ≤ fld a 11 0 then bad clsBounds
        else if !mayControl d e.bound tb then bad clsPermission
        else if b = 1 ∧ (w.c = 0xFF ∨ 255 < c.toNat) then bad clsBounds
        else
          (.val 0 Fx.none, d.modCore t fun k =>
            { k with ctls := k.ctls ++ [⟨fld a 11 0, b == 1, c.toNat⟩] })

/-- th.ctl with command RESUME (R247, R248). -/
def execThCtlResume (w : MU) (s : State) : Host.Outcome State Fault Refusal := muStep s 0xC2 w (thCtlFn w)

/-- th.ctl with command RESTART (R247, R248). -/
def execThCtlRestart (w : MU) (s : State) : Host.Outcome State Fault Refusal := muStep s 0xC2 w (thCtlFn w)

end Sys2Proof.Machine
end

