-- ==== Sys2Proof/Machine/Reports.lean ====
section
/-! DEFINITION. Completion codes, interrupts and machine-check records (01_device: R25, R26; 25_host_system: R482,
R483). -/

namespace Sys2Proof.Machine

/-! ## Completion codes (R26); the others are the fault classes of Memory -/

def cDescriptor : Nat := 0x0001
def cCancelled : Nat := 0x0007
def cKv : Nat := 0x0008
def cRoutine : Nat := 0x0009
def cLink : Nat := 0x000A
def cRing : Nat := 0x000B
def cTimeout : Nat := 0x000C
def cAborted : Nat := 0x000D
def cPartial : Nat := 0x000E

/-- The completion word of a supplied value and a code, 0 for success (R25). -/
def compWord (value : Word) (code : Nat) : Word :=
  if code = 0 then value else BitVec.ofNat 64 (2 ^ 63 + code % 2 ^ 15 * 2 ^ 48 + fld value 47 0)

/-- SYS_TIME: µs since reset, at 1,750 clocks each (R4, R420). -/
def usOf (clock : Nat) : Nat := clock / 1750

/-- Raises an interrupt vector (R482). -/
def raiseVector (d : Device) (v : Nat) : Device :=
  { d with host := { d.host with intstat := d.host.intstat ||| BitVec.ofNat 4 (2 ^ v) } }

/-- Appends a machine-check record to the MCLOG ring, increments the ring's head word and raises vector 1 (R483).
Without a ring (MCLOG 0), or with one in memory that is not served (R477), only the vector is raised (DEDUCED, log
14). -/
def machineCheck (d : Device) (now source cls unit : Nat) (addr detail : Word) : Device :=
  let base := fld d.host.mclog 55 12 * 4096
  let d :=
    let head := homeWord d base
    let at_ := base + 64 + 32 * (head.toNat % 2 ^ (fld d.host.mclog 3 0 + 6))
    if d.host.mclog = 0 ∨ !served d base ∨ !served d at_ then d
    else
      let d := homeWrite d at_ (bytesOfWords
        [BitVec.ofNat 64 (source * 2 ^ 56 + cls * 2 ^ 48 + unit % 2 ^ 16), addr, BitVec.ofNat 64 (usOf now), detail])
      homeWriteWord d base (head + 1)
  raiseVector d 1

end Sys2Proof.Machine
end

