-- ==== Sys2Proof/Machine/Engine.lean ====
section
/-! DEFINITION. What all engines share: engine addresses, descriptors, completion words, the fork, and reading and
writing by a core's engines (01_device: R15 to R25; 15_copy_engine: R306 to R308, R316, R317). -/

namespace Sys2Proof.Machine

/-! ## Engine addresses (R308) -/

/-- SP of an engine address. -/
def spOf (a : Word) : Nat := fld a 63 62

/-- ADDR of an engine address. -/
def adOf (a : Word) : Nat := fld a 55 0

/-- Are the reserved bits 61:56 zero? -/
def resOk (a : Word) : Bool := fld a 61 56 == 0

/-- The engine address n bytes on. -/
def eaPlus (a : Word) (n : Nat) : Word := BitVec.ofNat 64 (a.toNat / 2 ^ 56 * 2 ^ 56 + (adOf a + n) % 2 ^ 56)

/-- The code that an engine address with its extent breaks R308 with; cx allows cluster scratch. -/
def rangeFault (cx : Bool) (a : Word) (n : Nat) : Option Nat :=
  if spOf a = 3 ∨ !resOk a ∨ (spOf a = 2 ∧ !cx) then some cDescriptor
  else match spOf a with
    | 0 => if 2 ^ 56 < adOf a + n then some clsTranslation else none
    | 1 => if scratchSize < adOf a + n then some clsBounds else none
    | _ => if 0x0100_0000 ≤ adOf a ∨ scratchSize < adOf a % 2 ^ 21 + n then some clsBounds else none

/-- The lowest of the codes that are there (R317). -/
def lowest (cs : List Nat) : Nat := cs.foldl (fun m c => if m = 0 ∨ c < m then c else m) 0

/-- The code of a breach, where the condition that must hold does not. -/
def need (ok : Bool) (code : Nat) : Option Nat := if ok then none else some code

/-- Are the bits of a mask all 0 in a word? -/
def zeroIn (w : Word) (mask : Nat) : Bool := w.toNat &&& mask == 0

/-! ## Data with its errors (R39, R317) -/

/-- A byte that an engine read: good, from a line with uncorrectable data, or not read. -/
inductive EB where
  | byte (b : Byte)
  | bad
  | miss
  deriving DecidableEq, Repr, Inhabited

/-- The value of a byte, 0 where it is not good. -/
def EB.val : EB → Byte
  | .byte b => b
  | _ => 0

/-- Good bytes. -/
def goods (bs : List Byte) : List EB := bs.map .byte

/-- The bytes of data. -/
def vals (es : List EB) : List Byte := es.map EB.val

/-- A little-endian number in data, with its bytes that are not good as 0. -/
def ebNat (es : List EB) : Nat := ofBytes (vals es)

/-- Does data hold uncorrectable bytes? -/
def hasBad (es : List EB) : Bool := es.any (· == .bad)

/-- The failure of a read of an engine address that meets uncorrectable data: its first such byte (R39). -/
def eccAt (a : Word) (es : List EB) : Option (Nat × Nat) :=
  (es.findIdx? (· == .bad)).map fun i => (clsEcc, adOf a + i)

/-- Zero bytes. -/
def zeros (n : Nat) : List EB := List.replicate n (.byte 0)

/-- The data of n bytes with the lines that are bad by a predicate on the byte's address. -/
def mark (bad : Nat → Bool) (a : Nat) (bs : List Byte) : List EB :=
  ((span a bs.length).zip bs).map fun p => if bad p.1 then .bad else .byte p.2

/-- The privilege of a core's launch (R485). -/
def privOf (d : Device) (core : Nat) : Bool :=
  match (d.core core).bound with
  | some b => b.priv
  | none => false

/-- The core that a cluster-scratch address names for an engine of a core (R35, R308). -/
def cxCore (d : Device) (core a : Nat) : Option Nat :=
  let t := clusterOf core * 8 + a / 2 ^ 21 % 8
  match (d.core t).bound, (d.core core).bound with
  | some x, some y => if x.run = y.run then some t else none
  | _, _ => none

/-- Reads a global range page by page at home, by the translation entry of a stream; after a failure nothing more is
read (R60, R316). -/
def ereadG (d : Device) (core : Nat) (via : Via) (priv : Bool) : (fuel : Nat) → (va n : Nat) →
    List EB × Option (Nat × Nat) × Device
  | 0, _, _ => ([], none, d)
  | fuel + 1, va, n =>
    if n = 0 then ([], none, d)
    else
      let k := min n (4096 - va % 4096)
      match reachVia d core via va k priv false with
      | (.error e, d) => (List.replicate n .miss, some e, d)
      | (.ok x, d) =>
        let es := mark (fun a => badAt d a 1) x.key (homeRead d x.key k)
        let r := ereadG d core via priv fuel (va + k) (n - k)
        (es ++ r.1, r.2.1, r.2.2)

/-- Reads n bytes at an engine address for a stream of an engine of a core: the data, and the code and address of a
failure other than uncorrectable data (R308, R316). -/
def ereadVia (d : Device) (core : Nat) (via : Via) (a : Word) (n : Nat) : List EB × Option (Nat × Nat) × Device :=
  match rangeFault true a n with
  | some c => (List.replicate n .miss, some (c, adOf a), d)
  | none =>
    match spOf a with
    | 0 => ereadG d core via (privOf d core) (n / 4096 + 2) (adOf a) n
    | 1 => (mark (fun x => scratchBadAt d core x 1) (adOf a) (scratchRead d core (adOf a) n), none, d)
    | _ =>
      match cxCore d core (adOf a) with
      | none => (List.replicate n .miss, some (clsPermission, adOf a), d)
      | some t =>
        let off := adOf a % 2 ^ 21
        (mark (fun x => scratchBadAt d t x 1) off (scratchRead d t off n), none, d)

/-- Reads n bytes at an engine address, where no stream keeps a translation. -/
def eread (d : Device) (core : Nat) (a : Word) (n : Nat) : List EB × Option (Nat × Nat) × Device :=
  ereadVia d core .none a n

/-- Makes 64-byte lines of home memory poisoned. -/
def poisonHome (d : Device) (ls : List Nat) : Device :=
  { d with mem := { d.mem with bad := ls.foldl (fun t l => if t.contains l then t else l :: t) d.mem.bad } }

/-- Makes 64-byte lines of a scratchpad poisoned. -/
def poisonScratch (d : Device) (core : Nat) (ls : List Nat) : Device :=
  d.modCore core fun c =>
    { c with scratchBad := ls.foldl (fun t l => if t.contains l then t else l :: t) c.scratchBad }

/-- The runs of bytes that are written, with the addresses they start at. -/
def runsOf (a : Nat) : List EB → List (Nat × List Byte)
  | [] => []
  | .miss :: t => runsOf (a + 1) t
  | e :: t =>
    match runsOf (a + 1) t with
    | (s, bs) :: rest => if s = a + 1 then (a, e.val :: bs) :: rest else (a, [e.val]) :: (s, bs) :: rest
    | [] => [(a, [e.val])]

/-- The lines that receive uncorrectable bytes. -/
def badLines (a : Nat) (es : List EB) : List Nat :=
  ((span a es.length).zip es).filterMap fun p => if p.2 = .bad then some (p.1 / 64 * 64) else none

/-- Writes data at a home key: good bytes as they are; a line that receives an uncorrectable byte becomes poisoned
(R317). -/
def putHome (d : Device) (key : Nat) (es : List EB) : Device :=
  poisonHome ((runsOf key es).foldl (fun d r => engWrite d r.1 r.2) d) (badLines key es)

/-- Writes data into a scratchpad. -/
def putScratch (d : Device) (core a : Nat) (es : List EB) : Device :=
  poisonScratch ((runsOf a es).foldl (fun d r => engScratchWrite d core r.1 r.2) d) core (badLines a es)

/-- Writes data over planned pieces. -/
def putPieces (d : Device) : List (Nat × Nat) → List EB → Device
  | [], _ => d
  | (k, n) :: t, es => putPieces (putHome d k (es.take n)) t (es.drop n)

/-- Writes data at an engine address for a stream of an engine of a core, all or none: the code and address of a
failure, and the device (R308, R316). -/
def ewriteVia (d : Device) (core : Nat) (via : Via) (a : Word) (es : List EB) : Option (Nat × Nat) × Device :=
  match rangeFault true a es.length with
  | some c => (some (c, adOf a), d)
  | none =>
    match spOf a with
    | 0 =>
      match vplanVia d core via (privOf d core) (es.length / 4096 + 2) (adOf a) es.length with
      | (.error e, d) => (some e, d)
      | (.ok ps, d) => (none, putPieces d ps es)
    | 1 => (none, putScratch d core (adOf a) es)
    | _ =>
      match cxCore d core (adOf a) with
      | none => (some (clsPermission, adOf a), d)
      | some t => (none, putScratch d t (adOf a % 2 ^ 21) es)

/-- Writes data at an engine address, where no stream keeps a translation. -/
def ewrite (d : Device) (core : Nat) (a : Word) (es : List EB) : Option (Nat × Nat) × Device :=
  ewriteVia d core .none a es

/-! ## Pieces (R316)

A piece is a run of data with the engine address it goes to. -/

/-- May every piece be written: the code of the first that may not. -/
def piecesFault (d : Device) (core : Nat) (via : Via) : List (Word × List EB) → Option Nat × Device
  | [] => (none, d)
  | (a, es) :: t =>
    match rangeFault true a es.length with
    | some c => (some c, d)
    | none =>
      match spOf a with
      | 0 =>
        match vplanVia d core via (privOf d core) (es.length / 4096 + 2) (adOf a) es.length with
        | (.error e, d) => (some e.1, d)
        | (.ok _, d) => piecesFault d core via t
      | 1 => piecesFault d core via t
      | _ => if (cxCore d core (adOf a)).isNone then (some clsPermission, d) else piecesFault d core via t

/-- Writes the pieces. -/
def writePiecesE (d : Device) (core : Nat) (via : Via) (ps : List (Word × List EB)) : Device :=
  ps.foldl (fun d p => (ewriteVia d core via p.1 p.2).2) d

/-- A piece cut at the bounds of the 8-byte words that it is written in (R319). -/
def cutPiece : (fuel : Nat) → Word → List EB → List (Word × List EB)
  | 0, _, _ => []
  | fuel + 1, a, es =>
    if es = [] then []
    else
      let k := 8 - adOf a % 8
      (a, es.take k) :: cutPiece fuel (eaPlus a k) (es.drop k)

/-- The words of a piece. -/
def wordPieces (p : Word × List EB) : List (Word × List EB) := cutPiece (p.2.length / 8 + 2) p.1 p.2

/-- Writes a free choice of the words of pieces, and of a partial word a free choice of its bytes (R316, R319). -/
def writeSubset (d : Device) (core : Nat) (via : Via) (ps : List (Word × List EB)) : Device :=
  (ps.flatMap wordPieces).foldl (init := d) fun d q =>
    let (v, d) := d.draw
    let es := if q.2.length = 8 then (if v % 2 = 1 then q.2 else [])
      else q.2.zipIdx.map fun x => if v / 2 ^ x.2 % 2 = 1 then x.1 else .miss
    (ewriteVia d core via q.1 es).2

/-- A 64-bit word at an engine address: the word, or the code and address that failed; uncorrectable data is ECC. -/
def ereadWord (d : Device) (core : Nat) (a : Word) : Except (Nat × Nat) Word × Device :=
  match eread d core a 8 with
  | (_, some e, d) => (.error e, d)
  | (es, none, d) => if hasBad es then (.error (clsEcc, adOf a), d) else (.ok (BitVec.ofNat 64 (ebNat es)), d)

/-- n words at an engine address. -/
def ereadWords (d : Device) (core : Nat) (a : Word) (n : Nat) : Except (Nat × Nat) (List Word) × Device :=
  match eread d core a (8 * n) with
  | (_, some e, d) => (.error e, d)
  | (es, none, d) => (eccAt a es).elim (.ok (wordsOf n (vals es)), d) fun x => (.error x, d)

/-! ## Completion words (R23 to R25) -/

/-- Writes a completion word at its place, for a core whose scratchpad the place may lie in. -/
def complete (d : Device) (core : Nat) (c : Comp) (code : Nat) : Device :=
  let bs := toBytes 8 (compWord c.value code).toNat
  match c.place with
  | .home k => homeWrite d k bs
  | .scratch a => scratchWrite d core a bs
  | .remote t a => scratchWrite d t a bs

/-- Writes the completion words of several operations in order. -/
def completeAll (d : Device) (core code : Nat) (cs : List Comp) : Device :=
  cs.foldl (fun d c => complete d core c code) d

/-- Does a completion word lie in global space (R321)? -/
def Comp.isGlobal (c : Comp) : Bool :=
  match c.place with
  | .home _ => true
  | _ => false

/-- A node's check of a completion word in space sp at an address, with the value supplied (R23, R24). R23 orders no
classes: a space or value that gives ENGINE counts before ALIGN, and that before BOUNDS (DESIGN CHOICE, log 48). -/
def compAt (d : Device) (e : Env) (sp : Nat) (name value : Word) (addr : Nat) : Except Out Comp × Device :=
  if value.getLsbD 63 then (.error (.poison clsEngine name), d)
  else if addr % 8 ≠ 0 then (.error (.poison clsAlign name), d)
  else if sp = 1 then
    (if scratchSize ≤ addr then (.error (.poison clsBounds name), d)
     else (.ok ⟨.scratch addr, name, value, .none⟩, d))
  else
    if walkPending d e.core e.node addr then (.error .wait, d)
    else match accessVia d e.core (.node e.node) addr e.bound.priv true with
    | (.error c, d) => (.error (xlFault d e c addr), d)
    | (.ok x, d) => (.ok ⟨.home x.key, name, value, nodePage d e addr⟩, d)

/-- A node's check of the completion word that a descriptor names (R23, R24, R308). -/
def compCheck (d : Device) (e : Env) (caddr value : Word) : Except Out Comp × Device :=
  if 1 < spOf caddr ∨ !resOk caddr then (.error (.poison clsEngine caddr), d)
  else compAt d e (spOf caddr) caddr value (adOf caddr)

/-! ## Issuing a command (R15 to R18, R306) -/

/-- A node's read of its descriptor (R306, steps 1 and 2). -/
def descAt (d : Device) (e : Env) (w : MU) (base : Word) : Except Out (List Word) × Device :=
  let a := (base.toNat + (w.off.signExtend 64).toNat) % 2 ^ 64
  if 0x17_FFC0 < a then (.error (.poison clsBounds (addrWord a)), d)
  else if a % 64 ≠ 0 then (.error (.poison clsAlign (addrWord a)), d)
  else if scratchBadAt d e.core a 64 then (.error (.poison clsEcc (addrWord a)), d)
  else (.ok (wordsOf 8 (scratchRead d e.core a 64)), d)

/-- The work of an engine command node, from its descriptor base: in a reverse replay it is not supported; without
a free place it waits, and without room for what its descriptor asks; its descriptor and completion word are checked;
then the fork publishes at device scope, the command is handed over, and the node delivers what put gives (R15, R18,
R251, R306). -/
def engFn (w : MU) (base : Word) (e : Env) (d : Device) (free : Bool) (room : List Word → Bool)
    (put : List Word → Comp → Device → Word × Device) : Out × Device :=
  if e.pass.rev then (.poison clsAdj 0, d)
  else if !free then (.wait, d)
  else
    match descAt d e w base with
    | (.error o, d) => (o, d)
    | (.ok ws, d) =>
      if !room ws then (.wait, d)
      else
        match compCheck d e (ws.getD 6 0) (ws.getD 7 0) with
        | (.error o, d) => (o, d)
        | (.ok c, d) =>
          let r := put ws c (publish d e.core 3)
          (.val r.1 Fx.none, r.2)

/-- The core that now runs $cidx of a run (for an operation that outlives its core's binding), unless its context is
saved. -/
def coreOfOwner (d : Device) (run cidx : Nat) : Option Nat :=
  (coreOfRun d run cidx).filter fun k => (d.core k).preempt != .saved

end Sys2Proof.Machine
end

