-- ==== Sys2Proof/Machine/Codec.lean ====
section
/-! DEFINITION. Compressed blocks: the block directory, the stored block and the rANS coder (05_numbers: R144, R145;
16_codec_transform: R323 to R330). -/

namespace Sys2Proof.Machine

/-! ## Tables and coder (R325 to R327) -/

/-- A frequency table: entries F[s] for s from 0 to 255. -/
abbrev Freqs := List Nat

/-- Is a frequency table valid: reserved bits 0, and the sum exactly 4,096 (R144, R325)? -/
def freqsOk (t : Freqs) : Bool := t.length == 256 && t.all (· < 4096) && t.foldl (· + ·) 0 == 4096

/-- The symbol with cum[s] ≤ t < cum[s] + F[s], with cum[s]; s and c are where the search stands. -/
def symbolAt : Freqs → (s c t : Nat) → Nat × Nat
  | [], s, c, _ => (s, c)
  | f :: fs, s, c, t => if t < c + f then (s, c) else symbolAt fs (s + 1) (c + f) t

/-- Decodes the bytes from position p on, of which fuel remain: the bytes, the states and the words left; none for a
defect (R326). -/
def ransDecode (tbl : Freqs) : (fuel p : Nat) → (xs ws : List Nat) → Option (List Nat × List Nat × List Nat)
  | 0, _, xs, ws => some ([], xs, ws)
  | fuel + 1, p, xs, ws =>
    let x := xs.getD (p % 32) 0
    let t := x % 4096
    let (s, c) := symbolAt tbl 0 0 t
    let y := tbl.getD s 0 * (x / 4096) + t - c
    if y < 2 ^ 16 then
      match ws with
      | [] => none
      | w :: rest =>
        match ransDecode tbl fuel (p + 1) (xs.set (p % 32) (y * 2 ^ 16 + w)) rest with
        | none => none
        | some r => some (s :: r.1, r.2)
    else
      match ransDecode tbl fuel (p + 1) (xs.set (p % 32) y) ws with
      | none => none
      | some r => some (s :: r.1, r.2)

/-- A compressed block's bytes from its states and words, none for a defect (R326). -/
def decodeBlock (tbl : Freqs) (xs ws : List Nat) : Option (List Byte) :=
  if xs.any (· < 2 ^ 16) then none
  else match ransDecode tbl 4096 0 xs ws with
    | some (bs, ys, []) => if ys.all (· == 2 ^ 16) then some (bs.map (BitVec.ofNat 8)) else none
    | _ => none

/-- cum[s]. -/
def cumOf (tbl : Freqs) (s : Nat) : Nat := (tbl.take s).foldl (· + ·) 0

/-- Encodes the bytes of a reversed list, the first at position p, then p − 1 and so on: the states, and the words
in the order in which the decoder reads them (R327). -/
def ransEncode (tbl : Freqs) : (rev : List Nat) → (p : Nat) → (xs out : List Nat) → List Nat × List Nat
  | [], _, xs, out => (xs, out)
  | s :: rest, p, xs, out =>
    let f := tbl.getD s 0
    let x := xs.getD (p % 32) 0
    let (x, out) := if f * 2 ^ 20 ≤ x then (x / 2 ^ 16, x % 2 ^ 16 :: out) else (x, out)
    ransEncode tbl rest (p - 1) (xs.set (p % 32) ((x / f) * 4096 + x % f + cumOf tbl s)) out

/-- The stored form of a block of 4,096 bytes, up to the end of its last sector (R324, R327). -/
def storeBlock (tbl : Freqs) (tsel : Nat) (bs : List Byte) : List Byte :=
  let ns := bs.map BitVec.toNat
  let head (raw t plen : Nat) : List Byte :=
    bytesOfWords [BitVec.ofNat 64 (0x4342 * 2 ^ 48 + 2 ^ 40 + raw * 4 + t), BitVec.ofNat 64 plen]
  let pad (x : List Byte) : List Byte := x ++ List.replicate (ceilDiv x.length 256 * 256 - x.length) 0
  let raw := pad (head 1 0 4096 ++ bs)
  if ns.any fun s => tbl.getD s 0 == 0 then raw
  else
    let (xs, ws) := ransEncode tbl ns.reverse 4095 (List.replicate 32 (2 ^ 16)) []
    if 17 ≤ ceilDiv (144 + 2 * ws.length) 256 then raw
    else pad (head 0 tsel (128 + 2 * ws.length) ++ xs.flatMap (toBytes 4) ++ ws.flatMap (toBytes 2))

/-! ## Reading at home (R330) -/

/-- An engine's read of stored sectors or of a directory: the bytes, or the code that ends the command; a host-mapped
page needs the acknowledged feature. -/
def codecRead (d : Device) (core : Nat) (via : Via) : (fuel : Nat) → (va n : Nat) → Except Nat (List Byte) × Device
  | 0, _, _ => (.ok [], d)
  | fuel + 1, va, n =>
    if n = 0 then (.ok [], d)
    else
      let k := min n (4096 - va % 4096)
      match reachVia d core via va k (privOf d core) false with
      | (.error e, d) => (.error e.1, d)
      | (.ok x, d) =>
        if x.host && !bit d.host.featack 0 then (.error cDescriptor, d)
        else if badAt d x.key k then (.error clsEcc, d)
        else match codecRead d core via fuel (va + k) (n - k) with
          | (.error c, d) => (.error c, d)
          | (.ok rest, d) => (.ok (homeRead d x.key k ++ rest), d)

/-- n bytes of sectors or of a directory, of which words may have been read ahead. -/
def codecBytes (d : Device) (core : Nat) (via : Via) (ahead : Tbl Byte) (va n : Nat) : Except Nat (List Byte) × Device :=
  let r := codecRead d core via (n / 4096 + 2) va n
  (r.1.map (layOver ahead va), r.2)

/-- What the codec takes from a Legend: BLKDIR, the block count, and the frequency tables. -/
structure CodecLegend where
  dir : Nat
  count : Nat
  tables : List Freqs
  deriving DecidableEq, Repr, Inhabited

/-- The u16 entries of a table's 512 bytes. -/
def tableEntries (bs : List Byte) : Freqs := (List.range 256).map fun i => ofBytes ((bs.drop (2 * i)).take 2)

/-- What the codec takes from a Legend's header and codebook, its frequency tables and its directory's count word. -/
def codecLegendOf (head tables count : List Byte) : CodecLegend :=
  let ws := wordsOf 3 head
  ⟨(ws.getD 2 0).toNat, ofBytes count,
    (List.range (fld (ws.getD 1 0) 23 16)).map fun i => tableEntries (tables.drop (512 * i))⟩

/-- An engine's read of a Legend for the codec: its header with the codebook, its frequency tables, and the count word
of its directory; or the code of a defect (R144, R145, R308, R323). -/
def codecLegend (d : Device) (core : Nat) (via : Via) (ahead : Tbl Byte) (va : Nat) : Except Nat (List (List Byte)) × Device :=
  if va = 0 ∨ va % 64 ≠ 0 ∨ 2 ^ 56 ≤ va then (.error cDescriptor, d)
  else match engReadVia d core via (privOf d core) va 1088 with
    | (.error e, d) => (.error e.1, d)
    | (.ok bs, d) =>
      let bs := layOver ahead va bs
      let ws := wordsOf 136 bs
      let f := AFmt.ofType (fld (ws.getD 0 0) 31 24)
      let n := fld (ws.getD 1 0) 23 16
      let dir := (ws.getD 2 0).toNat
      if (legendOf f (ws.getD 0 0) (ws.getD 1 0) (ws.drop 8)).isNone ∨ dir = 0 ∨ dir % 8 ≠ 0 then (.error cDescriptor, d)
      else match engReadVia d core via (privOf d core) (va + 1088) (512 * n) with
        | (.error e, d) => (.error e.1, d)
        | (.ok tb, d) =>
          let tb := layOver ahead (va + 1088) tb
          match codecBytes d core via ahead dir 8 with
          | (.error c, d) => (.error c, d)
          | (.ok cb, d) => if 2 ^ 32 ≤ ofBytes cb then (.error cDescriptor, d) else (.ok [bs, tb, cb], d)

/-- Is a stored block's header one of R324, for NSECT sectors? -/
def blockHeaderOk (w0 w1 : Word) (nsect : Nat) : Bool :=
  let plen := fld w1 31 0
  fld w0 63 48 == 0x4342 && fld w0 47 40 == 1 && fld w0 39 3 == 0 && fld w1 63 32 == 0
    && (if bit w0 2 then plen == 4096 && fld w0 1 0 == 0
        else decide (128 ≤ plen ∧ plen ≤ 4080) && plen % 2 == 0)
    && nsect == ceilDiv (16 + plen) 256

/-- The 4,096 bytes of logical block b, of whose entry and sectors words may have been read ahead: the bytes, or the code that ends the command (R323, R324, R326, R329). -/
def readBlock (d : Device) (core : Nat) (via : Via) (ahead : Tbl Byte) (lg : CodecLegend) (b : Nat) : Except Nat (List Byte) × Device :=
  if lg.count ≤ b then (.error clsBounds, d)
  else match codecBytes d core via ahead (lg.dir + 8 + 8 * b) 8 with
    | (.error c, d) => (.error c, d)
    | (.ok eb, d) =>
      let e := BitVec.ofNat 64 (ofBytes eb)
      let n := fld e 4 0
      let sect := fld e 55 8 * 256
      if fld e 63 56 ≠ 0 ∨ fld e 7 5 ≠ 0 ∨ 17 < n then (.error cDescriptor, d)
      else if n = 0 then (.ok (List.replicate 4096 0), d)
      else match codecBytes d core via ahead sect (256 * n) with
        | (.error c, d) => (.error c, d)
        | (.ok bs, d) =>
          let ws := wordsOf 2 bs
          let w0 := ws.getD 0 0
          let plen := fld (ws.getD 1 0) 31 0
          let body := (bs.drop 16).take plen
          if !blockHeaderOk w0 (ws.getD 1 0) n then (.error cDescriptor, d)
          else if bit w0 2 then (.ok body, d)
          else match lg.tables[fld w0 1 0]? with
            | none => (.error cDescriptor, d)
            | some t =>
              let xs := (List.range 32).map fun i => ofBytes ((body.drop (4 * i)).take 4)
              let vs := (List.range ((plen - 128) / 2)).map fun j => ofBytes ((body.drop (128 + 2 * j)).take 2)
              if !freqsOk t then (.error cDescriptor, d)
              else match decodeBlock t xs vs with
                | none => (.error cDescriptor, d)
                | some bs => (.ok bs, d)

end Sys2Proof.Machine
end

