-- ==== Sys2Proof/Machine/Records.lean ====
section
/-! DEFINITION. Launch records and the distributor's own operations: contexts, arming, readying, refusing, queues,
dependences, and the completion of a launch (22_launch_scheduling: R420 to R426, R430, R436; 25_host_system: R472). -/

namespace Sys2Proof.Machine

/-! ## Contexts (25_host_system: R472) -/

/-- An entry of the host's context table. -/
structure Ctx where
  valid : Bool
  root : Nat
  pmax : Bool
  asid : Nat
  jv : Bool
  job : Nat
  deriving DecidableEq, Repr, Inhabited

/-- The home key of the entry of context n. CTXTAB holds a device physical address (DEDUCED, log 14). -/
def ctxKey (d : Device) (n : Nat) : Nat := fld d.host.ctxtab 55 12 * 4096 + 32 * n

/-- Context n. -/
def ctxEntry (d : Device) (n : Nat) : Ctx :=
  let a := ctxKey d n
  let w0 := homeWord d a
  let w1 := homeWord d (a + 8)
  let w2 := homeWord d (a + 16)
  ⟨bit w0 63, fld w0 47 11 * 2 ^ 11, bit w1 16, fld w1 15 0, bit w2 16, fld w2 15 0⟩

/-- The context that a JOB resolves to: the lowest of the valid entries that name it (R443, R472). -/
def ctxOfJob (d : Device) (job : Nat) : Option Ctx :=
  (((List.range 4096).filter fun n => served d (ctxKey d n)).map (ctxEntry d)).find? fun c => c.valid && c.jv && c.job == job

/-! ## Records (R420, R421) -/

/-- The home key of word w of record i. -/
def recKey (d : Device) (i w : Nat) : Nat := fld d.dist.pool 55 8 * 256 + 256 * i + 8 * w

/-- Word w of record i at the home slice. -/
def recWord (d : Device) (i w : Nat) : Word := homeWord d (recKey d i w)

/-- Is the memory of record i served (R477)? -/
def recServed (d : Device) (i : Nat) : Bool := (unserved d (recKey d i 0) 256).isNone

/-- Is i the index of a record of the pool? -/
def recValid (d : Device) (i : Nat) : Bool := decide (i < d.dist.count.toNat)

/-- The distributor writes STATE (R422). -/
def setRecState (d : Device) (i st : Nat) : Device :=
  homeWriteWord d (recKey d i 0) (setFld (recWord d i 0) 39 32 st)

/-- The launch of a record, from READY on. -/
def launchOf (d : Device) (i : Nat) : Option Launch := d.dist.launches.find i

/-- STATE of a record: 0 IDLE, 1 ARMED, 2 READY, 3 RUNNING, 4 SUSPENDED. From READY on the distributor goes by its own
transitions, whatever a program has stored in the record (R422, R424). -/
def recState (d : Device) (i : Nat) : Nat :=
  match launchOf d i with
  | some l => match l.state with
    | .ready => 2
    | .running => 3
    | .suspended => 4
  | none => fld (recWord d i 0) 39 32

/-- The distributor's state changed by f. -/
def modDist (d : Device) (f : Dist → Dist) : Device := { d with dist := f d.dist }

/-- The launch of a record replaced by f of it. -/
def modLaunch (d : Device) (i : Nat) (f : Launch → Launch) : Device :=
  match launchOf d i with
  | some l => modDist d fun t => { t with launches := t.launches.put i (f l) }
  | none => d

/-- Word k of the copy of a launch's record. -/
def Launch.word (l : Launch) (k : Nat) : Word := l.words.getD k 0

/-- CTX of a launch. -/
def Launch.ctx (l : Launch) : Nat := fld (l.word 0) 27 16

/-- C of a launch (R421). -/
def Launch.ncores (l : Launch) : Nat := fld (l.word 2) 31 16

/-- QUEUE of a launch. -/
def Launch.queue (l : Launch) : Nat := fld (l.word 5) 43 32

/-- PRIV of a launch. -/
def Launch.priv (l : Launch) : Bool := bit (l.word 0) 4

/-! ## What makes a ready record defective (R153, R255, R423) -/

/-- The reserved bits of each word of a record (R421), as a mask. -/
def recReserved (k : Nat) : Nat :=
  match k with
  | 0 => maskOf 31 28 + maskOf 15 8 + maskOf 1 0
  | 1 => maskOf 63 56
  | 2 => maskOf 7 4
  | 3 => maskOf 63 48
  | 5 => maskOf 63 44 + maskOf 31 3
  | 8 | 9 => maskOf 30 16 + maskOf 62 48
  | 10 => maskOf 63 56
  | 11 => maskOf 63 61
  | 12 | 13 => maskOf 63 56
  | 14 => maskOf 47 38
  | 15 => maskOf 63 56
  | 16 => maskOf 63 32
  | 17 | 18 => maskOf 63 56
  | 4 | 6 | 7 | 19 => 0
  | _ => 2 ^ 64 - 1

/-- The largest thread count for a live width, 0 for one that is none (R153). -/
def maxThreads (lw : Nat) : Nat :=
  match lw with
  | 32 => 4096
  | 64 => 2048
  | 128 => 1024
  | _ => 0

/-- The clusters that CMASK allows (R421). -/
def maskClusters (w : Word) : List Nat :=
  (List.range 48).filter fun k => w = 0 || bit w k

/-- Successor f of a record: its index where V is set (R421). -/
def successor (words : List Word) (f : Nat) : Option Nat :=
  let h := fld (words.getD (8 + f / 2) 0) (f % 2 * 32 + 31) (f % 2 * 32)
  if h / 2 ^ 31 = 1 then some (h % 2 ^ 16) else none

/-- The fields of a record that break R423, apart from what it must read. -/
def recDefective (d : Device) (w : List Word) (ctx : Ctx) : Bool :=
  let g (k hi lo : Nat) : Nat := fld (w.getD k 0) hi lo
  let kind := g 0 3 2
  let c := g 2 31 16
  let s := g 2 39 32
  let nt := g 2 63 48
  g 0 63 48 != 0x4C52 || g 0 47 40 != 1
    || (List.range 32).any (fun k => !zeroIn (w.getD k 0) (recReserved k))
    || kind == 3 || decide (1 < g 2 3 0) || decide (16 < g 11 60 56)
    || !ctx.valid || (bit (w.getD 0 0) 4 && !ctx.pmax)
    || decide (s < 1 ∨ 16 < s) || decide (c < 1 ∨ 384 < c) || c % s != 0
    || decide (8 * (maskClusters (w.getD 3 0)).length < c)
    || nt == 0 || decide (maxThreads (g 2 47 40) < nt)
    || (kind != 0 && g 10 55 0 == 0) || g 10 55 0 % 8 != 0
    || (List.range 4).any (fun f => match successor w f with
        | some i => !recValid d i
        | none => false)
    || (bit (w.getD 0 0) 5 && !recValid d (g 14 63 48))
    || g 15 55 0 % 64 != 0 || g 16 31 0 % 64 != 0 || g 12 55 0 % 8 != 0 || g 13 55 0 % 64 != 0
    || g 17 55 0 % 2 ^ 22 != 0 || g 1 55 0 % 64 != 0 || g 11 55 0 % 64 != 0
    || bit (w.getD 19 0) 63 || g 14 31 0 == 0

/-- An entry of the region table (R254). -/
def regionAt (ws : List Word) (i : Nat) : Region :=
  let g (k hi lo : Nat) : Nat := fld (ws.getD (4 * i + k) 0) hi lo
  ⟨g 0 55 0, g 1 47 0, g 2 55 0, g 3 63 6 * 64, bit (ws.getD (4 * i + 3) 0) 4, g 3 3 0⟩

/-- The bytes of an element of a region's type. -/
def elemBytes (typ : Nat) : Nat :=
  match typ with
  | 5 => 8
  | 6 | 8 => 2
  | _ => 4

/-- Do two ranges overlap? -/
def overlaps (a n b m : Nat) : Bool := decide (a < b + m ∧ b < a + n)

/-- The adjoint area of a region for C cores (R255). -/
def Region.adjBytes (r : Region) (c : Nat) : Nat := if r.priv then c * r.size else r.size

/-- Does one region break R255 by itself? -/
def regionBad (ws : List Word) (i : Nat) : Bool :=
  let r := regionAt ws i
  let es := elemBytes r.typ
  !zeroIn (ws.getD (4 * i) 0) (maskOf 63 56) || !zeroIn (ws.getD (4 * i + 1) 0) (maskOf 63 48)
    || !zeroIn (ws.getD (4 * i + 2) 0) (maskOf 63 56) || bit (ws.getD (4 * i + 3) 0) 5
    || !([4, 5, 6, 8, 9, 10].contains r.typ)
    || r.base % es != 0 || r.size % es != 0 || r.adj % es != 0 || r.size == 0 || decide (2 ^ 56 < r.base + r.size)
    || ((r.typ == 8 || r.typ == 10) && r.legend == 0)

/-- Does the region table break R255, or R151 for a strict launch? -/
def regionsBad (ws : List Word) (n c : Nat) (strict : Bool) : Bool :=
  let rs := (List.range n).map (regionAt ws)
  let idx := List.range n
  let at_ (i : Nat) : Region := rs.getD i default
  idx.any (regionBad ws)
    || idx.any (fun i => idx.any fun j =>
        (decide (i < j) && overlaps (at_ i).base (at_ i).size (at_ j).base (at_ j).size)
        || (decide (i < j) && overlaps (at_ i).adj ((at_ i).adjBytes c) (at_ j).adj ((at_ j).adjBytes c))
        || overlaps (at_ i).adj ((at_ i).adjBytes c) (at_ j).base (at_ j).size)
    || (strict && decide (1 < c) && rs.any fun r => !r.priv)

/-- Is a kernel descriptor well formed (R74, R423)? -/
def kdescOk (k : List Word) : Bool :=
  fld (k.getD 1 0) 63 48 == 0x4B44 && fld (k.getD 1 0) 23 0 == 0 && (k.drop 2).all (· == 0)

/-- What a ready record comes to: the launch, or the code it is refused with (R423, R477). -/
def parseRecord (d : Device) (i : Nat) : Except Nat Launch :=
  let w := (List.range 32).map (recWord d i)
  let ctx := ctxEntry d (fld (w.getD 0 0) 27 16)
  let priv := bit (w.getD 0 0) 4
  let n := fld (w.getD 11 0) 60 56
  if !recServed d i || !served d (ctxKey d (fld (w.getD 0 0) 27 16)) then .error clsTranslation
  else if badAt d (recKey d i 0) 256 then .error clsEcc
  else if recDefective d w ctx then .error cDescriptor
  else match rootRead d ctx.root priv (fld (w.getD 1 0) 55 0) 64 with
    | .error e => .error e.1
    | .ok kb =>
      match rootRead d ctx.root priv (fld (w.getD 11 0) 55 0) (32 * n) with
      | .error e => .error e.1
      | .ok rb =>
        let ws := wordsOf (4 * n) rb
        if !kdescOk (wordsOf 8 kb) || regionsBad ws n (fld (w.getD 2 0) 31 16) (bit (w.getD 0 0) 7) then
          .error cDescriptor
        else .ok { words := w, regions := (List.range n).map (regionAt ws), kdesc := wordsOf 8 kb
                   root := ctx.root, asid := ctx.asid, state := .ready
                   only := d.dist.confined.find i, run := 0, level := 0, order := 0, cores := [], ended := []
                   partly := false, saved := [], rings := [], drop := false }

/-- Writes a launch's completion word at CADDR through its context, published at device scope (R25, R426); without
the word, the host is told by vector 2 (R423). -/
def writeCaddr (d : Device) (root : Nat) (w : List Word) (code : Nat) : Device :=
  let a := fld (w.getD 18 0) 55 0
  if a % 8 ≠ 0 then raiseVector d 2
  else match rootWrite d root (bit (w.getD 0 0) 4) a (toBytes 8 (compWord (w.getD 19 0) code).toNat) with
    | .ok d => d
    | .error _ => raiseVector d 2

/-- Is CADDR aligned and mapped (R423)? -/
def caddrOk (d : Device) (w : List Word) : Bool :=
  let a := fld (w.getD 18 0) 55 0
  a % 8 == 0 && (match rootAccess d (ctxEntry d (fld (w.getD 0 0) 27 16)).root a (bit (w.getD 0 0) 4) true with
    | .ok _ => true
    | .error _ => false)

/-! ## Queues and slots (R433, R436) -/

/-- The records of a queue. -/
def queueOf (d : Device) (q : Nat) : List Nat := (d.dist.queues.find q).getD []

/-- The index of a free slot. -/
def freeSlot (t : Dist) : Option Nat := t.slots.findIdx? (·.isNone)

/-- Is the queue mapped? -/
def isMapped (t : Dist) (q : Nat) : Bool := t.slots.any fun s => match s with
  | some x => x.1 == q
  | none => false

/-- A queue that gained work is mapped where a slot is free, else it joins the list. -/
def mapQueue (t : Dist) (now q : Nat) : Dist :=
  if isMapped t q || t.unmapped.contains q then t
  else match freeSlot t with
    | some i => { t with slots := t.slots.set i (some (q, now)) }
    | none => { t with unmapped := t.unmapped ++ [q] }

/-- A record enters a queue at its tail or, when SUSPENDED, at its head (R422, R433). -/
def enqueue (d : Device) (now q i : Nat) (front : Bool) : Device :=
  let old := queueOf d q
  modDist d fun t =>
    mapQueue { t with queues := t.queues.put q (if front then i :: old else old ++ [i]) } now q

/-- A queue without work leaves its slot, which the first queue of the list takes (R436). -/
def unmapQueue (t : Dist) (now q : Nat) : Dist :=
  let t := { t with unmapped := t.unmapped.filter (· != q) }
  match t.slots.findIdx? fun s => match s with
    | some x => x.1 == q
    | none => false with
  | none => t
  | some i =>
    match t.unmapped with
    | [] => { t with slots := t.slots.set i none }
    | u :: us => { t with slots := t.slots.set i (some (u, now)), unmapped := us }

/-- A record leaves its queue. -/
def dequeue (d : Device) (now q i : Nat) : Device :=
  let rest := (queueOf d q).filter (· != i)
  modDist d fun t =>
    if rest = [] then unmapQueue { t with queues := t.queues.del q } now q
    else { t with queues := t.queues.put q rest }

/-! ## Conditions on words (R201) -/

/-- Does a word satisfy a condition against a value? -/
def condHolds (cond : Nat) (w v : Word) : Bool :=
  match cond with
  | 0 => w == v
  | 1 => w != v
  | 2 => decide (v.toNat ≤ w.toNat)
  | _ => w &&& v != 0

/-! ## Arming (R415, R422, R423, R425, R426, R430, R431) -/

/-- DEPS of a record. -/
def recDeps (d : Device) (i : Nat) : Nat := fld (recWord d i 7) 31 0

/-- Removes a launch from the distributor's books. -/
def dropLaunch (d : Device) (i : Nat) : Device := modDist d fun t => { t with launches := t.launches.del i }

/-- An Infill batch whose record this is learns how its launch ended, a refused record's included (R415). -/
def noteFill (d : Device) (i : Nat) (ok : Bool) : Device :=
  let note (c : Cluster) : Cluster :=
    match c.fillArmed with
    | some b => if b.lr = i ∧ b.ended.isNone then { c with fillArmed := some { b with ended := some ok } } else c
    | none => c
  { d with clusters := d.clusters.map note }

/-- A record becomes READY: it is read and queued; or it is refused, and what follows its return to IDLE is f. -/
def readyRecord (d : Device) (now i : Nat) (f : Device → Device) : Device :=
  let w := (List.range 32).map (recWord d i)
  let ctx := fld (w.getD 0 0) 27 16
  let refuse (code : Nat) : Device :=
    let d := if served d (ctxKey d ctx) then writeCaddr d (ctxEntry d ctx).root w code else raiseVector d 2
    f (modDist (setRecState d i 0) fun t =>
      { t with confined := t.confined.del i })
  match parseRecord d i with
  | .error c => refuse c
  | .ok l =>
    if !caddrOk d w then refuse cDescriptor
    else
      let d := modDist (setRecState d i 2) fun t =>
        { t with launches := t.launches.put i l, confined := t.confined.del i }
      enqueue d now l.queue i false

/-- An IDLE record is armed, for a handler confined to a cluster; ready is what it comes to when its DEPS is 0. -/
def armIdle (d : Device) (i : Nat) (only : Option Nat) (ready : Device → Device) : Device :=
  let d := modDist (setRecState d i 1) fun t =>
    { t with armed := true
             confined := match only with
               | some c => t.confined.put i c
               | none => t.confined.del i }
  if recDeps d i = 0 then ready d else d

/-- The contexts whose launch names record i as its handler learn that it has ended (R426). Where a report waits, the
record is armed again, on the cluster of the core that waits, for its launch; a report of another launch goes on waiting
(R287; DEDUCED, log 18). -/
def noteHandler (d : Device) (i : Nat) : Option (Option Nat) × Device :=
  let hit (c : Core) : Bool := c.bound.any fun b => b.handler == some i
  let waits (c : Core) : Bool := hit c && (c.handling == .again || c.handling == .busy)
  let runOf (c : Core) : Nat := (c.bound.map (·.run)).getD 0
  let again : Option (Nat × Option Nat) := match d.cores.findIdx? waits with
    | some k => some (runOf (d.core k), some (clusterOf k))
    | none => ((d.dist.launches.flatMap fun l => l.2.saved.map (·.2)).find? waits).map fun c => (runOf c, none)
  let next (c : Core) : Core :=
    if !hit c then c
    else { c with handling := match c.handling with
      | .armed => .done
      | .again | .busy => if again.any (·.1 == runOf c) then .armed else .busy
      | h => h }
  (again.map (·.2), modDist { d with cores := d.cores.map next } fun t =>
    { t with launches := t.launches.map fun l => (l.1, { l.2 with saved := l.2.saved.map fun x => (x.1, next x.2) }) })

/-- Does a binding fire: its condition holds, and its record is IDLE (R431, R477)? -/
def bindingFires (d : Device) (i : Nat) (b : Binding) : Bool :=
  served d b.key && recServed d i && condHolds b.cond (homeWord d b.key) b.value && recState d i == 0

/-- A record has returned to IDLE: an Infill batch and the cores that armed it learn how it ended, and its binding is
tested (R287, R415, R426, R431). It may be armed again and refused again, which fuel bounds: a handler is armed again
once for its cores' reports, and a binding fires once. -/
def recordIdle (d : Device) (now i : Nat) (ok : Bool) : (fuel : Nat) → Device
  | 0 => d
  | fuel + 1 =>
    let (again, d) := noteHandler (noteFill d i ok) i
    let ready (d : Device) : Device := readyRecord d now i fun d => recordIdle d now i false fuel
    match again with
    | some only => armIdle d i only ready
    | none =>
      match d.dist.bindings.find i with
      | none => d
      | some b =>
        if bindingFires d i b then
          armIdle (modDist d fun t => { t with bindings := t.bindings.del i }) i none ready
        else d

/-- How often a record may return to IDLE in one step. -/
def idleFuel : Nat := 4

/-- A record becomes READY, or is refused and returns to IDLE (R422, R423). -/
def recordReady (d : Device) (now i : Nat) : Device :=
  readyRecord d now i fun d => recordIdle d now i false idleFuel

/-- Arms a record, for a handler confined to a cluster: 0 armed, 1 BUSY, 2 no such record, 3 a record in memory that is
not served (R422, R430, R477). -/
def armRecord (d : Device) (now i : Nat) (only : Option Nat) : Nat × Device :=
  if !recValid d i then (2, d)
  else if !recServed d i then (3, d)
  else if recState d i ≠ 0 then (1, d)
  else (0, armIdle d i only fun d => recordReady d now i)

/-- Decrements DEPS of a record at the home slice, where it is served; an ARMED record whose DEPS is then 0 becomes READY
(R425, R477). -/
def decDeps (d : Device) (now i : Nat) : Device :=
  if !recServed d i then d else
  let n := recDeps d i
  let d := if n = 0 then d else homeWriteWord d (recKey d i 7) (setFld (recWord d i 7) 31 0 (n - 1))
  if n ≤ 1 ∧ recState d i = 1 then recordReady d now i else d

/-- A binding's test: it fires when the condition holds and the record is IDLE (R431). -/
def testBinding (d : Device) (now i : Nat) : Device :=
  match d.dist.bindings.find i with
  | none => d
  | some b =>
    if bindingFires d i b then
      armIdle (modDist d fun t => { t with bindings := t.bindings.del i }) i none fun d => recordReady d now i
    else d

/-! ## The end of a launch (R415, R426) -/

/-- A launch that is discarded, or whose record never ran: ABORTED at CADDR, IDLE, and no successor (R438, R480). -/
def abortLaunch (d : Device) (now i root : Nat) (w : List Word) : Device :=
  recordIdle (dropLaunch (setRecState (writeCaddr d root w cAborted) i 0) i) now i false idleFuel

/-- The steps of R426 once every share has ended. A while record that goes round again stays confined to the cluster
that a handler was armed for (R435). -/
def finishLaunch (d : Device) (now i : Nat) (l : Launch) : Device :=
  let kind := fld (l.word 0) 3 2
  let code := if l.partly then cPartial else 0
  let root := l.root
  let cond : Nat × Word :=
    if kind = 0 then (code, 0)
    else match rootWord d root l.priv (fld (l.word 10) 55 0) with
      | .error e => (lowest (if code = 0 then [e.1] else [code, e.1]), 0)
      | .ok v => (code, v)
  if kind = 2 ∧ cond.1 = 0 ∧ cond.2 ≠ 0 then
    let d := modDist (dropLaunch d i) fun t =>
      { t with confined := match l.only with
          | some k => t.confined.put i k
          | none => t.confined.del i }
    recordReady d now i
  else
    let d := dropLaunch (setRecState (writeCaddr d root l.words cond.1) i 0) i
    let fs := if cond.1 ≠ 0 then []
      else if kind ≠ 1 then [0, 1, 2, 3] else if cond.2 ≠ 0 then [0, 1] else [2, 3]
    let d := (fs.filterMap (successor l.words)).foldl (fun d s => decDeps d now s) d
    recordIdle d now i (cond.1 == 0) idleFuel

end Sys2Proof.Machine
end

