-- ==== Sys2Proof/Machine/RvFloat.lean ====
section
/-! DEFINITION. The floating-point operations of the transform cores' vector unit, on data of a format, in a rounding mode
that frm holds: 0 nearest even, 1 toward zero, 2 toward −∞, 3 toward +∞, 4 nearest away; with the flags NV, DZ, OF, UF
and NX (16_codec_transform: R332). The spec names the public V extension and does not repeat it (PRESUMED, log 12). -/

namespace Sys2Proof.Machine

/-- An exact value rounded to a format in a mode. -/
def rvRound (f : FFmt) (mode : Nat) : XR → FRes
  | .fin s m e => roundM mode f s m e false
  | x => rne f x

/-- Is it +0? -/
def XR.isPosZero : XR → Bool
  | .fin s m _ => !s && m == 0
  | _ => false

/-- The exact sum, where a zero sum of terms that are not both +0 is −0 in the mode toward −∞. -/
def rvSum (mode : Nat) (x y : XR) : XR :=
  let r := XR.add x y
  if mode == 2 && r.isPosZero && !(x.isPosZero && y.isPosZero) then .fin true 0 0 else r

/-- The sum of two data. -/
def rvAdd (f : FFmt) (mode a b : Nat) : FRes :=
  let r := rvSum mode (exact f a) (exact f b)
  let nv : Flags := if r.isNan && !isNanBits f a && !isNanBits f b then flagNV else nvOf f [a, b]
  let v := rvRound f mode r
  (v.1, v.2 ||| nv)

/-- The product of two data. -/
def rvMul (f : FFmt) (mode a b : Nat) : FRes :=
  let r := XR.mul (exact f a) (exact f b)
  let nv : Flags := if r.isNan && !isNanBits f a && !isNanBits f b then flagNV else nvOf f [a, b]
  let v := rvRound f mode r
  (v.1, v.2 ||| nv)

/-- a × b + c, rounded once; the product is negated with np, c with nc. -/
def rvFma (f : FFmt) (mode : Nat) (np nc : Bool) (a b c : Nat) : FRes :=
  let p := XR.mul (exact f a) (exact f b)
  let z := exact f c
  let r := rvSum mode (if np then p.neg else p) (if nc then z.neg else z)
  let badProduct := p.isNan && !isNanBits f a && !isNanBits f b
  let badSum := r.isNan && !p.isNan && !z.isNan
  let nv : Flags := if badProduct || badSum then flagNV else nvOf f [a, b, c]
  let v := rvRound f mode r
  (v.1, v.2 ||| nv)

/-- The quotient of two data. -/
def rvDiv (f : FFmt) (mode a b : Nat) : FRes :=
  let v := match exact f a, exact f b with
    | .fin s m e, .fin s' m' e' => if m' = 0 then rneDiv f (.fin s m e) (.fin s' m' e') else quotM mode f (s != s') m e m' e'
    | x, y => rneDiv f x y
  (v.1, v.2 ||| nvOf f [a, b])

/-- The square root of a datum. -/
def rvSqrt (f : FFmt) (mode a : Nat) : FRes :=
  match exact f a with
  | .fin s m e => if m ≠ 0 ∧ !s then sqrtM mode f m e else fpSqrt f a
  | _ => fpSqrt f a

/-- A datum of a format in another one. -/
def rvCvt (dst src : FFmt) (mode a : Nat) : FRes :=
  let v := rvRound dst mode (exact src a)
  (v.1, v.2 ||| nvOf src [a])

/-- A datum as an integer of a range, which it saturates; NaN is the highest. -/
def rvToInt (f : FFmt) (mode : Nat) (lo hi : Int) (a : Nat) : Int × Flags :=
  if isNanBits f a then (hi, flagNV) else fpToInt f mode lo hi a

/-- Are two data in a relation: 0 equal, 1 not equal, 2 less, 3 less or equal? Less and less or equal raise NV for every
NaN, the others for a signalling one. -/
def rvCmp (f : FFmt) (rel a b : Nat) : Bool × Flags :=
  let c := XR.cmp (exact f a) (exact f b)
  let nv : Flags := if rel ≤ 1 then nvOf f [a, b] else if c = 2 then flagNV else 0
  (match rel with
    | 0 => c == 0
    | 1 => c != 0
    | 2 => c == -1
    | _ => c == -1 || c == 0, nv)

/-- vfclass: the one bit that is set. -/
def rvClass (f : FFmt) (a : Nat) : Nat := 2 ^ ((fpClass f a + 8) % 10)

/-- The biased exponent and the fraction of a finite datum that is not zero, a subnormal one normalised. -/
def rvNormal (f : FFmt) (a : Nat) : Int × Nat :=
  let ex := a / 2 ^ f.fw % 2 ^ f.ew
  let fr := a % 2 ^ f.fw
  if ex ≠ 0 then (ex, fr)
  else
    let lz := f.fw - bitLen fr
    (-(lz : Int), fr * 2 ^ (lz + 1) % 2 ^ f.fw)

/-- vfrec7: the estimate of 1 / a to 7 bits. -/
def rvRec7 (f : FFmt) (mode a : Nat) : FRes :=
  let sg := if signOf f a then f.signBit else 0
  match exact f a with
  | .nan => (f.nan, nvOf f [a])
  | .inf _ => (sg, 0)
  | .fin s m _ =>
    if m = 0 then (sg + f.infBits, flagDZ)
    else
      let n := rvNormal f a
      if n.1 < -1 then (sg + overflowMag f mode s, flagOF ||| flagNX)
      else
        let est := (rneRat (2 ^ 16) (257 + 2 * (n.2 / 2 ^ (f.fw - 7))) - 128) * 2 ^ (f.fw - 7)
        let ex : Int := 2 * f.bias - 1 - n.1
        if 1 ≤ ex then (sg + ex.toNat * 2 ^ f.fw + est, 0)
        else (sg + (est + 2 ^ f.fw) / 2 ^ (1 - ex).toNat, 0)

/-- vfrsqrt7: the estimate of 1 / √a to 7 bits. -/
def rvRsqrt7 (f : FFmt) (a : Nat) : FRes :=
  match exact f a with
  | .nan => (f.nan, nvOf f [a])
  | .inf s => if s then (f.nan, flagNV) else (0, 0)
  | .fin s m _ =>
    if m = 0 then ((if s then f.signBit else 0) + f.infBits, flagDZ)
    else if s then (f.nan, flagNV)
    else
      let n := rvNormal f a
      let j := n.2 / 2 ^ (f.fw - 6)
      let den := (if n.1 % 2 = 0 then 2 else 1) * (129 + 2 * j)
      let est := (rneRoot (2 ^ 23) den - 128) * 2 ^ (f.fw - 7)
      (((3 * (f.bias : Int) - 1 - n.1) / 2).toNat * 2 ^ f.fw + est, 0)

end Sys2Proof.Machine
end

