-- ==== Sys2Proof/Machine/RvState.lean ====
section
/-! DEFINITION. A transform core while it runs one buffer: its registers, its memory and the elements of its vector
registers (16_codec_transform: R332 to R334). -/

namespace Sys2Proof.Machine

/-- What a buffer runs with: the slot's routine, the bytes of IN, the copy of PARAM and the number of the buffer. -/
structure RvCx where
  rt : Routine
  input : List Byte
  window : List Byte
  k : Nat
  deriving DecidableEq, Repr, Inhabited

/-- A transform core: pc, the registers x0 to x31, the 1,024 bytes of v0 to v31, the bytes of OUT and of local memory that
have been written, vl, vtype, frm, fflags, the instructions retired, and a0 at the routine's ecall. -/
structure Rv where
  pc : Nat
  x : List Word
  v : List Byte
  mem : Tbl Byte
  vl : Nat
  vtype : Nat
  vill : Bool
  frm : Nat
  fflags : Flags
  count : Nat
  out : Option Nat
  deriving DecidableEq, Repr, Inhabited

/-- r if a condition holds, else a trap. -/
def rvIf (ok : Bool) (r : Rv) : Option Rv := if ok then some r else none

/-! ## Memory (R333, R335) -/

/-- The first address of OUT. -/
def rvOut : Nat := 0x1000_4000

/-- The ranges of the address space: base, size, and whether they may be written. -/
def rvRanges (cx : RvCx) : List (Nat × Nat × Bool) :=
  [(cx.rt.off, cx.rt.code.length, false), (0x1000_0000, 0x4000, false), (rvOut, 0x4000, true), (0x1000_8000, 0x100, false),
    (0x1000_9000, 0x1000, true)]

/-- May n bytes at an address be accessed: aligned, and inside one range? -/
def rvMay (cx : RvCx) (a n : Nat) (write : Bool) : Bool :=
  a % n == 0 && (rvRanges cx).any fun r => decide (r.1 ≤ a ∧ a + n ≤ r.1 + r.2.1) && (!write || r.2.2)

/-- The byte at an address of a range. -/
def rvByte (cx : RvCx) (s : Rv) (a : Nat) : Byte :=
  if a < 0x1_0000 then cx.rt.code.getD (a - cx.rt.off) 0
  else if a < rvOut then cx.input.getD (a - 0x1000_0000) (Config.routineByte cx.k a)
  else if a < 0x1000_8000 then (s.mem.find a).getD (Config.routineByte cx.k a)
  else if a < 0x1000_9000 then cx.window.getD (a - 0x1000_8000) 0
  else (s.mem.find a).getD 0

/-- Loads n bytes as a number; none for a trap. -/
def rvLoad (cx : RvCx) (s : Rv) (a n : Nat) : Option Nat :=
  if rvMay cx a n false then some (ofBytes ((List.range n).map fun i => rvByte cx s (a + i))) else none

/-- Stores the low n bytes of a number; none for a trap. -/
def rvStore (cx : RvCx) (s : Rv) (a n v : Nat) : Option Rv :=
  rvIf (rvMay cx a n true)
    { s with mem := (toBytes n v).zipIdx.foldl (fun m b => m.put (a + b.2) b.1) s.mem }

/-! ## Registers -/

/-- Register r. -/
def Rv.get (s : Rv) (r : Nat) : Nat := (s.x.getD r 0).toNat

/-- Register r set to the low 64 bits of a number; x0 stays 0. -/
def Rv.put (s : Rv) (r v : Nat) : Rv := if r = 0 then s else { s with x := s.x.set r (BitVec.ofNat 64 v) }

/-- Register r set to an integer. -/
def Rv.putInt (s : Rv) (r : Nat) (z : Int) : Rv := s.put r (Machine.ofInt z).toNat

/-- A signed number of w bits as 64 bits. -/
def sxt (w v : Nat) : Nat := (Machine.ofInt (sext w v)).toNat

/-- The low w bits of an integer. -/
def lowBits (w : Nat) (z : Int) : Nat := (z % (2 : Int) ^ w).toNat

/-! ## Vector registers and elements -/

/-- 8 × LMUL of a vtype, 0 for the reserved code. -/
def lmul8Of (vt : Nat) : Nat :=
  match vt % 8 with
  | 0 => 8
  | 1 => 16
  | 2 => 32
  | 3 => 64
  | 5 => 1
  | 6 => 2
  | 7 => 4
  | _ => 0

/-- SEW of a vtype. -/
def sewOf (vt : Nat) : Nat := 8 * 2 ^ (vt / 8 % 8)

/-- The elements that fit a group: VLEN is 256. -/
def vlmaxOf (lmul8 sew : Nat) : Nat := lmul8 * 32 / sew

/-- Is a vtype supported: no reserved bit, ELEN 64, and SEW at most LMUL × ELEN? -/
def vtypeOk (vt : Nat) : Bool :=
  decide (vt < 256) && decide (sewOf vt ≤ 64) && decide (sewOf vt ≤ 8 * lmul8Of vt)

/-- SEW. -/
def Rv.sew (s : Rv) : Nat := sewOf s.vtype
/-- 8 × LMUL. -/
def Rv.lmul8 (s : Rv) : Nat := lmul8Of s.vtype
/-- VLMAX. -/
def Rv.vlmax (s : Rv) : Nat := vlmaxOf s.lmul8 s.sew
/-- Tail agnostic. -/
def Rv.vta (s : Rv) : Bool := s.vtype / 64 % 2 == 1
/-- Mask agnostic. -/
def Rv.vma (s : Rv) : Bool := s.vtype / 128 % 2 == 1

/-- Element i of w bits of the group from register r on. -/
def Rv.el (s : Rv) (w r i : Nat) : Nat := ofBytes ((s.v.drop (32 * r + w / 8 * i)).take (w / 8))

/-- Mask bit i of register r. -/
def Rv.mbit (s : Rv) (r i : Nat) : Bool := (s.v.getD (32 * r + i / 8) 0).toNat / 2 ^ (i % 8) % 2 == 1

/-- Is element i active: unmasked, or selected by v0? -/
def Rv.active (s : Rv) (vm : Bool) (i : Nat) : Bool := vm || s.mbit 0 i

/-- Bytes of the vector registers from register r on replaced. -/
def Rv.putBytes (s : Rv) (r : Nat) (bs : List Byte) : Rv :=
  { s with v := s.v.take (32 * r) ++ bs ++ s.v.drop (32 * r + bs.length) }

/-- An agnostic element of w bits: as it was, or, where the policy is agnostic, perhaps all ones. -/
def Rv.agnostic (s : Rv) (on : Bool) (w i old : Nat) : Nat :=
  if on && Config.agnosticOnes s.count i then 2 ^ w - 1 else old

/-- Writes the elements of a group: f gives what an active element becomes, none where it stays. -/
def Rv.putGroup (s : Rv) (vm : Bool) (w emul8 vd : Nat) (f : Nat → Option Nat) : Rv :=
  let el (i : Nat) : Nat :=
    let old := s.el w vd i
    if s.vl ≤ i then s.agnostic s.vta w i old
    else if s.active vm i then (f i).getD old
    else s.agnostic s.vma w i old
  if s.vl = 0 then s
  else s.putBytes vd ((List.range (max emul8 8 * 32 / w)).flatMap fun i => toBytes (w / 8) (el i))

/-- Writes a mask register; its tail is agnostic whatever the policy. -/
def Rv.putMask (s : Rv) (vm : Bool) (vd : Nat) (f : Nat → Bool) : Rv :=
  let bit (i : Nat) : Nat :=
    let old := if s.mbit vd i then 1 else 0
    if s.vl ≤ i then s.agnostic true 1 i old
    else if s.active vm i then (if f i then 1 else 0)
    else s.agnostic s.vma 1 i old
  if s.vl = 0 then s
  else s.putBytes vd ((List.range 32).map fun b =>
    BitVec.ofNat 8 ((List.range 8).foldl (fun v j => v + bit (8 * b + j) * 2 ^ j) 0))

/-- Writes element 0 of a register; the others are its tail. -/
def Rv.putScalar (s : Rv) (w vd v : Nat) : Rv :=
  if s.vl = 0 then s
  else s.putBytes vd ((List.range (256 / w)).flatMap fun i =>
    toBytes (w / 8) (if i = 0 then v else s.agnostic s.vta w i (s.el w vd i)))

/-! ## Register groups -/

/-- How many registers a group takes. -/
def regsOf (emul8 : Nat) : Nat := max 1 (emul8 / 8)

/-- Is r the first register of a group of an EMUL that there is? -/
def groupOk (r emul8 : Nat) : Bool := decide (1 ≤ emul8 ∧ emul8 ≤ 64) && r % regsOf emul8 == 0

/-- Do two groups share no register? -/
def apart (d dm r rm : Nat) : Bool := decide (d + regsOf dm ≤ r ∨ r + regsOf rm ≤ d)

/-- May a destination group of element width dw and a source group of element width w overlap as they do: of one width
they may, a narrower destination only in the lowest part of the source, a wider one only with the source in its highest
part? -/
def overlapOk (d dw dm r w rm : Nat) : Bool :=
  apart d dm r rm || dw == w || (decide (dw < w) && d == r)
    || (decide (w < dw) && decide (8 ≤ rm) && r + regsOf rm == d + regsOf dm)

end Sys2Proof.Machine
end

