-- ==== Sys2Proof/Machine/RvVec.lean ====
section
/-! DEFINITION. The vector instructions of a transform core: the V extension 1.0 with VLEN 256 and ELEN 64, without the
forms that name an f register (16_codec_transform: R332). The spec names the public extension and does not repeat it
(PRESUMED, log 12). vstart and vxrm are always 0, as no CSR that holds them is legal. -/

namespace Sys2Proof.Machine

/-! ## vsetvli, vsetivli, vsetvl -/

/-- vl and vtype are set for an AVL, none to keep vl; rd receives vl. A vtype that is not supported, or a kept vl where
VLMAX would change, sets vill. -/
def rvSetVl (s : Rv) (rd : Nat) (avl : Option Nat) (vt : Nat) : Rv :=
  let bad : Rv := { s with vl := 0, vtype := 0, vill := true }.put rd 0
  let m := vlmaxOf (lmul8Of vt) (sewOf vt)
  let set (n : Nat) : Rv := { s with vl := n, vtype := vt, vill := false }.put rd n
  if !vtypeOk vt then bad
  else match avl with
    | none => if s.vill || s.vlmax != m then bad else set s.vl
    | some n =>
      if n ≤ m then set n
      else if 2 * m ≤ n then set m
      else
        let lo := (n + 1) / 2
        set (lo + Config.vlChoice n m % (m - lo + 1))

/-- The three forms. -/
def rvVset (s : Rv) (w : Nat) : Option Rv :=
  let rd := nfld w 11 7
  let rs1 := nfld w 19 15
  let avl : Option Nat := if rs1 ≠ 0 then some (s.get rs1) else if rd ≠ 0 then some (2 ^ 64 - 1) else none
  if nfld w 31 31 = 0 then some (rvSetVl s rd avl (nfld w 30 20))
  else if nfld w 31 30 = 3 then some (rvSetVl s rd (some rs1) (nfld w 29 20))
  else if nfld w 31 25 = 0x40 then some (rvSetVl s rd avl (s.get (nfld w 24 20)))
  else none

/-! ## Elementwise integer operations -/

/-- Where the second operand comes from: a vector, an x register, an immediate. -/
inductive VSrc where
  | v
  | x
  | i
  deriving DecidableEq, Repr, Inhabited

/-- The fields of a vector instruction. -/
structure VOp where
  f6 : Nat
  vm : Bool
  vs2 : Nat
  vs1 : Nat
  vd : Nat
  src : VSrc
  deriving DecidableEq, Repr, Inhabited

/-- The fields of a word. -/
def vopOf (w : Nat) (src : VSrc) : VOp :=
  ⟨nfld w 31 26, nfld w 25 25 == 1, nfld w 24 20, nfld w 19 15, nfld w 11 7, src⟩

/-- Element i of the second operand at w bits; an immediate is signed, or, with uns, unsigned. -/
def opB (s : Rv) (o : VOp) (uns : Bool) (w i : Nat) : Nat :=
  match o.src with
  | .v => s.el w o.vs1 i
  | .x => s.get o.vs1 % 2 ^ w
  | .i => if uns then o.vs1 else lowBits w (sext 5 o.vs1)

/-- v / 2^d rounded to nearest, ties up: the rounding of vxrm 0. -/
def roundOff (z : Int) (d : Nat) : Int := if d = 0 then z else (z + (2 : Int) ^ (d - 1)) / (2 : Int) ^ d

/-- A signed integer saturated to w bits. -/
def clipS (w : Nat) (z : Int) : Nat :=
  lowBits w (max (-(2 : Int) ^ (w - 1)) (min ((2 : Int) ^ (w - 1) - 1) z))

/-- An integer saturated to w unsigned bits. -/
def clipU (w : Nat) (z : Int) : Nat := (max 0 (min ((2 : Int) ^ w - 1) z)).toNat

/-- An operation of OPI on elements a of vs2 and b of w bits. -/
def aluI (f6 w a b : Nat) : Option Nat :=
  let sa := sext w a
  let sb := sext w b
  let k := b % w
  match f6 with
  | 0x00 => some (a + b)
  | 0x02 => some (lowBits w (sa - sb))
  | 0x03 => some (lowBits w (sb - sa))
  | 0x04 => some (min a b)
  | 0x05 => some (if sa < sb then a else b)
  | 0x06 => some (max a b)
  | 0x07 => some (if sa < sb then b else a)
  | 0x09 => some (a &&& b)
  | 0x0A => some (a ||| b)
  | 0x0B => some (a ^^^ b)
  | 0x20 => some (clipU w (a + b : Nat))
  | 0x21 => some (clipS w (sa + sb))
  | 0x22 => some (a - b)
  | 0x23 => some (clipS w (sa - sb))
  | 0x25 => some (a * 2 ^ k)
  | 0x27 => some (clipS w (roundOff (sa * sb) (w - 1)))
  | 0x28 => some (a / 2 ^ k)
  | 0x29 => some (lowBits w (sa / (2 : Int) ^ k))
  | 0x2A => some (lowBits w (roundOff a k))
  | 0x2B => some (lowBits w (roundOff sa k))
  | _ => none

/-- Is the immediate of an OPI operation unsigned: a shift's, a slide's, a gather's? -/
def immUns (f6 : Nat) : Bool := [0x0C, 0x0E, 0x0F, 0x25, 0x28, 0x29, 0x2A, 0x2B, 0x2C, 0x2D, 0x2E, 0x2F].contains f6

/-- Which operands an OPI operation takes. -/
def opiOk (f6 : Nat) (src : VSrc) : Bool :=
  match f6 with
  | 0x02 | 0x04 | 0x05 | 0x06 | 0x07 | 0x12 | 0x13 | 0x1A | 0x1B | 0x22 | 0x23 | 0x27 => src != .i
  | 0x03 | 0x0F | 0x1E | 0x1F => src != .v
  | 0x30 | 0x31 => src == .v
  | _ => true

/-- A comparison of OPI. -/
def cmpI (f6 w a b : Nat) : Bool :=
  let sa := sext w a
  let sb := sext w b
  match f6 with
  | 0x18 => a == b
  | 0x19 => a != b
  | 0x1A => decide (a < b)
  | 0x1B => decide (sa < sb)
  | 0x1C => decide (a ≤ b)
  | 0x1D => decide (sa ≤ sb)
  | 0x1E => decide (b < a)
  | _ => decide (sb < sa)

/-- An operation of OPM on elements a of vs2, b, and c of vd. -/
def aluM (f6 w a b c : Nat) : Option Nat :=
  let sa := sext w a
  let sb := sext w b
  match f6 with
  | 0x08 => some (lowBits w (roundOff (a + b : Nat) 1))
  | 0x09 => some (lowBits w (roundOff (sa + sb) 1))
  | 0x0A => some (lowBits w (roundOff ((a : Int) - b) 1))
  | 0x0B => some (lowBits w (roundOff (sa - sb) 1))
  | 0x20 => some (if b = 0 then 2 ^ w - 1 else a / b)
  | 0x21 => some (if b = 0 then 2 ^ w - 1 else lowBits w (sa.tdiv sb))
  | 0x22 => some (if b = 0 then a else a % b)
  | 0x23 => some (if b = 0 then a else lowBits w (sa.tmod sb))
  | 0x24 => some (a * b / 2 ^ w)
  | 0x25 => some (a * b)
  | 0x26 => some (lowBits w (sa * b / (2 : Int) ^ w))
  | 0x27 => some (lowBits w (sa * sb / (2 : Int) ^ w))
  | 0x29 => some (b * c + a)
  | 0x2B => some (lowBits w ((a : Int) - (b * c : Nat)))
  | 0x2D => some (b * a + c)
  | 0x2F => some (lowBits w ((c : Int) - (b * a : Nat)))
  | _ => none

/-- A widening operation of OPM: a and b as integers, c of vd at 2w bits. -/
def aluW (f6 w : Nat) (a b : Nat) (c : Nat) : Option Int :=
  let sa := sext w a
  let sb := sext w b
  let wa := sext (2 * w) a
  match f6 with
  | 0x30 => some (a + b : Nat)
  | 0x31 => some (sa + sb)
  | 0x32 => some ((a : Int) - b)
  | 0x33 => some (sa - sb)
  | 0x34 => some (a + b : Nat)
  | 0x35 => some (wa + sb)
  | 0x36 => some ((a : Int) - b)
  | 0x37 => some (wa - sb)
  | 0x38 => some (a * b : Nat)
  | 0x3A => some (sa * b)
  | 0x3B => some (sa * sb)
  | 0x3C => some (a * b + c : Nat)
  | 0x3D => some (sa * sb + c)
  | 0x3E => some (sa * b + c)
  | 0x3F => some (sb * a + c)
  | _ => none

/-! ## Legality -/

/-- Do the groups of a single-width operation stand: vd, vs2 and a vector operand, with vd not v0 where it is masked? -/
def singleOk (s : Rv) (o : VOp) : Bool :=
  groupOk o.vd s.lmul8 && groupOk o.vs2 s.lmul8 && (o.src != .v || groupOk o.vs1 s.lmul8) && (o.vm || o.vd != 0)

/-- The same for an operation that writes a mask. -/
def maskOk (s : Rv) (o : VOp) : Bool :=
  groupOk o.vs2 s.lmul8 && overlapOk o.vd 1 8 o.vs2 s.sew s.lmul8
    && (o.src != .v || (groupOk o.vs1 s.lmul8 && overlapOk o.vd 1 8 o.vs1 s.sew s.lmul8))

/-- The same for a widening operation; wide says that vs2 has the double width already. -/
def wideOk (s : Rv) (o : VOp) (wide : Bool) : Bool :=
  let m := s.lmul8
  let src (r : Nat) : Bool := groupOk r m && overlapOk o.vd (2 * s.sew) (2 * m) r s.sew m
  decide (2 * s.sew ≤ 64) && groupOk o.vd (2 * m) && (if wide then groupOk o.vs2 (2 * m) else src o.vs2)
    && (o.src != .v || src o.vs1) && (o.vm || o.vd != 0)

/-- The same for a narrowing operation. -/
def narrowOk (s : Rv) (o : VOp) : Bool :=
  let m := s.lmul8
  decide (2 * s.sew ≤ 64) && groupOk o.vd m && groupOk o.vs2 (2 * m)
    && overlapOk o.vd s.sew m o.vs2 (2 * s.sew) (2 * m) && (o.src != .v || groupOk o.vs1 m) && (o.vm || o.vd != 0)

/-- The same for a reduction, whose vd and vs1 are single registers. -/
def reduceOk (s : Rv) (o : VOp) : Bool := groupOk o.vs2 s.lmul8

/-- Does vd share no register with a source group? -/
def freeOf (s : Rv) (o : VOp) (r emul8 : Nat) : Bool := apart o.vd s.lmul8 r emul8

/-- The active elements of the body, ascending. -/
def Rv.actives (s : Rv) (vm : Bool) : List Nat := (List.range s.vl).filter (s.active vm)

/-- The integer reduction of a list from a first term. -/
def reduceI (f6 w : Nat) (first : Nat) (xs : List Nat) : Nat :=
  let step (a b : Nat) : Nat := match f6 with
    | 0x00 => (a + b) % 2 ^ w
    | 0x01 => a &&& b
    | 0x02 => a ||| b
    | 0x03 => a ^^^ b
    | 0x04 => min a b
    | 0x05 => if sext w b < sext w a then b else a
    | 0x06 => max a b
    | _ => if sext w a < sext w b then b else a
  xs.foldl step first

/-! ## OPI -/

/-- vrgather, vrgatherei16 and the slides by an offset. -/
def vMove (s : Rv) (o : VOp) : Option Rv :=
  let w := s.sew
  let m := s.lmul8
  let off := if o.src = .x then s.get o.vs1 else o.vs1
  let put (f : Nat → Option Nat) : Rv := s.putGroup o.vm w m o.vd f
  let at_ (i : Nat) : Nat := if s.vlmax ≤ i then 0 else s.el w o.vs2 i
  let base := singleOk s { o with src := .x } && freeOf s o o.vs2 m
  match o.f6, o.src with
  | 0x0C, .v => rvIf (base && groupOk o.vs1 m && freeOf s o o.vs1 m) (put fun i => some (at_ (s.el w o.vs1 i)))
  | 0x0C, _ => rvIf base (put fun _ => some (at_ off))
  | 0x0E, .v =>
    let em := m * 16 / w
    rvIf (base && decide (m * 16 % w = 0) && groupOk o.vs1 em && freeOf s o o.vs1 em)
      (put fun i => some (at_ (s.el 16 o.vs1 i)))
  | 0x0E, _ => rvIf base (put fun i => if i < off then none else some (s.el w o.vs2 (i - off)))
  | _, _ => rvIf (singleOk s { o with src := .x }) (put fun i => some (at_ (i + off)))

/-- Add and subtract with carry or borrow from v0, and their carries. -/
def vCarry (s : Rv) (o : VOp) : Option Rv :=
  let w := s.sew
  let c (i : Nat) : Nat := if !o.vm && s.mbit 0 i then 1 else 0
  let a (i : Nat) : Nat := s.el w o.vs2 i
  let b (i : Nat) : Nat := opB s o false w i
  match o.f6 with
  | 0x10 => rvIf (!o.vm && singleOk s o) (s.putGroup true w s.lmul8 o.vd fun i => some (a i + b i + c i))
  | 0x12 => rvIf (!o.vm && singleOk s o)
      (s.putGroup true w s.lmul8 o.vd fun i => some (lowBits w ((a i : Int) - b i - c i)))
  | 0x11 => rvIf (maskOk s o) (s.putMask true o.vd fun i => decide (2 ^ w ≤ a i + b i + c i))
  | _ => rvIf (maskOk s o) (s.putMask true o.vd fun i => decide (a i < b i + c i))

/-- Narrowing shifts and clips. -/
def vNarrow (s : Rv) (o : VOp) : Option Rv :=
  let w := s.sew
  let f (i : Nat) : Nat :=
    let a := s.el (2 * w) o.vs2 i
    let k := opB s o true w i % (2 * w)
    match o.f6 with
    | 0x2C => a / 2 ^ k
    | 0x2D => lowBits w (sext (2 * w) a / (2 : Int) ^ k)
    | 0x2E => clipU w (roundOff a k)
    | _ => clipS w (roundOff (sext (2 * w) a) k)
  rvIf (narrowOk s o) (s.putGroup o.vm w s.lmul8 o.vd fun i => some (f i))

/-- vmv1r.v, vmv2r.v, vmv4r.v and vmv8r.v. -/
def vMoveRegs (s : Rv) (o : VOp) : Option Rv :=
  let n := o.vs1 + 1
  rvIf (o.vm && [1, 2, 4, 8].contains n && o.vd % n == 0 && o.vs2 % n == 0)
    (s.putBytes o.vd ((s.v.drop (32 * o.vs2)).take (32 * n)))

/-- The operations of OPIVV, OPIVX and OPIVI. -/
def vOpi (s : Rv) (o : VOp) : Option Rv :=
  let w := s.sew
  let b (i : Nat) : Nat := opB s o (immUns o.f6) w i
  if !opiOk o.f6 o.src && !(o.f6 == 0x27 && o.src == .i) then none
  else match o.f6 with
  | 0x0C | 0x0E | 0x0F => vMove s o
  | 0x10 | 0x11 | 0x12 | 0x13 => vCarry s o
  | 0x17 =>
    if o.vm then
      rvIf (o.vs2 == 0 && singleOk s o) (s.putGroup true w s.lmul8 o.vd fun i => some (b i))
    else rvIf (singleOk s o)
      (s.putGroup true w s.lmul8 o.vd fun i => some (if s.mbit 0 i then b i else s.el w o.vs2 i))
  | 0x18 | 0x19 | 0x1A | 0x1B | 0x1C | 0x1D | 0x1E | 0x1F =>
    rvIf (maskOk s o) (s.putMask o.vm o.vd fun i => cmpI o.f6 w (s.el w o.vs2 i) (b i))
  | 0x2C | 0x2D | 0x2E | 0x2F => vNarrow s o
  | 0x30 | 0x31 =>
    let v (x : Nat) : Int := if o.f6 = 0x31 then sext w x else x
    let sum := (s.actives o.vm).foldl (fun (t : Int) i => t + v (s.el w o.vs2 i)) (s.el (2 * w) o.vs1 0)
    rvIf (decide (2 * w ≤ 64) && reduceOk s o) (s.putScalar (2 * w) o.vd (lowBits (2 * w) sum))
  | f6 =>
    if f6 = 0x27 ∧ o.src = .i then vMoveRegs s o
    else if (aluI f6 w 0 0).isNone then none
    else rvIf (singleOk s o) (s.putGroup o.vm w s.lmul8 o.vd fun i => aluI f6 w (s.el w o.vs2 i) (b i))

/-! ## OPM -/

/-- The mask operations on whole mask registers. -/
def vMaskLogic (s : Rv) (o : VOp) : Option Rv :=
  let f (i : Nat) : Bool :=
    let a := s.mbit o.vs2 i
    let b := s.mbit o.vs1 i
    match o.f6 with
    | 0x18 => a && !b
    | 0x19 => a && b
    | 0x1A => a || b
    | 0x1B => a != b
    | 0x1C => a || !b
    | 0x1D => !(a && b)
    | 0x1E => !(a || b)
    | _ => a == b
  rvIf (o.vm && o.src == .v) (s.putMask true o.vd f)

/-- vmsbf.m, vmsof.m, vmsif.m, viota.m and vid.v. -/
def vMaskUnary (s : Rv) (o : VOp) : Option Rv :=
  let set (i : Nat) : Bool := s.active o.vm i && s.mbit o.vs2 i
  let before (i : Nat) : Nat := ((List.range i).filter set).length
  let maskTo (f : Nat → Bool) : Option Rv := rvIf (o.vd != o.vs2 && (o.vm || o.vd != 0)) (s.putMask o.vm o.vd f)
  match o.vs1 with
  | 1 => maskTo fun i => before (i + 1) == 0
  | 2 => maskTo fun i => before i == 0 && set i
  | 3 => maskTo fun i => before i == 0
  | 0x10 => rvIf (groupOk o.vd s.lmul8 && (o.vm || o.vd != 0) && apart o.vd s.lmul8 o.vs2 8)
      (s.putGroup o.vm s.sew s.lmul8 o.vd fun i => some (before i))
  | 0x11 => rvIf (o.vs2 == 0 && groupOk o.vd s.lmul8 && (o.vm || o.vd != 0))
      (s.putGroup o.vm s.sew s.lmul8 o.vd some)
  | _ => none

/-- vmv.x.s, vcpop.m, vfirst.m; and vmv.s.x. -/
def vScalar (s : Rv) (o : VOp) : Option Rv :=
  let hits := (s.actives o.vm).filter (s.mbit o.vs2)
  match o.src, o.vs1 with
  | .x, r => rvIf (o.vm && o.vs2 == 0) (s.putScalar s.sew o.vd (s.get r))
  | _, 0 => rvIf o.vm (s.put o.vd (sxt s.sew (s.el s.sew o.vs2 0)))
  | _, 0x10 => some (s.put o.vd hits.length)
  | _, 0x11 => some (match hits with
      | i :: _ => s.put o.vd i
      | [] => s.putInt o.vd (-1))
  | _, _ => none

/-- vzext.vf2, .vf4 and .vf8, and their signed forms. -/
def vExtend (s : Rv) (o : VOp) : Option Rv :=
  let n := match o.vs1 / 2 with
    | 1 => 8
    | 2 => 4
    | 3 => 2
    | _ => 0
  let w := s.sew
  if n = 0 ∨ 7 < o.vs1 ∨ w < 8 * n ∨ s.lmul8 < n then none
  else
    let v (i : Nat) : Nat :=
      let a := s.el (w / n) o.vs2 i
      if o.vs1 % 2 = 1 then lowBits w (sext (w / n) a) else a
    rvIf (groupOk o.vd s.lmul8 && groupOk o.vs2 (s.lmul8 / n) && overlapOk o.vd w s.lmul8 o.vs2 (w / n) (s.lmul8 / n)
      && (o.vm || o.vd != 0)) (s.putGroup o.vm w s.lmul8 o.vd fun i => some (v i))

/-- vslide1up and vslide1down. -/
def vSlide1 (s : Rv) (o : VOp) : Option Rv :=
  let w := s.sew
  let x := s.get o.vs1
  let up := o.f6 == 0x0E
  rvIf (o.src == .x && singleOk s o && (!up || freeOf s o o.vs2 s.lmul8)) (s.putGroup o.vm w s.lmul8 o.vd fun i =>
    some (if up then (if i = 0 then x else s.el w o.vs2 (i - 1))
      else if i + 1 = s.vl then x else s.el w o.vs2 (i + 1)))

/-- vcompress.vm: the elements that the mask in vs1 selects, packed; the rest is tail. -/
def vCompress (s : Rv) (o : VOp) : Option Rv :=
  let w := s.sew
  let xs := ((List.range s.vl).filter (s.mbit o.vs1)).map (s.el w o.vs2)
  let t := { s with vl := xs.length }.putGroup true w s.lmul8 o.vd fun i => xs[i]?
  let none_ := s.putBytes o.vd ((List.range (max s.lmul8 8 * 32 / w)).flatMap fun i =>
    toBytes (w / 8) (s.agnostic s.vta w i (s.el w o.vd i)))
  rvIf (o.vm && o.src == .v && groupOk o.vd s.lmul8 && groupOk o.vs2 s.lmul8 && freeOf s o o.vs2 s.lmul8
    && freeOf s o o.vs1 8) (if s.vl = 0 then s else if xs = [] then none_ else { t with vl := s.vl })

/-- The widening operations of OPM. -/
def vWide (s : Rv) (o : VOp) : Option Rv :=
  let w := s.sew
  let wide := decide (0x34 ≤ o.f6 ∧ o.f6 ≤ 0x37)
  let a (i : Nat) : Nat := s.el (if wide then 2 * w else w) o.vs2 i
  let f (i : Nat) : Option Nat :=
    (aluW o.f6 w (a i) (opB s o false w i) (s.el (2 * w) o.vd i)).map (lowBits (2 * w))
  if (aluW o.f6 w 0 0 0).isNone || (o.f6 == 0x3E && o.src == .v) then none
  else rvIf (wideOk s o wide) (s.putGroup o.vm (2 * w) (2 * s.lmul8) o.vd f)

/-- The operations of OPMVV and OPMVX. -/
def vOpm (s : Rv) (o : VOp) : Option Rv :=
  let w := s.sew
  match o.f6 with
  | 0x00 | 0x01 | 0x02 | 0x03 | 0x04 | 0x05 | 0x06 | 0x07 =>
    rvIf (o.src == .v && reduceOk s o)
      (s.putScalar w o.vd (reduceI o.f6 w (s.el w o.vs1 0) ((s.actives o.vm).map (s.el w o.vs2))))
  | 0x0E | 0x0F => vSlide1 s o
  | 0x10 => vScalar s o
  | 0x12 => if o.src = .v then vExtend s o else none
  | 0x14 => if o.src = .v then vMaskUnary s o else none
  | 0x17 => vCompress s o
  | 0x18 | 0x19 | 0x1A | 0x1B | 0x1C | 0x1D | 0x1E | 0x1F => vMaskLogic s o
  | f6 =>
    if 0x30 ≤ f6 then vWide s o
    else if (aluM f6 w 0 0 0).isNone then none
    else rvIf (singleOk s o)
      (s.putGroup o.vm w s.lmul8 o.vd fun i => aluM f6 w (s.el w o.vs2 i) (opB s o false w i) (s.el w o.vd i))

/-! ## OPF -/

/-- The format of elements of w bits. -/
def vfmt (w : Nat) : FFmt := if w = 64 then f64 else f32

/-- Writes elements and raises the flags of the active ones. -/
def Rv.putF (s : Rv) (vm : Bool) (w emul8 vd : Nat) (f : Nat → FRes) : Rv :=
  let t := s.putGroup vm w emul8 vd fun i => some (f i).1
  { t with fflags := (s.actives vm).foldl (fun fl i => fl ||| (f i).2) s.fflags }

/-- A two-operand operation on data a of vs2 and b of vs1. -/
def aluF (f6 : Nat) (f : FFmt) (mode a b : Nat) : Option FRes :=
  match f6 with
  | 0x00 => some (rvAdd f mode a b)
  | 0x02 => some (rvAdd f mode a (fpNeg f b))
  | 0x04 => some (fpMinMax f false a b)
  | 0x06 => some (fpMinMax f true a b)
  | 0x08 => some (fpCopysign f a b, 0)
  | 0x09 => some (fpCopysign f a (fpNeg f b), 0)
  | 0x0A => some (if signOf f b then fpNeg f a else a, 0)
  | 0x20 => some (rvDiv f mode a b)
  | 0x24 => some (rvMul f mode a b)
  | _ => none

/-- The fused operations: by vd as multiplicand, whether product and addend are negated. -/
def fusedOf (f6 : Nat) : Option (Bool × Bool × Bool) :=
  match f6 with
  | 0x28 => some (true, false, false)
  | 0x29 => some (true, true, true)
  | 0x2A => some (true, false, true)
  | 0x2B => some (true, true, false)
  | 0x2C | 0x3C => some (false, false, false)
  | 0x2D | 0x3D => some (false, true, true)
  | 0x2E | 0x3E => some (false, false, true)
  | 0x2F | 0x3F => some (false, true, false)
  | _ => none

/-- The range of integers of w bits. -/
def rvIntRange (w : Nat) (signed : Bool) : Int × Int :=
  if signed then (-(2 : Int) ^ (w - 1), (2 : Int) ^ (w - 1) - 1) else (0, (2 : Int) ^ w - 1)

/-- A datum of a format as an integer of w bits. -/
def vToInt (f : FFmt) (mode w : Nat) (signed : Bool) (a : Nat) : FRes :=
  let r := rvIntRange w signed
  let v := rvToInt f mode r.1 r.2 a
  (lowBits w v.1, v.2)

/-- An integer of w bits as a datum. -/
def vOfInt (f : FFmt) (mode w : Nat) (signed : Bool) (a : Nat) : FRes :=
  rvRound f mode (XR.ofInt (if signed then sext w a else a))

/-- The conversions of VFUNARY0. -/
def vConvert (s : Rv) (o : VOp) : Option Rv :=
  let w := s.sew
  let f := vfmt w
  let m := s.lmul8
  let mode := if [6, 7, 14, 15, 22, 23].contains o.vs1 then 1 else s.frm
  let signed := o.vs1 % 2 == 1
  let single (g : Nat → FRes) : Option Rv :=
    rvIf (singleOk s { o with src := .x }) (s.putF o.vm w m o.vd fun i => g (s.el w o.vs2 i))
  let wide (g : Nat → FRes) : Option Rv :=
    rvIf (wideOk s { o with src := .x } false) (s.putF o.vm (2 * w) (2 * m) o.vd fun i => g (s.el w o.vs2 i))
  let narrow (g : Nat → FRes) : Option Rv :=
    rvIf (narrowOk s { o with src := .x }) (s.putF o.vm w m o.vd fun i => g (s.el (2 * w) o.vs2 i))
  match o.vs1 with
  | 0 | 1 | 6 | 7 => single (vToInt f mode w signed)
  | 2 | 3 => single (vOfInt f mode w signed)
  | 8 | 9 | 14 | 15 => wide (vToInt f32 mode (2 * w) signed)
  | 10 | 11 => wide (vOfInt f64 mode w signed)
  | 12 => wide (rvCvt f64 f32 mode)
  | 16 | 17 | 22 | 23 => narrow (vToInt f64 mode w signed)
  | 18 | 19 => narrow (vOfInt f32 mode (2 * w) signed)
  | 20 => narrow (rvCvt f32 f64 mode)
  | 21 => narrow (rvCvt f32 f64 5)
  | _ => none

/-- The operations of VFUNARY1. -/
def vUnaryF (s : Rv) (o : VOp) : Option Rv :=
  let f := vfmt s.sew
  let put (g : Nat → FRes) : Option Rv :=
    rvIf (singleOk s { o with src := .x }) (s.putF o.vm s.sew s.lmul8 o.vd fun i => g (s.el s.sew o.vs2 i))
  match o.vs1 with
  | 0 => put (rvSqrt f s.frm)
  | 4 => put (rvRsqrt7 f)
  | 5 => put (rvRec7 f s.frm)
  | 16 => put fun a => (rvClass f a, 0)
  | _ => none

/-- A datum of the single width at the double width, with NV for a signalling NaN. -/
def widenF (a : Nat) : FRes := rvCvt f64 f32 0 a

/-- A reduction in element order, with its flags. -/
def foldF (g : Nat → Nat → FRes) (first : Nat) (xs : List Nat) : FRes :=
  xs.foldl (fun t x => let r := g t.1 x; (r.1, t.2 ||| r.2)) (first, 0)

/-- The floating-point reductions. An unordered sum of more than one term is a free value. -/
def vReduceF (s : Rv) (o : VOp) : Option Rv :=
  let w := s.sew
  let dbl := decide (0x30 ≤ o.f6)
  let v := if dbl then 2 * w else w
  let f := vfmt v
  let first := s.el v o.vs1 0
  let raw := (s.actives o.vm).map (s.el w o.vs2)
  let terms := if dbl then raw.map (fun a => (widenF a).1) else raw
  let nv : Flags := if dbl then raw.foldl (fun fl a => fl ||| (widenF a).2) 0 else 0
  let r : FRes := match o.f6 with
    | 0x05 => foldF (fpMinMax f false) first terms
    | 0x07 => foldF (fpMinMax f true) first terms
    | 0x03 | 0x33 => foldF (rvAdd f s.frm) first terms
    | _ => if terms = [] then (first, 0) else Config.unorderedSum v s.frm first terms
  let t := s.putScalar v o.vd r.1
  rvIf (decide (v ≤ 64) && reduceOk s o) { t with fflags := s.fflags ||| nv ||| (if s.vl = 0 then 0 else r.2 &&& 0x1F) }

/-- The operations of OPFVV; every one needs SEW 32 or 64 and a rounding mode that there is. -/
def vOpf (s : Rv) (o : VOp) : Option Rv :=
  let w := s.sew
  let m := s.lmul8
  let f := vfmt w
  let a (i : Nat) : Nat := s.el w o.vs2 i
  let b (i : Nat) : Nat := s.el w o.vs1 i
  let cmp (rel : Nat) : Option Rv :=
    let t := s.putMask o.vm o.vd fun i => (rvCmp f rel (a i) (b i)).1
    rvIf (maskOk s o)
      { t with fflags := (s.actives o.vm).foldl (fun fl i => fl ||| (rvCmp f rel (a i) (b i)).2) s.fflags }
  let single (g : Nat → FRes) : Option Rv := rvIf (singleOk s o) (s.putF o.vm w m o.vd g)
  let dbl (wide : Bool) (g : Nat → Nat → Nat → FRes) : Option Rv :=
    let x (i : Nat) : FRes := if wide then (s.el 64 o.vs2 i, 0) else widenF (a i)
    rvIf (wideOk s o wide) (s.putF o.vm 64 (2 * m) o.vd fun i =>
      let r := g (x i).1 (widenF (b i)).1 (s.el 64 o.vd i)
      (r.1, r.2 ||| (x i).2 ||| (widenF (b i)).2))
  if (w ≠ 32 ∧ w ≠ 64) ∨ 4 < s.frm then none
  else match o.f6 with
  | 0x01 | 0x03 | 0x05 | 0x07 | 0x31 | 0x33 => vReduceF s o
  | 0x12 => vConvert s o
  | 0x13 => vUnaryF s o
  | 0x18 => cmp 0
  | 0x19 => cmp 3
  | 0x1B => cmp 2
  | 0x1C => cmp 1
  | 0x30 => dbl false fun x y _ => rvAdd f64 s.frm x y
  | 0x32 => dbl false fun x y _ => rvAdd f64 s.frm x (fpNeg f64 y)
  | 0x34 => dbl true fun x y _ => rvAdd f64 s.frm x y
  | 0x36 => dbl true fun x y _ => rvAdd f64 s.frm x (fpNeg f64 y)
  | 0x38 => dbl false fun x y _ => rvMul f64 s.frm x y
  | f6 =>
    match fusedOf f6 with
    | some (vdMul, np, nc) =>
      if 0x3C ≤ f6 then dbl false fun x y z => rvFma f64 s.frm np nc y x z
      else single fun i =>
        let c := s.el w o.vd i
        if vdMul then rvFma f s.frm np nc (b i) c (a i) else rvFma f s.frm np nc (b i) (a i) c
    | none =>
      if (aluF f6 f s.frm 0 0).isNone then none
      else single fun i => (aluF f6 f s.frm (a i) (b i)).getD (0, 0)

/-- An instruction of OP-V. -/
def rvOpV (s : Rv) (w : Nat) : Option Rv :=
  match nfld w 14 12 with
  | 7 => rvVset s w
  | k =>
    if s.vill then none
    else match k with
      | 0 => vOpi s (vopOf w .v)
      | 1 => vOpf s (vopOf w .v)
      | 2 => vOpm s (vopOf w .v)
      | 3 => vOpi s (vopOf w .i)
      | 4 => vOpi s (vopOf w .x)
      | 6 => vOpm s (vopOf w .x)
      | _ => none

/-! ## Loads and stores -/

/-- A vector access: element i of field k at an address, of w bits, in the group from register vd on; count is how many
elements there are, and the access goes to the address that at_ gives. -/
structure VMem where
  w : Nat
  emul8 : Nat
  vd : Nat
  vm : Bool
  fields : Nat
  count : Nat
  at_ : Nat → Nat → Nat

/-- The first register of a field's group. -/
def VMem.group (q : VMem) (k : Nat) : Nat := q.vd + k * regsOf q.emul8

/-- Do the groups of the fields stand, and, with load, not share v0 where the access is masked? -/
def VMem.ok (q : VMem) (load : Bool) : Bool :=
  groupOk q.vd q.emul8 && decide (q.fields * q.emul8 ≤ 64) && decide (q.vd + q.fields * regsOf q.emul8 ≤ 32)
    && (!load || q.vm || q.vd != 0)

/-- The elements that an access reaches, ascending. -/
def VMem.elems (q : VMem) (s : Rv) : List Nat := (List.range q.count).filter (s.active q.vm)

/-- A load: the elements' values by field, or a trap; with ff, an element after the first that cannot be read ends the
load and becomes vl. -/
def vLoad (cx : RvCx) (s : Rv) (q : VMem) (ff : Bool) : Option Rv :=
  let get (i k : Nat) : Option Nat := rvLoad cx s (q.at_ i k % 2 ^ 64) (q.w / 8)
  let bad (i : Nat) : Bool := (List.range q.fields).any fun k => (get i k).isNone
  let put (s : Rv) : Rv := (List.range q.fields).foldl
    (fun t k => t.putGroup q.vm q.w q.emul8 (q.group k) fun i => get i k) s
  match (q.elems s).find? bad with
  | none => some (put s)
  | some i => if ff ∧ 0 < i then some (put { s with vl := i }) else none

/-- A store, in element order. -/
def vStore (cx : RvCx) (s : Rv) (q : VMem) : Option Rv :=
  (q.elems s).foldl (init := some s) fun t i =>
    (List.range q.fields).foldl (init := t) fun t k => match t with
      | some u => rvStore cx u (q.at_ i k % 2 ^ 64) (q.w / 8) (s.el q.w (q.group k) i)
      | none => none

/-- vl1r.v to vl8re64.v and vs1r.v to vs8r.v. -/
def vWhole (cx : RvCx) (s : Rv) (w : Nat) (load : Bool) : Option Rv :=
  let n := nfld w 31 29 + 1
  let vd := nfld w 11 7
  let width := if load then 8 * 2 ^ (match nfld w 14 12 with | 5 => 1 | 6 => 2 | 7 => 3 | _ => 0) else 8
  let a := s.get (nfld w 19 15)
  let sz := width / 8
  if !([1, 2, 4, 8].contains n) || vd % n != 0 || nfld w 25 25 != 1 || (!load && nfld w 14 12 != 0) then none
  else if load then
    let vs := (List.range (32 * n / sz)).map fun i => rvLoad cx s ((a + sz * i) % 2 ^ 64) sz
    if vs.any (·.isNone) then none else some (s.putBytes vd (vs.flatMap fun v => toBytes sz (v.getD 0)))
  else
    ((s.v.drop (32 * vd)).take (32 * n)).zipIdx.foldl (init := some s) fun t b => match t with
      | some u => rvStore cx u ((a + b.2) % 2 ^ 64) 1 b.1.toNat
      | none => none

/-- vlm.v and vsm.v: the bytes of a mask of vl bits; the tail of the load is agnostic whatever the policy. -/
def vMaskMem (cx : RvCx) (s : Rv) (w : Nat) (load : Bool) : Option Rv :=
  let n := (s.vl + 7) / 8
  let a := s.get (nfld w 19 15)
  let vd := nfld w 11 7
  if nfld w 31 29 ≠ 0 ∨ nfld w 25 25 ≠ 1 ∨ nfld w 14 12 ≠ 0 then none
  else if load then
    let vs := (List.range n).map fun i => rvLoad cx s ((a + i) % 2 ^ 64) 1
    if vs.any (·.isNone) then none
    else if n = 0 then some s
    else some (s.putBytes vd ((List.range 32).map fun i => BitVec.ofNat 8 (match vs[i]? with
      | some v => v.getD 0
      | none => s.agnostic true 8 i (s.el 8 vd i))))
  else
    (List.range n).foldl (init := some s) fun t i => match t with
      | some u => rvStore cx u ((a + i) % 2 ^ 64) 1 (s.el 8 vd i)
      | none => none

/-- A vector load or store. -/
def rvVmem (cx : RvCx) (s : Rv) (w : Nat) (load : Bool) : Option Rv :=
  let mop := nfld w 27 26
  let r2 := nfld w 24 20
  let base := s.get (nfld w 19 15)
  let eew := 8 * 2 ^ (match nfld w 14 12 with | 5 => 1 | 6 => 2 | 7 => 3 | _ => 0)
  let nf := nfld w 31 29 + 1
  let vd := nfld w 11 7
  let vm := nfld w 25 25 == 1
  let em (e : Nat) : Nat := if s.lmul8 * e % s.sew = 0 then s.lmul8 * e / s.sew else 0
  let run (q : VMem) (ff : Bool) : Option Rv :=
    if !q.ok load then none else if load then vLoad cx s q ff else vStore cx s q
  if nfld w 28 28 ≠ 0 ∨ (1 ≤ nfld w 14 12 ∧ nfld w 14 12 ≤ 4) then none
  else if mop = 0 ∧ r2 = 8 then vWhole cx s w load
  else if s.vill then none
  else if mop = 0 ∧ r2 = 11 then vMaskMem cx s w load
  else match mop with
  | 0 =>
    if r2 = 0 ∨ (r2 = 16 ∧ load) then
      run ⟨eew, em eew, vd, vm, nf, s.vl, fun i k => base + eew / 8 * (nf * i + k)⟩ (r2 == 16)
    else none
  | 2 => run ⟨eew, em eew, vd, vm, nf, s.vl, fun i k => base + i * s.get r2 + eew / 8 * k⟩ false
  | _ =>
    let dw := s.sew
    let q : VMem := ⟨dw, s.lmul8, vd, vm, nf, s.vl, fun i k => base + s.el eew r2 i + dw / 8 * k⟩
    let clear := if nf = 1 then overlapOk vd dw s.lmul8 r2 eew (em eew)
      else (List.range nf).all fun k => apart (q.group k) s.lmul8 r2 (em eew)
    if groupOk r2 (em eew) && (!load || clear) then run q false else none

end Sys2Proof.Machine
end

