-- ==== Sys2Proof/Machine/Rv.lean ====
section
/-! DEFINITION. The scalar instructions of a transform core, RV64IMC with Zicsr, and the run of a routine over one buffer
(16_codec_transform: R332 to R335). The spec names the public instruction set and does not repeat it (PRESUMED, log 12). -/

namespace Sys2Proof.Machine

/-! ## The words of the formats, and what the C extension expands to -/

/-- An I-type word. -/
def rvI (imm rs1 f3 rd op : Nat) : Nat := imm % 4096 * 2 ^ 20 + rs1 * 2 ^ 15 + f3 * 2 ^ 12 + rd * 2 ^ 7 + op

/-- An R-type word. -/
def rvR (f7 rs2 rs1 f3 rd op : Nat) : Nat := f7 * 2 ^ 25 + rvI rs2 rs1 f3 rd op

/-- An S-type word. -/
def rvS (imm rs2 rs1 f3 op : Nat) : Nat := rvR (nfld imm 11 5) rs2 rs1 f3 (nfld imm 4 0) op

/-- A B-type word. -/
def rvB (imm rs2 rs1 f3 : Nat) : Nat :=
  rvR (nfld imm 12 12 * 64 + nfld imm 10 5) rs2 rs1 f3 (nfld imm 4 1 * 2 + nfld imm 11 11) 0x63

/-- A J-type word. -/
def rvJ (imm rd : Nat) : Nat :=
  (nfld imm 20 20 * 2 ^ 19 + nfld imm 10 1 * 2 ^ 9 + nfld imm 11 11 * 2 ^ 8 + nfld imm 19 12) * 2 ^ 12 + rd * 2 ^ 7 + 0x6F

/-- Quadrant 0 of the C extension; the forms that name an f register are illegal. -/
def rvQuad0 (h : Nat) : Option Nat :=
  let rd := 8 + nfld h 4 2
  let rs1 := 8 + nfld h 9 7
  let w := nfld h 12 10 * 8 + nfld h 6 6 * 4 + nfld h 5 5 * 64
  let x := nfld h 12 10 * 8 + nfld h 6 5 * 64
  match nfld h 15 13 with
  | 0 =>
    let imm := nfld h 12 11 * 16 + nfld h 10 7 * 64 + nfld h 6 6 * 4 + nfld h 5 5 * 8
    if imm = 0 then none else some (rvI imm 2 0 rd 0x13)
  | 2 => some (rvI w rs1 2 rd 0x03)
  | 3 => some (rvI x rs1 3 rd 0x03)
  | 6 => some (rvS w rd rs1 2 0x23)
  | 7 => some (rvS x rd rs1 3 0x23)
  | _ => none

/-- Quadrant 1. -/
def rvQuad1 (h : Nat) : Option Nat :=
  let rd := nfld h 11 7
  let r := 8 + nfld h 9 7
  let r2 := 8 + nfld h 4 2
  let s := nfld h 12 12
  let imm6 := s * 0xFE0 + nfld h 6 2
  let off := s * 0x1F00 + nfld h 11 10 * 8 + nfld h 6 5 * 64 + nfld h 4 3 * 2 + nfld h 2 2 * 32
  match nfld h 15 13 with
  | 0 => some (rvI imm6 rd 0 rd 0x13)
  | 1 => if rd = 0 then none else some (rvI imm6 rd 0 rd 0x1B)
  | 2 => some (rvI imm6 0 0 rd 0x13)
  | 3 =>
    if s = 0 ∧ nfld h 6 2 = 0 then none
    else if rd = 2 then
      some (rvI (s * 0xE00 + nfld h 6 6 * 16 + nfld h 5 5 * 64 + nfld h 4 3 * 128 + nfld h 2 2 * 32) 2 0 2 0x13)
    else some ((s * 0xFFFE0 + nfld h 6 2) * 2 ^ 12 + rd * 2 ^ 7 + 0x37)
  | 4 =>
    match nfld h 11 10 with
    | 0 => some (rvI (s * 32 + nfld h 6 2) r 5 r 0x13)
    | 1 => some (rvI (0x400 + s * 32 + nfld h 6 2) r 5 r 0x13)
    | 2 => some (rvI imm6 r 7 r 0x13)
    | _ =>
      match s * 4 + nfld h 6 5 with
      | 0 => some (rvR 0x20 r2 r 0 r 0x33)
      | 1 => some (rvR 0 r2 r 4 r 0x33)
      | 2 => some (rvR 0 r2 r 6 r 0x33)
      | 3 => some (rvR 0 r2 r 7 r 0x33)
      | 4 => some (rvR 0x20 r2 r 0 r 0x3B)
      | 5 => some (rvR 0 r2 r 0 r 0x3B)
      | _ => none
  | 5 =>
    some (rvJ (s * 0x1FF800 + nfld h 11 11 * 16 + nfld h 10 9 * 256 + nfld h 8 8 * 1024 + nfld h 7 7 * 64 + nfld h 6 6 * 128
      + nfld h 5 3 * 2 + nfld h 2 2 * 32) 0)
  | 6 => some (rvB off 0 r 0)
  | _ => some (rvB off 0 r 1)

/-- Quadrant 2. -/
def rvQuad2 (h : Nat) : Option Nat :=
  let rd := nfld h 11 7
  let rs2 := nfld h 6 2
  let s := nfld h 12 12
  match nfld h 15 13 with
  | 0 => some (rvI (s * 32 + rs2) rd 1 rd 0x13)
  | 2 => if rd = 0 then none else some (rvI (s * 32 + nfld h 6 4 * 4 + nfld h 3 2 * 64) 2 2 rd 0x03)
  | 3 => if rd = 0 then none else some (rvI (s * 32 + nfld h 6 5 * 8 + nfld h 4 2 * 64) 2 3 rd 0x03)
  | 4 =>
    if rs2 ≠ 0 then some (rvR 0 rs2 (if s = 0 then 0 else rd) 0 rd 0x33)
    else if rd ≠ 0 then some (rvI 0 rd 0 s 0x67)
    else if s = 1 then some 0x0010_0073
    else none
  | 6 => some (rvS (nfld h 12 9 * 4 + nfld h 8 7 * 64) rs2 2 2 0x23)
  | 7 => some (rvS (nfld h 12 10 * 8 + nfld h 9 7 * 64) rs2 2 3 0x23)
  | _ => none

/-- The instruction at the pc and its length, or none where it cannot be read inside the running slot's range or is no
instruction of the C extension. -/
def rvFetch (cx : RvCx) (pc : Nat) : Option (Nat × Nat) :=
  let half (a : Nat) : Option Nat :=
    if cx.rt.off ≤ a ∧ a + 2 ≤ cx.rt.off + cx.rt.code.length then
      some (ofBytes ((cx.rt.code.drop (a - cx.rt.off)).take 2)) else none
  match half pc with
  | none => none
  | some h =>
    let short (w : Option Nat) : Option (Nat × Nat) := w.map (·, 2)
    match h % 4 with
    | 0 => short (rvQuad0 h)
    | 1 => short (rvQuad1 h)
    | 2 => short (rvQuad2 h)
    | _ => (half (pc + 2)).map fun g => (h + 2 ^ 16 * g, 4)

/-! ## The scalar instructions -/

/-- A result of a w-bit operation in a register: 32-bit results are sign-extended. -/
def rvRes (w v : Nat) : Nat := if w = 32 then sxt 32 v else v % 2 ^ 64

/-- The operation f3 of OP and OP-IMM, with alt for sub and sra, on w bits. -/
def rvAlu (f3 : Nat) (alt : Bool) (w a b : Nat) : Nat :=
  let sh := b % w
  match f3 with
  | 0 => if alt then 2 ^ w + a - b else a + b
  | 1 => a * 2 ^ sh
  | 2 => if sext w a < sext w b then 1 else 0
  | 3 => if a < b then 1 else 0
  | 4 => a ^^^ b
  | 5 => if alt then lowBits w (sext w a / (2 : Int) ^ sh) else a / 2 ^ sh
  | 6 => a ||| b
  | _ => a &&& b

/-- The operation f3 of the M extension on w bits. -/
def rvMulDiv (f3 w a b : Nat) : Nat :=
  (aluM ([0x25, 0x27, 0x26, 0x24, 0x21, 0x20, 0x23, 0x22].getD f3 0) w a b 0).getD 0

/-- OP and OP-32. -/
def rvOp (s : Rv) (i w : Nat) : Option Rv :=
  let f3 := nfld i 14 12
  let a := s.get (nfld i 19 15) % 2 ^ w
  let b := s.get (nfld i 24 20) % 2 ^ w
  let gives (v : Nat) : Rv := s.put (nfld i 11 7) (rvRes w v)
  let short := w == 32
  match nfld i 31 25 with
  | 0 => rvIf (!short || [0, 1, 5].contains f3) (gives (rvAlu f3 false w a b))
  | 0x20 => rvIf (f3 == 0 || f3 == 5) (gives (rvAlu f3 true w a b))
  | 1 => rvIf (!short || !([1, 2, 3].contains f3)) (gives (rvMulDiv f3 w a b))
  | _ => none

/-- OP-IMM and OP-IMM-32. -/
def rvOpImm (s : Rv) (i w : Nat) : Option Rv :=
  let f3 := nfld i 14 12
  let a := s.get (nfld i 19 15) % 2 ^ w
  let imm := sxt 12 (nfld i 31 20) % 2 ^ w
  let gives (v : Nat) : Rv := s.put (nfld i 11 7) (rvRes w v)
  let top := if w = 64 then nfld i 31 26 else nfld i 31 25
  let alt := if w = 64 then 0x10 else 0x20
  match f3 with
  | 1 => rvIf (top == 0) (gives (rvAlu 1 false w a imm))
  | 5 => rvIf (top == 0 || top == alt) (gives (rvAlu 5 (top == alt) w a imm))
  | _ => rvIf (w == 64 || f3 == 0) (gives (rvAlu f3 false w a imm))

/-- Loads. -/
def rvLoadOp (cx : RvCx) (s : Rv) (i : Nat) : Option Rv :=
  let f3 := nfld i 14 12
  let a := (s.get (nfld i 19 15) + sxt 12 (nfld i 31 20)) % 2 ^ 64
  let n := 2 ^ (f3 % 4)
  if f3 = 7 then none
  else (rvLoad cx s a n).map fun v => s.put (nfld i 11 7) (if f3 < 4 then sxt (8 * n) v else v)

/-- Stores. -/
def rvStoreOp (cx : RvCx) (s : Rv) (i : Nat) : Option Rv :=
  let f3 := nfld i 14 12
  let a := (s.get (nfld i 19 15) + sxt 12 (nfld i 31 25 * 32 + nfld i 11 7)) % 2 ^ 64
  if 3 < f3 then none else rvStore cx s a (2 ^ f3) (s.get (nfld i 24 20))

/-- Is a branch taken? none for a code that there is not. -/
def rvTaken (f3 a b : Nat) : Option Bool :=
  match f3 with
  | 0 => some (a == b)
  | 1 => some (a != b)
  | 4 => some (decide (sext 64 a < sext 64 b))
  | 5 => some (decide (sext 64 b ≤ sext 64 a))
  | 6 => some (decide (a < b))
  | 7 => some (decide (b ≤ a))
  | _ => none

/-- What a CSR reads as; none where it is illegal. -/
def rvCsr (s : Rv) (c : Nat) : Option Nat :=
  match c with
  | 0x001 => some (s.fflags.toNat % 32)
  | 0x002 => some s.frm
  | 0xC02 => some s.count
  | _ => none

/-- fflags or frm written; the others are read-only. -/
def rvCsrWrite (s : Rv) (c v : Nat) : Option Rv :=
  match c with
  | 0x001 => some { s with fflags := BitVec.ofNat 6 (v % 32) }
  | 0x002 => some { s with frm := v % 8 }
  | _ => none

/-- csrrw to csrrci: csrrs and csrrc of x0 or 0 write nothing. -/
def rvCsrOp (s : Rv) (i : Nat) : Option Rv :=
  let c := nfld i 31 20
  let f3 := nfld i 14 12
  let r := nfld i 19 15
  let v := if 4 ≤ f3 then r else s.get r
  match rvCsr s c with
  | none => none
  | some old =>
    let new : Option Rv := match f3 % 4 with
      | 1 => rvCsrWrite s c v
      | 2 => if r = 0 then some s else rvCsrWrite s c (old ||| v)
      | 3 => if r = 0 then some s else rvCsrWrite s c (old &&& (2 ^ 64 - 1 - v))
      | _ => none
    new.map (·.put (nfld i 11 7) old)

/-- An instruction of n bytes: the core after it with its next pc, or none for a trap. ecall leaves a0 in out. -/
def rvExec (cx : RvCx) (s : Rv) (i n : Nat) : Option Rv :=
  let next := (s.pc + n) % 2 ^ 64
  let rd := nfld i 11 7
  let go (r : Option Rv) : Option Rv := r.map fun t => { t with pc := next }
  let jump (dst : Nat) (t : Rv) : Rv := { t with pc := dst % 2 ^ 64 }
  let upper := sxt 32 (nfld i 31 12 * 4096)
  match nfld i 6 0 with
  | 0x37 => go (some (s.put rd upper))
  | 0x17 => go (some (s.put rd (s.pc + upper)))
  | 0x6F =>
    some (jump (s.pc + sxt 21 (nfld i 31 31 * 2 ^ 20 + nfld i 30 21 * 2 + nfld i 20 20 * 2 ^ 11 + nfld i 19 12 * 2 ^ 12))
      (s.put rd next))
  | 0x67 =>
    rvIf (nfld i 14 12 == 0) (jump ((s.get (nfld i 19 15) + sxt 12 (nfld i 31 20)) / 2 * 2) (s.put rd next))
  | 0x63 =>
    (rvTaken (nfld i 14 12) (s.get (nfld i 19 15)) (s.get (nfld i 24 20))).map fun t =>
      if t then
        jump (s.pc + sxt 13 (nfld i 31 31 * 2 ^ 12 + nfld i 30 25 * 32 + nfld i 11 8 * 2 + nfld i 7 7 * 2 ^ 11)) s
      else jump next s
  | 0x03 => go (rvLoadOp cx s i)
  | 0x23 => go (rvStoreOp cx s i)
  | 0x13 => go (rvOpImm s i 64)
  | 0x1B => go (rvOpImm s i 32)
  | 0x33 => go (rvOp s i 64)
  | 0x3B => go (rvOp s i 32)
  | 0x0F => go (rvIf (nfld i 14 12 == 0) s)
  | 0x73 =>
    if i = 0x73 then some { s with out := some (s.get 10) }
    else go (rvCsrOp s i)
  | 0x57 => go (rvOpV s i)
  | 0x07 => go (rvVmem cx s i true)
  | 0x27 => go (rvVmem cx s i false)
  | _ => none

/-! ## A buffer (R334, R335) -/

/-- Runs at most a number of instructions, the ecall among them: the core at its ecall, or none for a trap or a buffer
that has not ended by then. -/
def rvRun (cx : RvCx) : (fuel : Nat) → Rv → Option Rv
  | 0, _ => none
  | fuel + 1, s =>
    match rvFetch cx s.pc with
    | none => none
    | some (i, n) =>
      match rvExec cx s i n with
      | none => none
      | some t => if t.out.isSome then some t else rvRun cx fuel { t with count := t.count + 1 }

/-- A core as a buffer starts. -/
def rvStart (cx : RvCx) (flags : Nat) : Rv :=
  let s : Rv :=
    { pc := cx.rt.off + cx.rt.entry, x := List.replicate 32 0, v := List.replicate 1024 0, mem := [], vl := 0, vtype := 0,
      vill := true, frm := 0, fflags := 0, count := 0, out := none }
  (((s.put 10 cx.input.length).put 11 cx.k).put 12 flags).put 2 0x1000_A000

/-- What a routine delivers of one buffer, OUT[0 .. n − 1]; none where the command ends with ROUTINE. -/
def runRoutine (r : Routine) (input window : List Byte) (k flags : Nat) : Option (List Byte) :=
  let cx : RvCx := { rt := r, input := input, window := window, k := k }
  match rvRun cx r.budget (rvStart cx flags) with
  | none => none
  | some s =>
    let n := s.out.getD 0
    if 16384 < n then none else some ((List.range n).map fun i => rvByte cx s (rvOut + i))

end Sys2Proof.Machine
end

