-- ==== Sys2Proof/Machine/CopyPlan.lean ====
section
/-! DEFINITION. What the copy engine's commands do: the records they name, the codes they breach, what they read, and
where it goes (15_copy_engine: R307 to R316, R320; 16_codec_transform: R327, R328, R334). -/

namespace Sys2Proof.Machine

/-! ## Data that a slot keeps -/

/-- A byte as a slot keeps it: none for uncorrectable data. -/
def EB.kept : EB → Option Byte
  | .byte b => some b
  | _ => none

/-- A byte that a slot has kept. -/
def EB.ofKept : Option Byte → EB
  | some b => .byte b
  | none => .bad

/-- The indices or logical blocks that a slot has read, by number. -/
abbrev Pres := Tbl (List (Option Byte))

/-- What the streams of a command do: 0 the source, 1 the destination, 2 the index, 3 the record (R316). -/
def srcVia (slot : Nat) : Via := .stream slot 0
def dstVia (slot : Nat) : Via := .stream slot 1
def idxVia (slot : Nat) : Via := .stream slot 2
def recVia (slot : Nat) : Via := .stream slot 3

/-- The codes of several checks. -/
def codesOf (l : List (Option Nat)) : List Nat := l.filterMap id

/-- A read as an engine takes it. -/
def readCode (d : Device) (core : Nat) (via : Via) (a : Word) (n : Nat) : List EB × Option Nat × Device :=
  let r := ereadVia d core via a n
  (r.1, r.2.1.map (·.1), r.2.2)

/-- The bytes, of those from o on, that lie in one aligned 8-byte word with byte o, which lies at address a, kept within
lo to hi − 1: the first, and how many. -/
def wordRun (a o lo hi : Nat) : Nat × Nat :=
  let first := max lo (o - a % 8)
  (first, min hi (o + 8 - a % 8) - first)

/-! ## Plans

A command reads a source of so many bytes, by offset, and turns it into destination bytes: as a stream whose words it
writes in any order, or block by block. -/

/-- What a command reads. pres gives the numbers of the indices or logical blocks that n bytes from o on need, readPre
reads one, and notes gives the codes that it notes of one; run gives the bytes that are read with byte o in one access,
and bytes reads. stored is the Legend of the stored blocks that it is read from, where it is. -/
structure Source where
  total : Nat
  pres : (o n : Nat) → List Nat
  readPre : (i : Nat) → Device → Except Nat (List (Option Byte)) × Device
  notes : List (Option Byte) → List Nat
  run : Pres → (o : Nat) → Nat × Nat
  bytes : Pres → (o n : Nat) → Device → List EB × Option Nat × Device
  stored : Option CodecLegend

/-- A stream. It writes total bytes, granule k up to byte cut (k + 1) of them; need gives the source bytes that n
destination bytes from q on come from, with how many of what make turns those into precede byte q; segs gives where the
bytes go: addresses, offsets and lengths. item is the size of the items that go to places of their own, 0 where the
destination is one range. -/
structure Stream where
  src : Source
  total : Nat
  count : Nat
  cut : Nat → Nat
  need : (q n : Nat) → Nat × Nat × Nat
  make : List EB → List EB
  segs : Pres → (q n : Nat) → List (Word × Nat × Nat)
  item : Nat

/-- A command that works on its source block by block, each of size bytes: what block k comes to after off bytes of
destination, or the code that ends the command; where its bytes go; what is written after them; and the code that is
found at the end. -/
structure Blocks where
  src : Source
  count : Nat
  size : Nat
  out : (k : Nat) → List EB → Device → Except Nat (List EB)
  dst : Word
  entry : (k off len : Nat) → Option (Word × List Byte)
  last : (off : Nat) → Option Nat

/-- The plan of a command: the codes that end it at once, or its work. -/
inductive CopyPlan where
  | bad (codes : List Nat)
  | stream (p : Stream)
  | blocks (p : Blocks)

/-- The offset at which granule k of a linear destination ends: 4 KiB each, moved on to the end of the word that
contains the bound (R319, R320; DEDUCED, log 28). -/
def linearCut (dst : Word) (total per k : Nat) : Nat :=
  if k = 0 then 0 else min total (per * k + (8 - (adOf dst + per * k) % 8) % 8)

/-- A stream whose destination bytes are its source bytes, one after another. -/
def linear (src : Source) (dst : Word) (per : Nat) : CopyPlan :=
  .stream
    { src := src, total := src.total, count := ceilDiv src.total per, cut := linearCut dst src.total per
      need := fun q n => (q, n, 0), make := id, segs := fun _ q n => [(eaPlus dst q, q, n)], item := 0 }

/-- A source that is one range at an engine address. -/
def rangeSource (core slot : Nat) (a : Word) (n : Nat) : Source :=
  { total := n, pres := fun _ _ => [], readPre := fun _ d => (.ok [], d), notes := fun _ => []
    run := fun _ o => wordRun (adOf a + o) o 0 n
    bytes := fun _ o m d => readCode d core (srcVia slot) (eaPlus a o) m
    stored := none }

/-! ## Expanding (R309, R323, R328, R330) -/

/-- The logical blocks that n bytes from an offset on lie in. -/
def logicalBlocks (off n : Nat) : List Nat :=
  if n = 0 then [] else (List.range ((off + n - 1) / 4096 - off / 4096 + 1)).map (off / 4096 + ·)

/-- Logical bytes of blocks that have been read; those of a block that has not are missing. -/
def logicalBytes (pre : Pres) (off n : Nat) : List EB :=
  (logicalBlocks off n).flatMap fun b =>
    let lo := max off (4096 * b)
    let m := min (off + n) (4096 * b + 4096) - lo
    match pre.find b with
    | none => List.replicate m .miss
    | some bs => ((bs.drop (lo - 4096 * b)).take m).map EB.ofKept

/-- A logical block as a slot keeps it. -/
def readLogical (core slot : Nat) (lg : CodecLegend) (b : Nat) (d : Device) : Except Nat (List (Option Byte)) × Device :=
  match readBlock d core (srcVia slot) (aheadOf d core slot (b + 1)) lg b with
  | (.error c, d) => (.error c, d)
  | (.ok bs, d) => (.ok (bs.map some), d)

/-- A source of n logical bytes from an offset on: each block is read once (R328). -/
def logicalSource (core slot : Nat) (lg : CodecLegend) (off n : Nat) : Source :=
  { total := n, pres := fun o m => logicalBlocks (off + o) m, readPre := readLogical core slot lg, notes := fun _ => []
    run := fun _ o => wordRun (off + o) o 0 n
    bytes := fun pre o m d => (logicalBytes pre (off + o) m, none, d)
    stored := some lg }

/-! ## Items -/

/-- m bytes of the items from o on, each item's by f from its number, the offset in it and how many; after a failure
nothing more is read. -/
def itemsRead (el : Nat) (f : (i r n : Nat) → Device → List EB × Option Nat × Device) :
    (fuel : Nat) → (o m : Nat) → Device → List EB × Option Nat × Device
  | 0, _, _, d => ([], none, d)
  | fuel + 1, o, m, d =>
    if m = 0 then ([], none, d)
    else
      let n := min m (el - o % el)
      match f (o / el) (o % el) n d with
      | (es, some c, d) => (es ++ List.replicate (m - n) .miss, some c, d)
      | (es, none, d) =>
        let r := itemsRead el f fuel (o + n) (m - n) d
        (es ++ r.1, r.2)

/-! ## The records that commands name -/

/-- Is a word a global Legend address, or 0 (R308, R345)? -/
def legendAddrOk (a : Word) : Bool := fld a 63 56 == 0 && a.toNat % 64 == 0

/-- The codec's Legend among the records from number i on. -/
def codecRec (recs : List (List Byte)) (i : Nat) : CodecLegend :=
  codecLegendOf (recs.getD i []) (recs.getD (i + 1) []) (recs.getD (i + 2) [])

/-- Reads several records in turn. -/
def readRecs : List (Device → Except Nat (List (List Byte)) × Device) → Device → Except Nat (List (List Byte)) × Device
  | [], d => (.ok [], d)
  | f :: fs, d =>
    match f d with
    | (.error c, d) => (.error c, d)
    | (.ok rs, d) =>
      match readRecs fs d with
      | (.error c, d) => (.error c, d)
      | (.ok more, d) => (.ok (rs ++ more), d)

/-- The codec's Legend at an address, as records. -/
def recCodec (core slot va : Nat) (d : Device) : Except Nat (List (List Byte)) × Device :=
  codecLegend d core (recVia slot) (aheadOf d core slot 0) va

/-- A Legend for a format, as one record. -/
def recLegend (core slot : Nat) (f : AFmt) (va : Nat) (d : Device) : Except Nat (List (List Byte)) × Device :=
  match engLegendVia d core (recVia slot) (privOf d core) (aheadOf d core slot 0) f va with
  | (.error e, d) => (.error e.1, d)
  | (.ok bs, d) => (.ok [bs], d)

/-- n bytes at a global address, as one record. -/
def recBytes (core slot va n : Nat) (d : Device) : Except Nat (List (List Byte)) × Device :=
  match engReadVia d core (recVia slot) (privOf d core) va n with
  | (.error e, d) => (.error e.1, d)
  | (.ok bs, d) => (.ok [layOver (aheadOf d core slot 0) va bs], d)

/-! ## cp (R308, R309) -/

/-- The codes that a cp's descriptor breaches. -/
def cpCodes (w : List Word) : List Nat :=
  let g (k : Nat) : Word := w.getD k 0
  let src := g 1
  let dst := g 2
  let n := (g 3).toNat
  let exp := bit (g 0) 8
  let cx := decide (spOf src = 2 ∨ spOf dst = 2)
  codesOf [
    need (zeroIn (g 0) (maskOf 63 9) && decide (1 ≤ n ∧ n ≤ 2 ^ 40) && g 5 == 0 && (exp || g 4 == 0)) cDescriptor,
    need (!exp || (spOf src == 0 && resOk src && legendAddrOk (g 4))) cDescriptor,
    if exp then none else rangeFault true src n,
    rangeFault true dst n,
    need (!cx || decide (n ≤ 65536)) cDescriptor,
    need (exp || spOf src != spOf dst || !overlaps (adOf src) n (adOf dst) n) cDescriptor]

/-- The records of cp. -/
def cpRecs (core slot : Nat) (w : List Word) : Device → Except Nat (List (List Byte)) × Device :=
  if bit (w.getD 0 0) 8 then recCodec core slot (w.getD 4 0).toNat else readRecs []

/-- The work of cp. -/
def cpPlan (core slot : Nat) (w : List Word) (recs : List (List Byte)) : CopyPlan :=
  let n := (w.getD 3 0).toNat
  let src := w.getD 1 0
  linear (if bit (w.getD 0 0) 8 then logicalSource core slot (codecRec recs 0) (adOf src) n
    else rangeSource core slot src n) (w.getD 2 0) 4096

/-! ## cp.t (R310, R311) -/

/-- A tensor map. -/
structure TMap where
  base : Word
  dims : List Nat
  rank : Nat
  es : Nat
  strides : List Nat
  win : List Nat
  legend : Nat
  cmp : Bool
  window : Bool
  deriving DecidableEq, Repr, Inhabited

/-- The map of a record's words. -/
def tmapOf (m : List Word) : TMap :=
  let g (k hi lo : Nat) : Nat := fld (m.getD k 0) hi lo
  { base := m.getD 0 0
    dims := [g 1 15 0, g 1 31 16, g 1 47 32, g 1 63 48, g 2 63 48]
    rank := g 2 47 40
    es := g 2 39 32
    strides := [g 2 39 32, g 3 31 0, g 3 63 32, g 4 31 0, g 4 63 32]
    win := [g 5 63 56, g 5 55 48, g 5 47 40, g 5 39 32, g 5 31 24, g 5 23 16, g 5 15 8, g 5 7 0]
    legend := g 6 55 6 * 64
    cmp := bit (m.getD 6 0) 1
    window := bit (m.getD 6 0) 0 }

/-- Is a map well formed, its window values apart? -/
def tmapOk (m : List Word) : Bool :=
  let t := tmapOf m
  let g (k hi lo : Nat) : Nat := fld (m.getD k 0) hi lo
  resOk t.base && decide (spOf t.base ≤ 1) && (!t.cmp || spOf t.base == 0)
    && t.dims.all (1 ≤ ·) && decide (1 ≤ t.rank ∧ t.rank ≤ 5) && (t.dims.drop t.rank).all (· == 1)
    && [1, 2, 4, 8].contains t.es && g 2 31 0 == 0 && g 6 63 56 == 0 && g 6 5 2 == 0
    && (t.cmp || t.legend == 0) && m.getD 7 0 == 0

/-- The coordinates of the q-th element of a box: starts and extents by dimension, dimension 0 fastest (R310). -/
def boxCoords : (q : Nat) → (starts : List Int) → (exts dims : List Nat) → Option (List Nat)
  | q, s :: ss, e :: es, m :: ms =>
    let c := s + (q % e : Nat)
    match boxCoords (q / e) ss es ms with
    | none => none
    | some rest => if 0 ≤ c ∧ c < m then some (c.toNat :: rest) else none
  | _, _, _, _ => some []

/-- OX or OY of R311: (dim, padding, dilation, window, stride). -/
def windowCount (dim p dl k s : Nat) : Int := ((dim + 2 * p : Int) - dl * (k - 1 : Int) - 1) / s + 1

/-- The coordinates of column col of row p of the implicit matrix (R311). -/
def windowCoords (t : TMap) (ox oy : Nat) (p col : Nat) : Option (List Nat) :=
  let w (i : Nat) : Nat := t.win.getD i 0
  let m (i : Nat) : Nat := t.dims.getD i 1
  if ox * oy * m 3 ≤ p ∨ w 0 * w 1 * m 0 ≤ col then none
  else
    let k := col / m 0
    let x : Int := (p % ox * w 2 : Nat) - (w 6 : Int) + (k % w 0 * w 4 : Nat)
    let y : Int := (p / ox % oy * w 3 : Nat) - (w 7 : Int) + (k / w 0 * w 5 : Nat)
    if 0 ≤ x ∧ x < m 1 ∧ 0 ≤ y ∧ y < m 2 then some [col % m 0, x.toNat, y.toNat, p / (ox * oy), 0] else none

/-- What a cp.t copies: how many elements, and the coordinates of each; none for a breach. -/
def tShape (w : List Word) (t : TMap) : Option (Nat × (Nat → Option (List Nat))) :=
  let g (k hi lo : Nat) : Nat := fld (w.getD k 0) hi lo
  let win (i : Nat) : Nat := t.win.getD i 0
  if t.window then
    let ox := windowCount (t.dims.getD 1 1) (win 6) (win 4) (win 0) (win 2)
    let oy := windowCount (t.dims.getD 2 1) (win 7) (win 5) (win 1) (win 3)
    let p0 := g 3 31 0
    let nr := g 4 15 0
    let len := g 5 15 0
    if (t.rank ≠ 3 ∧ t.rank ≠ 4) ∨ t.dims.getD 4 1 ≠ 1 ∨ (t.win.take 6).contains 0 ∨ g 3 63 32 ≠ 0 ∨ g 4 63 16 ≠ 0
        ∨ g 5 63 16 ≠ 0 ∨ nr = 0 ∨ len < win 0 * win 1 * t.dims.getD 0 1 ∨ ox < 1 ∨ oy < 1 then none
    else some (nr * len, fun q => windowCoords t ox.toNat oy.toNat (p0 + q / len) (q % len))
  else
    let st := [sext 16 (g 3 15 0), sext 16 (g 3 31 16), sext 16 (g 3 47 32), sext 16 (g 3 63 48), sext 16 (g 4 15 0)]
    let ex := [g 4 31 16, g 4 47 32, g 4 63 48, g 5 15 0, g 5 31 16]
    if g 5 63 32 ≠ 0 ∨ ex.contains 0 ∨ (st.drop t.rank).any (· != 0) ∨ (ex.drop t.rank).any (· != 1) then none
    else some (ex.foldl (· * ·) 1, fun q => boxCoords q st ex t.dims)

/-- The codes that a cp.t's descriptor breaches, its map apart. -/
def ctCodes (w : List Word) : List Nat :=
  let g (k : Nat) : Word := w.getD k 0
  codesOf [need (zeroIn (g 0) (maskOf 63 8) && spOf (g 1) == 0 && resOk (g 1) && adOf (g 1) % 64 == 0
    && decide (spOf (g 2) ≤ 1) && resOk (g 2)) cDescriptor]

/-- The records of cp.t: its map, and for a compressed tensor its Legend. -/
def ctRecs (core slot : Nat) (w : List Word) (d : Device) : Except Nat (List (List Byte)) × Device :=
  match recBytes core slot (adOf (w.getD 1 0)) 64 d with
  | (.error c, d) => (.error c, d)
  | (.ok m, d) =>
    let ws := wordsOf 8 (m.getD 0 [])
    if !tmapOk ws then (.error cDescriptor, d)
    else if (tmapOf ws).cmp then
      match recCodec core slot (tmapOf ws).legend d with
      | (.error c, d) => (.error c, d)
      | (.ok rs, d) => (.ok (m ++ rs), d)
    else (.ok m, d)

/-- The offset from BASE of an element at coordinates, with BASE's own. -/
def elemOff (t : TMap) (c : List Nat) : Nat :=
  adOf t.base + ((c.zip t.strides).map fun p => p.1 * p.2).foldl (· + ·) 0

/-- n bytes of an element from r on: outside the tensor it reads as zeros; an address outside the space's range is
BOUNDS. -/
def elemRead (d : Device) (core slot : Nat) (t : TMap) (pre : Pres) (c : Option (List Nat)) (r n : Nat) :
    List EB × Option Nat × Device :=
  match c with
  | none => (zeros n, none, d)
  | some c =>
    if t.cmp then (logicalBytes pre (elemOff t c + r) n, none, d)
    else if (if spOf t.base = 1 then scratchSize else 2 ^ 56) < elemOff t c + t.es then
      (List.replicate n .miss, some clsBounds, d)
    else readCode d core (srcVia slot) (BitVec.ofNat 64 (spOf t.base * 2 ^ 62 + elemOff t c + r)) n

/-- The elements that m bytes from o on lie in. -/
def elemsOf (es : Nat) (at_ : Nat → Option (List Nat)) (o m : Nat) : List (Option (List Nat)) :=
  (List.range (ceilDiv (o % es + m) es)).map fun i => at_ (o / es + i)

/-- What a cp.t reads: its elements one after another. -/
def elemSource (core slot : Nat) (t : TMap) (lg : CodecLegend) (total : Nat) (at_ : Nat → Option (List Nat)) : Source :=
  { total := total * t.es
    pres := fun o m =>
      if t.cmp then
        ((elemsOf t.es at_ o m).flatMap fun c => match c with
          | none => []
          | some c => logicalBlocks (elemOff t c) t.es).eraseDups
      else []
    readPre := readLogical core slot lg
    notes := fun _ => []
    run := fun _ o => match at_ (o / t.es) with
      | some c => wordRun (elemOff t c + o % t.es) o (o / t.es * t.es) (o / t.es * t.es + t.es)
      | none => (o / t.es * t.es, t.es)
    bytes := fun pre o m d =>
      itemsRead t.es (fun i r n d => elemRead d core slot t pre (at_ i) r n) (m / t.es + 2) o m d
    stored := if t.cmp then some lg else none }

/-- The work of cp.t. -/
def ctPlan (core slot : Nat) (w : List Word) (recs : List (List Byte)) : CopyPlan :=
  let t := tmapOf (wordsOf 8 (recs.getD 0 []))
  match tShape w t with
  | none => .bad [cDescriptor]
  | some (total, at_) =>
    match rangeFault false (w.getD 2 0) (total * t.es) with
    | some c => .bad [c]
    | none => linear (elemSource core slot t (codecRec recs 1) total at_) (w.getD 2 0) 4096

/-! ## cp.g, cp.s (R312) -/

/-- The item size of a gather or scatter. -/
def gsElem (w : List Word) : Nat := if fld (w.getD 4 0) 43 32 = 0 then 4096 else fld (w.getD 4 0) 43 32

/-- The code of a range of a gather or scatter that leaves its space. -/
def gsRange (a : Word) (n : Nat) : Option Nat :=
  (rangeFault false a n).map fun c => if c = clsTranslation then clsBounds else c

/-- The codes that the descriptor of a gather or scatter breaches. -/
def gsCodes (gather : Bool) (w : List Word) : List Nat :=
  let g (k : Nat) : Word := w.getD k 0
  let el := gsElem w
  let n := fld (g 4) 31 0
  let bound := fld (g 5) 31 0
  codesOf [
    need (zeroIn (g 0) (maskOf 63 8) && fld (g 4) 63 44 == 0 && fld (g 5) 63 32 == 0 && decide (1 ≤ n ∧ n ≤ 2 ^ 24))
      cDescriptor,
    gsRange (g 3) (4 * n),
    gsRange (g 1) (el * (if gather then bound else n)),
    gsRange (g 2) (el * (if gather then n else bound)),
    need (adOf (g 3) % 4 == 0) clsAlign]

/-- What an index that has been read says. -/
inductive Idx where
  | unread
  | bad
  | skip
  | out
  | item (j : Nat)
  deriving DecidableEq, Repr

/-- The index of item i. -/
def idxOf (bound : Nat) (pre : Pres) (i : Nat) : Idx :=
  match pre.find i with
  | none => .unread
  | some bs =>
    let es := bs.map EB.ofKept
    if hasBad es then .bad
    else if ebNat es = 0xFFFF_FFFF then .skip
    else if bound ≤ ebNat es then .out
    else .item (ebNat es)

/-- Reads the index of item i. -/
def readIdx (core slot : Nat) (idx : Word) (i : Nat) (d : Device) : Except Nat (List (Option Byte)) × Device :=
  match readCode d core (idxVia slot) (eaPlus idx (4 * i)) 4 with
  | (_, some c, d) => (.error c, d)
  | (es, none, d) => (.ok (es.map EB.kept), d)

/-- The codes that an index notes. -/
def idxNotes (bound : Nat) (bs : List (Option Byte)) : List Nat :=
  match idxOf bound [(0, bs)] 0 with
  | .bad => [clsEcc]
  | .out => [clsBounds]
  | _ => []

/-- What a gather or scatter reads: its items one after another, those of a gather by their indices. -/
def itemSource (core slot : Nat) (gather : Bool) (w : List Word) : Source :=
  let el := gsElem w
  let n := fld (w.getD 4 0) 31 0
  let bound := fld (w.getD 5 0) 31 0
  let src := w.getD 1 0
  let place (i j : Nat) : Nat := el * (if gather then j else i)
  { total := el * n
    pres := fun o m => if m = 0 then [] else (List.range ((o + m - 1) / el - o / el + 1)).map (o / el + ·)
    readPre := readIdx core slot (w.getD 3 0)
    notes := idxNotes bound
    run := fun pre o => match idxOf bound pre (o / el) with
      | .item j => wordRun (adOf src + place (o / el) j + o % el) o (o / el * el) (o / el * el + el)
      | _ => (o / el * el, el)
    bytes := fun pre o m d => itemsRead el (fun i r k d => match idxOf bound pre i with
      | .unread => (List.replicate k .miss, none, d)
      | .bad => (List.replicate k .bad, none, d)
      | .item j => readCode d core (srcVia slot) (eaPlus src (place i j + r)) k
      | _ => (zeros k, none, d)) (m / el + 2) o m d
    stored := none }

/-- The work of cp.g. -/
def cgPlan (core slot : Nat) (w : List Word) : CopyPlan :=
  linear (itemSource core slot true w) (w.getD 2 0) (max 1 (4096 / gsElem w) * gsElem w)

/-- The work of cp.s: each item goes to the place that its index names. -/
def csPlan (core slot : Nat) (w : List Word) : CopyPlan :=
  let el := gsElem w
  let n := fld (w.getD 4 0) 31 0
  let bound := fld (w.getD 5 0) 31 0
  let per := max 1 (4096 / el)
  .stream
    { src := itemSource core slot false w, total := el * n, count := ceilDiv n per, cut := fun k => min (el * n) (el * per * k)
      need := fun q m => (q, m, 0), make := id
      segs := fun pre q m => (List.range (m / el)).filterMap fun i => match idxOf bound pre (q / el + i) with
        | .item j => some (eaPlus (w.getD 2 0) (el * j), q + el * i, el)
        | _ => none
      item := el }

/-! ## Quantisation (R313) -/

/-- Dense elements of a type encoded into atoms; an atom of uncorrectable data is uncorrectable, one of data that is
missing is missing. -/
def quantise (df : AFmt) (sf : Nat) (lg : Legend) (count : Nat) (es : List EB) : List EB :=
  let sz := if sf = 4 then 4 else 2
  (List.range count).flatMap fun a =>
    let part := (es.drop (a * df.n * sz)).take (df.n * sz)
    if part.any (· == .miss) then List.replicate df.bytes .miss
    else if hasBad part then List.replicate df.bytes .bad
    else
      let xs := (List.range df.n).map fun i => exact (fmtOfType sf) (ebNat ((part.drop (i * sz)).take sz))
      goods (toBytes df.bytes (encodeAtom df lg xs))

/-- Are a destination and a source format ones that can be quantised? -/
def quantOk (df sf : Nat) : Bool := decide (8 ≤ df ∧ df ≤ 10) && (sf == 4 || sf == 6)

/-- The codes that a cp.q's descriptor breaches. -/
def cqCodes (w : List Word) : List Nat :=
  let g (k : Nat) : Word := w.getD k 0
  let df := AFmt.ofType (fld (g 3) 47 40)
  let sf := fld (g 3) 39 32
  let n := fld (g 3) 31 0
  let sz := if sf = 4 then 4 else 2
  codesOf [
    need (zeroIn (g 0) (maskOf 63 8) && fld (g 3) 63 48 == 0 && g 5 == 0 && quantOk (fld (g 3) 47 40) sf
      && decide (1 ≤ n ∧ n ≤ 2 ^ 30) && legendAddrOk (g 4)) cDescriptor,
    rangeFault false (g 1) (n * df.n * sz),
    rangeFault false (g 2) (n * df.bytes),
    need (adOf (g 1) % sz == 0 && adOf (g 2) % df.bytes == 0) clsAlign]

/-- The work of cp.q. -/
def cqPlan (core slot : Nat) (w : List Word) (recs : List (List Byte)) : CopyPlan :=
  let df := AFmt.ofType (fld (w.getD 3 0) 47 40)
  let sf := fld (w.getD 3 0) 39 32
  let n := fld (w.getD 3 0) 31 0
  let lg := (legendRec df (recs.getD 0 [])).getD Legend.pa8Default
  let el := df.n * (if sf = 4 then 4 else 2)
  let dst := w.getD 2 0
  let total := n * df.bytes
  .stream
    { src := rangeSource core slot (w.getD 1 0) (n * el)
      total := total, count := ceilDiv total 4096, cut := linearCut dst total 4096
      need := fun q m => (q / df.bytes * el, ceilDiv (q % df.bytes + m) df.bytes * el, q % df.bytes)
      make := fun es => quantise df sf lg (es.length / el) es
      segs := fun _ q m => [(eaPlus dst q, q, m)], item := 0 }

/-! ## cp.z (R314, R327, R328) -/

/-- The codes that a cp.z's descriptor breaches. -/
def czCodes (w : List Word) : List Nat :=
  let g (k : Nat) : Word := w.getD k 0
  let n := fld (g 3) 31 0
  codesOf [
    need (zeroIn (g 0) (maskOf 63 10) && g 5 == 0 && decide (1 ≤ n ∧ n ≤ 2 ^ 24) && resOk (g 2) && spOf (g 2) == 0
      && adOf (g 2) % 256 == 0 && adOf (g 1) % 4096 == 0 && legendAddrOk (g 4)) cDescriptor,
    rangeFault false (g 1) (4096 * n),
    need (spOf (g 1) != 0 || !overlaps (adOf (g 1)) (4096 * n) (adOf (g 2)) (4352 * n)) cDescriptor]

/-- The work of cp.z: a block's sectors, then its directory entry. -/
def czPlan (core slot : Nat) (w : List Word) (recs : List (List Byte)) : CopyPlan :=
  let n := fld (w.getD 3 0) 31 0
  let first := fld (w.getD 3 0) 63 32
  let dst := w.getD 2 0
  let lg := codecRec recs 0
  let tsel := fld (w.getD 0 0) 9 8
  match lg.tables[tsel]? with
  | none => .bad [cDescriptor]
  | some tbl =>
    if !freqsOk tbl || decide (lg.count < first + n) || overlaps (adOf dst) (4352 * n) lg.dir (8 + 8 * lg.count) then
      .bad [cDescriptor]
    else
      .blocks
        { src := rangeSource core slot (w.getD 1 0) (4096 * n), count := n, size := 4096
          out := fun _ es _ =>
            let stored := storeBlock tbl tsel (vals es)
            .ok (if hasBad es then List.replicate stored.length .bad else goods stored)
          dst := dst
          entry := fun k off len => some (BitVec.ofNat 64 (lg.dir + 8 + 8 * (first + k)), toBytes 8 (adOf dst + off + len / 256))
          last := fun _ => none }

/-! ## cp.x (R314, R334, R335) -/

/-- The codes that a cp.x's descriptor breaches. -/
def cxCodes (w : List Word) : List Nat :=
  let g (k : Nat) : Word := w.getD k 0
  let n := fld (g 3) 39 0
  let qnt := bit (g 0) 10
  let exp := bit (g 0) 8
  codesOf [
    need (zeroIn (g 0) (maskOf 63 11 + maskOf 9 9) && fld (g 3) 63 45 == 0 && legendAddrOk (g 4)) cDescriptor,
    need (if qnt then fld (g 5) 63 48 == 0 && quantOk (fld (g 5) 47 40) (fld (g 5) 39 32) else g 5 == 0) cDescriptor,
    need (!exp || (spOf (g 1) == 0 && resOk (g 1))) cDescriptor,
    if exp then none else rangeFault false (g 1) n,
    rangeFault false (g 2) 0,
    need (!qnt || adOf (g 2) % (AFmt.ofType (fld (g 5) 47 40)).bytes == 0) clsAlign]

/-- The address that the parameter window of a cp.x holds at an offset. -/
def winAddr (win : List Byte) (o : Nat) : Nat := ofBytes ((win.drop o).take 8)

/-- The records of cp.x: the parameter window, and the Legends that it names. -/
def cxRecs (core slot : Nat) (w : List Word) (d : Device) : Except Nat (List (List Byte)) × Device :=
  match recBytes core slot (adOf (w.getD 4 0)) 256 d with
  | (.error c, d) => (.error c, d)
  | (.ok win, d) =>
    let bs := win.getD 0 []
    match readRecs ([fun d => (.ok win, d)]
        ++ (if bit (w.getD 0 0) 10 then [recLegend core slot (AFmt.ofType (fld (w.getD 5 0) 47 40)) (winAddr bs 248)] else [])
        ++ (if bit (w.getD 0 0) 8 then [recCodec core slot (winAddr bs 240)] else [])) d with
    | (.error c, d) => (.error c, d)
    | (.ok rs, d) => (.ok rs, d)

/-- What a buffer of a cp.x comes to: the routine's output, quantised with QNT, or ROUTINE. -/
def cxOut (w : List Word) (recs : List (List Byte)) (r : Routine) (k : Nat) (es : List EB) : Except Nat (List EB) :=
  let n := fld (w.getD 3 0) 39 0
  let flags := (if k = 0 then 1 else 0) + (if ceilDiv n 16384 = k + 1 then 2 else 0)
  let df := AFmt.ofType (fld (w.getD 5 0) 47 40)
  let sf := fld (w.getD 5 0) 39 32
  match runRoutine r (vals es) (recs.getD 0 []) k flags with
  | none => .error cRoutine
  | some out =>
    let data := if hasBad es then List.replicate out.length EB.bad else goods out
    let sz := df.n * (if sf = 4 then 4 else 2)
    if 16384 < out.length then .error cRoutine
    else if !bit (w.getD 0 0) 10 then .ok data
    else if out.length % sz ≠ 0 then .error cRoutine
    else .ok (quantise df sf ((legendRec df (recs.getD 1 [])).getD Legend.pa8Default) (out.length / sz) data)

/-- The work of cp.x, whose first buffer ran under generation gen − 1 of its routine, if gen is not 0. -/
def cxPlan (d : Device) (core slot : Nat) (w : List Word) (recs : List (List Byte)) (gen : Nat) : CopyPlan :=
  let n := fld (w.getD 3 0) 39 0
  let rs := fld (w.getD 3 0) 44 40
  let qnt := bit (w.getD 0 0) 10
  if gen = 0 ∧ (d.routines.find rs).isNone then .bad [cDescriptor]
  else
    .blocks
      { src := if bit (w.getD 0 0) 8 then logicalSource core slot (codecRec recs (if qnt then 2 else 1)) (adOf (w.getD 1 0)) n
          else rangeSource core slot (w.getD 1 0) n
        count := ceilDiv n 16384, size := 16384
        out := fun k es d => match d.routines.find rs with
          | none => .error cRoutine
          | some r =>
            if gen ≠ 0 ∧ gen ≠ (d.generations.find rs).getD 0 + 1 then .error cRoutine else cxOut w recs r k es
        dst := w.getD 2 0
        entry := fun _ _ _ => none
        last := fun off =>
          if qnt then need (off == fld (w.getD 5 0) 31 0 * (AFmt.ofType (fld (w.getD 5 0) 47 40)).bytes) cRoutine else none }

/-! ## The plan of a command (R307) -/

/-- The codes that a command's descriptor breaches by itself; a KIND other than the node's opcode is a breach. -/
def copyCodes (opc : Nat) (w : List Word) : List Nat :=
  if fld (w.getD 0 0) 7 0 ≠ opc then [cDescriptor]
  else match opc with
    | 0x40 => cpCodes w
    | 0x41 => ctCodes w
    | 0x42 => gsCodes true w
    | 0x43 => gsCodes false w
    | 0x44 => cqCodes w
    | 0x45 => czCodes w
    | 0x46 => cxCodes w
    | _ => [cDescriptor]

/-- Reads the records that a command names. -/
def copyRecs (core slot opc : Nat) (w : List Word) : Device → Except Nat (List (List Byte)) × Device :=
  match opc with
  | 0x40 => cpRecs core slot w
  | 0x41 => ctRecs core slot w
  | 0x44 => recLegend core slot (AFmt.ofType (fld (w.getD 3 0) 47 40)) (w.getD 4 0).toNat
  | 0x45 => recCodec core slot (w.getD 4 0).toNat
  | 0x46 => cxRecs core slot w
  | _ => readRecs []

/-- The plan of a command whose records have been read. -/
def copyPlan (d : Device) (core slot : Nat) (s : CopySlot) (recs : List (List Byte)) : CopyPlan :=
  match s.opc with
  | 0x40 => cpPlan core slot s.desc recs
  | 0x41 => ctPlan core slot s.desc recs
  | 0x42 => cgPlan core slot s.desc
  | 0x43 => csPlan core slot s.desc
  | 0x44 => cqPlan core slot s.desc recs
  | 0x45 => czPlan core slot s.desc recs
  | 0x46 => cxPlan d core slot s.desc recs s.gen
  | _ => .bad [cDescriptor]

end Sys2Proof.Machine
end

