-- ==== Sys2Proof/Machine/Copy.lean ====
section
/-! DEFINITION. The copy engine: the command nodes, its reads and writes in any order, COPY_COMPLETE and cp.cancel
(15_copy_engine: R304 to R322; 16_codec_transform: R327 to R335). -/

namespace Sys2Proof.Machine

/-! ## What a slot keeps -/

/-- A slot's command changed by f. -/
def modSlot (d : Device) (core slot : Nat) (f : CopySlot → CopySlot) : Device :=
  d.modCore core fun c => { c with copy := c.copy.map fun t => if t.1 = slot then (t.1, f t.2) else t }

/-- Notes codes: the lowest stands (R317). -/
def CopySlot.noted (s : CopySlot) (cs : List Nat) : CopySlot :=
  { s with note := lowest ((if s.note = 0 then [] else [s.note]) ++ cs) }

/-- Notes codes in a slot. -/
def noteSlot (d : Device) (core slot : Nat) (cs : List Nat) : Device :=
  if cs = [] then d else modSlot d core slot (·.noted cs)

/-- The access at granule k fails with a code, which is noted; the first granule that failed stands (R316, R317). -/
def CopySlot.fails (s : CopySlot) (k c : Nat) : CopySlot :=
  { s.noted [c] with failed := match s.failed with
      | some f => if k < f.1 then some (k, c) else some f
      | none => some (k, c) }

/-- Keeps that an access has failed at a granule: the engine performs no further access on the stream (R316). -/
def failSlot (d : Device) (core slot k c : Nat) : Device := modSlot d core slot (·.fails k c)

/-- Has a source byte been read? -/
def CopySlot.hasByte (s : CopySlot) (o : Nat) : Bool := (s.got.find o).isSome

/-- Source bytes that have been read. -/
def CopySlot.gotBytes (s : CopySlot) (o n : Nat) : List EB :=
  (span o n).map fun x => match s.got.find x with
    | some b => .ofKept b
    | none => .miss

/-- Keeps source bytes from o on. -/
def keepBytes (d : Device) (core slot o : Nat) (es : List EB) : Device :=
  modSlot d core slot fun s =>
    { s with got := ((span o es.length).zip es).foldl (fun t p => if p.2 = .miss then t else t.put p.1 p.2.kept) s.got }

/-- The runs of n source bytes from o on that have not been read. -/
def missRuns (s : CopySlot) (o n : Nat) : List (Nat × Nat) :=
  if s.got = [] then (if n = 0 then [] else [(o, n)])
  else (span o n).foldr (init := []) fun x rs =>
    if s.hasByte x then rs
    else match rs with
      | (a, k) :: t => if a = x + 1 then (x, k + 1) :: t else (x, 1) :: (a, k) :: t
      | [] => [(x, 1)]

/-- Reads the indices or logical blocks of a list that have not been read, with the codes that they note; after a
failure nothing more is read. -/
def readPres (d : Device) (core slot : Nat) (src : Source) : List Nat → Option Nat × Device
  | [] => (none, d)
  | i :: is =>
    match ((d.core core).copy.find slot).bind fun s => s.pres.find i with
    | some _ => readPres d core slot src is
    | none =>
      match src.readPre i d with
      | (.error c, d) => (some c, d)
      | (.ok bs, d) =>
        readPres (noteSlot (modSlot d core slot fun s =>
          { s with pres := s.pres.put i bs, parts := s.parts.del (i + 1) }) core slot (src.notes bs)) core slot src is

/-- Reads the runs of a source that have not been read, and lays them among those that have. -/
def readRuns (d : Device) (src : Source) (s : CopySlot) (o n : Nat) : List EB × Option Nat × Device :=
  let r := (missRuns s o n).foldl (init := (([] : List (Nat × List EB)), (none : Option Nat), d)) fun acc x =>
    match acc.2.1 with
    | some _ => acc
    | none =>
      let q := src.bytes s.pres x.1 x.2 acc.2.2
      (acc.1 ++ [(x.1, q.1)], q.2)
  let new (x : Nat) : EB :=
    match r.1.find? fun p => decide (p.1 ≤ x ∧ x < p.1 + p.2.length) with
    | some p => p.2.getD (x - p.1) .miss
    | none => .miss
  let es := match r.1 with
    | [(a, bs)] => if a = o ∧ bs.length = n then bs else (span o n).map fun x =>
        if s.hasByte x then (s.gotBytes x 1).getD 0 .miss else new x
    | _ => (span o n).map fun x => if s.hasByte x then (s.gotBytes x 1).getD 0 .miss else new x
  (es, r.2)

/-- n source bytes from o on: what has been read stands, the rest is read now. -/
def readSource (d : Device) (core slot : Nat) (src : Source) (o n : Nat) : List EB × Option Nat × Device :=
  let p := readPres d core slot src (src.pres o n)
  let s := ((p.2.core core).copy.find slot).getD default
  let r := readRuns p.2 src s o n
  (r.1, p.1.orElse fun _ => r.2.1, r.2.2)

/-! ## A stream's granules (R309 to R313, R316 to R320) -/

/-- The data of n destination bytes from q on: what they come to, the code of a failure, and the device. -/
def streamData (d : Device) (core slot : Nat) (p : Stream) (q n : Nat) : List EB × Option Nat × Device :=
  let (o, m, skip) := p.need q n
  let r := readSource d core slot p.src o m
  (((p.make r.1).drop skip).take n, r.2)

/-- Where data of destination bytes from q on goes, without the bytes that have been written. -/
def streamPieces (s : CopySlot) (p : Stream) (q : Nat) (es : List EB) : List (Word × List EB) :=
  (p.segs s.pres q es.length).map fun g =>
    let part := (es.drop (g.2.1 - q)).take g.2.2
    (g.1, if s.put = [] then part
      else part.zipIdx.map fun x => if s.put.contains (g.2.1 + x.2) then .miss else x.1)

/-- Lines of a piece that have been written whole, in parts and without uncorrectable data, are good again (R39). The
pieces are a granule's: a line that a command writes whole, but in two granules, stays poisoned, as one whose words are
written singly does (R60; DESIGN CHOICE, log 54). -/
def cleanLines (d : Device) (core slot : Nat) (a : Word) (es : List EB) : Device :=
  let first := (64 - adOf a % 64) % 64
  (List.range ((es.length - first) / 64)).foldl (init := d) fun d i =>
    let part := (es.drop (first + 64 * i)).take 64
    if hasBad part then d
    else match spOf a with
      | 0 => match accessVia d core (dstVia slot) (adOf a + first + 64 * i) (privOf d core) true with
        | (.ok x, d) => { d with mem := { d.mem with bad := d.mem.bad.filter fun l => l / 64 != x.key / 64 } }
        | (.error _, d) => d
      | sp =>
        let t := if sp = 1 then some core else cxCore d core (adOf a)
        match t with
        | none => d
        | some t => d.modCore t fun c =>
            { c with scratchBad := c.scratchBad.filter fun l => l / 64 != ((if sp = 1 then adOf a else adOf a % 2 ^ 21) + first + 64 * i) / 64 }

/-- The cursor moves to granule k + 1; what the slot kept for the granules before it is dropped. -/
def moveCursor (d : Device) (core slot k off : Nat) : Device :=
  modSlot d core slot fun s => { s with cursor := k + 1, off := off }

/-- Granule k of a stream is done; or the code of its failure, with nothing more written. -/
def streamGran (d : Device) (core slot : Nat) (p : Stream) (k : Nat) : Option Nat × Device :=
  let q := p.cut k
  match streamData d core slot p q (p.cut (k + 1) - q) with
  | (_, some c, d) => (some c, d)
  | (es, none, d) =>
    let s := ((d.core core).copy.find slot).getD default
    let ps := streamPieces s p q es
    match piecesFault d core (dstVia slot) ps with
    | (some c, d) => (some c, d)
    | (none, d) =>
      let d := writePiecesE d core (dstVia slot) ps
      let d := if s.put = [] then d
        else (p.segs s.pres q es.length).foldl (fun d g => cleanLines d core slot g.1 ((es.drop (g.2.1 - q)).take g.2.2)) d
      (none, noteSlot (moveCursor d core slot k 0) core slot (if ps.any fun x => hasBad x.2 then [clsEcc] else []))

/-- After a failure, the logical blocks of a granule that have not been read are read as far as they can be; what the
destination receives of one with a defect are free values (R329). -/
def strayPres (d : Device) (core slot : Nat) (src : Source) (is : List Nat) : Device :=
  is.foldl (init := d) fun d i =>
    let keep (bs : List (Option Byte)) (d : Device) : Device :=
      modSlot d core slot fun s => { s with pres := s.pres.put i bs }
    if (((d.core core).copy.find slot).bind fun s => s.pres.find i).isSome then d
    else match src.readPre i d with
      | (.ok bs, d) => keep bs d
      | (.error c, d) => if c = cDescriptor then keep ((toBytes 4096 d.draw.1).map some) d.draw.2 else d

/-- After a failure, a free choice of the words of granule k is written (R316). -/
def streamStray (d : Device) (core slot : Nat) (p : Stream) (k : Nat) : Device :=
  let (v, d) := d.draw
  if v % 2 = 0 then d
  else
    let q := p.cut k
    let n := p.cut (k + 1) - q
    let (o, m, _) := p.need q n
    let d := strayPres d core slot p.src (p.src.pres o m)
    let (es, _, d) := streamData d core slot p q n
    let s := ((d.core core).copy.find slot).getD default
    writeSubset d core (dstVia slot) (streamPieces s p q es)

/-- The granules of a stream from k on, n of them: none when all are done, else the granule that failed and the
code. -/
def streamGrans (d : Device) (core slot : Nat) (p : Stream) : (n k : Nat) → Option (Nat × Nat) × Device
  | 0, _ => (none, d)
  | n + 1, k =>
    match streamGran d core slot p k with
    | (some c, d) => (some (k, c), d)
    | (none, d) => streamGrans d core slot p n (k + 1)

/-! ## The blocks of cp.z and cp.x (R314, R328, R334) -/

/-- What block k comes to, kept once it is known: the code of a failure, and the device. Uncorrectable source data is
noted, whatever the routine makes of it (R317). -/
def blockOut (d : Device) (core slot : Nat) (p : Blocks) (k : Nat) : Except Nat (List EB) × Device :=
  let s := ((d.core core).copy.find slot).getD default
  match s.outs.find k with
  | some o => (.ok (o.map EB.ofKept), d)
  | none =>
    match readSource d core slot p.src (p.size * k) (min p.size (p.src.total - p.size * k)) with
    | (_, some c, d) => (.error c, d)
    | (es, none, d) =>
      let d := noteSlot d core slot (if hasBad es then [clsEcc] else [])
      match p.out k es d with
      | .error c => (.error c, d)
      | .ok o =>
        let gen := if s.opc = 0x46 then (d.generations.find (fld (s.desc.getD 3 0) 44 40)).getD 0 + 1 else s.gen
        (.ok o, modSlot d core slot fun s => { s with outs := s.outs.put k (o.map EB.kept), gen := gen })

/-- The bytes of the output of the block at the cursor that have not been written, where they go. -/
def blockPieces (s : CopySlot) (p : Blocks) (o : List EB) : List (Word × List EB) :=
  [(eaPlus p.dst s.off, if s.put = [] then o else o.zipIdx.map fun x => if s.put.contains (s.off + x.2) then .miss else x.1)]

/-- The entry of block k, as a piece, where it has not been written. -/
def blockEntryPiece (s : CopySlot) (p : Blocks) (k off len : Nat) : List (Word × List EB) :=
  if s.ents.contains k then [] else (p.entry k off len).toList.map fun e => (e.1, goods e.2)

/-- The cursor moves past block k; off is where the next one goes. -/
def moveBlock (d : Device) (core slot k off : Nat) : Device :=
  modSlot (moveCursor d core slot k off) core slot fun s =>
    { s with put := s.put.filter (off ≤ ·), outs := s.outs.del k, ents := s.ents.filter (· != k) }

/-- Block k, at the cursor, is done: its bytes, then its entry; or the code of its failure, with nothing more written. -/
def blockGran (d : Device) (core slot : Nat) (p : Blocks) (k : Nat) : Option Nat × Device :=
  match blockOut d core slot p k with
  | (.error c, d) => (some c, d)
  | (.ok o, d) =>
    let s := ((d.core core).copy.find slot).getD default
    let ps := blockPieces s p o
    let es := blockEntryPiece s p k s.off o.length
    match piecesFault d core (dstVia slot) (ps ++ es) with
    | (some c, d) => (some c, d)
    | (none, d) =>
      let d := writePiecesE d core (dstVia slot) ps
      let d := if s.put = [] then d else cleanLines d core slot (eaPlus p.dst s.off) o
      (none, moveBlock (writePiecesE d core (dstVia slot) es) core slot k (s.off + o.length))

/-- After an access has failed at block k, a free choice of the words of it and of n − 1 blocks after it is written, the
entry of a block only after all of its bytes (R316, R328). A routine that has failed leaves nothing more (R335). -/
def blockStray (d : Device) (core slot code : Nat) (p : Blocks) : (n k : Nat) → Device
  | 0, _ => d
  | n + 1, k =>
    let (v, d) := d.draw
    if v % 2 = 0 ∨ code = cRoutine then d
    else match blockOut d core slot p k with
      | (.error _, d) => d
      | (.ok o, d) =>
        let s := ((d.core core).copy.find slot).getD default
        let ps := blockPieces s p o
        let d := match piecesFault d core (dstVia slot) ps with
          | (some _, d) => writeSubset d core (dstVia slot) ps
          | (none, d) =>
            if v / 2 % 2 = 0 then writeSubset d core (dstVia slot) ps
            else writePiecesE (writePiecesE d core (dstVia slot) ps) core (dstVia slot) (blockEntryPiece s p k s.off o.length)
        blockStray (moveBlock d core slot k (s.off + o.length)) core slot code p n (k + 1)

/-- The blocks from k on, n of them: none when all are done, else the block that failed and the code. -/
def blockGrans (d : Device) (core slot : Nat) (p : Blocks) : (n k : Nat) → Option (Nat × Nat) × Device
  | 0, _ => (none, d)
  | n + 1, k =>
    match blockGran d core slot p k with
    | (some c, d) => (some (k, c), d)
    | (none, d) => blockGrans d core slot p n (k + 1)

/-! ## The plan of a slot -/

/-- The plan of a slot's command: what its descriptor breaches ends it; the records it names are read once (R310). -/
def slotPlan (d : Device) (core slot : Nat) (s : CopySlot) : CopyPlan × Device :=
  match s.recs with
  | some rs => (copyPlan d core slot s rs, d)
  | none =>
    if copyCodes s.opc s.desc ≠ [] then (.bad (copyCodes s.opc s.desc), d)
    else match copyRecs core slot s.opc s.desc d with
      | (.error c, d) => (.bad [c], d)
      | (.ok rs, d) => (copyPlan d core slot s rs, modSlot d core slot fun s =>
          { s with recs := some rs, parts := s.parts.del 0 })

/-- How many granules a plan has. -/
def CopyPlan.count : CopyPlan → Nat
  | .bad _ => 0
  | .stream p => p.count
  | .blocks p => p.count

/-- Granules of a plan from k on, n of them. -/
def planGrans (d : Device) (core slot : Nat) (p : CopyPlan) (n k : Nat) : Option (Nat × Nat) × Device :=
  match p with
  | .bad _ => (none, d)
  | .stream p => streamGrans d core slot p n k
  | .blocks p => blockGrans d core slot p n k

/-- What may still be written after a failure at granule k. -/
def planStray (d : Device) (core slot code : Nat) (p : CopyPlan) (k : Nat) : Device :=
  match p with
  | .bad _ => d
  | .stream p => (List.range (p.count - k)).foldl (fun d i => streamStray d core slot p (k + i)) d
  | .blocks p => blockStray d core slot code p (p.count - k) k

/-- The granule that a destination byte lies in. -/
def Stream.granOf (p : Stream) (q : Nat) : Nat := ((List.range p.count).find? fun k => decide (q < p.cut (k + 1))).getD 0

/-- Where block k's bytes go, from DST on, where what the blocks before it come to is known. -/
def CopySlot.blockOff (s : CopySlot) (k : Nat) : Option Nat :=
  (List.range (k - s.cursor)).foldl (init := some s.off) fun o i =>
    o.bind fun x => (s.outs.find (s.cursor + i)).map fun bs => x + bs.length

/-- The bytes of block k by their offsets from DST, where they are known. -/
def CopySlot.blockSpan (s : CopySlot) (k : Nat) : List Nat :=
  match s.blockOff k, s.outs.find k with
  | some o, some bs => span o bs.length
  | _, _ => []

/-- How many granules from the cursor on have been begun. -/
def begun (s : CopySlot) : CopyPlan → Nat
  | .bad _ => 0
  | .stream p => s.put.foldl (fun m q => max m (p.granOf q + 1 - s.cursor)) 0
  | .blocks _ => s.outs.foldl (fun m x => if (s.blockSpan x.1).any s.put.contains then max m (x.1 + 1 - s.cursor) else m) 0

/-- Does a command name cluster scratch, so that a pre-emption does not stop it (R320)? -/
def namesCluster (s : CopySlot) : Bool :=
  s.opc == 0x40 && (spOf (s.desc.getD 1 0) == 2 || spOf (s.desc.getD 2 0) == 2)

/-! ## Single reads and writes (R318, R319) -/

/-- The engine reads the word of the source that byte o lies in, first an index or a logical block that it needs. -/
def copyRead (d : Device) (core slot : Nat) (src : Source) (gran o : Nat) : Device :=
  let s := ((d.core core).copy.find slot).getD default
  if src.total ≤ o ∨ s.hasByte o then d
  else match (src.pres o 1).filter fun i => (s.pres.find i).isNone with
    | i :: _ => match readPres d core slot src [i] with
      | (some c, d) => failSlot d core slot gran c
      | (none, d) => d
    | [] =>
      let (a, n) := src.run s.pres o
      match src.bytes s.pres a n d with
      | (_, some c, d) => failSlot d core slot gran c
      | (es, none, d) => keepBytes d core slot a es

/-- The word of a stream's destination that byte q lies in: its address, its first byte and how many; of a partial word
the byte alone (R319). -/
def streamWord (s : CopySlot) (p : Stream) (q : Nat) : Option (Word × Nat × Nat) :=
  let range := if p.item = 0 then (0, p.total) else (q / p.item * p.item, p.item)
  match (p.segs s.pres range.1 range.2).find? fun g => decide (g.2.1 ≤ q ∧ q < g.2.1 + g.2.2) with
  | none => none
  | some g =>
    let r := wordRun (adOf g.1 + (q - g.2.1)) q g.2.1 (g.2.1 + g.2.2)
    if r.2 = 8 then some (eaPlus g.1 (r.1 - g.2.1), r) else some (eaPlus g.1 (q - g.2.1), q, 1)

/-- Do the items before the one of byte q that go to the same place stand written (R312)? -/
def itemTurn (s : CopySlot) (p : Stream) (q : Nat) : Bool :=
  p.item == 0 || (List.range (q / p.item - p.cut s.cursor / p.item)).all fun x =>
    let i := p.cut s.cursor / p.item + x
    match s.pres.find i, s.pres.find (q / p.item) with
    | some a, some b => a != b || (span (i * p.item) p.item).all s.put.contains
    | _, _ => false

/-- The engine writes the word of a stream's destination that byte q lies in, once what it comes to has been read. -/
def streamWrite (d : Device) (core slot : Nat) (p : Stream) (q : Nat) : Device :=
  let s := ((d.core core).copy.find slot).getD default
  if q < p.cut s.cursor ∨ p.total ≤ q ∨ s.put.contains q ∨ !itemTurn s p q then d
  else match streamWord s p q with
    | none => d
    | some (a, lo, n) =>
      let (o, m, skip) := p.need lo n
      if !(span o m).all s.hasByte then d
      else
        let es := ((p.make (s.gotBytes o m)).drop skip).take n
        match ewriteVia d core (dstVia slot) a es with
        | (some f, d) => failSlot d core slot (p.granOf q) f.1
        | (none, d) =>
          noteSlot (modSlot d core slot fun s => { s with put := span lo n ++ s.put }) core slot
            (if hasBad es then [clsEcc] else [])

/-- The block that byte q of the output lies in, of those from k on whose output is known, with its offset. -/
def CopySlot.blockAt (s : CopySlot) (q : Nat) : (n k off : Nat) → Option (Nat × Nat × List EB)
  | 0, _, _ => none
  | n + 1, k, off =>
    match s.outs.find k with
    | none => none
    | some o =>
      if q < off + o.length then some (k, off, o.map EB.ofKept) else s.blockAt q n (k + 1) (off + o.length)

/-- The first block from the cursor on whose output is not known. -/
def CopySlot.nextOut (s : CopySlot) (p : Blocks) : Option Nat :=
  ((List.range (p.count - s.cursor)).find? fun i => (s.outs.find (s.cursor + i)).isNone).map (s.cursor + ·)

/-- The cursor moves past the blocks from it on, n at most, whose bytes and entries stand written. -/
def passBlocks (d : Device) (core slot : Nat) (p : Blocks) : (n : Nat) → Device
  | 0 => d
  | n + 1 =>
    let s := ((d.core core).copy.find slot).getD default
    match s.outs.find s.cursor with
    | none => d
    | some o =>
      if (span s.off o.length).all s.put.contains && blockEntryPiece s p s.cursor s.off o.length == [] then
        passBlocks (moveBlock d core slot s.cursor (s.off + o.length)) core slot p n
      else d

/-- The engine writes the directory entry of block k, once all of its bytes are written (R328). -/
def entryWrite (d : Device) (core slot : Nat) (p : Blocks) (k : Nat) : Device :=
  let s := ((d.core core).copy.find slot).getD default
  match s.blockOff k, s.outs.find k with
  | some off, some o =>
    if k < s.cursor ∨ !(span off o.length).all s.put.contains then d
    else
      let es := blockEntryPiece s p k off o.length
      match piecesFault d core (dstVia slot) es with
      | (some c, d) => failSlot d core slot k c
      | (none, d) => modSlot (writePiecesE d core (dstVia slot) es) core slot fun s => { s with ents := k :: s.ents }
  | _, _ => d

/-- The engine writes the word of the output of cp.z or cp.x that byte q lies in, of any block whose place is known
(R319); or, past the output that is known, works out the next block, once its source has been read. -/
def outputWrite (d : Device) (core slot : Nat) (p : Blocks) (q : Nat) : Device :=
  let s := ((d.core core).copy.find slot).getD default
  match s.blockAt q (p.count - s.cursor) s.cursor s.off with
  | some (k, off, o) =>
    if s.put.contains q ∨ q < s.off then d
    else
      let r := wordRun (adOf p.dst + q) q off (off + o.length)
      let r := if r.2 = 8 then r else (q, 1)
      let es := (o.drop (r.1 - off)).take r.2
      match ewriteVia d core (dstVia slot) (eaPlus p.dst r.1) es with
      | (some f, d) => failSlot d core slot k f.1
      | (none, d) => noteSlot (modSlot d core slot fun s => { s with put := span r.1 r.2 ++ s.put }) core slot
          (if hasBad es then [clsEcc] else [])
  | none => match s.nextOut p with
    | none => d
    | some k =>
      let o := p.size * k
      if !(span o (min p.size (p.src.total - o))).all s.hasByte then d
      else match blockOut d core slot p k with
        | (.error c, d) => failSlot d core slot k c
        | (.ok _, d) => d

/-- One write of a command that works block by block: a word of the output, or, from 2 ^ 64 on, an entry. -/
def blockWrite (d : Device) (core slot : Nat) (p : Blocks) (q : Nat) : Device :=
  let d := if 2 ^ 64 ≤ q then entryWrite d core slot p (q - 2 ^ 64) else outputWrite d core slot p q
  passBlocks d core slot p (((d.core core).copy.find slot).getD default).outs.length

/-- One access of a command in progress: a read of the word that a source byte lies in, or a write of the word that a
destination byte lies in. The first access reads the records. -/
def copyAccess (d : Device) (core slot off : Nat) (write : Bool) : Device :=
  match (d.core core).copy.find slot with
  | none => d
  | some s =>
    if s.opc = 0x47 ∨ s.failed.isSome ∨ ((d.core core).frozen ∧ !namesCluster s) then d
    else
      let fresh := s.recs.isNone
      let (p, d) := slotPlan d core slot s
      if fresh then d
      else match p, write with
        | .bad _, _ => d
        | .stream p, false => copyRead d core slot p.src (p.granOf off) off
        | .stream p, true => streamWrite d core slot p off
        | .blocks p, false => copyRead d core slot p.src (off / p.size) off
        | .blocks p, true => blockWrite d core slot p off

/-! ## Reads ahead (R318) -/

/-- May the word at an address be read ahead for stored block b: it is the block's entry, or lies in the sectors that the
entry names, which has been read ahead? -/
def storedWord (lg : CodecLegend) (t : Tbl Byte) (b a : Nat) : Bool :=
  let ea := lg.dir + 8 + 8 * b
  let e := BitVec.ofNat 64 (ofBytes ((span ea 8).map fun x => (t.find x).getD 0))
  decide (b < lg.count) && (a == ea || ((span ea 8).all fun x => (t.find x).isSome) &&
    decide (fld e 55 8 * 256 ≤ a ∧ a < fld e 55 8 * 256 + 256 * fld e 4 0))

/-- The Legend of the stored blocks that a plan reads. -/
def CopyPlan.stored : CopyPlan → Option CodecLegend
  | .bad _ => none
  | .stream p => p.src.stored
  | .blocks p => p.src.stored

/-- Keeps a word of a part that has been read ahead; a read that fails is made again later. -/
def keepAhead (d : Device) (core slot part a : Nat) (r : Option (List Byte)) : Device :=
  match r with
  | none => d
  | some bs => modSlot d core slot fun s =>
      { s with parts := s.parts.put part (((span a 8).zip bs).foldl (fun t x => t.put x.1 x.2) ((s.parts.find part).getD [])) }

/-- The engine reads an aligned word ahead: of the records, which have no order among themselves, while they have not all
been read; or of stored block part − 1, its entry first (R310, R318, R329). -/
def copyAhead (d : Device) (core slot part at_ : Nat) : Device :=
  match (d.core core).copy.find slot with
  | none => d
  | some s =>
    let a := at_ / 8 * 8
    if s.opc = 0x47 ∨ s.failed.isSome ∨ ((d.core core).frozen ∧ !namesCluster s) ∨ copyCodes s.opc s.desc ≠ []
        ∨ ((aheadOf d core slot part).find a).isSome then d
    else match part, s.recs with
      | 0, none =>
        let r := engReadVia d core (recVia slot) (privOf d core) a 8
        keepAhead r.2 core slot 0 a r.1.toOption
      | b + 1, some rs =>
        match (copyPlan d core slot s rs).stored with
        | none => d
        | some lg =>
          if (s.pres.find b).isSome ∨ !storedWord lg (aheadOf d core slot (b + 1)) b a then d
          else
            let r := codecRead d core (srcVia slot) 2 a 8
            keepAhead r.2 core slot (b + 1) a r.1.toOption
      | _, _ => d

/-! ## Completion (R304, R315 to R320) -/

/-- The slot is freed and the completion word written (R25, R304). -/
def endSlot (d : Device) (core slot : Nat) (s : CopySlot) (code : Nat) : Device :=
  complete (d.modCore core fun c => { c with copy := c.copy.del slot }) core s.comp code

/-- The parts of two lists of pieces of physical memory that both touch, with the address and length of each. -/
def sharedRuns (xs ys : List (Nat × Nat)) : List (Nat × Nat) :=
  xs.flatMap fun x => ys.filterMap fun y =>
    let lo := max x.1 y.1
    let hi := min (x.1 + x.2) (y.1 + y.2)
    if lo < hi then some (lo, hi - lo) else none

/-- The pieces of physical memory of a range under a root, of the pages that can be accessed. -/
def physPieces (d : Device) (root : Nat) (priv write : Bool) (a n : Nat) : List (Nat × Nat) :=
  (List.range ((a % 4096 + n + 4095) / 4096)).flatMap fun i =>
    let lo := max a (a / 4096 * 4096 + 4096 * i)
    let hi := min (a + n) (a / 4096 * 4096 + 4096 * i + 4096)
    ((rootPlan d root priv write 2 lo (hi - lo)).toOption).getD []

/-- The destination bytes of a cp that has written, and that its source holds too through another translation of the
page, end as free values, however the command ends (R309). -/
def freeAlias (d : Device) (core slot : Nat) (s : CopySlot) : Device :=
  let src := s.desc.getD 1 0
  let dst := s.desc.getD 2 0
  let n := (s.desc.getD 3 0).toNat
  let now := ((d.core core).copy.find slot).getD s
  if s.opc ≠ 0x40 ∨ bit (s.desc.getD 0 0) 8 ∨ spOf src ≠ 0 ∨ spOf dst ≠ 0
      ∨ (now.cursor = 0 ∧ now.put = [] ∧ now.failed.isNone) then d
  else
    let root := (d.core core).regs.xlroot.toNat
    (sharedRuns (physPieces d root (privOf d core) false (adOf src) n)
        (physPieces d root (privOf d core) true (adOf dst) n)).foldl (init := d) fun d r =>
      let (v, d) := d.draw
      engWrite d r.1 (toBytes r.2 v)

/-- What a command comes to once its granules from the cursor on are done, as far as they can be: the lowest code noted,
0 for success. -/
def finishSlot (d : Device) (core slot : Nat) (s : CopySlot) (p : CopyPlan) : Nat × Device :=
  let stop := match s.failed with
    | some f => max s.cursor f.1
    | none => p.count
  let r := planGrans d core slot p (stop - s.cursor) s.cursor
  let d := match r.1 with
    | some f => failSlot r.2 core slot f.1 f.2
    | none => r.2
  let now := ((d.core core).copy.find slot).getD s
  match now.failed with
  | some f => (now.note, freeAlias (planStray d core slot f.2 p f.1) core slot s)
  | none =>
    let last := match p with
      | .blocks b => (b.last now.off).toList
      | _ => []
    ((now.noted last).note, freeAlias d core slot s)

/-- A command runs from its cursor to its end; of several codes the lowest is reported (R317). -/
def runSlot (d : Device) (core slot : Nat) (s : CopySlot) : Device :=
  match slotPlan d core slot s with
  | (.bad cs, d) => endSlot d core slot s (lowest cs)
  | (p, d) =>
    let r := finishSlot d core slot s p
    endSlot r.2 core slot s r.1

/-- A cancelled command that has begun stops at a granule boundary: a free number of its granules are done, those that
have been begun among them, and a free choice of the others, as they have no order. -/
def stopSlot (d : Device) (core slot v : Nat) (s : CopySlot) (p : CopyPlan) : Device :=
  let n := min (p.count - s.cursor) (max (begun s p) v)
  let r := planGrans d core slot p n s.cursor
  match p with
  | .stream q =>
    (List.range (p.count - s.cursor - n)).foldl (init := r.2) fun d i =>
      let (v, d) := d.draw
      if v % 2 = 0 then d else (streamGran d core slot q (s.cursor + n + i)).2
  | _ => r.2

/-- Has a command written a payload byte? -/
def hasWritten (s : CopySlot) : Bool := s.cursor != 0 || s.put != []

/-- Has a command written its last payload byte? -/
def wroteAll (s : CopySlot) : CopyPlan → Bool
  | .bad _ => false
  | .stream p =>
    let q := p.cut s.cursor
    let known := p.item == 0 || (List.range (p.total / p.item)).all fun i => i * p.item < q || (s.pres.find i).isSome
    hasWritten s && known && (p.segs s.pres q (p.total - q)).all fun g => (span g.2.1 g.2.2).all s.put.contains
  | .blocks p => hasWritten s && (List.range (p.count - s.cursor)).all fun i =>
      (s.outs.find (s.cursor + i)).isSome && (s.blockSpan (s.cursor + i)).all s.put.contains

/-- What a cancelled target comes to (R315): with no byte written it ends CANCELLED; where it has written its last byte it
completes; or it stops with granules done. Which of these is a free choice, but where the bytes written settle it. -/
def cancelSlot (d : Device) (core slot : Nat) (s : CopySlot) : Device :=
  let (v, d) := d.draw
  if v % 3 = 0 ∧ !hasWritten s then endSlot d core slot s cCancelled
  else if v % 3 = 1 then runSlot d core slot s
  else match slotPlan d core slot s with
    | (.bad _, d) => endSlot d core slot s cCancelled
    | (p, d) =>
      if wroteAll s p then runSlot d core slot s
      else endSlot (freeAlias (stopSlot d core slot (v / 3) s p) core slot s) core slot s cCancelled

/-- The targets of a cp.cancel: the commands that took a slot before it and name CADDR = TARGET (R315). -/
def cancelTargets (c : Core) (s : CopySlot) : List (Nat × CopySlot) :=
  c.copy.filter fun t => decide (t.2.order < s.order) && t.2.comp.name == s.desc.getD 1 0

/-- The codes that a cp.cancel's descriptor breaches. -/
def cancelCodes (w : List Word) : List Nat :=
  let g (k : Nat) : Word := w.getD k 0
  codesOf [need (g 0 == 0x47 && ((w.drop 2).take 4).all (· == 0)) cDescriptor, rangeFault false (g 1) 8]

/-- A cp.cancel acts on its targets, then completes (R315). A target that is itself a cp.cancel writes no payload: it
ends CANCELLED, or has acted already and completes. -/
def runCancel (core : Nat) : (fuel : Nat) → (d : Device) → (slot : Nat) → (s : CopySlot) → Device
  | 0, d, slot, s => endSlot d core slot s 0
  | fuel + 1, d, slot, s =>
    let codes := cancelCodes s.desc
    if codes ≠ [] then endSlot d core slot s (lowest codes)
    else
      let d := (cancelTargets (d.core core) s).foldl (init := d) fun d t =>
        match (d.core core).copy.find t.1 with
        | none => d
        | some x =>
          if x.opc = 0x47 then
            let (v, d) := d.draw
            if v % 2 = 0 then endSlot d core t.1 x cCancelled else runCancel core fuel d t.1 x
          else cancelSlot d core t.1 x
      endSlot d core slot s 0

/-- COPY_COMPLETE for a slot; a frozen engine completes only commands that name cluster scratch. -/
def copyComplete (d : Device) (core slot : Nat) : Device :=
  let c := d.core core
  match c.copy.find slot with
  | none => d
  | some s =>
    if c.frozen && !namesCluster s then d
    else if s.opc = 0x47 then runCancel core 96 d slot s
    else runSlot d core slot s

/-- COPY_COMPLETE (R319). -/
def execCopyComplete (core slot : Nat) (s : State) : Host.Outcome State Fault Refusal :=
  onDevice s fun d => copyComplete d core slot

/-- A pre-emption stops a command at a resumable point: a free number of its granules before one that failed are done,
those that have been begun among them, the cursor and the codes noted are kept, and what was read ahead is read anew
(R22, R320). A command that would end ends after restoration. -/
def pauseSlot (d : Device) (core slot : Nat) (s : CopySlot) : Device :=
  let (v, d) := d.draw
  if s.opc = 0x47 ∨ namesCluster s then d
  else match slotPlan d core slot s with
    | (.bad _, d) => d
    | (p, d) =>
      let stop := match s.failed with
        | some f => max s.cursor f.1
        | none => p.count
      let n := min (stop - s.cursor) (max (begun s p) v)
      let r := planGrans d core slot p n s.cursor
      let d := match r.1 with
        | some f => failSlot r.2 core slot f.1 f.2
        | none => r.2
      modSlot d core slot fun s =>
        { s with pres := [], got := [], put := [], outs := [], ents := [], parts := [], xls := [] }

/-! ## The command nodes (R304 to R306, R322) -/

/-- The gather tags in flight, which hold slots (R28, R304). -/
def flightTags (c : Core) : Nat :=
  match c.mer.job with
  | none => 0
  | some j => (j.tags.filter fun t => t.st == .flight).length

/-- Is a command slot free? -/
def slotFree (c : Core) : Bool := decide (c.copy.length + flightTags c < 96)

/-- The lowest slot that holds no command. -/
def freshSlot (c : Core) : Nat := ((List.range 96).find? fun i => (c.copy.find i).isNone).getD 95

/-- A command as it takes a slot. -/
def CopySlot.fresh (opc : Nat) (ws : List Word) (k : Comp) (order : Nat) : CopySlot :=
  ⟨opc, ws, k, order, 0, 0, 0, none, 0, none, [], [], [], [], [], [], []⟩

/-- A command takes a slot. -/
def takeSlot (d : Device) (core opc : Nat) (ws : List Word) (k : Comp) : Device :=
  d.modCore core fun c =>
    { c with copy := c.copy.put (freshSlot c) (CopySlot.fresh opc ws k c.copyCount), copyCount := c.copyCount + 1 }

/-- The work of a copy command node. -/
def copyFn (opc : Nat) (w : MU) : NodeFn := fun e a _ _ d =>
  if e.pass.rev && opc == 0x40 then (.val 0 Fx.none, d)
  else engFn w a e d (slotFree (d.core e.core)) (fun _ => true) fun ws k d => (0, takeSlot d e.core opc ws k)

/-- cp (R305, R306, R309). -/
def execCp (w : MU) (s : State) : Host.Outcome State Fault Refusal := muStep s 0x40 w (copyFn 0x40 w)

/-- cp.t with a map in box mode (R306, R310). -/
def execCpTBox (w : MU) (s : State) : Host.Outcome State Fault Refusal := muStep s 0x41 w (copyFn 0x41 w)

/-- cp.t with a map in window mode (R306, R311). -/
def execCpTWindow (w : MU) (s : State) : Host.Outcome State Fault Refusal := muStep s 0x41 w (copyFn 0x41 w)

/-- cp.g (R306, R312). -/
def execCpG (w : MU) (s : State) : Host.Outcome State Fault Refusal := muStep s 0x42 w (copyFn 0x42 w)

/-- cp.s (R306, R312). -/
def execCpS (w : MU) (s : State) : Host.Outcome State Fault Refusal := muStep s 0x43 w (copyFn 0x43 w)

/-- cp.q (R306, R313). -/
def execCpQ (w : MU) (s : State) : Host.Outcome State Fault Refusal := muStep s 0x44 w (copyFn 0x44 w)

/-- cp.z (R306, R327). -/
def execCpZ (w : MU) (s : State) : Host.Outcome State Fault Refusal := muStep s 0x45 w (copyFn 0x45 w)

/-- cp.x (R306, R334). -/
def execCpX (w : MU) (s : State) : Host.Outcome State Fault Refusal := muStep s 0x46 w (copyFn 0x46 w)

/-- cp.cancel (R306, R315). -/
def execCpCancel (w : MU) (s : State) : Host.Outcome State Fault Refusal := muStep s 0x47 w (copyFn 0x47 w)

end Sys2Proof.Machine
end

