-- ==== Sys2Proof/Machine/System.lean ====
section
/-! DEFINITION. The meanings of rdsr and wrsr, with the registers that have a behaviour of their own (02_memory_model:
R46, R47; 05_numbers: R129; 06: R161; 09: R249; 11: R258, R259; 12: R285, R286; 16: R336 to R338; 17: R363; 19: R379;
21: R413; 22: R420; 23: R441; 25: R478, R479). -/

namespace Sys2Proof.Machine

/-! ## Reading (R249) -/

/-- STATE of SYS_DMODE: 0 plain, 1 recording, 2 reverse (R258). -/
def dmodeState (c : Core) : Nat := fld c.regs.dmode 1 0

/-- LOADED of SYS_XRSTAT (R337). -/
def xrLoaded (d : Device) : Nat := d.routines.foldl (fun m r => m ||| 2 ^ r.1) 0

/-- SYS_FILLSTAT of a cluster (R413). -/
def fillStat (c : Cluster) : Word :=
  BitVec.ofNat 64 (c.fillFailed % 2 ^ 16 * 2 ^ 16 + b2n c.fillArmed.isSome * 2 ^ 9 + c.fillQueue.length)

/-- A device-scope register as a thread and the host's window read it (R420, R441, R474, R478). -/
def devRegRead (d : Device) (now num : Nat) : Word :=
  match num with
  | 0x060 => d.xrimg
  | 0x061 => BitVec.ofNat 64 (d.xrResult * 2 ^ 32 + xrLoaded d)
  | 0x080 => d.mcswin
  | 0x081 => BitVec.ofNat 64 d.mcsResult
  | 0x0A0 => BitVec.ofNat 64 (usOf now)
  | 0x0A1 => d.dist.pool
  | 0x0A2 => d.dist.count
  | 0x0B0 => d.devid
  | 0x0B1 => d.ringTimeout
  | 0x0B2 => BitVec.ofNat 64 (d.replays * 2 ^ 32 + d.portsUp)
  | 0x0C0 => d.host.feat
  | 0x0C1 => d.host.featx
  | 0x0C2 => d.host.featack
  | 0x0C3 => d.host.featackx
  | _ => 0

/-- A system register as a thread of a core reads it. -/
def regRead (d : Device) (core now num : Nat) : Word :=
  let r := (d.core core).regs
  match num with
  | 0x010 => r.fpflags
  | 0x011 => r.fptrap
  | 0x020 => r.agelimit
  | 0x030 => r.tapebase
  | 0x031 => r.tapelimit
  | 0x032 => r.tapehead
  | 0x033 => r.dmode
  | 0x040 => r.xlroot
  | 0x041 => r.xlasid
  | 0x042 => 0
  | 0x050 => r.faultbase
  | 0x051 => r.xltimeout
  | 0x052 => r.faultctl
  | 0x070 => r.mxtest
  | 0x071 => r.mxstat
  | 0x090 => (d.cluster (clusterOf core)).fillLr
  | 0x091 => (d.cluster (clusterOf core)).fillBuf
  | 0x092 => fillStat (d.cluster (clusterOf core))
  | 0x0A3 => r.launch
  | n => devRegRead d now n

/-- rdsr (R249). -/
def execRdsr (w : MU) (s : State) : Host.Outcome State Fault Refusal :=
  muStep s 0xC3 w fun e _ _ _ d => (.val (regRead d e.core e.now w.imm.toNat) Fx.none, d)

/-! ## Rights and fields (R249) -/

/-- Who may write a register. -/
inductive Right where
  | any
  | priv
  | none
  deriving DecidableEq, Repr

/-- The rights of a register's table. -/
def regRight (num : Nat) : Right :=
  if num = 0x010 then .any
  else if [0x011, 0x020, 0x030, 0x031, 0x040, 0x041, 0x042, 0x050, 0x051, 0x052, 0x060, 0x070, 0x080, 0x090, 0x091,
      0x0B1].contains num then .priv
  else .none

/-- The reserved bits of a register that a thread may write, as a mask. -/
def regReserved (num : Nat) : Nat :=
  match num with
  | 0x010 | 0x011 => maskOf 63 6
  | 0x020 => maskOf 63 8
  | 0x030 | 0x050 | 0x091 => maskOf 63 56 + maskOf 5 0
  | 0x031 | 0x060 | 0x080 => maskOf 63 56 + maskOf 2 0
  | 0x040 => maskOf 63 48 + maskOf 10 0
  | 0x041 | 0x070 => maskOf 63 16
  | 0x042 => maskOf 63 56 + maskOf 11 4
  | 0x051 | 0x0B1 => maskOf 63 32
  | 0x052 => maskOf 63 1
  | 0x090 => maskOf 63 32 + maskOf 30 25
  | _ => 0

/-- Does a value break a register's table beyond its reserved bits (R46, R161, R259, R285, R413, R441)? -/
def regForbids (d : Device) (core num : Nat) (v : Word) : Bool :=
  let c := d.core core
  let cl := d.cluster (clusterOf core)
  match num with
  | 0x020 => v == 0
  | 0x030 => dmodeState c != 0
  | 0x031 => decide (v.toNat < c.regs.tapehead.toNat)
  | 0x042 => decide (2 < fld v 3 0)
  | 0x051 => v == 0
  | 0x090 => decide (256 < fld v 24 16) || (bit v 31 && (fld v 24 16 == 0 || cl.fillBuf == 0))
  | 0x091 => v == 0 && bit cl.fillLr 31
  | 0x0B1 => v == 0 || decide (40000 < v.toNat)
  | _ => false

/-! ## Invalidation (R47, R286) -/

/-- Does a cached translation fall under an invalidation of KIND kind at va by an address space? -/
def xlHit (asid kind va : Nat) (x : Xl) : Bool :=
  match kind with
  | 0 => x.asid == asid && decide (x.va ≤ va ∧ va < x.va + x.size)
  | 1 => x.asid == asid
  | _ => true

/-- Does an invalidation remove a translation that a write was made through? -/
def Mapped.hit (m : Mapped) (asid kind va : Nat) : Bool :=
  match kind with
  | 0 => m.asid == asid && decide (m.va ≤ va ∧ va < m.va + m.size)
  | 1 => m.asid == asid
  | _ => true

/-- Is a deferred store pending that fired through a translation which the invalidation removes (R233)? -/
def storePending (c : Core) (asid kind va : Nat) : Bool :=
  match c.pass with
  | none => false
  | some p => p.lanes.any fun l => l.stores.any fun s =>
      match s.place with
      | .home _ => s.page.hit asid kind va
      | _ => false

/-- The completion words of the operations that a core holds (R24). -/
def compsOf (c : Core) : List Comp :=
  c.copy.map (fun s => s.2.comp) ++ c.mx.queue.map (·.comp) ++ c.mer.table.map (·.comp)
    ++ (c.mer.job.map (·.cmd.comp)).toList ++ (c.mer.queued.map (·.comp)).toList

/-- The translations of the posted writes of Meridian's job that are not performed yet (R382). -/
def postedOf (c : Core) : List Mapped :=
  match c.mer.job with
  | none => []
  | some j => j.posted.filterMap fun p => match p.1 with
    | .home _ => some p.2.1
    | _ => none

/-- The completion words of link operations, of fill.sync, and of attn.save and attn.go.resume commands that wait
in another core's Meridian, that a core's launch has in flight (R24). -/
def outsideOf (d : Device) (c : Core) : List Comp :=
  match c.bound with
  | none => []
  | some b =>
    (d.links.filterMap fun l => if b.run = l.2.run ∧ b.cidx = l.2.cidx ∧ !l.2.ended then some l.2.comp else none)
      ++ (d.syncs.filterMap fun s => if b.run = s.run ∧ b.cidx = s.cidx then some s.comp else none)
      ++ (d.cores.flatMap (·.mer.saves)).filterMap fun s =>
        if b.run = s.run ∧ b.cidx = s.cidx then some s.comp else none

/-- The completion words of every link operation, fill.sync and waiting Meridian command of the device, also of launches that
are no more (R24, R458). -/
def outsideComps (d : Device) : List Comp :=
  (d.links.filterMap fun l => if l.2.ended then none else some l.2.comp) ++ d.syncs.map (·.comp)
    ++ d.cores.flatMap fun c => c.mer.saves.map (·.comp)

/-- Is a write of a core's engines pending through a translation which the invalidation removes (R24, R47)? -/
def compPending (c : Core) (asid kind va : Nat) : Bool :=
  ((compsOf c).any fun k => k.isGlobal && k.page.hit asid kind va) || (postedOf c).any (·.hit asid kind va)

/-- The contexts that the distributor keeps: saved commands will write through their translations too (R24, R320). -/
def savedCores (d : Device) : List Core := d.dist.launches.flatMap fun l => l.2.saved.map (·.2)

/-- Is any store or engine write of the device pending through a translation which the invalidation removes (R24, R47,
R233)? -/
def writePending (d : Device) (asid kind va : Nat) : Bool :=
  ((d.cores ++ savedCores d).any fun c => storePending c asid kind va || compPending c asid kind va)
    || (outsideComps d).any fun k => k.isGlobal && k.page.hit asid kind va

/-- A core without the selected translations: of its cache, of its MEM slots' and its copy streams' entries; and with
every held access woken (R47, R286). -/
def forgetXl (asid kind va : Nat) (c : Core) : Core :=
  let hit (x : Xl) : Bool := xlHit asid kind va x
  let wake (l : Lane) : Lane := { l with held := l.held.map fun h => (h.1, { h.2 with woken := true }) }
  { c with
    cache := { c.cache with xl := c.cache.xl.filter (!hit ·), slots := c.cache.slots.filter fun x => !hit x.2 }
    copy := c.copy.map fun s => (s.1, { s.2 with xls := s.2.xls.filter fun x => !hit x.2 })
    pass := c.pass.map fun p => { p with lanes := p.lanes.map wake } }

/-- Does an invalidation stop a walk in flight: of the page, or of the address space that its core is in (R47)? -/
def walkHit (d : Device) (asid kind va : Nat) (w : Walk) : Bool :=
  kind == 2 || ((d.core w.core).regs.xlasid.toNat == asid && (kind == 1 || w.page == va / 4096))

/-- Removes the selected translations from every core and walker, and wakes every held access (R47, R286). -/
def invalidate (d : Device) (asid kind va : Nat) : Device :=
  { d with
    cores := d.cores.map (forgetXl asid kind va)
    clusters := d.clusters.map fun c => { c with walks := c.walks.filter (!walkHit d asid kind va ·) } }

/-- A write to SYS_XLINV by a core: it waits for the stores and the engine writes through removed translations. -/
def xlinvWrite (d : Device) (e : Env) (v : Word) : Out × Device :=
  let asid := (d.core e.core).regs.xlasid.toNat
  let kind := fld v 3 0
  let va := fld v 55 12 * 4096
  if writePending d asid kind va then (.wait, d)
  else (.val 0 Fx.none, invalidate d asid kind va)

/-! ## Signed images (R336 to R338, R379, R479) -/

/-- Does a signature over a digest hold under one of the signer keys that the firmware carries, at most 8 (R479)? -/
def signedOk (d : Device) (digest sig : List Byte) : Bool :=
  ((Config.signerKeys d.host.m0).take 8).any fun k => Config.signatureOk k digest sig

/-- The least multiple of 8 that is at least n. -/
def up8 (n : Nat) : Nat := (n + 7) / 8 * 8

/-- The length of an ML-DSA-65 signature (R479). -/
def sigBytes : Nat := 3309

/-- M := SHAKE256(M ‖ D) (R479). -/
def extend (m digest : List Byte) : List Byte := Config.shake256 (m ++ digest)

/-- How an image is read: n bytes from an address, or a failure. -/
abbrev Fetch := Nat → Nat → Option (List Byte)

/-- A control-store image at an address: the RESULT code of a failure, or START, the microwords and the digest. -/
def mcsImage (d : Device) (rd : Fetch) (a : Nat) : Except Nat (Nat × List (BitVec 96) × List Byte) :=
  match rd a 32 with
  | none => .error 3
  | some h =>
    let ws := wordsOf 4 h
    let w0 := ws.getD 0 0
    let start := fld w0 27 16
    let n := fld w0 12 0
    if fld w0 63 48 ≠ 0x4D57 ∨ fld w0 47 40 ≠ 1 ∨ !zeroIn w0 (maskOf 39 28 + maskOf 15 13) ∨ (ws.drop 1).any (· != 0)
        ∨ n = 0 ∨ 4096 < start + n then .error 1
    else match rd a (32 + 12 * n), rd (a + up8 (32 + 12 * n)) sigBytes with
      | some body, some sig =>
        let digest := Config.shake256 body
        if signedOk d digest sig then
          .ok (start, (List.range n).map fun i => BitVec.ofNat 96 (ofBytes ((body.drop (32 + 12 * i)).take 12)), digest)
        else .error 2
      | _, _ => .error 3

/-- The mhalt word, which every microaddress holds at reset (R114, R379). -/
def mhaltWord : BitVec 96 := BitVec.ofNat 96 (0x13 * 2 ^ 88)

/-- A microword of the control store. -/
def microAt (d : Device) (upc : Nat) : BitVec 96 := (d.cstore.find upc).getD mhaltWord

/-- Writes microwords from a microaddress on. -/
def putMicro (t : Tbl (BitVec 96)) (a : Nat) : List (BitVec 96) → Tbl (BitVec 96)
  | [] => t
  | w :: ws => putMicro (if w = mhaltWord then t.del a else t.put a w) (a + 1) ws

/-- A load of the control store (R379). -/
def loadMcs (d : Device) (rd : Fetch) (v : Word) : Device :=
  let d := { d with mcswin := v }
  match mcsImage d rd v.toNat with
  | .error r => { d with mcsResult := r }
  | .ok (start, ws, digest) =>
    { d with mcsResult := 0, cstore := putMicro d.cstore start ws
             host := { d.host with m1 := extend d.host.m1 digest } }

/-- Does the range of a routine overlap that of another slot (R336, R337)? -/
def routineClash (d : Device) (slot off len : Nat) : Bool :=
  d.routines.any fun r => r.1 != slot && overlaps off len r.2.off r.2.code.length

/-- A routine image at an address: the RESULT code of a failure, or the slot, the routine and the digest. -/
def xrImage (d : Device) (rd : Fetch) (a : Nat) : Except Nat (Nat × Routine × List Byte) :=
  match rd a 32 with
  | none => .error 4
  | some h =>
    let ws := wordsOf 4 h
    let w0 := ws.getD 0 0
    let len := fld (ws.getD 1 0) 63 32
    let off := fld (ws.getD 1 0) 31 0
    let entry := fld (ws.getD 2 0) 63 32
    let budget := fld (ws.getD 2 0) 31 0
    if fld w0 63 48 ≠ 0x5852 ∨ fld w0 47 40 ≠ 1 ∨ !zeroIn w0 (maskOf 39 37 + maskOf 31 0) ∨ len % 2 ≠ 0 ∨ 65536 < len
        ∨ off % 256 ≠ 0 ∨ 65536 < off + len ∨ entry % 2 ≠ 0 ∨ (len ≠ 0 ∧ len ≤ entry) ∨ budget = 0
        ∨ ws.getD 3 0 ≠ 0 then .error 1
    else match rd a (32 + len), rd (a + up8 (32 + len)) sigBytes with
      | some body, some sig =>
        let digest := Config.shake256 body
        if !signedOk d digest sig then .error 2
        else if routineClash d (fld w0 36 32) off len then .error 3
        else .ok (fld w0 36 32, ⟨body.drop 32, off, entry, budget⟩, digest)
      | _, _ => .error 4

/-- A load of a routine slot (R338). -/
def loadXr (d : Device) (rd : Fetch) (v : Word) : Device :=
  let d := { d with xrimg := v }
  match xrImage d rd v.toNat with
  | .error r => { d with xrResult := r }
  | .ok (slot, r, digest) =>
    { d with xrResult := 0
             routines := if r.code = [] then d.routines.del slot else d.routines.put slot r
             generations := d.generations.put slot ((d.generations.find slot).getD 0 + 1)
             host := { d.host with m2 := extend d.host.m2 digest } }

/-- A thread's fetch of an image: through its address space, at home (R338, R379). -/
def fetchV (d : Device) (core : Nat) (priv : Bool) : Fetch := fun a n =>
  match (engRead d core priv a n).1 with
  | .ok bs => some bs
  | .error _ => none

/-! ## Writing (R249) -/

/-- Changes a core's registers. -/
def modRegs (d : Device) (core : Nat) (f : CoreRegs → CoreRegs) : Device :=
  d.modCore core fun c => { c with regs := f c.regs }

/-- The effect of an allowed write, for a register other than SYS_XLINV. -/
def regWrite (d : Device) (core num : Nat) (priv : Bool) (v : Word) : Device :=
  match num with
  | 0x010 => modRegs d core fun r => { r with fpflags := v }
  | 0x011 => modRegs d core fun r => { r with fptrap := v }
  | 0x020 => modRegs d core fun r => { r with agelimit := v }
  | 0x030 => modRegs d core fun r => { r with tapebase := v, tapehead := v + 64 }
  | 0x031 => modRegs d core fun r => { r with tapelimit := v }
  | 0x040 => modRegs d core fun r => { r with xlroot := v }
  | 0x041 => modRegs d core fun r => { r with xlasid := v }
  | 0x050 => modRegs d core fun r => { r with faultbase := v }
  | 0x051 => modRegs d core fun r => { r with xltimeout := v }
  | 0x052 => modRegs d core fun r => { r with faultctl := v }
  | 0x060 => loadXr d (fetchV d core priv) v
  | 0x070 => modRegs d core fun r => { r with mxtest := v }
  | 0x080 => loadMcs d (fetchV d core priv) v
  | 0x090 => d.modCluster (clusterOf core) fun c => { c with fillLr := v }
  | 0x091 => d.modCluster (clusterOf core) fun c => { c with fillBuf := v }
  | 0x0B1 => { d with ringTimeout := v }
  | _ => d

/-- The work of wrsr: rights, then fields, then the write (R249). -/
def wrsrFn (w : MU) : NodeFn := fun e v _ _ d =>
  let num := w.imm.toNat
  let may := match regRight num with
    | .any => true
    | .priv => e.bound.priv
    | .none => false
  if e.pass.rev then (.poison clsAdj 0, d)
  else if !may then (.poison clsPermission 0, d)
  else if !zeroIn v (regReserved num) || regForbids d e.core num v then (.poison clsBounds 0, d)
  else if num = 0x042 then xlinvWrite d e v
  else (.val 0 Fx.none, regWrite d e.core num e.bound.priv v)

/-- wrsr of a register without a behaviour of its own (R249). -/
def execWrsr (w : MU) (s : State) : Host.Outcome State Fault Refusal := muStep s 0xC4 w (wrsrFn w)

/-- wrsr SYS_XLINV with KIND 0 (R47). -/
def execXlinvPage (w : MU) (s : State) : Host.Outcome State Fault Refusal := muStep s 0xC4 w (wrsrFn w)

/-- wrsr SYS_XLINV with KIND 1 (R47). -/
def execXlinvAsid (w : MU) (s : State) : Host.Outcome State Fault Refusal := muStep s 0xC4 w (wrsrFn w)

/-- wrsr SYS_XLINV with KIND 2 (R47). -/
def execXlinvAll (w : MU) (s : State) : Host.Outcome State Fault Refusal := muStep s 0xC4 w (wrsrFn w)

/-- wrsr SYS_TAPEBASE, which also sets HEAD (R259). -/
def execTapebaseWrite (w : MU) (s : State) : Host.Outcome State Fault Refusal := muStep s 0xC4 w (wrsrFn w)

/-- wrsr SYS_TAPELIMIT (R259). -/
def execTapelimitWrite (w : MU) (s : State) : Host.Outcome State Fault Refusal := muStep s 0xC4 w (wrsrFn w)

/-- wrsr SYS_MCSWIN (R379). -/
def execMcswinLoad (w : MU) (s : State) : Host.Outcome State Fault Refusal := muStep s 0xC4 w (wrsrFn w)

/-- wrsr SYS_XRIMG (R338). -/
def execXrimgLoad (w : MU) (s : State) : Host.Outcome State Fault Refusal := muStep s 0xC4 w (wrsrFn w)

end Sys2Proof.Machine
end

