-- ==== Sys2Proof/Machine/Tape.lean ====
section
/-! DEFINITION. Traverse records, parking and waking, and what a pass boundary applies (06_core_execution: R155, R157,
R170, R171, R173; 11_differentiable: R260, R261, R264; 12_core_faults: R294 to R296). -/

namespace Sys2Proof.Machine

/-! ## Pushing records (R260, R261, R264, R266) -/

/-- Has the Traverse of a core failed since the last boundary? -/
def tapeFailed (c : Core) : Bool := c.tapeFail.isSome

/-- The trap that a failed Traverse access keeps: its cause by class, and the address (R266, R267). -/
def tapeTrap (cls va : Nat) (retry : List Word) : Trap :=
  ⟨if cls = clsTranslation then 2 else if cls = clsPermission then 3 else 4, va, 0, retry⟩

/-- Makes bytes of a record core-visible over planned pieces. -/
def corePieces (d : Device) (core : Nat) : List (Nat × Nat) → List Byte → Device
  | [], _ => d
  | (k, n) :: t, bs => corePieces (tapeWrite d core k (bs.take n)) core t (bs.drop n)

/-- Pushes words at HEAD with system privilege, core-visible; a failure is kept for the boundary, and until then
nothing more is pushed (R260, R266). -/
def pushWords (d : Device) (core : Nat) (ws : List Word) : Device :=
  if tapeFailed (d.core core) then d
  else
    let head := (d.core core).regs.tapehead.toNat
    match vplan d core true (8 * ws.length / 4096 + 2) head (8 * ws.length) with
    | (.error e, d) => d.modCore core fun c => { c with tapeFail := some (tapeTrap e.1 e.2 ws) }
    | (.ok ps, d) =>
      match piecesBad d ps with
      | some n => d.modCore core fun c => { c with tapeFail := some (tapeTrap clsEcc (head + n) ws) }
      | none =>
        modRegs (corePieces d core ps (bytesOfWords ws)) core fun r =>
          { r with tapehead := r.tapehead + BitVec.ofNat 64 (8 * ws.length) }

/-- A record's trailer (R261). -/
def trailer (kind len info : Nat) : Word := BitVec.ofNat 64 (kind * 2 ^ 56 + len * 2 ^ 40 + info)

/-- The MARK record of the first recorded pass, target T and after-reverse block A. -/
def markRecord (pass t a : Nat) : List Word := [BitVec.ofNat 64 pass, trailer 1 16 (t * 2 ^ 8 + a)]

/-- A STORE record. -/
def storeRecord (va size : Nat) (old : Nat) : List Word :=
  [BitVec.ofNat 64 va, BitVec.ofNat 64 old, trailer 3 24 size]

/-- A LIVE record. -/
def liveRecord (tid slot : Nat) (old : Word) : List Word := [old, trailer 4 16 (tid * 2 ^ 16 + slot)]

/-- The snapshot's tids, four to a word, unused fields 0xFFFF. -/
def tidWords : (fuel : Nat) → List Nat → List Word
  | 0, _ => []
  | fuel + 1, ts =>
    if ts = [] then []
    else
      let g (i : Nat) : Nat := ts.getD i 0xFFFF
      BitVec.ofNat 64 (g 0 + g 1 * 2 ^ 16 + g 2 * 2 ^ 32 + g 3 * 2 ^ 48) :: tidWords fuel (ts.drop 4)

/-- A PASS record of a block whose STORE and LIVE records fill data bytes. -/
def passRecord (num data block : Nat) (tids : List Nat) : List Word :=
  let n := tids.length
  [BitVec.ofNat 64 num, BitVec.ofNat 64 data] ++ tidWords n tids
    ++ [trailer 2 (24 + 8 * ceilDiv n 4) (block * 2 ^ 32 + n)]

/-- Counts the bytes of STORE and LIVE records that the running pass has pushed. -/
def countBytes (d : Device) (core before : Nat) : Device :=
  let pushed := (d.core core).regs.tapehead.toNat - before
  d.modCore core fun c => { c with pass := c.pass.map fun p => { p with recBytes := p.recBytes + pushed } }

/-! ## Threads that wait (R155, R157, R170, R295) -/

/-- Is a thread live (R156)? -/
def isLive (t : Thread) : Bool :=
  match t.status with
  | .waiting _ => true
  | .streaming => true
  | .parked _ => true
  | _ => false

/-- The numbers of the threads for which p holds, ascending. -/
def tidsWhere (c : Core) (p : Thread → Bool) : List Nat :=
  (List.range c.threads.length).filter fun i => p (c.threads.getD i Thread.fresh)

/-- Does a thread wait at block b? -/
def waitsAt (b : Nat) (t : Thread) : Bool := t.status == .waiting b

/-- The waiting set of block b (R157). -/
def waitSet (c : Core) (b : Nat) : List Nat := tidsWhere c (waitsAt b)

/-- Sets a thread WAITING at a block. -/
def setWaiting (d : Device) (core tid b : Nat) : Device :=
  modThread d core tid fun t => { t with status := .waiting b }

/-- Does a pass of the core run? -/
def passRuns (c : Core) : Bool := c.pass.isSome

/-- Halts a WAITING thread for the debugger: its record, and the age of a block whose waiting set this empties (R160,
R295). -/
def haltThread (d : Device) (core tid : Nat) : Device :=
  match (threadOf d core tid).status with
  | .waiting b =>
    let d := takeFault d core tid true
      { passNum := (d.core core).passes - 1, node := 0xFD, block := b, code := 0xFE00, addr := 0, pend := false
        held := false, rev := false, exc := 0, done := 0, replay := [0, 0, 0, 0] }
    let d := modThread d core tid fun t => { t with haltReq := false }
    d.modCore core fun c => if waitSet c b = [] then { c with ages := c.ages.set b 0 } else c
  | _ => d

/-- Halts every WAITING thread that a debugger halt waits for (R295). -/
def applyHalts (d : Device) (core : Nat) : Device :=
  (tidsWhere (d.core core) fun t => t.haltReq && (match t.status with
    | .waiting _ => true
    | _ => false)).foldl (fun d t => haltThread d core t) d

/-- The end of a thread's wait: the status slot, with a LIVE record while recording, and the waiting set of T; none
where the record does not fit, and the core takes the Traverse trap instead (R170, R264). -/
def applyWake (d : Device) (core tid : Nat) (ok : Bool) : Option Device :=
  match (threadOf d core tid).status with
  | .parked p =>
    let c := d.core core
    match p.status with
    | none => some (setWaiting d core tid p.target)
    | some slot =>
      let logged := dmodeState c == 1 && decide (slot < 64)
      if logged && decide (c.regs.tapelimit.toNat < c.regs.tapehead.toNat + 16) then none
      else
        let d := if logged then pushWords d core (liveRecord tid slot ((threadOf d core tid).live.get slot)) else d
        some (setWaiting (modThread d core tid fun t =>
          { t with live := t.live.set slot (if ok then 1 else 0) }) core tid p.target)
  | _ => some d

/-! ## The Traverse trap (R266, R267, R268) -/

/-- The block that a live thread resumes at when it faults outside a pass. -/
def resumeBlock (c : Core) (t : Thread) : Nat :=
  match t.status with
  | .waiting b => b
  | .parked p => p.block
  | _ => match c.pass with
    | some p => p.block
    | none => 0

/-- Faults every live thread of a core with TAPE_FULL (R268, R274). -/
def faultLive (d : Device) (core node : Nat) (addr : Word) (rev : Bool) : Device :=
  (tidsWhere (d.core core) isLive).foldl (init := d) fun d tid =>
    let t := threadOf d core tid
    takeFault d core tid false
      { passNum := (d.core core).passes - 1, node := node, block := resumeBlock (d.core core) t, code := clsTape
        addr := addr, pend := false, held := false, rev := rev, exc := 0, done := t.done, replay := t.replay }

/-- The Traverse starts over: STATE 0, HEAD at BASE + 64, no trap, no wake that waits. -/
def tapeReset (d : Device) (core : Nat) : Device :=
  (modRegs d core fun r => { r with
    dmode := BitVec.ofNat 64 (fld r.dmode 15 8 * 2 ^ 8), tapehead := r.tapebase + 64 }).modCore core fun c =>
    { c with trap := none, tapeFail := none, trapReported := false, wakes := [], phase := none }

/-- Aborts the Traverse of a core (R268). -/
def tapeAbort (d : Device) (core : Nat) : Device := tapeReset (faultLive d core 0xFF 0 false) core

/-- The eight words of the control header (R267). -/
def headerWords (t : Trap) : List Word :=
  [BitVec.ofNat 64 (t.cause * 2 ^ 56 + t.addr % 2 ^ 56), BitVec.ofNat 64 t.need, 0, 0, 0, 0, 0, 0]

/-- Takes a Traverse trap: the control header, published at device scope, and TRAP; when the header cannot be
written, the Traverse is aborted (R267). -/
def takeTrap (d : Device) (core : Nat) (t : Trap) : Device :=
  match ownWrite d core (d.core core).regs.tapebase.toNat (bytesOfWords (headerWords t)) with
  | (.error _, d) => tapeAbort d core
  | (.ok _, d) =>
    (modRegs d core fun r => { r with dmode := setFld r.dmode 2 2 1 }).modCore core fun c =>
      { c with trap := some t, tapeFail := none, trapReported := false }

/-- Takes the trap of a failure that was kept for the boundary (R266). -/
def takeTapeFail (d : Device) (core : Nat) : Device :=
  match (d.core core).tapeFail with
  | some t => takeTrap d core t
  | none => d

/-- The trap of a wake record that does not fit (R264). -/
def wakeTrap (c : Core) : Trap := ⟨1, c.regs.tapehead.toNat, 16, []⟩

/-- Applies the wakes that wait for a boundary, in the order in which they were decided. One whose record does not fit,
and those behind it, go on waiting while the trap is pending; so do those behind one whose record's write fails, which
is kept for the trap that follows (R264, R266). -/
def applyWakes (d : Device) (core : Nat) : (List (Nat × Bool)) → Device
  | [] => d.modCore core fun c => { c with wakes := [] }
  | (tid, ok) :: rest =>
    if tapeFailed (d.core core) then d.modCore core fun c => { c with wakes := (tid, ok) :: rest }
    else match applyWake d core tid ok with
      | some d => applyWakes d core rest
      | none =>
        takeTrap (d.modCore core fun c => { c with wakes := (tid, ok) :: rest }) core (wakeTrap (d.core core))

/-- A core's Traverse failure and its wakes at a boundary: the trap of a failure that was kept comes first, and while a
trap is pending no wake takes effect (R264, R266). -/
def settleTape (d : Device) (core : Nat) : Device :=
  let d := takeTapeFail d core
  if (d.core core).trap.isSome then d
  else takeTapeFail (applyWakes d core (d.core core).wakes) core

/-- A wait ends: at once, or, while the core records and a pass runs, at the boundary (R170, R264), after the wakes that
already wait. No wait ends in a saved context. -/
def wakeThread (d : Device) (core tid : Nat) (ok : Bool) : Device :=
  let c := d.core core
  let d := modThread d core tid fun t =>
    { t with status := match t.status with
      | .parked p => .parked { p with woken := true }
      | s => s }
  if dmodeState c = 1 ∧ (passRuns c ∨ c.wakes ≠ [] ∨ c.trap.isSome) then
    d.modCore core fun c => { c with wakes := c.wakes ++ [(tid, ok)] }
  else
    match applyWake d core tid ok with
    | some d => takeTapeFail d core
    | none => takeTrap (d.modCore core fun c => { c with wakes := c.wakes ++ [(tid, ok)] }) core (wakeTrap c)

/-! ## Debugger requests (R294 to R296, R481) -/

/-- Applies one request at a boundary. -/
def applyDbg (d : Device) (core : Nat) : Dbg → Device
  | .halt tid =>
    match (threadOf d core tid).status with
    | .waiting _ => haltThread d core tid
    | .parked _ => modThread d core tid fun t => { t with haltReq := true }
    | .streaming => modThread d core tid fun t => { t with haltReq := true }
    | _ => d
  | .write tid slot v =>
    if (threadOf d core tid).status = .retired then d
    else modThread d core tid fun t => { t with live := t.live.set slot v }
  | .read tid slot => { d with host := { d.host with dbgdata := (threadOf d core tid).live.get slot } }
  | .stopJob => d.modCore core fun c =>
      { c with mer := { c.mer with job := c.mer.job.map fun j => { j with dbgStop := j.stop.isNone } } }

/-- What a pass boundary applies: the Traverse's failure and its wakes, then the debugger's requests in order, then the
halts that wait. -/
def boundary (d : Device) (core : Nat) : Device :=
  let d := settleTape d core
  let d := (d.core core).dbgs.foldl (fun d r => applyDbg d core r) d
  applyHalts (d.modCore core fun c => { c with dbgs := [] }) core

/-! ## Instances (R173, R203, R263, R269) -/

/-- Is a thread parked for an instance, with its wait not yet over? -/
def parkedFor (t : Thread) (k : ParkKind → Bool) : Bool :=
  match t.status with
  | .parked p => !p.woken && k p.kind
  | _ => false

/-- Is a kind a barrier of a scope? -/
def isBar (scope : Nat) : ParkKind → Bool
  | .bar s => s == scope
  | _ => false

/-- Is a kind a phase? -/
def isPhase : ParkKind → Bool
  | .phase _ => true
  | _ => false

/-- Is a kind an exit.dfwd? -/
def isDfwd : ParkKind → Bool
  | .dfwd _ _ => true
  | _ => false

/-- Is a kind an exit.drev? -/
def isDrev : ParkKind → Bool
  | .drev => true
  | _ => false

/-- The cores of a run, as they are now bound. -/
def runCores (d : Device) (run : Nat) : List Nat :=
  (List.range d.cores.length).filter fun k => match (d.core k).bound with
    | some b => b.run == run
    | none => false

/-- The cores in whose live threads a barrier of a scope on a core has its participants (R173), as far as they are
bound. -/
def barCores (d : Device) (run core scope : Nat) : List Nat :=
  match scope with
  | 1 => [core]
  | 2 => (runCores d run).filter fun k => clusterOf k == clusterOf core
  | _ => runCores d run

/-- Have all live threads of the cores arrived, at least one among them? -/
def allArrived (d : Device) (cores : List Nat) (k : ParkKind → Bool) : Bool :=
  (cores.all fun n => (d.core n).threads.all fun t => !isLive t || parkedFor t k)
    && cores.any fun n => (d.core n).threads.any fun t => parkedFor t k

/-- Releases every arrived thread of the cores with status 1. -/
def releaseAll (d : Device) (cores : List Nat) (k : ParkKind → Bool) : Device :=
  cores.foldl (init := d) fun d n =>
    (tidsWhere (d.core n) fun t => parkedFor t k).foldl (fun d t => wakeThread d n t true) d

/-- Does a saved context of the run, on a core or kept by the distributor, hold live threads that take part in a barrier
of a scope on a core? Restoration continues the instance (R173), so it waits for that context. -/
def savedHolds (d : Device) (b : Bound) (core scope : Nat) : Bool :=
  (barCores d b.run core scope).any (fun k => (d.core k).preempt == .saved && (d.core k).threads.any isLive)
    || match launchOf d b.record with
      | none => false
      | some l => scope != 1 && l.saved.any fun s =>
          s.2.threads.any isLive && (scope == 3 || clusterOf (l.cores.getD s.1 0) == clusterOf core)

/-- Completes the barrier of a scope that a core takes part in, where every participant has arrived (R173). -/
def checkBar (d : Device) (core scope : Nat) : Device :=
  match (d.core core).bound with
  | none => d
  | some b =>
    let cs := barCores d b.run core scope
    if !savedHolds d b core scope && allArrived d cs (isBar scope) then releaseAll d cs (isBar scope) else d

/-- The widest scope among the phase arrivals of a core. -/
def widest (c : Core) : Nat :=
  c.threads.foldl (init := 0) fun m t => match t.status with
    | .parked p => match p.kind with
      | .phase s => if p.woken then m else max m s
      | _ => m
    | _ => m

/-- Notes a complete phase instance (R203). -/
def checkPhase (d : Device) (core : Nat) : Device :=
  let c := d.core core
  if c.phase.isNone && allArrived d [core] isPhase then
    d.modCore core fun c => { c with phase := some (tidsWhere c fun t => parkedFor t isPhase, widest c) }
  else d

/-- Faults every thread that arrived at an instance with CONFIG, node 0x40 (R263, R269): the block it resumes at is
the one it parked in. -/
def misuse (d : Device) (core : Nat) (k : ParkKind → Bool) : Device :=
  (tidsWhere (d.core core) fun t => parkedFor t k).foldl (init := d) fun d t =>
    match (threadOf d core t).status with
    | .parked p =>
      takeFault d core t false
        { passNum := (d.core core).passes - 1, node := 0x40, block := p.block, code := clsConfig, addr := 0
          pend := false, held := false, rev := false, exc := 0, done := 0, replay := [0, 0, 0, 0] }
    | _ => d

/-- T and F of the arrivals at dfwd. -/
def dfwdArrivals (c : Core) : List (Nat × Nat) :=
  c.threads.filterMap fun t => match t.status with
    | .parked p => match p.kind with
      | .dfwd a b => some (a, b)
      | _ => none
    | _ => none

/-- A complete dfwd instance: misuse, or the MARK, STATE 1, AFTER, and the arrivals released to T (R263). Without
room for the MARK the core takes the Traverse trap, and the instance stays complete (R266). -/
def dfwdComplete (d : Device) (core : Nat) : Device :=
  let c := d.core core
  let arr := dfwdArrivals c
  let (t, f) := arr.getD 0 (0, 0)
  if dmodeState c ≠ 0 ∨ c.regs.tapebase = 0 ∨ arr.any (· != (t, f)) then misuse d core isDfwd
  else if c.regs.tapelimit.toNat < c.regs.tapehead.toNat + 16 then
    (if c.trap.isSome then d else takeTrap d core ⟨1, c.regs.tapehead.toNat, 16, []⟩)
  else
    let d := pushWords d core (markRecord c.passes t f)
    if tapeFailed (d.core core) then
      takeTapeFail (d.modCore core fun c =>
        { c with tapeFail := c.tapeFail.map fun t => { t with retry := [] } }) core
    else
      let d := modRegs d core fun r => { r with dmode := BitVec.ofNat 64 (f * 2 ^ 8 + fld r.dmode 2 2 * 4 + 1) }
      (tidsWhere (d.core core) fun t => parkedFor t isDfwd).foldl (fun d x => setWaiting d core x t) d

/-- The instances of a core that may have completed: barriers, the phase, dfwd, and the misuse of drev (R173, R203,
R263, R269). Those of a saved context wait for its restoration. -/
def settle (d : Device) (core : Nat) : Device :=
  if (d.core core).preempt == .saved then d else
  let d := checkPhase (checkBar (checkBar (checkBar d core 1) core 2) core 3) core
  let d := if allArrived d [core] isDfwd && !passRuns (d.core core) && (d.core core).trap.isNone then dfwdComplete d core else d
  if allArrived d [core] isDrev && !passRuns (d.core core) && dmodeState (d.core core) == 0 then misuse d core isDrev
  else d

end Sys2Proof.Machine
end

