-- ==== Sys2Proof/Machine/Exits.lean ====
section
/-! DEFINITION. Retirement and commit, and the meanings of the exits (06_core_execution: R165 to R168, R170, R171;
07_core_integer_control: R194 to R203; 11_differentiable: R262 to R264, R269; 12_core_faults: R280 to R282). -/

namespace Sys2Proof.Machine

/-! ## The beat that retires next -/

/-- How many beats a pass has (R159). -/
def beatCount (p : Pass) : Nat := ceilDiv p.lanes.length 16

/-- The beat that retires next: beats retire in order, in a reverse pass from the last (R168, R271). -/
def nextBeat (p : Pass) : Nat := if p.rev then beatCount p - 1 - p.retired else p.retired

/-- The lane positions of a beat. -/
def beatLanes (p : Pass) (q : Nat) : List Nat := (List.range 16).map (16 * q + ·) |>.filter (· < p.lanes.length)

/-- Has every node of the block emitted its token for the lane? -/
def laneDone (ws : List Word) (l : Lane) : Bool := (imgNodes ws).all fun n => (l.tokens.find n).isSome

/-- May the next beat of a pass retire (R168)? -/
def beatReady (ws : List Word) (p : Pass) : Bool :=
  !p.loading && decide (p.retired < beatCount p)
    && (beatLanes p (nextBeat p)).all fun i => match p.lanes[i]? with
      | some l => laneDone ws l
      | none => false

/-! ## The origin that a fault record takes (R280) -/

/-- An exit operand's token; none for a field that holds 0xFF. -/
def exitOperand (d : Device) (e : Env) (code : BitVec 8) : Option Token :=
  if code = 0xFF then none else operand d e .u64 3 3 0 code

/-- An exit operand's value, 0 where there is none. -/
def exitVal (d : Device) (e : Env) (code : BitVec 8) : Word :=
  match exitOperand d e code with
  | some t => valueOf t
  | none => 0

/-- The poison tokens of a lane: the origin with the lowest node. -/
def laneOrigin (l : Lane) : Option Origin := l.tokens.foldl (fun o t => worse o (originOf t.2)) none

/-- The class CANCEL_AT_EXIT at the exit word. -/
def cancelOrigin (block : Nat) : Origin := ⟨block, 0x40, clsCancel, 0, 0⟩

/-- Why a thread faults at retirement, none where it commits (R167, R194, R280). -/
def exitOrigin (d : Device) (e : Env) (x : EX) : Option Origin :=
  let ts := [x.a, x.b, x.c].filterMap (exitOperand d e)
  match ts.findSome? originOf with
  | some o => some o
  | none =>
    match laneOrigin e.l with
    | some o => some o
    | none => if ts.contains .cancel then some (cancelOrigin e.pass.block) else none

/-- A thread faults at the exit: its record, and FAULTED (R281, R282). -/
def faultAtExit (d : Device) (e : Env) (o : Origin) : Device :=
  takeFault d e.core e.l.tid false
    { passNum := e.pass.num, node := o.node, block := e.pass.block, code := o.cls, addr := o.addr, pend := e.l.pend
      held := false, rev := e.pass.rev, exc := o.exc, done := e.l.done, replay := e.l.replay }

/-! ## Commit (R168, R264) -/

/-- Deferred stores in node-number order. -/
def insertStore (s : Store) : List Store → List Store
  | [] => [s]
  | x :: t => if s.node < x.node then s :: x :: t else x :: insertStore s t

/-- The stores of a lane in node-number order (R168). -/
def storesOf (l : Lane) : List Store := l.stores.foldl (fun t s => insertStore s t) []

/-- Makes one deferred store core-visible (R48, R58). -/
def commitStore (d : Device) (core : Nat) (s : Store) : Device :=
  let bs := toBytes s.size s.value
  match s.place with
  | .scratch a => scratchWrite d core a bs
  | .home k => coreWrite d core k bs
  | .remote t a =>
    d.modCore core fun c =>
      let mine := (c.cache.remote.find t).getD []
      { c with cache := { c.cache with
          remote := c.cache.remote.put t (((span a bs.length).zip bs).foldl (fun m p => m.put p.1 p.2) mine) } }

/-- Does a store get a STORE record: an st in space g that touches a region (R256, R264)? -/
def isRecorded (b : Bound) (s : Store) : Bool :=
  s.recorded && (match regionOf b.regions s.va s.size with
    | .outside => false
    | _ => true)

/-- The value a load by the thread would return where a store goes, and what reading it leaves (R264). -/
def oldValue (d : Device) (core tid : Nat) (s : Store) : Nat × Device :=
  match s.place with
  | .home k =>
    let r := loadAt d core tid k s.size
    (ofBytes r.1, r.2)
  | _ => (0, d)

/-- Step 1 of R168, with the STORE records that step 4 pushes while recording. -/
def commitStores (d : Device) (e : Env) (logs : Bool) : List Store → Device × List (List Word)
  | [] => (d, [])
  | s :: t =>
    let (old, d1) := if logs && isRecorded e.bound s then oldValue d e.core e.l.tid s else (0, d)
    let r := commitStores (commitStore d1 e.core s) e logs t
    (r.1, if logs && isRecorded e.bound s then storeRecord s.va s.size old :: r.2 else r.2)

/-- The LIVE records of a commit, ascending by slot (R264). -/
def liveRecords (e : Env) : List (List Word) :=
  ((List.range 64).filter fun s => e.l.writes.any fun w => w.1 == s).map fun s =>
    liveRecord e.l.tid s (e.t.live.get s)

/-- Pushes several records. -/
def pushAll (d : Device) (core : Nat) (rs : List (List Word)) : Device := rs.foldl (fun d r => pushWords d core r) d

/-- Steps 1 to 4 of R168 for one thread. -/
def commitLane (d : Device) (e : Env) : Device :=
  let logs := dmodeState (d.core e.core) == 1
  let before := (d.core e.core).regs.tapehead.toNat
  let (d, recs) := commitStores d e logs (storesOf e.l)
  let lives := liveRecords e
  let d := modThread d e.core e.l.tid fun t => { t with live := e.l.writes.foldl (fun m w => m.set w.1 w.2) t.live }
  let d := modRegs d e.core fun r => { r with fpflags := r.fpflags ||| e.l.flags.zeroExtend 64 }
  if logs then countBytes (pushAll d e.core (recs ++ lives)) e.core before else d

/-! ## The block table (R90) -/

/-- Entry n of the block table, or the class and address of the failure (R90): of the entry, which R119 names; for n above
NBLK no entry holds the defect, and the address is where it would lie (DESIGN CHOICE, log 54). -/
def blockEntry (d : Device) (core n : Nat) : Except (Nat × Nat) Nat × Device :=
  match (d.core core).bound with
  | none => (.error (clsConfig, 0), d)
  | some b =>
    let a := b.table + 8 * n
    if b.nblk < n then (.error (clsConfig, a), d)
    else
      match engReadWord d core b.priv a with
      | (.error e, d) => (.error e, d)
      | (.ok w, d) =>
        if w = 0 ∨ w.toNat % 32 ≠ 0 ∨ fld w 63 56 ≠ 0 then (.error (clsConfig, a), d) else (.ok w.toNat, d)

/-! ## Parking (R170, R171, R200, R201) -/

/-- The deadline of a timeout operand in clocks: none for an omitted operand or for all ones (R171). -/
def deadlineOf (d : Device) (e : Env) (x : EX) : Option Nat :=
  if x.c = 0xFF then none
  else
    let us := exitVal d e x.c
    if us = 0xFFFF_FFFF_FFFF_FFFF then none else some (e.now + us.toNat * 1750)

/-- A thread parks, and the DONE and REPLAY it kept for the block are discarded (R170, R283). -/
def parkThread (d : Device) (e : Env) (x : EX) (k : ParkKind) (deadline : Option Nat) : Device :=
  modThread d e.core e.l.tid fun t =>
    { t with
      status := .parked ⟨k, e.pass.block, x.t.toNat, if x.status = 0xFF then none else some x.status.toNat, deadline,
        false⟩
      done := 0
      replay := [0, 0, 0, 0] }

/-- The word of an exit.wait at its scope's coherence point (R37, R172, R200). Of a line that holds uncorrectable data
the stored bytes are compared: R39 gives a fault to loads and rmw only (DESIGN CHOICE, log 49). -/
def waitWordOf (d : Device) (core scope : Nat) : WaitWord → Word
  | .scratch a => scratchWord d core a
  | .home k =>
    if scope = 2 then BitVec.ofNat 64 (ofBytes ((span k 8).map (pointByte d (clusterOf core)))) else homeWord d k

/-- Does the condition of a parked exit.wait hold (R201)? -/
def waitHolds (d : Device) (core : Nat) (k : ParkKind) : Bool :=
  match k with
  | .wait scope cond at_ v => condHolds cond (waitWordOf d core scope at_) v
  | _ => false

/-- A release by condition counts as a read of the word by the thread and drops the core's cached copy (R202). -/
def noteWaitRead (d : Device) (core tid : Nat) (k : ParkKind) : Device :=
  match k with
  | .wait _ _ (.home key) _ =>
    let now := writesSoFar d
    modThread (raiseFloors d core (span key 8)) core tid fun t =>
      { t with seen := (span key 8).foldl (fun s x => s.put x now) t.seen }
  | _ => d

/-- Releases a parked exit.wait whose condition holds (R201, R202); one whose context is saved goes on waiting until it is
restored (R170, R290). -/
def releaseWait (d : Device) (core tid : Nat) : Device :=
  match (threadOf d core tid).status with
  | .parked p =>
    if !p.woken && (d.core core).preempt != .saved && waitHolds d core p.kind then
      wakeThread (noteWaitRead d core tid p.kind) core tid true else d
  | _ => d

/-- The checks of an exit.wait's address: the word, or the class (R200), which for several failures is the first of
bits 63:56, ALIGN, translation and permission: R200 gives no order (DESIGN CHOICE, log 48). -/
def waitPlace (d : Device) (e : Env) (scope : Nat) (a : Word) : Except Nat WaitWord × Device :=
  if scope = 1 then
    (if scratchSize ≤ a.toNat then (.error clsBounds, d)
     else if a.toNat % 8 ≠ 0 then (.error clsAlign, d)
     else (.ok (.scratch a.toNat), d))
  else if 2 ^ 56 ≤ a.toNat then (.error clsTranslation, d)
  else if a.toNat % 8 ≠ 0 then (.error clsAlign, d)
  else match access d e.core a.toNat e.bound.priv false with
    | (.error c, d) => (.error c, d)
    | (.ok x, d) => if x.host ∧ scope < 4 then (.error clsPermission, d) else (.ok (.home x.key), d)

/-- Is the timeout of an exit 0: its condition is tested once, at parking (R171)? -/
def zeroTimeout (d : Device) (e : Env) (x : EX) : Bool := x.c != 0xFF && exitVal d e x.c == 0

/-- A wait that expires at parking, where its condition does not hold there (R171). -/
def expireNow (d : Device) (core tid : Nat) : Device :=
  match (threadOf d core tid).status with
  | .parked p =>
    if p.woken || ((d.core core).phase.map fun q => q.1.contains tid).getD false then d else wakeThread d core tid false
  | _ => d

/-- What follows parking: the condition is tested by f, and with a timeout of 0 the wait then expires (R171). -/
def testAtParking (d : Device) (e : Env) (x : EX) (f : Device → Device) : Device :=
  if zeroTimeout d e x then expireNow (f d) e.core e.l.tid else d

/-! ## Exit actions (step 5 of R168) -/

/-- What an exit does with a thread: find why it cannot commit, then act after the commit. -/
structure Action where
  refuse : Device → Env → EX → Option Origin × Device
  act : Device → Env → EX → Device

/-- No reason beside the tokens. -/
def noRefusal : Device → Env → EX → Option Origin × Device := fun d _ _ => (none, d)

/-- The thread waits at its successor; what it kept for the block is discarded (R196, R283). -/
def goTo (d : Device) (e : Env) (b : Nat) : Device :=
  modThread d e.core e.l.tid fun t => { t with status := .waiting b, done := 0, replay := [0, 0, 0, 0] }

/-- exit.br (R196). -/
def actBr : Action := ⟨noRefusal, fun d e x => goTo d e x.t.toNat⟩

/-- exit.cbr (R196). -/
def actCbr : Action :=
  ⟨noRefusal, fun d e x => goTo d e (if (exitVal d e x.a).getLsbD 0 then x.t.toNat else x.f.toNat)⟩

/-- exit.ind: a target above 255, or whose table entry fails R90 in any way, faults CONFIG before the commit (R108,
R196). Its operand is no address: w1 is 0 (R194; DEDUCED, log 24). -/
def actInd : Action :=
  ⟨fun d e x =>
    let n := exitVal d e x.a
    let bad : Option Origin := some ⟨e.pass.block, 0x40, clsConfig, 0, 0⟩
    if 255 < n.toNat then (bad, d)
    else match blockEntry d e.core n.toNat with
      | (.error _, d) => (bad, d)
      | (.ok _, d) => (none, d),
   fun d e x => goTo d e (exitVal d e x.a).toNat⟩

/-- exit.sw (R196). -/
def actSw : Action :=
  ⟨noRefusal, fun d e x =>
    let i := (exitVal d e x.a).toNat
    goTo d e (if i ≤ 31 then imgSwitch e.words i else x.f.toNat)⟩

/-- exit.retire (R197). -/
def actRetire : Action :=
  ⟨noRefusal, fun d e _ => modThread d e.core e.l.tid fun t => { t with status := .retired }⟩

/-- exit.trap (R198). -/
def actTrap : Action :=
  ⟨noRefusal, fun d e x => takeFault d e.core e.l.tid true
    { passNum := e.pass.num, node := 0x40, block := e.pass.block, code := 0xFF00 + x.mod.toNat, addr := 0
      pend := false, held := false, rev := false, exc := 0, done := 0, replay := [0, 0, 0, 0] }⟩

/-- exit.bar (R199). -/
def actBar : Action :=
  ⟨noRefusal, fun d e x =>
    let scope := x.mod.toNat % 16
    testAtParking (parkThread d e x (.bar scope) (deadlineOf d e x)) e x fun d => checkBar d e.core scope⟩

/-- exit.wait: after the commit the address is checked, and the word is tested once at parking (R171, R200, R201). -/
def actWait : Action :=
  ⟨noRefusal, fun d e x =>
    let scope := x.mod.toNat % 16
    let a := exitVal d e x.a
    let v := exitVal d e x.b
    match waitPlace d e scope a with
    | (.error c, d) => faultAtExit d e ⟨e.pass.block, 0x40, c, a, 0⟩
    | (.ok w, d) =>
      let d := releaseWait (parkThread d e x (.wait scope (x.mod.toNat / 16) w v) (deadlineOf d e x)) e.core e.l.tid
      testAtParking d e x id⟩

/-- exit.phase (R203). -/
def actPhase : Action :=
  ⟨noRefusal, fun d e x =>
    testAtParking (parkThread d e x (.phase (x.mod.toNat % 16)) (deadlineOf d e x)) e x fun d => checkPhase d e.core⟩

/-- exit.dfwd (R263). -/
def actDfwd : Action :=
  ⟨noRefusal, fun d e x => parkThread d e x (.dfwd x.t.toNat x.f.toNat) none⟩

/-- exit.drev (R269). -/
def actDrev : Action := ⟨noRefusal, fun d e x => parkThread d e x .drev none⟩

/-! ## Retirement (R168) -/

/-- The environment of a lane of the running pass at retirement. -/
def laneEnv (d : Device) (now core lane : Nat) : Option Env := envOf d now ⟨core, lane, 0x40⟩

/-- The stores of a lane are pending no longer: they have been committed or discarded (R233). -/
def dropStores (d : Device) (e : Env) : Device := modLane d e.core e.lane fun l => { l with stores := [] }

/-- One thread retires: it faults, or commits and takes the exit's action. -/
def retireLane (d : Device) (e : Env) (x : EX) (k : Action) : Device :=
  match exitOrigin d e x with
  | some o => faultAtExit (dropStores d e) e o
  | none =>
    match k.refuse d e x with
    | (some o, d) => faultAtExit (dropStores d e) e o
    | (none, d) => k.act (commitLane (dropStores d e) e) e x

/-- The threads of a beat retire in ascending order, each with the state that those before it left. -/
def retireLanes (d : Device) (now core : Nat) (x : EX) (k : Action) : List Nat → Device
  | [] => d
  | i :: t =>
    match laneEnv d now core i with
    | none => retireLanes d now core x k t
    | some e => retireLanes (retireLane d e x k) now core x k t

/-- The pass ends: its PASS record while recording, then the boundary, and the instances it completes (R158, R263,
R264). -/
def endPass (d : Device) (core : Nat) : Device :=
  match (d.core core).pass with
  | none => d
  | some p =>
    let d :=
      if dmodeState (d.core core) = 1 ∧ !p.rev ∧ p.recTids ≠ [] then
        pushWords d core (passRecord p.num p.recBytes p.block p.recTids)
      else d
    settle (boundary (d.modCore core fun c => { c with pass := none }) core) core

/-- The next beat of the pass has retired; after the last, the pass ends. -/
def beatDone (d : Device) (core : Nat) (tids : List Nat) : Device :=
  let d := d.modCore core fun c => { c with
    pass := c.pass.map fun p => { p with retired := p.retired + 1, recTids := p.recTids ++ tids } }
  match (d.core core).pass with
  | some p => if p.retired < beatCount p then settle d core else endPass d core
  | none => d

/-- The oldest beat of a core's pass retires through an exit word, where it is complete (R168). -/
def retireBeat (d : Device) (now core : Nat) (x : EX) (k : Action) : Device :=
  match (d.core core).pass, (d.core core).active with
  | some p, some pl =>
    if !p.rev && beatReady pl.words p then
      let ls := beatLanes p (nextBeat p)
      let tids := ls.filterMap fun i => (p.lanes[i]?).map (·.tid)
      beatDone (retireLanes d now core x k ls) core tids
    else d
  | _, _ => d

/-- The step of an exit: at the focus's core. -/
def exitStep (s : State) (x : EX) (k : Action) : Host.Outcome State Fault Refusal :=
  .next { s with dev := retireBeat s.dev s.clock s.focus.core x k }

/-- exit.br (R196). -/
def execExitBr (w : EX) (s : State) : Host.Outcome State Fault Refusal := exitStep s w actBr

/-- exit.cbr (R196). -/
def execExitCbr (w : EX) (s : State) : Host.Outcome State Fault Refusal := exitStep s w actCbr

/-- exit.ind (R196). -/
def execExitInd (w : EX) (s : State) : Host.Outcome State Fault Refusal := exitStep s w actInd

/-- exit.sw (R196). -/
def execExitSw (w : EX) (s : State) : Host.Outcome State Fault Refusal := exitStep s w actSw

/-- exit.retire (R197). -/
def execExitRetire (w : EX) (s : State) : Host.Outcome State Fault Refusal := exitStep s w actRetire

/-- exit.trap (R198). -/
def execExitTrap (w : EX) (s : State) : Host.Outcome State Fault Refusal := exitStep s w actTrap

/-- exit.bar (R199). -/
def execExitBar (w : EX) (s : State) : Host.Outcome State Fault Refusal := exitStep s w actBar

/-- exit.wait (R200, R201). -/
def execExitWait (w : EX) (s : State) : Host.Outcome State Fault Refusal := exitStep s w actWait

/-- exit.phase (R203). -/
def execExitPhase (w : EX) (s : State) : Host.Outcome State Fault Refusal := exitStep s w actPhase

/-- exit.dfwd (R263). -/
def execExitDfwd (w : EX) (s : State) : Host.Outcome State Fault Refusal := exitStep s w actDfwd

/-- exit.drev (R269). -/
def execExitDrev (w : EX) (s : State) : Host.Outcome State Fault Refusal := exitStep s w actDrev

/-- The action of an exit instruction. -/
def actionOf : Instr → Option (EX × Action)
  | .exitBr w => some (w, actBr)
  | .exitCbr w => some (w, actCbr)
  | .exitInd w => some (w, actInd)
  | .exitSw w => some (w, actSw)
  | .exitRetire w => some (w, actRetire)
  | .exitTrap w => some (w, actTrap)
  | .exitBar w => some (w, actBar)
  | .exitWait w => some (w, actWait)
  | .exitPhase w => some (w, actPhase)
  | .exitDfwd w => some (w, actDfwd)
  | .exitDrev w => some (w, actDrev)
  | _ => none

end Sys2Proof.Machine
end

