-- ==== Sys2Proof/Machine/Loader.lean ====
section
/-! DEFINITION. The block-image loader and the selector: PASS_SELECT, SHADOW_PREDICT and IMAGE_LOAD (04_encoding: R90
to R97, R102 to R108, R115 to R121; 06_core_execution: R158 to R163; 11_differentiable: R266; 25_host_system: R477,
R478). -/

namespace Sys2Proof.Machine

/-! ## What the loader reads of an image -/

/-- Why an image fails to load: the class, NODE and w1 of the fault records (R119). -/
structure LoadFault where
  cls : Nat
  node : Nat
  addr : Nat
  deriving DecidableEq, Repr, Inhabited

/-- What the loader needs beside the image: the block, the image's address, the live width, whether the launch is
strict, the acknowledged features, and whether the device is in REDUCED. -/
structure LoadCx where
  block : Nat
  img : Nat
  width : Nat
  strict : Bool
  feat : Word
  reduced : Bool
  deriving DecidableEq, Repr

/-- A defect of class CONFIG unless ok. -/
def loadReq (ok : Bool) (node addr : Nat) : Option LoadFault := if ok then none else some ⟨clsConfig, node, addr⟩

/-- The first defect of several checks. -/
def firstDefect (l : List (Option LoadFault)) : Option LoadFault := l.findSome? id

/-- A node as the loader checks it. -/
structure NodeSum where
  mu : Bool
  opc : Nat
  typ : Nat
  fmt : Fmt
  a : Nat
  b : Nat
  c : Nat
  dest : Nat
  space : Nat
  ag : Nat
  flags : Nat
  deriving DecidableEq, Repr

/-- The node at a number, none for a hole and for a word that does not decode. -/
def nodeSum (ws : List Word) (n : Nat) : Option NodeSum :=
  match imgNode ws n with
  | none => none
  | some i =>
    match wordOf i with
    | .cu o w =>
      (cuFmt o).map fun f =>
        ⟨false, o, w.typ.toNat, f, w.a.toNat, w.b.toNat, w.c.toNat, w.dest.toNat, 0, 15, 0⟩
    | .mu o w =>
      (muFmt o).map fun f =>
        ⟨true, o, w.typ.toNat, f, w.a.toNat, w.b.toNat, w.c.toNat, w.dest.toNat, w.space.toNat, w.ag.toNat,
          w.flags.toNat⟩
    | _ => none

/-- The live slots that pa.enc reads and pa.dec writes for a type (R222, R223). -/
def spanOf (typ : Nat) : Nat := if typ = 8 then 2 else 4

/-- The live slots that a node writes (R105). -/
def NodeSum.writes (s : NodeSum) : List Nat :=
  if s.dest = 0xFF then []
  else if !s.mu && s.opc == 0x61 then span s.dest (spanOf s.typ)
  else [s.dest]

/-- The live slots that the nodes below a number write. -/
def writesBelow (ws : List Word) (n : Nat) : List Nat :=
  (List.range n).flatMap fun k => match nodeSum ws k with
    | some s => s.writes
    | none => []

/-- STATUS of the image's exit word. -/
def imgStatus (ws : List Word) : Nat := fld (imgWord ws 2) 15 8

/-- The live-slot writes of a block (R105). -/
def imgWrites (ws : List Word) : List Nat :=
  writesBelow ws (imgSlots ws).length ++ (if imgStatus ws = 0xFF then [] else [imgStatus ws])

/-- CONSTS of the header. -/
def imgConsts (ws : List Word) : Nat := fld (imgWord ws 0) 31 24

/-- The number of body frames of a kind. -/
def kindCount (ws : List Word) (k : Nat) : Nat := ((imgBody ws).filter fun f => imgKind ws f == k).length

/-- The image's sum (R117). -/
def imgSum (ws : List Word) : Nat :=
  (ws.foldl (fun s w => s + fld w 63 32 + fld w 31 0) 0 - fld (imgWord ws 3) 31 0) % 2 ^ 32

/-! ## The checks, by the steps of R118 -/

/-- Step 2: MAGIC, BLOCK and FRAMES. -/
def checkHeader (x : LoadCx) (w0 : Word) : Option LoadFault :=
  loadReq (fld w0 63 56 == 1 && fld w0 55 48 == x.block && decide (1 ≤ fld w0 39 32 ∧ fld w0 39 32 ≤ 32)) 0xFF x.img

/-- Step 4: KINDS, SWF and AGF against the body, and the node numbers (R92, R93). -/
def checkKinds (x : LoadCx) (ws : List Word) : Option LoadFault :=
  let f := imgFrames ws
  let sw := imgSwf ws
  firstDefect [
    loadReq (decide ((imgWord ws 1).toNat < 4 ^ f)) 0xFF (x.img + 8),
    loadReq (fld (imgWord ws 3) 63 32 == 0) 0xFF (x.img + 0x18),
    loadReq ((sw != 0) == (imgExit ws / 2 ^ 56 == 4)) 0xFF x.img,
    loadReq (sw == 0 || (decide (sw ≤ f) && imgKind ws sw == 2)) 0xFF x.img,
    loadReq ((imgConstFrames ws).length == ceilDiv (imgConsts ws) 4) 0xFF x.img,
    loadReq (decide (kindCount ws 3 ≤ 15)) 0xFF (x.img + 8),
    loadReq (bit (imgWord ws 0) 1 == decide (0 < kindCount ws 3)) 0xFF x.img,
    loadReq (decide ((imgSlots ws).length ≤ 64)) 0xFF (x.img + 8)]

/-- An operand code against the image: a node below the limit that has a result, a slot below the live width, a
constant below CONSTS (R104). -/
def codeOk (x : LoadCx) (ws : List Word) (limit v : Nat) : Bool :=
  if v < 0x40 then
    decide (v < limit) && (match nodeSum ws v with
      | some s => s.fmt.result
      | none => false)
  else if v < 0xC0 then decide (v - 0x40 < x.width)
  else if v < 0xE0 then decide (v - 0xC0 < imgConsts ws)
  else true

/-- The feature that gates a memory, engine or system opcode (R478). -/
def featureOf (opc : Nat) : Option Nat :=
  if opc = 0x46 then some 2
  else if 0x60 ≤ opc ∧ opc ≤ 0x65 then some 3
  else if 0x68 ≤ opc ∧ opc ≤ 0x6A then some 4
  else if 0x80 ≤ opc ∧ opc ≤ 0x86 then some 1
  else none

/-- What REDUCED refuses: bf16 and the atom types, and engine nodes other than plain copies and the
distributor's (R477). -/
def reducedBad (s : NodeSum) : Bool :=
  [6, 8, 9, 10].contains s.typ
    || (s.fmt.cls == .eng && !([0x40, 0x41, 0x42, 0x43, 0x47, 0x70, 0x71, 0x72, 0x73, 0x74].contains s.opc))

/-- A node against the rest of the image and the launch (R97, R101, R104, R105, R151, R222, R223, R477, R478). An
address generator that the image does not have, or whose SPACE is not the node's, is found here, at the node's high
word: R97 and R118 do not say in which step (DESIGN CHOICE, log 27). -/
def nodeFits (x : LoadCx) (ws : List Word) (n : Nat) (s : NodeSum) : Bool :=
  codeOk x ws n s.a && codeOk x ws n s.b && codeOk x ws n s.c
    && (s.fmt.a != .slots || decide (s.a - 0x40 + spanOf s.typ ≤ x.width))
    && s.writes.all (fun d => decide (d < x.width) && !(writesBelow ws n).contains d)
    && (s.ag == 15 || (decide (s.ag < (imgAgFrames ws).length)
          && fld (imgWord ws ((imgAgFrames ws).getD s.ag 0 + 2)) 39 36 == s.space))
    && (s.flags / 2 == 0 || imgDiff ws)
    && !(x.strict && s.mu && s.opc == 0x09)
    && (!s.mu || (match featureOf s.opc with
          | some f => bit x.feat f
          | none => true))
    && !(x.reduced && reducedBad s)

/-- The word of an MU slot that holds a defect: OFF, IMM and a hole's low bits lie in the low one. Where both words hold
a defect, the decoder finds the high word's first (DESIGN CHOICE, log 27). -/
def muDefectWord (lo : Nat) (r : Reject) : Nat :=
  match r with
  | .off => 0
  | .imm => 0
  | .holeBits => if lo = 0 then 1 else 0
  | _ => 1

/-- Step 5 for one slot. -/
def checkSlot (x : LoadCx) (ws : List Word) (n : Nat) : Option LoadFault :=
  match (imgSlots ws)[n]? with
  | none => none
  | some s =>
    let a := x.img + 8 * s.2
    let top := match s.1 with
      | .mu => a + 8
      | _ => a
    match decode s.1 (slotWord ws s) with
    | .error .hole => none
    | .error r =>
      some ⟨clsConfig, n, match s.1 with
        | .mu => a + 8 * muDefectWord (imgWord ws s.2).toNat r
        | _ => a⟩
    | .ok _ =>
      match nodeSum ws n with
      | some k => loadReq (nodeFits x ws n k) n top
      | none => none

/-- Step 5: the node slots in order. -/
def checkSlots (x : LoadCx) (ws : List Word) : Option LoadFault :=
  (List.range (imgSlots ws).length).findSome? (checkSlot x ws)

/-- Step 6, first part: words beyond the last constant are 0 (R95). -/
def checkConsts (x : LoadCx) (ws : List Word) : Option LoadFault :=
  (List.range (4 * (imgConstFrames ws).length)).findSome? fun k =>
    let i := (imgConstFrames ws).getD (k / 4) 0 + k % 4
    loadReq (decide (k < imgConsts ws) || imgWord ws i == 0) 0x41 (x.img + 8 * i)

/-- Step 6, last part: the reserved bits and codes of the address generators (R96, R97). -/
def checkAgs (x : LoadCx) (ws : List Word) : Option LoadFault :=
  (imgAgFrames ws).findSome? fun b =>
    let w2 := imgWord ws (b + 2)
    firstDefect [
      loadReq (fld (imgWord ws (b + 1)) 15 0 == 0) 0x42 (x.img + 8 * (b + 1)),
      loadReq (fld w2 31 0 == 0 && decide (fld w2 39 36 ≤ 3 ∧ fld w2 35 32 ≤ 8)) 0x42 (x.img + 8 * (b + 2))]

/-- Step 7: the exit word, its static targets apart (R104 to R107). -/
def checkExit (x : LoadCx) (ws : List Word) : Option LoadFault :=
  let n := (imgSlots ws).length
  match decodeExit (imgExit ws) with
  | .error _ => some ⟨clsConfig, 0x40, x.img + 0x10⟩
  | .ok _ =>
    let w := exFields (imgExit ws)
    loadReq (codeOk x ws n w.a.toNat && codeOk x ws n w.b.toNat && codeOk x ws n w.c.toNat
      && (w.status == 0xFF || (decide (w.status.toNat < x.width) && !(writesBelow ws n).contains w.status.toNat)))
      0x40 (x.img + 0x10)

/-- The nodes of a class. -/
def classCount (ws : List Word) (k : Class) : Nat :=
  ((List.range (imgSlots ws).length).filter fun n => match nodeSum ws n with
    | some s => s.fmt.cls == k
    | none => false).length

/-- Step 8: the counts of the header and the limits of R115. -/
def checkCounts (x : LoadCx) (ws : List Word) : Option LoadFault :=
  let w0 := imgWord ws 0
  let irrev := ((List.range (imgSlots ws).length).filter (irrevAt ws)).length
  loadReq (fld w0 47 40 == (imgSlots ws).length && decide (imgConsts ws ≤ 32)
    && fld w0 23 16 == (imgWrites ws).length && decide ((imgWrites ws).length ≤ 16)
    && fld w0 15 8 == irrev && decide (irrev ≤ 4)
    && decide (classCount ws .alu ≤ 32 ∧ classCount ws .fpu ≤ 8 ∧ classCount ws .mem ≤ 12 ∧ classCount ws .eng ≤ 4))
    0xFF x.img

/-! ## Loading (R90, R118) -/

/-- The first target of a list whose block-table entry fails R90 is a defect at its node and address (R108). -/
def checkTargets (d : Device) (core : Nat) : List (Nat × Nat × Nat) → Option LoadFault × Device
  | [] => (none, d)
  | (t, node, a) :: rest =>
    match blockEntry d core t with
    | (.error _, d) => (some ⟨clsConfig, node, a⟩, d)
    | (.ok _, d) => checkTargets d core rest

/-- The targets that the switch frame's bytes name, with the words that hold them. -/
def switchTargets (x : LoadCx) (ws : List Word) : List (Nat × Nat × Nat) :=
  if imgSwf ws = 0 then []
  else (List.range 32).map fun i => (imgSwitch ws i, 0x41, x.img + 8 * (4 * imgSwf ws + i / 8))

/-- T and F where the exit's kind uses them. -/
def exitTargets (x : LoadCx) (ws : List Word) : List (Nat × Nat × Nat) :=
  let w := exFields (imgExit ws)
  match exFmt (imgExit ws / 2 ^ 56) with
  | none => []
  | some f =>
    (if f.t then [(w.t.toNat, 0x40, x.img + 0x10)] else [])
      ++ (if f.f then [(w.f.toNat, 0x40, x.img + 0x10)] else [])

/-- The checks of a fetched image from step 3 on, in their order. -/
def checkImage (d : Device) (core : Nat) (x : LoadCx) (ws : List Word) : Option LoadFault × Device :=
  let pre := firstDefect [loadReq (imgSum ws == fld (imgWord ws 3) 31 0) 0xFF x.img, checkKinds x ws, checkSlots x ws,
    checkConsts x ws]
  match pre with
  | some f => (some f, d)
  | none =>
    match checkTargets d core (switchTargets x ws) with
    | (some f, d) => (some f, d)
    | (none, d) =>
      match firstDefect [checkAgs x ws, checkExit x ws] with
      | some f => (some f, d)
      | none =>
        match checkTargets d core (exitTargets x ws) with
        | (some f, d) => (some f, d)
        | (none, d) => (checkCounts x ws, d)

/-- Fetches and checks the image of a block for a core (R90, R118): its words, or the first defect. -/
def loadImage (d : Device) (core b : Nat) : Except LoadFault (List Word) × Device :=
  match (d.core core).bound with
  | none => (.error ⟨clsConfig, 0xFF, 0⟩, d)
  | some k =>
    match blockEntry d core b with
    | (.error e, d) => (.error ⟨e.1, 0xFF, e.2⟩, d)
    | (.ok img, d) =>
      match engRead d core k.priv img 32 with
      | (.error e, d) => (.error ⟨e.1, 0xFF, e.2⟩, d)
      | (.ok hb, d) =>
        let head := wordsOf 4 hb
        let x : LoadCx := ⟨b, img, k.width, k.strict, d.host.featack, d.host.phase == 2⟩
        match checkHeader x (head.getD 0 0) with
        | some f => (.error f, d)
        | none =>
          let f := fld (head.getD 0 0) 39 32
          match engRead d core k.priv (img + 32) (32 * f) with
          | (.error e, d) => (.error ⟨e.1, 0xFF, e.2⟩, d)
          | (.ok bb, d) =>
            let ws := head ++ wordsOf (4 * f) bb
            match checkImage d core x ws with
            | (some f, d) => (.error f, d)
            | (none, d) => (.ok ws, d)

/-! ## The selector (R157 to R160) -/

/-- The population of a block. -/
def population (c : Core) (b : Nat) : Nat := (waitSet c b).length

/-- The non-empty blocks, ascending. -/
def candidates (c : Core) : List Nat := (List.range 256).filter fun b => decide (0 < population c b)

/-- The block of a list with the largest measure; ties to the lowest. -/
def bestBy (m : Nat → Nat) : List Nat → Option Nat
  | [] => none
  | b :: t =>
    match bestBy m t with
    | none => some b
    | some x => if m b < m x then some x else some b

/-- The block that R160 chooses among candidates. -/
def chooseBlock (c : Core) (cand : List Nat) : Option Nat :=
  let age (b : Nat) : Nat := (c.ages.get b).toNat
  let old := cand.filter fun b => decide (c.regs.agelimit.toNat ≤ age b)
  if old ≠ [] then bestBy age old else bestBy (population c) cand

/-- The ages after a selection of block b (R160). -/
def agesAfter (c : Core) (cand : List Nat) (b : Nat) : Cells 8 :=
  let up := cand.foldl (init := c.ages) fun m x =>
    if x = b then m else m.set x (BitVec.ofNat 8 (min ((c.ages.get x).toNat + 1) 255))
  up.set b 0

/-- May the core select: it is bound, no pass runs, no th.ctl request waits for this boundary, and neither a
pre-emption, a Traverse trap nor the sweep stops the selector (R158, R160, R248, R266, R288)? -/
def maySelect (c : Core) : Bool :=
  c.bound.isSome && c.pass.isNone && c.ctls.isEmpty && c.preempt == .none && c.trap.isNone && c.tapeFail.isNone
    && dmodeState c != 2

/-- The image of a block in a plane. -/
def planeOf (c : Core) (b : Nat) : Option (List Word) :=
  match c.active, c.shadow with
  | some p, some q => if p.block = b then some p.words else if q.block = b then some q.words else none
  | some p, none => if p.block = b then some p.words else none
  | none, some q => if q.block = b then some q.words else none
  | none, none => none

/-- NEED of a selection of n threads of a block (R266). -/
def needOf (ws : List Word) (n : Nat) : Nat :=
  let k := (imgSlots ws).length
  let s := ((List.range k).filter fun i => match nodeSum ws i with
    | some x => x.mu && x.opc == 0x02 && x.space == 0
    | none => false).length
  let w := ((writesBelow ws k).filter fun i => decide (i < 64)).length
  let p := if imgStatus ws < 64 then 1 else 0
  24 + 8 * ceilDiv n 4 + n * (24 * s + 16 * w + 16 * p)

/-- A snapshot's lanes: each thread starts from its DONE and REPLAY (R159, R283). -/
def laneOf (c : Core) (tid : Nat) : Lane :=
  let t := c.threads.getD tid Thread.fresh
  ⟨tid, [], 0, [], [], t.done, t.replay, [], false⟩

/-- A thread that a pre-emption returned enters its block: it takes DONE and REPLAY from its record in memory, as a
resumed thread does, and clears PEND there (R177, R283, R292). -/
def enterPend (d : Device) (core tid : Nat) : Device :=
  if !(threadOf d core tid).pend then d
  else
    let r := resumeFrom d core tid 0
    let a := recordAddr d core tid + 16
    let d := match engReadWord d core true a with
      | (.ok w, d) => (ownWrite d core a (toBytes 8 (setFld w 19 19 0).toNat)).2
      | (.error _, d) => d
    modThread d core tid fun t => { t with done := r.2.1, replay := r.2.2, pend := false }

/-- Does a block stay in a plane as a pass starts? An image that is loaded for the pass, and was not begun in the shadow
plane, overwrites the active plane (R163; log 50). -/
def staysPlaced (c : Core) (b : Nat) : Bool :=
  let fresh := c.pass.any fun p => p.loading && !p.shadowed
  c.shadow.any (·.block == b) || (!fresh && c.active.any (·.block == b))

/-- The block whose image is to be loaded into the shadow plane as a pass starts: R160's choice without the running
block, unless it stays in a plane or it is known to be defective (R120, R163). -/
def predictBlock (c : Core) (running : Nat) : Option Nat :=
  (chooseBlock c ((candidates c).filter (· != running))).filter fun b =>
    !staysPlaced c b && (c.defects.find b).isNone

/-- The planes as a pass of block b starts (R163): they swap where the shadow plane holds the block, and a prediction
begins to fill the shadow plane. A load of block b that was begun there is finished there; an unfinished load of another
block is given up, where R163 is silent, and the plane that it was filling is left empty (DESIGN CHOICE, log 50). -/
def startPlanes (c : Core) (b : Nat) : Core :=
  let hit := (planeOf c b).isSome
  let swap := match c.active with
    | some p => hit && p.block != b
    | none => hit
  let c := { c with
    active := if swap then c.shadow else c.active
    shadow := if swap then c.active else c.shadow
    pass := c.pass.map fun p => { p with loading := !hit, shadowed := !hit && c.predicted == some b } }
  let next := predictBlock c b
  { c with predicted := next, shadow := if next.isSome then none else c.shadow }

/-- The selection of block b by a core (R158, R160, R163). -/
def selectBlock (d : Device) (core b : Nat) : Device :=
  let d := (waitSet (d.core core) b).foldl (fun d t => enterPend d core t) d
  d.modCore core fun c =>
    let tids := waitSet c b
    startPlanes
      { c with
        ages := agesAfter c (candidates c) b
        passes := c.passes + 1
        threads := tids.foldl (fun ts t => updAt ts t fun x => { x with status := .streaming }) c.threads
        pass := some ⟨b, c.passes, tids.map (laneOf c), 0, true, false, false, 0, []⟩ } b

/-- PASS_SELECT for a core; while recording, room for the pass's records is found first (R266). -/
def passSelect (d : Device) (core : Nat) : Device :=
  let d := if (d.core core).threads.any (·.haltReq) then settle (applyHalts d core) core else d
  let c := d.core core
  if !maySelect c then d
  else
    match chooseBlock c (candidates c) with
    | none => d
    | some b =>
      if dmodeState c ≠ 1 then selectBlock d core b
      else
        let r : Option (List Word) × Device := match planeOf c b with
          | some ws => (some ws, d)
          | none => if (c.defects.find b).isSome then (none, d) else
            match loadImage d core b with
            | (.ok ws, d) => (some ws, d)
            | (.error _, d) => (none, d)
        let need := match r.1 with
          | some ws => needOf ws (population c b)
          | none => 0
        let head := c.regs.tapehead.toNat
        if c.regs.tapelimit.toNat < head + need then settle (takeTrap r.2 core ⟨1, head, need, []⟩) core
        else selectBlock r.2 core b

/-- PASS_SELECT (R158, R160). -/
def execPassSelect (core : Nat) (s : State) : Host.Outcome State Fault Refusal :=
  onDevice s fun d => passSelect d core

/-- SHADOW_PREDICT for a core (R163): the load of the block that was predicted as the pass started is complete; a
failure has no effect (R120). While the pass's own image is being loaded, it goes on. -/
def shadowPredict (d : Device) (core : Nat) : Device :=
  let c := d.core core
  match c.predicted with
  | none => d
  | some b =>
    if (c.pass.map (·.loading)).getD false then d
    else
      let r := loadImage d core b
      r.2.modCore core fun c =>
        { c with
          predicted := none
          shadow := match r.1 with
            | .ok ws => some ⟨b, ws⟩
            | .error _ => c.shadow }

/-- SHADOW_PREDICT (R163). -/
def execShadowPredict (core : Nat) (s : State) : Host.Outcome State Fault Refusal :=
  onDevice s fun d => shadowPredict d core

/-! ## IMAGE_LOAD (R118 to R120) -/

/-- A pass whose image fails to load faults the threads of its snapshot and ends (R119). -/
def imageFail (d : Device) (core : Nat) (p : Pass) (f : LoadFault) : Device :=
  let d := p.lanes.foldl (init := d) fun d l =>
    takeFault d core l.tid false
      { passNum := p.num, node := f.node, block := p.block, code := f.cls, addr := addrWord f.addr, pend := false
        held := false, rev := false, exc := 0, done := l.done, replay := l.replay }
  endPass d core

/-- IMAGE_LOAD for a core whose pass waits for its image (R118, R119, R120). A load that was begun in the shadow plane is
finished there, and the planes swap; any other overwrites the active plane, where R163 does not say which plane takes it
(DESIGN CHOICE, log 50). -/
def imageLoad (d : Device) (core : Nat) : Device :=
  let c := d.core core
  match c.pass with
  | none => d
  | some p =>
    if !p.loading then d
    else
      match c.defects.find p.block with
      | some k => imageFail d core p ⟨clsConfig, k.1, k.2⟩
      | none =>
        match loadImage d core p.block with
        | (.ok ws, d) =>
          d.modCore core fun c =>
            { c with
              active := some ⟨p.block, ws⟩
              shadow := if p.shadowed then c.active else c.shadow
              pass := c.pass.map fun p => { p with loading := false } }
        | (.error f, d) =>
          let d := if f.cls = clsConfig then
              d.modCore core fun c => { c with defects := c.defects.put p.block (f.node, f.addr) }
            else d
          imageFail d core p f

/-- IMAGE_LOAD (R118). -/
def execImageLoad (core : Nat) (s : State) : Host.Outcome State Fault Refusal :=
  onDevice s fun d => imageLoad d core

end Sys2Proof.Machine
end

