-- ==== Sys2Proof/Machine/Faults.lean ====
section
/-! DEFINITION. Held accesses, walks and fault reports: TRANSLATION_WALK_COMPLETE, HELD_ACCESS_RETRY,
HELD_ACCESS_TIMEOUT and FAULT_REPORT (02_memory_model: R44, R45; 12_core_faults: R282, R285 to R287;
25_host_system: R482, R483). -/

namespace Sys2Proof.Machine

/-! ## Walks and held accesses -/

/-- A walk for the stream of a core's MEM slot ends: where it finds a leaf, the core's translation cache and the slot's
entry are refilled (R45). -/
def refill (d : Device) (core va node : Nat) : Device :=
  let c := d.core core
  match c.bound with
  | none => d
  | some _ => keepWalk d core (.node node) c.regs.xlroot.toNat c.regs.xlasid.toNat va (walk d c.regs.xlroot.toNat va)

/-- The walks in flight of a core for the page of an address end, whatever they find; without one nothing happens. -/
def walkComplete (d : Device) (core va : Nat) : Device :=
  let ends (w : Walk) : Bool := w.core == core && w.page == va / 4096
  let ws := (d.cluster (clusterOf core)).walks.filter ends
  let d := d.modCluster (clusterOf core) fun c => { c with walks := c.walks.filter fun w => !ends w }
  ws.foldl (fun d w => refill d core va w.node) d

/-- TRANSLATION_WALK_COMPLETE (R45): the access that waits for the walk goes on when its node fires. -/
def execTranslationWalkComplete (core va : Nat) (s : State) : Host.Outcome State Fault Refusal :=
  onDevice s fun d => walkComplete d core va

/-- A translation of a MEM slot's stream begins a walk in flight, where the slot's lane may walk, no walk for its page
is in flight, the core caches no entry for it, and the cluster's walker has fewer than 64 in flight (R45). Which access
misses first is free: a turn names it. -/
def startWalk (d : Device) (core node va : Nat) : Device :=
  let c := d.core core
  let ws := (d.cluster (clusterOf core)).walks
  let cached := (c.cache.xl.any fun x => x.covers c.regs.xlroot.toNat c.regs.xlasid.toNat va)
    || ((c.cache.slots.find node).any fun x => x.covers c.regs.xlroot.toNat c.regs.xlasid.toNat va)
  if c.bound.isNone || c.pass.isNone || cached || walkPending d core node va || decide (64 ≤ ws.length) then d
  else d.modCluster (clusterOf core) fun k => { k with walks := k.walks ++ [⟨core, node, va / 4096⟩] }

/-- A lane of a core's pass. -/
def laneAt (d : Device) (core lane : Nat) : Option Lane := (d.core core).pass.bind fun p => p.lanes[lane]?

/-- An access that a wrsr SYS_XLINV has woken retries its walk once: where the walk succeeds, its node may fire and
perform the access; where it fails, the access is held again (R286). -/
def retryNode (d : Device) (core lane node : Nat) (h : Held) : Device :=
  match walk d (d.core core).regs.xlroot.toNat h.va with
  | some _ => refill d core h.va node
  | none => modLane d core lane fun l => { l with held := l.held.put node { h with woken := false } }

/-- The accesses of a lane that are held and woken retry their walks. -/
def heldRetry (d : Device) (core lane : Nat) : Device :=
  match laneAt d core lane with
  | none => d
  | some l => (l.held.filter fun x => x.2.woken).foldl (fun d x => retryNode d core lane x.1 x.2) d

/-- HELD_ACCESS_RETRY (R286). -/
def execHeldAccessRetry (core lane : Nat) (s : State) : Host.Outcome State Fault Refusal :=
  onDevice s fun d => heldRetry d core lane

/-- The held accesses of a lane for which f holds become poison of class TRANSLATION (R286); pend marks a pre-emption
(R292). -/
def holdToPoison (block : Nat) (pend : Bool) (f : Held → Bool) (l : Lane) : Lane :=
  (l.held.filter fun x => f x.2).foldl (init := l) fun l x =>
    { l.emit x.1 (.poison ⟨block, x.1, clsTranslation, addrWord x.2.va, 0⟩) with pend := l.pend || pend }

/-- CLOCKS have passed since the first hold. -/
def heldTimeout (d : Device) (now core lane : Nat) : Device :=
  match (d.core core).pass with
  | none => d
  | some p =>
    modLane d core lane (holdToPoison p.block false fun h =>
      decide (h.since + (d.core core).regs.xltimeout.toNat ≤ now))

/-- HELD_ACCESS_TIMEOUT (R286). -/
def execHeldAccessTimeout (core lane : Nat) (s : State) : Host.Outcome State Fault Refusal :=
  onDevice s fun d => heldTimeout d s.clock core lane

/-! ## Reports (R287) -/

/-- An entry of the fault list: its kind and thread. -/
structure FaultEnt where
  kind : Nat
  tid : Nat
  deriving DecidableEq, Repr, Inhabited

/-- The word of an entry. -/
def FaultEnt.word (e : FaultEnt) (core : Nat) : Word :=
  BitVec.ofNat 64 (e.kind * 2 ^ 62 + coreCode core * 2 ^ 16 + e.tid)

/-- The held accesses that are not reported: one entry each, of kind 3 where the record could not be written. -/
def heldEntries (c : Core) : List FaultEnt :=
  match c.pass with
  | none => []
  | some p => p.lanes.flatMap fun l => (l.held.filter fun x => !x.2.reported).map fun _ =>
      ⟨if (c.threads.getD l.tid Thread.fresh).recFailed then 3 else 1, l.tid⟩

/-- Is a thread FAULTED or HALTED? -/
def isStopped (t : Thread) : Bool :=
  match t.status with
  | .faulted _ => true
  | .halted _ => true
  | _ => false

/-- Is a thread one that a report at a boundary names: stopped and not reported, or RETIRED and poisoned in a reverse
replay (R274)? -/
def mustReport (t : Thread) : Bool := !t.reported && (isStopped t || (t.status == .retired && t.revFault))

/-- The entries of a pass boundary: a Traverse trap, and the threads, once the core has nothing to select (R287). -/
def boundaryEntries (c : Core) : List FaultEnt :=
  if c.pass.isSome then []
  else
    let idle := !(c.threads.any isLive) || (candidates c).isEmpty
    let trap := if c.trap.isSome && !c.trapReported then [⟨2, 0⟩] else []
    let tids := tidsWhere c fun t =>
      mustReport t && (idle || t.status == .retired)
    trap ++ tids.map fun i => ⟨if (c.threads.getD i Thread.fresh).recFailed then 3 else 0, i⟩

/-- Appends entries from number e on: those written, the address of the first failure, and the device. -/
def appendEntries (d : Device) (core list : Nat) : (e : Nat) → List FaultEnt →
    List FaultEnt × Option Nat × Device
  | _, [] => ([], none, d)
  | e, x :: t =>
    match ownWrite d core (list + 8 + 8 * (e % 4096)) (toBytes 8 (x.word core).toNat) with
    | (.ok _, d) =>
      let r := appendEntries d core list (e + 1) t
      (x :: r.1, r.2.1, r.2.2)
    | (.error f, d) =>
      let r := appendEntries d core list e t
      (r.1, some f.2, r.2.2)

/-- May the rmw.add at word 0 of a list be performed: the class it fails with on a page that maps host memory (R40)? -/
def listCounts (d : Device) (core list : Nat) : Except (Nat × Nat) Unit × Device :=
  match access d core list true true with
  | (.error c, d) => (.error (c, list), d)
  | (.ok x, d) => (if x.host then .error (clsPermission, list) else .ok (), d)

/-- Appends entries and increments word 0 of the list: the entries that stand, and the failing address, if any. -/
def writeList (d : Device) (core list : Nat) (es : List FaultEnt) : List FaultEnt × Option Nat × Device :=
  match engReadWord d core true list with
  | (.error f, d) => ([], some f.2, d)
  | (.ok n, d) =>
    let r := appendEntries d core list n.toNat es
    if r.1 = [] then r
    else match listCounts r.2.2 core list with
      | (.error f, d) => ([], some f.2, d)
      | (.ok _, d) => match ownWrite d core list (toBytes 8 (n.toNat + r.1.length)) with
        | (.ok _, d) => (r.1, r.2.1, d)
        | (.error f, d) => ([], some f.2, d)

/-- Marks what has been reported. -/
def markReported (d : Device) (core : Nat) (es : List FaultEnt) : Device :=
  d.modCore core fun c =>
    let names (i : Nat) : Bool := es.any fun e => e.kind != 2 && e.tid == i
    let mark (l : Lane) : Lane :=
      if names l.tid then { l with held := l.held.map fun x => (x.1, { x.2 with reported := true }) } else l
    let seen (i : Nat) (t : Thread) : Thread :=
      if names i && !isLive t then { t with reported := true } else t
    { c with
      trapReported := c.trapReported || es.any fun e => e.kind == 2
      pass := c.pass.map fun p => { p with lanes := p.lanes.map mark }
      threads := ((List.range c.threads.length).zip c.threads).map fun x => seen x.1 x.2 }

/-- Arms the launch's handler record on a core of the same cluster; one that is armed or busy already is armed again once
it completes (R287; DEDUCED, log 18). -/
def armHandler (d : Device) (now core i : Nat) : Device :=
  let set (d : Device) (h : Handling) : Device := d.modCore core fun c => { c with handling := h }
  match (d.core core).handling with
  | .armed => set d .again
  | .again | .busy => d
  | .none | .done =>
    match armRecord (set d .armed) now i (some (clusterOf core)) with
    | (0, d) => d
    | (1, _) => set d .busy
    | _ => d

/-- FAULT_REPORT for a core: held accesses at any time, everything else at a pass boundary. -/
def faultReport (d : Device) (now core : Nat) : Device :=
  let c := d.core core
  let es := heldEntries c ++ boundaryEntries c
  match c.bound with
  | none => d
  | some b =>
    if es = [] then d
    else
      let r := writeList d core (b.flist + 32776 * b.cidx) es
      let d := markReported r.2.2 core es
      let d := match r.2.1 with
        | none => d
        | some a =>
          let (v, d) := d.draw
          raiseVector (machineCheck d now 7 (v % 3) core (addrWord a) 0) 0
      match b.handler with
      | none => if r.1 = [] then d else raiseVector d 0
      | some h =>
        let d := if r.1.any fun e => e.kind == 3 then raiseVector d 0 else d
        if r.1.any fun e => e.kind != 3 then armHandler d now core h else d

/-- FAULT_REPORT (R287). -/
def execFaultReport (core : Nat) (s : State) : Host.Outcome State Fault Refusal :=
  onDevice s fun d => faultReport d s.clock core

end Sys2Proof.Machine
end

