-- ==== Sys2Proof/Machine/Kv.lean ====
section
/-! DEFINITION. The paged key-value cache: sequence descriptors, Lookup, gathers, and the table unit with attn.plan,
kv.map, kv.fork and kv.trunc (19_meridian: R375, R384, R390 to R397). -/

namespace Sys2Proof.Machine

/-! ## Steps that may fail -/

/-- What a step comes to: a value, or the code and the address that failed, with the device. -/
abbrev Got (α : Type) := Except (Nat × Nat) α × Device

/-- Goes on with a value, or ends with the failure. -/
def Got.andThen {α β : Type} (r : Got α) (k : α → Device → Got β) : Got β :=
  match r.1 with
  | .error e => (.error e, r.2)
  | .ok a => k a r.2

/-- Ends with a code unless a condition holds. -/
def orFail (ok : Bool) (code addr : Nat) (d : Device) (k : Device → Got α) : Got α :=
  if ok then k d else (.error (code, addr), d)

/-- A step for each element of a list, in order. -/
def forEach {α β : Type} (f : α → Device → Got β) : List α → Device → Got (List β)
  | [], d => (.ok [], d)
  | x :: xs, d => (f x d).andThen fun y d => (forEach f xs d).andThen fun ys d => (.ok (y :: ys), d)

/-! ## Sequence descriptors (R390) -/

/-- A sequence descriptor. -/
structure Seq where
  addr : Nat
  parent : Nat
  len : Nat
  depth : Nat
  log : Nat
  policy : Nat
  waitus : Nat
  base : Nat
  w3 : Word
  ovl : Nat
  cap : Nat
  count : Nat
  forklen : Nat
  pool : Nat
  deriving DecidableEq, Repr, Inhabited

/-- NLAYER -/
def Seq.nlayer (s : Seq) : Nat := fld s.w3 63 48
/-- NKVH -/
def Seq.nkvh (s : Seq) : Nat := fld s.w3 47 40
/-- HD -/
def Seq.hd (s : Seq) : Nat := 8 * fld s.w3 39 32
/-- es -/
def Seq.es (s : Seq) : Nat := if fld s.w3 31 28 = 4 then 4 else 2
/-- NPAGE -/
def Seq.npage (s : Seq) : Nat := fld s.w3 23 0
/-- P, the positions of a page. -/
def Seq.perPage (s : Seq) : Nat := 2 ^ s.log

/-- The descriptor that eight words at an address hold. -/
def seqOf (a : Nat) (ws : List Word) : Seq :=
  let g (k hi lo : Nat) : Nat := fld (ws.getD k 0) hi lo
  { addr := a, parent := g 0 55 0, len := g 1 63 32, depth := g 1 31 28, log := g 1 27 24, policy := g 1 23 22
    waitus := g 1 17 0, base := g 2 55 0, w3 := ws.getD 3 0, ovl := g 4 55 0, cap := g 5 63 32, count := g 5 31 0
    forklen := g 6 63 32, pool := g 7 55 0 }

/-- Is a descriptor free of defects? -/
def seqOk (ws : List Word) : Bool :=
  let g (k hi lo : Nat) : Nat := fld (ws.getD k 0) hi lo
  let s := seqOf 0 ws
  g 0 63 56 == 0 && g 1 21 18 == 0 && s.policy != 3 && g 2 63 56 == 0 && g 3 27 24 == 0 && g 4 63 56 == 0
    && g 6 31 0 == 0 && g 7 63 56 == 0 && decide (s.depth ≤ 4 ∧ s.log ≤ 8) && s.nlayer != 0 && s.nkvh != 0
    && decide (1 ≤ g 3 39 32 ∧ g 3 39 32 ≤ 32) && (g 3 31 28 == 4 || g 3 31 28 == 6)
    && (if s.depth = 0 then s.npage != 0 && s.base % 8 == 0 && s.parent == 0
        else s.ovl % 16 == 0 && decide (s.count ≤ s.cap) && s.base == 0)

/-- How a unit reads global memory: n bytes from an address on, at the home slice. -/
abbrev Reader := Nat → Nat → Device → Got (List Byte)

/-- A core's engine reads in the core's address space. -/
def coreRd (core : Nat) : Reader := fun a n d => engRead d core (privOf d core) a n

/-- A unit that belongs to no core reads in the address space of a root. -/
def rootRd (root : Nat) (priv : Bool) : Reader := fun a n d => (rootRead d root priv a n, d)

/-- The descriptor at an address, read at the home slice. -/
def seqAt (d : Device) (rd : Reader) (a : Word) : Got Seq :=
  orFail (spOf a == 0 && resOk a && adOf a % 64 == 0) cDescriptor (adOf a) d fun d =>
    Got.andThen (rd (adOf a) 64 d) fun bs d =>
      if seqOk (wordsOf 8 bs) then (.ok (seqOf (adOf a) (wordsOf 8 bs)), d) else (.error (cDescriptor, adOf a), d)

/-- A word of global memory as the unit reads it. -/
def kvWord (d : Device) (rd : Reader) (a : Nat) : Got Word :=
  Got.andThen (rd a 8 d) fun bs d => (.ok (BitVec.ofNat 64 (ofBytes bs)), d)

/-- Is a range of global memory mapped and writable? Writes nothing (DESIGN CHOICE, log 53). -/
def kvReach (d : Device) (core a n : Nat) : Got Unit :=
  match vplan d core (privOf d core) (n / 4096 + 2) a n with
  | (.error e, d) => (.error e, d)
  | (.ok _, d) => (.ok (), d)

/-- Writes bytes of global memory, all or none (DESIGN CHOICE, log 53). -/
def kvWrite (d : Device) (core a : Nat) (bs : List Byte) : Got Unit := engWriteV d core (privOf d core) a bs

/-- Writes a word of global memory. -/
def kvPut (d : Device) (core a : Nat) (v : Word) : Got Unit := kvWrite d core a (toBytes 8 v.toNat)

/-! ## Overlays and Lookup (R390 to R392) -/

/-- The key of a layer and page index in an overlay. -/
def ovlKey (layer g : Nat) : Nat := layer * 2 ^ 32 + g

/-- Are an overlay's keys free of reserved bits and strictly ascending? -/
def keysOk : Option Nat → List Nat → Bool
  | _, [] => true
  | last, k :: ks =>
    k / 2 ^ 48 == 0 && k / 2 ^ 24 % 256 == 0 && (match last with
      | some p => decide (p < k)
      | none => true) && keysOk (some k) ks

/-- The keys and entries of an overlay. -/
def overlay (d : Device) (rd : Reader) (s : Seq) : Got (List (Nat × Word)) :=
  Got.andThen (rd s.ovl (16 * s.count) d) fun bs d =>
    let ws := wordsOf (2 * s.count) bs
    let es := (List.range s.count).map fun i => ((ws.getD (2 * i) 0).toNat, ws.getD (2 * i + 1) 0)
    if keysOk none (es.map (·.1)) then (.ok es, d) else (.error (cDescriptor, s.ovl), d)

/-- The entry of a key, 0 where the overlay has none. -/
def ovlEntry (es : List (Nat × Word)) (key : Nat) : Word := ((es.find? fun e => e.1 == key).map (·.2)).getD 0

/-- The address of a root's entry in BASE. -/
def Seq.slotAt (s : Seq) (layer g : Nat) : Nat := s.base + 8 * (layer * s.npage + g)

/-- Resolve (R392): the entry found and the sequence whose table holds it; none where the chain gives none. -/
def resolve (rd : Reader) (layer pos : Nat) : (fuel : Nat) → Seq → Device → Got (Option (Word × Seq))
  | 0, _, d => (.ok none, d)
  | fuel + 1, s, d =>
    let g := pos / s.perPage
    if s.depth = 0 then
      if s.npage ≤ g then (.ok none, d)
      else Got.andThen (kvWord d rd (s.slotAt layer g)) fun e d => (.ok (some (e, s)), d)
    else Got.andThen (overlay d rd s) fun es d =>
      let e := ovlEntry es (ovlKey layer g)
      if e ≠ 0 ∨ s.forklen ≤ pos then (.ok (some (e, s)), d)
      else Got.andThen (seqAt d rd (addrWord s.parent)) fun p d =>
        if p.depth + 1 ≠ s.depth ∨ p.log ≠ s.log ∨ p.w3 ≠ s.w3 then (.ok none, d)
        else resolve rd layer pos fuel p d

/-- Does an entry have a reserved bit set (R391)? -/
def entryReserved (e : Word) : Bool := fld e 61 56 != 0 || fld e 5 0 != 0

/-- The page address of an entry. -/
def pageOf (e : Word) : Nat := fld e 55 6 * 64

/-- Lookup (R392): the page entry; a failed lookup is KV with the position. A defect of a descriptor or of an overlay
is DESCRIPTOR, as it ends a command (R390). -/
def lookup (d : Device) (rd : Reader) (seq : Word) (layer pos : Nat) : Got Word :=
  Got.andThen (seqAt d rd seq) fun s d =>
    orFail (decide (pos < s.len ∧ layer < s.nlayer)) cKv pos d fun d =>
      Got.andThen (resolve rd layer pos 5 s d) fun r d =>
        match r with
        | none => (.error (cKv, pos), d)
        | some (e, _) => if adOf e = 0 ∨ entryReserved e then (.error (cKv, pos), d) else (.ok e, d)

/-- A lookup for a kvx or a gather: what is a defect to a command is KV to it (R390). -/
def kvLookup (d : Device) (rd : Reader) (seq : Word) (layer pos : Nat) : Got Word :=
  match lookup d rd seq layer pos with
  | (.error (c, a), d) => (.error (if c = cDescriptor then (cKv, pos) else (c, a)), d)
  | r => r

/-! ## Pages (R391) -/

/-- KO of a page. -/
def Seq.ko (s : Seq) : Nat := 64 * ceilDiv (64 + 16 * s.perPage) 64

/-- The bytes of the K rows of a page. -/
def Seq.kBytes (s : Seq) : Nat := s.nkvh * s.perPage * s.hd * s.es

/-- The offset of the K row of a head and slot; the V row lies kBytes further on. -/
def Seq.kRow (s : Seq) (h q : Nat) : Nat := s.ko + (h * s.perPage + q) * s.hd * s.es

/-- The address of the state word of a slot. -/
def slotState (page q : Nat) : Nat := page + 64 + 16 * q

/-! ## Gathers (R384) -/

/-- The fields of an mgat. -/
structure Gather where
  entry : Word
  seq : Word
  str : Nat
  h : Nat
  c : Nat
  s0 : Nat
  dst : Nat
  deriving DecidableEq, Repr, Inhabited

/-- The gather that a page entry, a sequence address and IMM60 describe. -/
def gatherOf (entry seq imm : Word) : Gather :=
  ⟨entry, seq, fld imm 52 45, fld imm 44 37, fld imm 36 29 + 1, fld imm 28 21, fld imm 20 0⟩

/-- The bytes of a gather's destination. -/
def Gather.size (g : Gather) (s : Seq) : Nat := 64 + (g.c + s.hd) * (64 * g.str)

/-- The microword's own check of its operands: the sequence, or what the job stops with. -/
def gatherCheck (d : Device) (core : Nat) (g : Gather) : Got Seq :=
  Got.andThen (seqAt d (coreRd core) g.seq) fun s d =>
    orFail (!bit g.entry 62 && g.str != 0 && decide (g.h < s.nkvh ∧ g.s0 + g.c ≤ s.perPage) && g.dst % 64 == 0
        && decide (s.hd * s.es ≤ 64 * g.str ∧ g.c * s.es ≤ 64 * g.str)) cDescriptor (adOf g.entry) d fun d =>
      orFail (decide (g.dst + g.size s ≤ scratchSize)) clsBounds g.dst d fun d => (.ok s, d)

/-- What a gather does for a position. -/
inductive Use where
  /-- its payload lies in a page at a slot -/
  | src (page slot : Nat)
  /-- it is skipped and counted -/
  | skip
  /-- it lies beyond LEN -/
  | none
  /-- under WAIT, its state word may still change -/
  | wait
  deriving DecidableEq, Repr, Inhabited

/-- PROXY: the page of the position's exit layer, where that holds it and it is VALID there. -/
def proxyUse (d : Device) (core : Nat) (g : Gather) (s : Seq) (page layer q pos : Nat) : Got Use :=
  Got.andThen (kvWord d (coreRd core) (slotState page q + 8)) fun x d =>
    let x := fld x 15 0
    if layer ≤ x then (.ok .skip, d)
    else match kvLookup d (coreRd core) g.seq x pos with
      | (.error (c, a), d) => if c = cKv then (.ok .skip, d) else (.error (c, a), d)
      | (.ok e, d) =>
        Got.andThen (kvWord d (coreRd core) (pageOf e + 16)) fun f d =>
          if pos < f.toNat ∨ f.toNat + s.perPage ≤ pos then (.ok .skip, d)
          else Got.andThen (kvWord d (coreRd core) (slotState (pageOf e) (pos - f.toNat))) fun w d =>
            (.ok (if w = 2 then .src (pageOf e) (pos - f.toNat) else .skip), d)

/-- What becomes of a slot of the page; waits says that its WAIT has not run out. -/
def slotUse (core : Nat) (g : Gather) (s : Seq) (page layer first : Nat) (waits : Bool) (q : Nat) (d : Device) :
    Got Use :=
  let pos := (first + q) % 2 ^ 64
  if s.len ≤ pos then (.ok .none, d)
  else Got.andThen (kvWord d (coreRd core) (slotState page q)) fun w d =>
    if w = 2 then (.ok (.src page q), d)
    else if w = 0 ∨ w = 1 then
      (match s.policy with
       | 0 => (.ok (if waits then .wait else .skip), d)
       | 2 => proxyUse d core g s page layer q pos
       | _ => (.ok .skip, d))
    else (.ok .skip, d)

/-- The K row and the V elements of a position. -/
def usePayload (core : Nat) (g : Gather) (s : Seq) (u : Use) (d : Device) : Got (List Byte × List Byte) :=
  match u with
  | .src page q =>
    Got.andThen (engRead d core (privOf d core) (page + s.kRow g.h q) (s.hd * s.es)) fun k d =>
      Got.andThen (engRead d core (privOf d core) (page + s.kRow g.h q + s.kBytes) (s.hd * s.es)) fun v d =>
        (.ok (k, v), d)
  | _ => (.ok (List.replicate (s.hd * s.es) 0, List.replicate (s.hd * s.es) 0), d)

/-- Is a position's payload used? -/
def Use.taken : Use → Bool
  | .src _ _ => true
  | _ => false

/-- Bytes filled up with zeros. -/
def padTo (n : Nat) (bs : List Byte) : List Byte := bs ++ List.replicate (n - bs.length) 0

/-- What a gather writes, by offset from its destination: the mask, and from 64 on the K rows and the V rows, a position
to a column. -/
def gatherBytes (g : Gather) (s : Seq) (rows : List GatherRow) : List (Nat × List Byte) :=
  let mask := rows.zipIdx.foldl (fun m x => if x.1.used then m + 2 ^ x.2 else m) 0
  [(0, toBytes 32 mask),
   (64, rows.flatMap (fun r => padTo (64 * g.str) r.k)
      ++ (List.range s.hd).flatMap fun e => padTo (64 * g.str) (rows.flatMap fun r => (r.v.drop (e * s.es)).take s.es))]

/-- How many positions of a gather have been skipped. -/
def skipCount (rows : List GatherRow) : Nat := (rows.filter (·.skip)).length

/-- The positions of a gather that are still to be taken up, in order, from the tag's rows on: each reads its state word,
waits under WAIT for at most WAITUS µs from its first reading, and reads its payload once its word has been seen VALID
(R384). The rows so far, and the clock from which a position waits, none at the end. -/
def gatherRows (now core : Nat) (g : Gather) (s : Seq) (first layer : Nat) :
    (todo : Nat) → List GatherRow → Option Nat → Device → Got (List GatherRow × Option Nat)
  | 0, rows, _, d => (.ok (rows, none), d)
  | todo + 1, rows, wait, d =>
    let from_ := wait.getD now
    let waits := decide (now < from_ + 1750 * s.waitus)
    Got.andThen (slotUse core g s (pageOf g.entry) layer first waits (g.s0 + rows.length) d) fun u d =>
      if u = .wait then (.ok (rows, some from_), d)
      else Got.andThen (usePayload core g s u d) fun p d =>
        gatherRows now core g s first layer todo (rows ++ [⟨u.taken, u == .skip, p.1, p.2⟩]) none d

/-- A gather goes on: its sequence, its rows, and the clock from which a position waits, none once it has taken up every
one; or the failure. -/
def gather (d : Device) (now core : Nat) (rows : List GatherRow) (wait : Option Nat) (g : Gather) :
    Got (Seq × List GatherRow × Option Nat) :=
  Got.andThen (gatherCheck d core g) fun s d =>
    let page := pageOf g.entry
    Got.andThen (kvWord d (coreRd core) (page + 16)) fun first d =>
      Got.andThen (kvWord d (coreRd core) (page + 8)) fun layer d =>
        Got.andThen (gatherRows now core g s first.toNat (fld layer 15 0) (g.c - rows.length) rows wait d) fun r d =>
          (.ok (s, r), d)

/-- The extent of a gather's destination, where its sequence can still be read; else what is certain of it. -/
def gatherExtent (d : Device) (core : Nat) (g : Gather) : Nat :=
  match (gatherCheck d core g).1 with
  | .ok s => g.size s
  | .error _ => 64 + g.c * (64 * g.str)

/-! ## attn.plan (R397) -/

/-- A segment: the sequence, its first page, its page count and its holder. -/
structure Seg where
  b : Nat
  first : Nat
  pages : Nat
  holder : Nat
  deriving DecidableEq, Repr, Inhabited

/-- The segments of a batch for C holders, from the sequences' page counts, in emission order. -/
def planSegs (ns : List Nat) (c : Nat) : List Seg :=
  let base (b : Nat) : Nat := (ns.take b).foldl (· + ·) 0
  let t := base ns.length
  (List.range c).flatMap fun i =>
    let lo := i * t / c
    let hi := (i + 1) * t / c
    (List.range ns.length).filterMap fun b =>
      let a := max lo (base b)
      let z := min hi (base b + ns.getD b 0)
      if a < z then some ⟨b, a - base b, z - a, i⟩ else none

/-- The 32 bytes of the k-th segment. -/
def segBytes (seqs : List Seq) (segs : List Seg) (k : Nat) : List Byte :=
  let s := segs.getD k default
  let q := seqs.getD s.b default
  let own := segs.filter (·.b == s.b)
  let g := ((segs.take k).filter (·.b == s.b)).length
  let first := s.first * q.perPage
  let count := min q.len ((s.first + s.pages) * q.perPage) - first
  bytesOfWords [
    BitVec.ofNat 64 (own.length % 2 ^ 16 * 2 ^ 48 + g % 2 ^ 16 * 2 ^ 32 + s.b),
    BitVec.ofNat 64 (s.pages * 2 ^ 32 + s.first),
    BitVec.ofNat 64 (count * 2 ^ 32 + first),
    BitVec.ofNat 64 ((own.headD default).holder * 2 ^ 16 + s.holder)]

/-- The table of a plan: each core's segment count and first segment. -/
def planTable (segs : List Seg) (c : Nat) : List Byte :=
  let entry (i : Nat) : Word :=
    BitVec.ofNat 64 ((segs.filter fun s => s.holder == i).length * 2 ^ 32
      + (segs.filter fun s => decide (s.holder < i)).length)
  bytesOfWords ((List.range c).map entry)

/-- Where the segments of a plan begin. -/
def planOff (c : Nat) : Nat := 64 * ceilDiv (8 * c) 64

/-- The bytes that a plan comes to. -/
def planSize (segs : List Seg) (c : Nat) : Nat := if segs = [] then 8 * c else planOff c + 32 * segs.length

/-- attn.plan: both parts of a plan are reached before either is written (DESIGN CHOICE, log 53). -/
def attnPlan (d : Device) (core : Nat) (w : List Word) : Got Unit :=
  let g (k : Nat) : Word := w.getD k 0
  let b := fld (g 2) 31 0
  let c := fld (g 2) 47 32
  let glob (a : Word) : Bool := spOf a == 0 && resOk a
  orFail (fld (g 0) 63 8 == 0 && glob (g 1) && decide (1 ≤ b ∧ b ≤ 2 ^ 20 ∧ 1 ≤ c ∧ c ≤ 4096) && fld (g 2) 63 48 == 0
      && glob (g 3) && adOf (g 3) % 64 == 0 && fld (g 4) 63 32 == 0 && g 5 == 0) cDescriptor 0 d fun d =>
    Got.andThen (engRead d core (privOf d core) (adOf (g 1)) (8 * b)) fun bs d =>
      Got.andThen (forEach (fun a d => seqAt d (coreRd core) a) (wordsOf b bs) d) fun seqs d =>
        let segs := planSegs (seqs.map fun s => ceilDiv s.len s.perPage) c
        orFail (decide (planSize segs c ≤ fld (g 4) 31 0)) clsBounds 0 d fun d =>
          Got.andThen (kvReach d core (adOf (g 3)) (8 * c)) fun _ d =>
            Got.andThen (kvReach d core (adOf (g 3) + planOff c) (32 * segs.length)) fun _ d =>
              Got.andThen (kvWrite d core (adOf (g 3)) (planTable segs c)) fun _ d =>
                kvWrite d core (adOf (g 3) + planOff c) ((List.range segs.length).flatMap (segBytes seqs segs))

/-! ## kv.map (R393, R394) -/

/-- The header and position headers of a page that is mapped. -/
def freshPage (s : Seq) (layer g : Nat) : List Byte :=
  bytesOfWords ([1, BitVec.ofNat 64 layer, BitVec.ofNat 64 (g * s.perPage), 0, 0, 0, 0, 0]
    ++ (List.range s.perPage).flatMap fun _ => [0, 0xFFFF])

/-- Writes an overlay with its count. -/
def putOverlay (d : Device) (core : Nat) (s : Seq) (es : List (Nat × Word)) : Got Unit :=
  Got.andThen (kvWrite d core s.ovl (bytesOfWords (es.flatMap fun e => [BitVec.ofNat 64 e.1, e.2]))) fun _ d =>
    kvPut d core (s.addr + 40) (BitVec.ofNat 64 (s.cap * 2 ^ 32 + es.length))

/-- An overlay with an entry for a key. -/
def insertEntry : List (Nat × Word) → Nat → Word → List (Nat × Word)
  | [], k, e => [(k, e)]
  | x :: t, k, e => if k < x.1 then (k, e) :: x :: t else if k = x.1 then (k, e) :: t else x :: insertEntry t k e

/-- kv.map. -/
def kvMap (d : Device) (core : Nat) (w : List Word) : Got Unit :=
  let g (k : Nat) : Word := w.getD k 0
  let layer := fld (g 2) 47 32
  let gi := fld (g 2) 23 0
  let e := g 3
  orFail (fld (g 0) 63 8 == 0 && zeroIn (g 2) (maskOf 63 48 + maskOf 31 24) && !bit e 62 && !entryReserved e
      && fld e 55 6 != 0 && g 4 == 0 && g 5 == 0) cDescriptor 0 d fun d =>
    Got.andThen (seqAt d (coreRd core) (g 1)) fun s d =>
      orFail (decide (layer < s.nlayer ∧ (s.depth = 0 → gi < s.npage))) clsBounds 0 d fun d =>
        if s.depth = 0 then
          Got.andThen (kvWord d (coreRd core) (s.slotAt layer gi)) fun old d =>
            orFail (old == 0) cKv 0 d fun d =>
              Got.andThen (kvWrite d core (pageOf e) (freshPage s layer gi)) fun _ d =>
                kvPut d core (s.slotAt layer gi) e
        else
          Got.andThen (overlay d (coreRd core) s) fun es d =>
            let key := ovlKey layer gi
            orFail (ovlEntry es key == 0) cKv 0 d fun d =>
              let es' := insertEntry es key e
              orFail (decide (es'.length ≤ s.cap)) clsBounds 0 d fun d =>
                Got.andThen (kvWrite d core (pageOf e) (freshPage s layer gi)) fun _ d => putOverlay d core s es'

/-! ## kv.fork (R393, R395) -/

/-- The pages that a parent's first positions resolve to; KV for a demoted page or an entry with a reserved bit. -/
def forkPages (d : Device) (core : Nat) (p : Seq) (fl : Nat) : Got (List Nat) :=
  let keys := (List.range p.nlayer).flatMap fun l => (List.range (ceilDiv fl p.perPage)).map fun g => (l, g)
  Got.andThen (forEach (fun (k : Nat × Nat) d =>
    Got.andThen (resolve (coreRd core) k.1 (k.2 * p.perPage) 5 p d) fun r d =>
      match r with
      | none => (.ok none, d)
      | some (e, _) =>
        if entryReserved e then (.error (cKv, 0), d)
        else if adOf e = 0 then (.ok none, d)
        else if bit e 63 then (.error (cKv, 0), d)
        else (.ok (some (pageOf e)), d)) keys d) fun ps d => (.ok (ps.filterMap id).eraseDups, d)

/-- Adds a number to REFC of a page at the home slice. -/
def addRefc (core : Nat) (up : Bool) (page : Nat) (d : Device) : Got Nat :=
  Got.andThen (kvWord d (coreRd core) page) fun w d =>
    let n := (fld w 31 0 + (if up then 1 else 2 ^ 32 - 1)) % 2 ^ 32
    Got.andThen (kvPut d core page (setFld w 31 0 n)) fun _ d => (.ok n, d)

/-- kv.fork. -/
def kvFork (d : Device) (core : Nat) (w : List Word) : Got Unit :=
  let g (k : Nat) : Word := w.getD k 0
  let fl := fld (g 3) 31 0
  let child := adOf (g 2)
  orFail (fld (g 0) 63 8 == 0 && spOf (g 2) == 0 && resOk (g 2) && child % 64 == 0 && fld (g 3) 63 32 == 0
      && g 4 == 0 && g 5 == 0) cDescriptor 0 d fun d =>
    Got.andThen (seqAt d (coreRd core) (g 1)) fun p d =>
      Got.andThen (engRead d core (privOf d core) child 64) fun cb d =>
        let c (k : Nat) : Word := (wordsOf 8 cb).getD k 0
        orFail (fld (c 4) 63 56 == 0 && adOf (c 4) % 16 == 0 && fld (c 7) 63 56 == 0) cDescriptor child d fun d =>
          orFail (decide (fl ≤ p.len)) clsBounds 0 d fun d =>
            orFail (p.depth != 4) cKv 0 d fun d =>
              Got.andThen (forkPages d core p fl) fun pages d =>
                Got.andThen (forEach (addRefc core true) pages d) fun _ d =>
                  kvWrite d core child (bytesOfWords [
                    addrWord p.addr,
                    BitVec.ofNat 64 (fl * 2 ^ 32 + (p.depth + 1) * 2 ^ 28 + p.log * 2 ^ 24 + p.policy * 2 ^ 22 + p.waitus),
                    0, p.w3, c 4, setFld (c 5) 31 0 0, BitVec.ofNat 64 (fl * 2 ^ 32), c 7])

/-! ## kv.trunc (R393, R396) -/

/-- Pushes a page onto a pool as dq.push does (R243, R244): false where the pool is full. -/
def poolPush (d : Device) (core pool : Nat) (v : Word) : Got Bool :=
  let host (a : Nat) (d : Device) : Got Unit := match access d core a (privOf d core) true with
    | (.error c, d) => (.error (c, a), d)
    | (.ok x, d) => if x.host then (.error (clsPermission, a), d) else (.ok (), d)
  orFail (pool % 64 == 0) clsAlign pool d fun d =>
    Got.andThen (host pool d) fun _ d =>
      Got.andThen (engRead d core (privOf d core) pool 64) fun bs d =>
        let h (k : Nat) : Word := (wordsOf 8 bs).getD k 0
        let cap := 2 ^ fld (h 2) 4 0
        let used := (h 1 - h 0).toNat
        orFail (fld (h 2) 63 5 == 0 && decide (1 ≤ fld (h 2) 4 0 ∧ fld (h 2) 4 0 ≤ 24 ∧ used ≤ cap)
            && ((wordsOf 8 bs).drop 4).all (· == 0)) clsBounds pool d fun d =>
          orFail (fld (h 3) 2 0 == 0) clsAlign pool d fun d =>
            orFail (fld (h 3) 63 56 == 0) clsTranslation (adOf (h 3)) d fun d =>
              if used = cap then (.ok false, d)
              else
                let a := adOf (h 3) + 8 * ((h 1).toNat % cap)
                Got.andThen (host a d) fun _ d =>
                  Got.andThen (kvPut d core a v) fun _ d =>
                    Got.andThen (kvPut d core (pool + 8) (h 1 + 1)) fun _ d => (.ok true, d)

/-- Replaces a table's entry; 0 removes it. -/
def setKvEntry (d : Device) (core : Nat) (holder : Seq) (layer g : Nat) (e : Word) : Got Unit :=
  if holder.depth = 0 then kvPut d core (holder.slotAt layer g) e
  else Got.andThen (seqAt d (coreRd core) (addrWord holder.addr)) fun h d =>
    Got.andThen (overlay d (coreRd core) h) fun es d =>
      let key := ovlKey layer g
      putOverlay d core h (if e = 0 then es.filter (·.1 != key) else insertEntry es key e)

/-- Free (R396): the entry is removed, then pushed; true where the pool was full and the entry is restored, retained,
with REFC 0. What is pushed is the entry without R, D in its place; R243's bound on the value of a thread's push does
not concern it (DEDUCED, log 21). A page, demoted or not, is not read for it: REFC's word is written whole. -/
def freeEntry (d : Device) (core pool : Nat) (holder : Seq) (layer g : Nat) (e : Word) : Got Bool :=
  let v := BitVec.ofNat 64 (pageOf e + (if bit e 63 then 2 ^ 63 else 0))
  Got.andThen (setKvEntry d core holder layer g 0) fun _ d =>
    Got.andThen (poolPush d core pool v) fun ok d =>
      if ok then (.ok false, d)
      else
        Got.andThen (setKvEntry d core holder layer g (setFld e 62 62 1)) fun _ d =>
          Got.andThen (kvPut d core (pageOf e) 0) fun _ d => (.ok true, d)

/-- What the truncation does with one entry of the sequence's own table; true where the pool was full. -/
def truncOwn (core : Nat) (s : Seq) (cut : Nat) (x : Nat × Nat × Word) (d : Device) : Got Bool :=
  let (layer, g, e) := x
  let p := s.perPage
  let page := pageOf e
  if g * p < cut then
    let clear (d : Device) : Got Bool :=
      let top := min s.len (g * p + p)
      Got.andThen (forEach (fun pos d => kvPut d core (slotState page (pos - g * p)) 0)
        ((List.range (top - cut)).map (cut + ·)) d) fun _ d => (.ok false, d)
    if bit e 62 then (.ok false, d)
    else if bit e 63 then clear d
    else Got.andThen (kvWord d (coreRd core) page) fun w d => if fld w 31 0 = 1 then clear d else (.ok false, d)
  else if bit e 62 then
    Got.andThen (kvWord d (coreRd core) page) fun w d =>
      if fld w 31 0 = 0 then freeEntry d core s.pool s layer g e else (.ok false, d)
  else if bit e 63 then freeEntry d core s.pool s layer g e
  else
    Got.andThen (addRefc core false page d) fun n d =>
      if n = 0 then freeEntry d core s.pool s layer g e
      else Got.andThen (setKvEntry d core s layer g (setFld e 62 62 1)) fun _ d => (.ok false, d)

/-- The entries of a sequence's own table from a page index on, by layer and index. -/
def ownEntries (d : Device) (core : Nat) (s : Seq) (from_ : Nat) : Got (List (Nat × Nat × Word)) :=
  if s.depth = 0 then
    let keys := (List.range s.nlayer).flatMap fun l =>
      (List.range (s.npage - from_)).map fun i => (l, from_ + i)
    Got.andThen (forEach (fun (k : Nat × Nat) d =>
      Got.andThen (kvWord d (coreRd core) (s.slotAt k.1 k.2)) fun e d => (.ok (k.1, k.2, e), d)) keys d) fun es d =>
        (.ok (es.filter fun x => x.2.2 != 0), d)
  else
    Got.andThen (overlay d (coreRd core) s) fun es d =>
      (.ok ((es.map fun e => (e.1 / 2 ^ 32, e.1 % 2 ^ 32, e.2)).filter fun x => x.2.2 != 0 && decide (from_ ≤ x.2.1)), d)

/-- What the truncation does with a page that the parent gives; true where the pool was full. -/
def truncParent (core : Nat) (s par : Seq) (x : Nat × Nat) (d : Device) : Got Bool :=
  Got.andThen (resolve (coreRd core) x.1 (x.2 * s.perPage) 5 par d) fun r d =>
    match r with
    | none => (.ok false, d)
    | some (e, holder) =>
      if adOf e = 0 ∨ entryReserved e then (.ok false, d)
      else Got.andThen (addRefc core false (pageOf e) d) fun n d =>
        if n = 0 then freeEntry d core s.pool holder x.1 x.2 e else (.ok false, d)

/-- kv.trunc; it ends with BOUNDS where the pool was full for a page. -/
def kvTrunc (d : Device) (core : Nat) (w : List Word) : Got Unit :=
  let g (k : Nat) : Word := w.getD k 0
  let cut := fld (g 2) 31 0
  orFail (fld (g 0) 63 8 == 0 && fld (g 2) 63 32 == 0 && ((w.drop 3).take 3).all (· == 0)) cDescriptor 0 d fun d =>
    Got.andThen (seqAt d (coreRd core) (g 1)) fun s d =>
      orFail (decide (cut ≤ s.len)) clsBounds 0 d fun d =>
        Got.andThen (kvWord d (coreRd core) (s.addr + 8)) fun w1 d =>
          Got.andThen (kvPut d core (s.addr + 8) (setFld w1 63 32 cut)) fun _ d =>
            Got.andThen (ownEntries d core s (cut / s.perPage)) fun es d =>
              Got.andThen (forEach (truncOwn core s cut) es d) fun full d =>
                let after (more : List Bool) (d : Device) : Got Unit :=
                  if (full ++ more).any id then (.error (clsBounds, 0), d) else (.ok (), d)
                if s.depth = 0 ∨ s.forklen ≤ cut then after [] d
                else
                  let keys := (List.range s.nlayer).flatMap fun l =>
                    ((List.range (ceilDiv s.forklen s.perPage)).filter fun i => decide (cut ≤ i * s.perPage)).map
                      fun i => (l, i)
                  Got.andThen (seqAt d (coreRd core) (addrWord s.parent)) fun par d =>
                    Got.andThen (forEach (truncParent core s par) keys d) fun more d =>
                      Got.andThen (kvPut d core (s.addr + 48) (BitVec.ofNat 64 (cut * 2 ^ 32))) fun _ d => after more d

/-! ## The table unit (R375) -/

/-- A command of the table unit: its code and the device. -/
def tableRun (d : Device) (core : Nat) (t : TabCmd) : Nat × Device :=
  let code (r : Got Unit) : Nat × Device := match r with
    | (.ok _, d) => (0, d)
    | (.error e, d) => (e.1, d)
  if fld (t.desc.getD 0 0) 7 0 ≠ t.opc then (cDescriptor, d)
  else match t.opc with
    | 0x61 => code (attnPlan d core t.desc)
    | 0x62 => code (kvMap d core t.desc)
    | 0x63 => code (kvFork d core t.desc)
    | _ => code (kvTrunc d core t.desc)

/-- TABLE_UNIT_EXECUTE: the oldest command of the unit is performed and completes. -/
def tableExecute (d : Device) (core : Nat) : Device :=
  let c := d.core core
  match c.mer.table with
  | [] => d
  | t :: rest =>
    if c.frozen then d
    else
      let r := tableRun d core t
      complete (r.2.modCore core fun c => { c with mer := { c.mer with table := rest } }) core t.comp r.1

/-- TABLE_UNIT_EXECUTE (R375). -/
def execTableUnitExecute (core : Nat) (s : State) : Host.Outcome State Fault Refusal :=
  onDevice s fun d => tableExecute d core

/-- The work of a table-unit node: a ninth command does not fire (R374, R375). -/
def tableFn (opc : Nat) (w : MU) : NodeFn := fun e a _ _ d =>
  engFn w a e d (decide ((d.core e.core).mer.table.length < 8)) (fun _ => true) fun ws k d =>
    (0, d.modCore e.core fun c => { c with mer := { c.mer with table := c.mer.table ++ [⟨opc, ws, k⟩] } })

/-- attn.plan (R375, R397). -/
def execAttnPlan (w : MU) (s : State) : Host.Outcome State Fault Refusal := muStep s 0x61 w (tableFn 0x61 w)

/-- kv.map (R375, R394). -/
def execKvMap (w : MU) (s : State) : Host.Outcome State Fault Refusal := muStep s 0x62 w (tableFn 0x62 w)

/-- kv.fork (R375, R395). -/
def execKvFork (w : MU) (s : State) : Host.Outcome State Fault Refusal := muStep s 0x63 w (tableFn 0x63 w)

/-- kv.trunc (R375, R396). -/
def execKvTrunc (w : MU) (s : State) : Host.Outcome State Fault Refusal := muStep s 0x64 w (tableFn 0x64 w)

end Sys2Proof.Machine
end

