-- ==== Sys2Proof/Machine/Infill.lean ====
section
/-! DEFINITION. Early exit and the Infill engine: conf.test, fill.req, fill.sync and batches (21_infill: R408 to
R419). -/

namespace Sys2Proof.Machine

/-! ## Exit (R408, R410) -/

/-- The slot of a position in its page. -/
def Seq.slotOf (s : Seq) (pos : Nat) : Nat := pos % s.perPage

/-- The layers a token skips. -/
def skippedLayers (exitL last : Nat) : List Nat := (List.range (last - exitL)).map (exitL + 1 + ·)

/-- The checks of Exit for one layer: the page. -/
def exitLayer (rd : Reader) (seq : Word) (s : Seq) (pos layer : Nat) (d : Device) : Got Nat :=
  Got.andThen (lookup d rd seq layer pos) fun e d =>
    orFail (!bit e 63) cKv pos d fun d =>
      Got.andThen (kvWord d rd (slotState (pageOf e) (s.slotOf pos))) fun w d =>
        orFail (w == 0 || w == 2) cKv pos d fun d => (.ok (pageOf e), d)

/-- Writes the exit layer and PENDING for the pages in turn; the state words it has set PENDING, newest first, and the
code of a write that failed. -/
def markPending (core exitL q : Nat) : List Nat → List Nat → Device → List Nat × Option Nat × Device
  | [], done, d => (done, none, d)
  | page :: ps, done, d =>
    let a := slotState page q
    match Got.andThen (kvWord d (coreRd core) (a + 8)) fun w d => kvPut d core (a + 8) (setFld w 15 0 exitL) with
    | (.error e, d) => (done, some e.1, d)
    | (.ok _, d) =>
      match kvPut d core a 1 with
      | (.error e, d) => (done, some e.1, d)
      | (.ok _, d) => markPending core exitL q ps (a :: done) d

/-- Exit for a token descriptor: the code, and the device with the request entered (R410). -/
def exitToken (d : Device) (core kind : Nat) (w : List Word) : Nat × Device :=
  let g (k : Nat) : Word := w.getD k 0
  let last := fld (g 0) 63 48
  let exitL := fld (g 0) 47 32
  let pos := fld (g 2) 31 0
  let rd := coreRd core
  let checked : Got (Seq × List Nat) :=
    orFail (fld (g 0) 31 8 == 0 && fld (g 0) 7 0 == kind && fld (g 2) 63 32 == 0 && g 5 == 0 && spOf (g 3) == 0
        && resOk (g 3)) cDescriptor 0 d fun d =>
      Got.andThen (seqAt d rd (g 1)) fun s d =>
        orFail (last + 1 == s.nlayer) cDescriptor 0 d fun d =>
          Got.andThen (forEach (exitLayer rd (g 1) s pos) (skippedLayers exitL last) d) fun ps d => (.ok (s, ps), d)
  match checked with
  | (.error e, d) => (e.1, d)
  | (.ok (s, ps), d) =>
    match markPending core exitL (s.slotOf pos) ps [] d with
    | (done, some c, d) => (c, done.foldl (fun d a => (kvPut d core a 3).2) d)
    | (_, none, d) =>
      let r : FillReq := ⟨d.fillCount, exitL, last, s.addr, pos, g 3, g 4, (d.core core).regs.xlroot.toNat,
        privOf d core⟩
      (0, { d with fillCount := d.fillCount + 1 }.modCluster (clusterOf core) fun c =>
        { c with fillQueue := c.fillQueue ++ [r] })

/-- Is an entry of the cluster's request queue free? -/
def fillRoom (d : Device) (core : Nat) : Bool := decide ((d.cluster (clusterOf core)).fillQueue.length < 256)

/-- The predicate of a conf.test on a token descriptor: an ordered comparison of binary32 data (R410). -/
def confPred (m t : Word) (w : List Word) : Bool :=
  XR.le (exact f32 (t.toNat % 2 ^ 32)) (exact f32 (m.toNat % 2 ^ 32))
    && decide (fld (w.getD 0 0) 47 32 < fld (w.getD 0 0) 63 48)

/-- conf.test (R409, R410): its Exit is part of the step. -/
def execConfTest (w : MU) (s : State) : Host.Outcome State Fault Refusal :=
  muStep s 0x68 w fun e m t c d =>
    engFn w c e d (fillRoom d e.core) (fun _ => true) fun ws k d =>
      if confPred m t ws then
        let r := exitToken d e.core 0x68 ws
        (1, complete r.2 e.core k r.1)
      else (0, complete d e.core k 0)

/-- fill.req (R409, R410). -/
def execFillReq (w : MU) (s : State) : Host.Outcome State Fault Refusal :=
  muStep s 0x69 w fun e a _ _ d =>
    engFn w a e d (fillRoom d e.core) (fun _ => true) fun ws k d =>
      let r := exitToken d e.core 0x69 ws
      (0, complete r.2 e.core k r.1)

/-! ## fill.sync (R411) -/

/-- The unresolved requests of the device that name a sequence of an address space. -/
def requestsOf (d : Device) (root seq : Nat) : List Nat :=
  (d.clusters.flatMap fun c => c.fillQueue ++ (match c.fillArmed with
    | some b => b.reqs
    | none => [])).filterMap fun r => if r.seq = seq ∧ r.root = root then some r.id else none

/-- Completes a fill.sync whose requests are resolved: in its owner's scratchpad only while a core holds its owner. A
global word is written even where the launch has been discarded meanwhile (R411, R419; DEDUCED, log 31). -/
def syncDone (d : Device) (x : FillSync) : Option Device :=
  if x.ids ≠ [] then none
  else if x.comp.isGlobal then some (complete d 0 x.comp 0)
  else (coreOfOwner d x.run x.cidx).map fun k => complete d k x.comp 0

/-- Completes every fill.sync that can be. -/
def settleSyncs (d : Device) : Device :=
  d.syncs.foldl (init := { d with syncs := [] }) fun d x =>
    match syncDone d x with
    | some d => d
    | none => { d with syncs := d.syncs ++ [x] }

/-- fill.sync. -/
def execFillSync (w : MU) (s : State) : Host.Outcome State Fault Refusal :=
  muStep s 0x6A w fun e a _ _ d =>
    engFn w a e d true (fun _ => true) fun ws k d =>
      let g (i : Nat) : Word := ws.getD i 0
      let ok := g 0 == 0x6A && spOf (g 1) == 0 && resOk (g 1) && adOf (g 1) % 64 == 0
        && ((ws.drop 2).take 4).all (· == 0)
      if !ok then (0, complete d e.core k cDescriptor)
      else
        let ids := requestsOf d (d.core e.core).regs.xlroot.toNat (adOf (g 1))
        if ids = [] then (0, complete d e.core k 0)
        else (0, { d with syncs := d.syncs ++ [⟨e.bound.run, e.bound.cidx, k, ids⟩] })

/-! ## Batches (R413 to R415) -/

/-- The bytes of a batch record (R414). -/
def batchBytes (num : Nat) (rs : List FillReq) : List Byte :=
  let r := rs.headD default
  bytesOfWords ([BitVec.ofNat 64 (r.exitL * 2 ^ 48 + r.last * 2 ^ 32 + rs.length), BitVec.ofNat 64 num, 0, 0, 0, 0, 0, 0]
    ++ rs.flatMap fun r => [BitVec.ofNat 64 r.seq, BitVec.ofNat 64 r.pos, r.hidden, r.tag, 0, 0, 0, 0])

/-- The state words of a request's skipped layers become VALID or FAILED where they are PENDING of its exit layer
(R415). -/
def resolveReq (r : FillReq) (ok : Bool) (d : Device) : Device :=
  let rd := rootRd r.root r.priv
  (skippedLayers r.exitL r.last).foldl (init := d) fun d layer =>
    match lookup d rd (BitVec.ofNat 64 r.seq) layer r.pos, seqAt d rd (BitVec.ofNat 64 r.seq) with
    | (.ok e, _), (.ok s, _) =>
      let a := slotState (pageOf e) (s.slotOf r.pos)
      match rootWord d r.root r.priv a, rootWord d r.root r.priv (a + 8) with
      | .ok w, .ok x =>
        if w = 1 ∧ fld x 15 0 = r.exitL then
          match rootWrite d r.root r.priv a (toBytes 8 (if ok then 2 else 3)) with
          | .ok d => d
          | .error _ => d
        else d
      | _, _ => d
    | _, _ => d

/-- Resolves requests with their outcomes: they are counted where they failed, and each fill.sync that waits for one
learns of it. -/
def resolveBatch (d : Device) (cl : Nat) (rs : List (FillReq × Bool)) : Device :=
  let d := rs.foldl (fun d r => resolveReq r.1 r.2 d) d
  let n := (rs.filter fun r => !r.2).length
  let d := d.modCluster cl fun c => { c with fillArmed := none, fillFailed := (c.fillFailed + n) % 2 ^ 16 }
  settleSyncs { d with syncs := d.syncs.map fun x =>
    { x with ids := x.ids.filter fun i => !rs.any fun r => r.1.id == i } }

/-- The address space and privilege of the context that a record names (DEDUCED, log 22). -/
def recordSpace (d : Device) (i : Nat) : Nat × Bool :=
  ((ctxEntry d (fld (recWord d i 0) 27 16)).root, bit (recWord d i 0) 4)

/-- The engine writes the parameter-block field of an IDLE record, as lr.patch does. -/
def patchParam (d : Device) (i : Nat) (v : Word) : Device :=
  if recValid d i && recServed d i && recState d i == 0 then homeWriteWord d (recKey d i 4) v else d

/-- FILL_BATCH_FORM for a cluster. The batch record's write, of whole lines, meets no uncorrectable data (R39). -/
def batchForm (d : Device) (now cl : Nat) : Device :=
  let c := d.cluster cl
  match c.fillQueue with
  | [] => d
  | r0 :: _ =>
    if !bit c.fillLr 31 || c.fillArmed.isSome then d
    else
      let lr := fld c.fillLr 15 0
      let addr := fld c.fillBuf 55 6 * 64
      let rs := (c.fillQueue.filter fun r => r.exitL == r0.exitL && r.last == r0.last).take (fld c.fillLr 24 16)
      let num := c.fillBatches + 1
      let d := d.modCluster cl fun c =>
        { c with
          fillQueue := c.fillQueue.filter fun r => !rs.contains r
          fillBatches := num
          fillArmed := some ⟨lr, addr, rs, none⟩ }
      let failed := rs.map fun r => (r, false)
      let space := recordSpace d lr
      match rootWrite d space.1 space.2 addr (batchBytes num rs) with
      | .error _ =>
        let (v, d) := d.draw
        let (u, d) := d.draw
        resolveBatch (machineCheck d now 7 (v % 3) (384 + cl) (BitVec.ofNat 64 u) 0) cl failed
      | .ok d =>
        match armRecord (patchParam d lr (BitVec.ofNat 64 addr)) now lr none with
        | (0, d) => if recState d lr = 0 then resolveBatch d cl failed else d
        | (_, d) => resolveBatch d cl failed

/-- FILL_BATCH_FORM (R414). -/
def execFillBatchForm (cluster : Nat) (s : State) : Host.Outcome State Fault Refusal :=
  onDevice s fun d => batchForm d s.clock cluster

/-- FILL_BATCH_RESOLVE for a cluster: the fill launch has completed. -/
def batchResolve (d : Device) (cl : Nat) : Device :=
  match (d.cluster cl).fillArmed with
  | none => d
  | some b =>
    match b.ended with
    | none => d
    | some good =>
      let space := recordSpace d b.lr
      let status (i : Nat) : Bool :=
        match rootWord d space.1 space.2 (b.addr + 64 + 64 * i + 32) with
        | .ok v => v == 1
        | .error _ => false
      resolveBatch d cl (b.reqs.zipIdx.map fun x => (x.1, good && status x.2))

/-- FILL_BATCH_RESOLVE (R415). -/
def execFillBatchResolve (cluster : Nat) (s : State) : Host.Outcome State Fault Refusal :=
  onDevice s fun d => batchResolve d cluster

end Sys2Proof.Machine
end

