-- ==== Sys2Proof/Machine/Matrix.lean ====
section
/-! DEFINITION. The matrix engine: the accumulator store, the corner-turn buffer, the commands, the tree reduction, the
self-test and the command nodes (17_matrix_engine: R339 to R370; 01_device: R28 to R31). -/

namespace Sys2Proof.Machine

/-! ## Rectangles and cells (R339, R340) -/

/-- A rectangle of the accumulator store. -/
structure Rect where
  row0 : Nat
  col0 : Nat
  nrow : Nat
  ncol : Nat
  wide : Bool
  deriving DecidableEq, Repr, Inhabited

/-- The rectangle of a RECT field, none for a breach (R339). -/
def rectOf (v : Nat) : Option Rect :=
  let nrow := if nfld v 23 16 = 0 then 256 else nfld v 23 16
  let r : Rect := ⟨nfld v 7 0, nfld v 14 8, nrow, nfld v 31 24, nfld v 15 15 == 1⟩
  if r.ncol = 0 ∨ 128 < r.ncol ∨ 256 < r.row0 + r.nrow ∨ 128 < r.col0 + r.ncol
      ∨ (r.wide ∧ (r.col0 % 2 = 1 ∨ r.ncol % 2 = 1)) then none
  else some r

/-- The data in a row: cells, or pairs of cells in binary64 mode. -/
def Rect.perRow (r : Rect) : Nat := if r.wide then r.ncol / 2 else r.ncol

/-- The format of a datum of the rectangle. -/
def Rect.fmt (r : Rect) : FFmt := if r.wide then f64 else f32

/-- The number of the cell that datum j of row i starts at. -/
def Rect.cell (r : Rect) (i j : Nat) : Nat := 128 * (r.row0 + i) + r.col0 + (if r.wide then 2 * j else j)

/-- The positions of a rectangle's data, row by row. -/
def Rect.spots (r : Rect) : List (Nat × Nat) :=
  (List.range r.nrow).flatMap fun i => (List.range r.perRow).map fun j => (i, j)

/-- The bits of the datum that starts at a cell. -/
def accDatum (m : Matrix) (wide : Bool) (cell : Nat) : Nat :=
  (m.acc.get cell).toNat + (if wide then 2 ^ 32 * (m.acc.get (cell + 1)).toNat else 0)

/-- Is the datum that starts at a cell bad? -/
def accBad (m : Matrix) (wide : Bool) (cell : Nat) : Bool :=
  m.bad.contains cell || (wide && m.bad.contains (cell + 1))

/-- The granule of a cell as a bit mask (R290): rows 8⌊g/2⌋ on, columns 64 (g mod 2) on. -/
def accGranule (cell : Nat) : Nat := 2 ^ (cell / 128 / 8 * 2 + cell % 128 / 64)

/-- Writes a cell, which is then no longer bad. -/
def Core.setCell (c : Core) (cell v : Nat) : Core :=
  { c with
    mx := { c.mx with acc := c.mx.acc.set cell (BitVec.ofNat 32 v), bad := c.mx.bad.filter (· != cell) }
    accDirty := c.accDirty ||| accGranule cell }

/-- Writes the datum that starts at a cell. -/
def Core.setDatum (c : Core) (wide : Bool) (cell v : Nat) : Core :=
  let c := c.setCell cell (v % 2 ^ 32)
  if wide then c.setCell (cell + 1) (v / 2 ^ 32) else c

/-- Makes the datum that starts at a cell bad. -/
def Core.spoil (c : Core) (wide : Bool) (cell : Nat) : Core :=
  let add (l : List Nat) (x : Nat) : List Nat := if l.contains x then l else x :: l
  let bad := add c.mx.bad cell
  { c with
    mx := { c.mx with bad := if wide then add bad (cell + 1) else bad }
    accDirty := c.accDirty ||| accGranule cell }

/-! ## The corner-turn buffer (R350 to R352) -/

/-- The halves flip when the read half is empty and the fill half full. -/
def Corner.flip (k : Corner) : Corner :=
  if k.read = [] ∧ k.fill.length = 64 then { k with read := k.fill, fill := [] } else k

/-- Rows enter the fill half one by one. -/
def Corner.enter (k : Corner) (rows : List (List (BitVec 32))) : Corner :=
  rows.foldl (fun k r => Corner.flip { k with fill := k.fill ++ [r] }) k

/-- n rows leave the read half, as far as it has them. -/
def Corner.take (k : Corner) (n : Nat) : List (List (BitVec 32)) × Corner :=
  (k.read.take n, Corner.flip { k with read := k.read.drop n })

/-- n rows of zeros. -/
def zeroRows (n : Nat) : List (List (BitVec 32)) := List.replicate n (List.replicate 64 0)

/-- A partial fill half is padded with zero rows. -/
def Corner.pad (k : Corner) : Corner := if k.fill = [] then k else k.enter (zeroRows (64 - k.fill.length))

/-- The counts (F, D) after the halves flip, where they do. -/
def flipCounts (s : Nat × Nat) : Nat × Nat := if s.2 = 0 ∧ s.1 = 64 then (0, 64) else s

/-- The counts after n rows have entered. -/
def enterCounts (s : Nat × Nat) : Nat → Nat × Nat
  | 0 => s
  | n + 1 => enterCounts (flipCounts (s.1 + 1, s.2)) n

/-- NROWS of a ct.fill, 0 where it lies outside 1 to 64. -/
def fillRows (w : List Word) : Nat := if fld (w.getD 0 0) 15 8 ≤ 64 then fld (w.getD 0 0) 15 8 else 0

/-- K of a type (R345). -/
def mmaK (typ : Nat) : Nat :=
  match typ with
  | 6 => 64
  | 5 => 8
  | _ => 16

/-- The bytes of an element or atom of a type (R345). -/
def mmaSize (typ : Nat) : Nat :=
  match typ with
  | 5 => 8
  | 6 => 2
  | 8 => 2
  | _ => 4

/-- The steps of a command on the counts. -/
def ctCounts (opc typ : Nat) (ct : Bool) (w : List Word) (s : Nat × Nat) : Nat × Nat :=
  if opc = 0x56 then enterCounts s (fillRows w)
  else if opc = 0x57 then (if s.1 = 0 then s else enterCounts s (64 - s.1))
  else if opc = 0x50 ∧ ct then flipCounts (s.1, s.2 - min (mmaK typ) s.2)
  else s

/-- Is there room for what a command asks of the buffer (R350)? -/
def ctRoom (opc : Nat) (ct : Bool) (w : List Word) (s : Nat × Nat) : Bool :=
  if opc = 0x56 then decide (fillRows w ≤ if 0 < s.2 then 64 - s.1 else 128 - s.1)
  else if opc = 0x50 ∧ ct then decide (0 < s.2)
  else true

/-- The core with its buffer replaced. -/
def Core.setCorner (c : Core) (k : Corner) : Core := { c with mx := { c.mx with corner := k } }

/-- The shadow takes the steps of a command. -/
def Core.stepShadow (c : Core) (opc typ : Nat) (ct : Bool) (w : List Word) : Core :=
  let s := ctCounts opc typ ct w (c.mx.corner.shadowF, c.mx.corner.shadowD)
  c.setCorner { c.mx.corner with shadowF := s.1, shadowD := s.2 }

/-! ## mma and mma.sp (R345 to R349) -/

/-- Is a type an atom format? -/
def isAtomType (typ : Nat) : Bool := decide (8 ≤ typ ∧ typ ≤ 10)

/-- The aligned words that a command has read ahead, by engine address (R367). -/
abbrev Early := List (Word × List (Option Byte))

/-- Data read from an engine address, with what the command has read ahead of it in its place. -/
def overEarly (ea : Early) (a : Word) (es : List EB) : List EB :=
  if ea = [] then es
  else es.zipIdx.map fun x =>
    let p := eaPlus a x.2
    match ea.find? fun q => q.1 == eaPlus p (2 ^ 56 - adOf p % 8) with
    | some q => EB.ofKept (q.2.getD (adOf p % 8) none)
    | none => x.1

/-- The engine address of a scratchpad byte. -/
def scrAddr (off : Nat) : Word := BitVec.ofNat 64 (2 ^ 62 + off % 2 ^ 56)

/-- Data in a scratchpad with its errors. -/
def scrEB (ea : Early) (d : Device) (core off n : Nat) : List EB :=
  overEarly ea (scrAddr off) (mark (fun x => scratchBadAt d core x 1) off (scratchRead d core off n))

/-- A command's read of n bytes at an engine address: the data and the code of a failure. -/
def mxRead (ea : Early) (d : Device) (core : Nat) (a : Word) (n : Nat) : List EB × Option Nat × Device :=
  let r := readCode d core .none a n
  (overEarly ea a r.1, r.2)

/-- The positions of the atoms of row i of a sparse A that are kept (R348). -/
def keptAtoms (seed row count : Nat) : List Nat :=
  let v := (List.range 16).map fun j => rngDraw seed row j
  let rank (j : Nat) : Nat := ((List.range 16).filter fun k =>
    decide (v.getD k 0 < v.getD j 0) || (v.getD k 0 == v.getD j 0 && decide (k < j))).length
  (List.range 16).filter fun j => decide (rank j < count)

/-- The exact values of elements or atoms. -/
def mmaVals (typ : Nat) (lg : Legend) (xs : List Nat) : List XR :=
  if isAtomType typ then xs.flatMap fun a => decodeOrNan (AFmt.ofType typ) lg a
  else xs.map fun x => exact (fmtOfType typ) x

/-- The elements that data holds. -/
def mmaElems (size n : Nat) (es : List EB) : List Nat :=
  (List.range n).map fun k => ebNat ((es.drop (k * size)).take size)

/-- Row i of A: does it hold uncorrectable data, and its exact values. -/
def mmaRowA (ea : Early) (d : Device) (core : Nat) (sp : Bool) (typ : Nat) (w : List Word) (lg : Legend) (i : Nat) :
    Bool × List XR :=
  let size := mmaSize typ
  let keep := 4 * fld (w.getD 0 0) 41 40
  let n := if sp then keep else mmaK typ
  let es := scrEB ea d core (adOf (w.getD 1 0) + i * fld (w.getD 3 0) 15 0) (n * size)
  let xs := mmaElems size n es
  let full :=
    if sp then
      let kept := keptAtoms (fld (w.getD 3 0) 63 32) ((fld (w.getD 0 0) 63 48 + i) % 2 ^ 64) keep
      (List.range 16).map fun j => match kept.idxOf? j with
        | some p => xs.getD p 0
        | none => 0
    else xs
  (hasBad es, mmaVals typ lg full)

/-- Column j of B, from the scratchpad or from the rows of the corner-turn buffer (R347). -/
def mmaColB (ea : Early) (d : Device) (core typ : Nat) (w : List Word) (lg : Legend) (rows : Option (List (List (BitVec 32))))
    (j : Nat) : Bool × List XR :=
  let size := mmaSize typ
  match rows with
  | some rs => (false, mmaVals typ lg (rs.map fun r => (r.getD j 0).toNat))
  | none =>
    let es := scrEB ea d core (adOf (w.getD 2 0) + j * fld (w.getD 3 0) 31 16) (mmaK typ * size)
    (hasBad es, mmaVals typ lg (mmaElems size (mmaK typ) es))

/-- One output datum of an mma; true when it depends on uncorrectable data and is bad afterwards (R340, R346). -/
def mmaCell (r : Rect) (a b : Bool × List XR) (i j : Nat) (c : Core) : Bool × Core :=
  let cell := r.cell i j
  if a.1 || b.1 || accBad c.mx r.wide cell then (true, c.spoil r.wide cell)
  else
    let terms := (a.2.zip b.2).map fun p => XR.mul p.1 p.2
    (false, c.setDatum r.wide cell (rneBits r.fmt (XR.sum (exact r.fmt (accDatum c.mx r.wide cell)) terms)))

/-- A code with the address that failed, where an address did. -/
abbrev Failing := Nat × Option Nat

/-- What a breach gives, where the condition that must hold does not. -/
def needAt (ok : Bool) (code : Nat) (addr : Option Nat) : Option Failing := if ok then none else some (code, addr)

/-- The failure with the lowest code: of several with it, the first (R317). -/
def lowestAt (fs : List (Option Failing)) : Option Failing :=
  (fs.filterMap id).foldl (init := none) fun m f => match m with
    | some x => if f.1 < x.1 then some f else m
    | none => some f

/-- What an mma's descriptor breaches; rows is how many corner-turn rows it took. -/
def mmaBreach (c : Core) (sp : Bool) (typ : Nat) (w : List Word) (rows : Option Nat) : List (Option Failing) :=
  let g (k : Nat) : Word := w.getD k 0
  let size := mmaSize typ
  let keep := fld (g 0) 41 40
  let wide := decide (typ = 5)
  let lda := fld (g 3) 15 0
  let ldb := fld (g 3) 31 16
  let rowA := (if sp then 4 * keep else mmaK typ) * size
  let rowB := mmaK typ * size
  let rectOk := match rectOf (fld (g 0) 39 8) with
    | some r => r.nrow == 64 && r.wide == wide && r.ncol == (if wide then 128 else 64) && (!wide || r.col0 == 0)
    | none => false
  let bOk := match rows with
    | some n => g 2 == 0 && ldb == 0 && n == mmaK typ
        && mmaSize typ == (if c.mx.corner.efmt = 6 then 2 else 4)
    | none => spOf (g 2) == 1 && resOk (g 2) && decide (rowB ≤ ldb)
  [ needAt (fld (g 0) 7 0 == (if sp then 0x51 else 0x50)
      && (if sp then fld (g 0) 47 42 == 0 && keep != 0 else fld (g 0) 63 40 == 0 && fld (g 3) 63 32 == 0)
      && rectOk && spOf (g 1) == 1 && resOk (g 1) && decide (rowA ≤ lda) && bOk
      && (isAtomType typ || (g 4 == 0 && g 5 == 0))) cDescriptor none,
    needAt (adOf (g 1) % size == 0) clsAlign (some (adOf (g 1))),
    needAt (rows.isSome || adOf (g 2) % size == 0) clsAlign (some (adOf (g 2))),
    needAt (lda % size == 0 && (rows.isSome || ldb % size == 0)) clsAlign none,
    needAt (decide (adOf (g 1) + 63 * lda + rowA ≤ scratchSize)) clsBounds (some (adOf (g 1))),
    needAt (rows.isSome || decide (adOf (g 2) + 63 * ldb + rowB ≤ scratchSize)) clsBounds (some (adOf (g 2))) ]

/-- A Legend of an mma, which an IEEE type has none of. -/
def mmaLegend (d : Device) (core : Nat) (priv : Bool) (typ : Nat) (a : Word) : Except (Nat × Nat) Legend × Device :=
  if isAtomType typ then engLegend d core priv (AFmt.ofType typ) a.toNat else (.ok Legend.pa8Default, d)

/-- The failure of a Legend's read. -/
def legendBreach (e : Except (Nat × Nat) Legend) : Option Failing := match e with
  | .error f => some (f.1, some f.2)
  | .ok _ => none

/-- An mma or mma.sp on its operands: the code, the address that failed, if one did, and the device (R346 to R348). -/
def mmaRun (ea : Early) (d : Device) (core : Nat) (priv sp : Bool) (typ : Nat) (w : List Word)
    (rows : Option (List (List (BitVec 32)))) : Failing × Device :=
  let a := mmaLegend d core priv typ (w.getD 4 0)
  let b := mmaLegend a.2 core priv typ (w.getD 5 0)
  let d := b.2
  let fail := lowestAt (legendBreach a.1 :: legendBreach b.1 :: mmaBreach (d.core core) sp typ w (rows.map (·.length)))
  match fail, a.1, b.1, rectOf (fld (w.getD 0 0) 39 8) with
  | none, .ok la, .ok lb, some r =>
    let as := (List.range 64).map (mmaRowA ea d core sp typ w la)
    let bs := (List.range 64).map (mmaColB ea d core typ w lb rows)
    let out := r.spots.foldl (init := (false, d.core core)) fun s p =>
      let x := mmaCell r (as.getD p.1 (false, [])) (bs.getD p.2 (false, [])) p.1 p.2 s.2
      (s.1 || x.1, x.2)
    ((if out.1 then clsEcc else 0, none), d.modCore core fun _ => out.2)
  | f, _, _, _ => (f.getD (cDescriptor, none), d)

/-- An mma or mma.sp executes; with CT it consumes its rows of the read half in any case (R347). -/
def mmaExec (ea : Early) (d : Device) (core : Nat) (priv sp ct : Bool) (typ : Nat) (w : List Word) : Failing × Device :=
  if ct then
    let t := (d.core core).mx.corner.take (mmaK typ)
    mmaRun ea (d.modCore core fun c => c.setCorner t.2) core priv sp typ w (some t.1)
  else mmaRun ea d core priv sp typ w none

/-! ## ct.fill and ct.flush (R351, R352) -/

/-- The codes that a ct.fill's descriptor breaches; ready is the buffer's EFMT as the command finds it. -/
def ctFillCodes (w : List Word) (efmt : Nat) : List Nat :=
  let g (k : Nat) : Word := w.getD k 0
  let e := fld (g 0) 23 16
  let size := if e = 6 then 2 else 4
  let ld := fld (g 2) 31 0
  let n := fillRows w
  codesOf [
    need (fld (g 0) 7 0 == 0x56 && fld (g 0) 63 24 == 0 && n != 0 && (e == 4 || e == 6) && e == efmt
      && spOf (g 1) == 1 && resOk (g 1) && fld (g 2) 63 32 == 0 && ((w.drop 3).take 3).all (· == 0)) cDescriptor,
    need (adOf (g 1) % size == 0 && ld % size == 0) clsAlign,
    need (decide (n = 0 ∨ adOf (g 1) + (n - 1) * ld + 64 * size ≤ scratchSize)) clsBounds]

/-- ct.fill. -/
def ctFillExec (ea : Early) (d : Device) (core : Nat) (w : List Word) : Nat × Device :=
  let k := (d.core core).mx.corner
  let e := fld (w.getD 0 0) 23 16
  let n := fillRows w
  let sets := k.fill = [] ∧ k.read = [] ∧ n ≠ 0 ∧ (e = 4 ∨ e = 6)
  let k := if sets then { k with efmt := e } else k
  let codes := ctFillCodes w k.efmt
  let size := if e = 6 then 2 else 4
  let data := (List.range n).map fun r =>
    scrEB ea d core (adOf (w.getD 1 0) + r * fld (w.getD 2 0) 31 0) (64 * size)
  let code := lowest (if codes = [] ∧ data.any hasBad then [clsEcc] else codes)
  let rows := if code = 0 then data.map fun es => (mmaElems size 64 es).map (BitVec.ofNat 32) else zeroRows n
  (code, d.modCore core fun c => c.setCorner (k.enter rows))

/-- ct.flush. -/
def ctFlushExec (d : Device) (core : Nat) (w : List Word) : Nat × Device :=
  (if w.getD 0 0 == 0x57 && ((w.drop 1).take 5).all (· == 0) then 0 else cDescriptor,
    d.modCore core fun c => c.setCorner c.mx.corner.pad)

/-! ## acc.zero, acc.ld, acc.st (R353, R354) -/

/-- acc.zero. -/
def accZeroExec (d : Device) (core : Nat) (w : List Word) : Nat × Device :=
  let w0 := w.getD 0 0
  match rectOf (fld w0 39 8) with
  | some r =>
    if fld w0 7 0 == 0x52 && fld w0 63 40 == 0 && ((w.drop 1).take 5).all (· == 0) then
      (0, d.modCore core fun c => r.spots.foldl (fun c p => c.setDatum r.wide (r.cell p.1 p.2) 0) c)
    else (cDescriptor, d)
  | none => (cDescriptor, d)

/-- The rows of data that a command reads; after a failure nothing more is read (R316). -/
def readRows (ea : Early) (d : Device) (core : Nat) (src : Word) (ld n : Nat) : List Nat → List (List EB) × Option Nat × Device
  | [] => ([], none, d)
  | i :: is =>
    match mxRead ea d core (eaPlus src (i * ld)) n with
    | (es, some c, d) => (es :: is.map (fun _ => List.replicate n .miss), some c, d)
    | (es, none, d) =>
      let r := readRows ea d core src ld n is
      (es :: r.1, r.2)

/-- What a datum of a format becomes in a rectangle (R353): one of the cell's own format keeps its bits. -/
def widen (sfmt : Nat) (r : Rect) (x : Nat) : Nat :=
  if fmtOfType sfmt = r.fmt then x else rneBits r.fmt (exact (fmtOfType sfmt) x)

/-- Writes data read for a rectangle into its cells, where pick allows it; uncorrectable data makes a cell bad. -/
def fillCells (d : Device) (core : Nat) (r : Rect) (size : Nat) (conv : Nat → Nat) (rows : List (List EB))
    (pick : Nat → Bool) : Device :=
  d.modCore core fun c => r.spots.foldl (init := c) fun c p =>
    let es := ((rows.getD p.1 []).drop (p.2 * size)).take size
    if !pick (p.1 * r.perRow + p.2) || es.any (· == .miss) then c
    else if hasBad es then c.spoil r.wide (r.cell p.1 p.2)
    else c.setDatum r.wide (r.cell p.1 p.2) (conv (ebNat es))

/-- Fills a rectangle from rows that were read: all of it, or, after a failure, a free subset (R316). -/
def fillRect (d : Device) (core : Nat) (r : Rect) (size : Nat) (conv : Nat → Nat) (rows : List (List EB))
    (fail : Option Nat) : Nat × Device :=
  match fail with
  | some c =>
    let (v, d) := d.draw
    (c, fillCells d core r size conv rows fun i => v / 2 ^ i % 2 == 1)
  | none => (if rows.any hasBad then clsEcc else 0, fillCells d core r size conv rows fun _ => true)

/-- acc.ld. -/
def accLdExec (ea : Early) (d : Device) (core : Nat) (w : List Word) : Nat × Device :=
  let g (k : Nat) : Word := w.getD k 0
  let sfmt := fld (g 0) 47 40
  let size := mmaSize sfmt
  let ld := fld (g 2) 31 0
  match rectOf (fld (g 0) 39 8) with
  | none => (cDescriptor, d)
  | some r =>
    let codes := codesOf [
      need (fld (g 0) 7 0 == 0x53 && fld (g 0) 63 48 == 0 && fld (g 2) 63 32 == 0
        && ((w.drop 3).take 3).all (· == 0) && [4, 5, 6].contains sfmt && (r.wide || sfmt != 5)) cDescriptor,
      rangeFault false (g 1) ((r.nrow - 1) * ld + r.perRow * size),
      need (adOf (g 1) % size == 0 && ld % size == 0) clsAlign]
    if codes ≠ [] then (lowest codes, d)
    else
      let x := readRows ea d core (g 1) ld (r.perRow * size) (List.range r.nrow)
      fillRect x.2.2 core r size (widen sfmt r) x.1 x.2.1

/-- Pieces are written, or, where one fails, a free subset of all their bytes: the code of the failure (R316). -/
def writeOut (d : Device) (core : Nat) (ps : List (Word × List EB)) : Nat × Device :=
  match piecesFault d core .none ps with
  | (some c, d) => (c, writeSubset d core .none ps)
  | (none, d) => (0, writePiecesE d core .none ps)

/-- Entry j of a binary32 vector; bad where its data is. -/
def vecAt (v : Option (List EB)) (j : Nat) : Bool × Option XR :=
  match v with
  | none => (false, none)
  | some es =>
    let x := (es.drop (4 * j)).take 4
    (hasBad x, some (exact f32 (ebNat x)))

/-- The exact value of datum (i, j) after scale, bias and rectification, and whether it is bad (R354). -/
def stValue (m : Matrix) (r : Rect) (relu : Bool) (sc bi : Option (List EB)) (i j : Nat) : Bool × XR :=
  let cell := r.cell i j
  let x := exact r.fmt (accDatum m r.wide cell)
  let s := vecAt sc j
  let b := vecAt bi j
  let v := match s.2 with
    | some s => XR.mul x s
    | none => x
  let v := match b.2 with
    | some b => XR.add v b
    | none => v
  (accBad m r.wide cell || s.1 || b.1, if relu && !XR.lt XR.zero v && !v.isNan then XR.zero else v)

/-- A row of acc.st as bytes. -/
def stRow (m : Matrix) (r : Rect) (relu : Bool) (sc bi : Option (List EB)) (dfmt : Nat) (lg : Legend) (i : Nat) :
    List EB :=
  let vs := (List.range r.perRow).map (stValue m r relu sc bi i)
  if isAtomType dfmt then
    let f := AFmt.ofType dfmt
    (List.range (r.perRow / f.n)).flatMap fun t =>
      let part := (vs.drop (t * f.n)).take f.n
      if part.any (·.1) then List.replicate f.bytes .bad
      else goods (toBytes f.bytes (encodeAtom f lg (part.map (·.2))))
  else
    let size := mmaSize dfmt
    vs.flatMap fun v =>
      if v.1 then List.replicate size .bad else goods (toBytes size (rneBits (fmtOfType dfmt) v.2))

/-- A binary32 vector of n entries at an engine address; none at 0. -/
def readVec (ea : Early) (d : Device) (core : Nat) (a : Word) (n : Nat) : Option (List EB) × Option Nat × Device :=
  if a = 0 then (none, none, d)
  else
    let r := mxRead ea d core a (4 * n)
    (some r.1, r.2)

/-- The codes that an acc.st's descriptor breaches. -/
def accStCodes (w : List Word) (r : Rect) : List Nat :=
  let g (k : Nat) : Word := w.getD k 0
  let dfmt := fld (g 0) 47 40
  let n := if isAtomType dfmt then (AFmt.ofType dfmt).n else 1
  let size := mmaSize dfmt
  let ld := fld (g 2) 31 0
  let row := r.perRow / n * size
  let vec (a : Word) : Option Nat := if a = 0 then none else rangeFault false a (4 * r.perRow)
  codesOf [
    need (fld (g 0) 7 0 == 0x54 && fld (g 0) 63 49 == 0 && fld (g 2) 63 32 == 0
      && [4, 5, 6, 8, 9, 10].contains dfmt && r.perRow % n == 0 && decide (row ≤ ld)
      && decide (spOf (g 5) ≤ 1) && resOk (g 5)) cDescriptor,
    rangeFault false (g 1) ((r.nrow - 1) * ld + row), vec (g 3), vec (g 4),
    need (adOf (g 1) % size == 0 && ld % size == 0 && adOf (g 3) % 4 == 0 && adOf (g 4) % 4 == 0) clsAlign]

/-- What a storing command comes to: the code it ends with and the pieces that it writes, or the code of a failure before
anything is written. -/
abbrev StOut := Except Nat (Nat × List (Word × List EB)) × Device

/-- What an acc.st writes (R354). -/
def accStOut (ea : Early) (d : Device) (core : Nat) (priv : Bool) (w : List Word) : StOut :=
  let g (k : Nat) : Word := w.getD k 0
  let dfmt := fld (g 0) 47 40
  match rectOf (fld (g 0) 39 8) with
  | none => (.error cDescriptor, d)
  | some r =>
    let lg := mmaLegend d core priv dfmt (g 5)
    let codes := accStCodes w r
    match lg.1, codes with
    | .ok lgd, [] =>
      let sc := readVec ea lg.2 core (g 3) r.perRow
      let bi := readVec ea sc.2.2 core (g 4) r.perRow
      let d := bi.2.2
      let bad := codesOf [sc.2.1, bi.2.1]
      if bad ≠ [] then (.error (lowest bad), d)
      else
        let m := (d.core core).mx
        let relu := bit (g 0) 48
        let ps := (List.range r.nrow).map fun i =>
          (eaPlus (g 1) (i * fld (g 2) 31 0), stRow m r relu sc.1 bi.1 dfmt lgd i)
        (.ok (if ps.any fun p => hasBad p.2 then clsEcc else 0, ps), d)
    | .error c, codes => (.error (lowest (c.1 :: codes)), lg.2)
    | .ok _, codes => (.error (lowest codes), lg.2)

/-- The pieces of a storing command as its queue entry keeps them, cut into words (R368). -/
def keepPieces (ps : List (Word × List EB)) : List (Word × List (Option Byte)) :=
  (ps.flatMap wordPieces).map fun p => (p.1, p.2.map EB.kept)

/-- The pieces that a queue entry keeps. -/
def keptPieces (ps : List (Word × List (Option Byte))) : List (Word × List EB) :=
  ps.map fun p => (p.1, p.2.map EB.ofKept)

/-- A storing command completes: it writes what it has not written yet, and ends with its code. -/
def storeExec (outs : Option (Nat × List (Word × List (Option Byte)))) (core : Nat) (o : StOut) (d : Device) :
    Nat × Device :=
  let finish (code : Nat) (ps : List (Word × List EB)) (d : Device) : Nat × Device :=
    let x := writeOut d core ps
    (lowest (codesOf [need (x.1 == 0) x.1, need (code == 0) code]), x.2)
  match outs with
  | some (code, ps) => finish code (keptPieces ps) d
  | none => match o with
    | (.error c, d) => (c, d)
    | (.ok (code, ps), d) => finish code ps d

/-! ## acc.drain, acc.fill (R362) -/

/-- The rows of a half of the corner-turn buffer as 16 KiB. -/
def cornerBytes (efmt : Nat) (rows : List (List (BitVec 32))) : List Byte :=
  let size := if efmt = 6 then 2 else 4
  let bs := rows.flatMap fun r => (List.range 64).flatMap fun j => toBytes size (r.getD j 0).toNat
  bs ++ List.replicate (16384 - bs.length) 0

/-- The rows that 16 KiB hold. -/
def cornerRows (efmt n : Nat) (bs : List Byte) : List (List (BitVec 32)) :=
  let size := if efmt = 6 then 2 else 4
  (List.range n).map fun r => (List.range 64).map fun j =>
    BitVec.ofNat 32 (ofBytes ((bs.drop (size * (64 * r + j))).take size))

/-- The engine state image: 36 KiB, with the queue entries 0; F, D and EFMT as three words (DEDUCED, log 20). -/
def stateImage (k : Corner) : List Byte :=
  List.replicate 0x400 0
    ++ bytesOfWords [BitVec.ofNat 64 k.fill.length, BitVec.ofNat 64 k.read.length, BitVec.ofNat 64 k.efmt]
    ++ List.replicate (0x1000 - 0x418) 0 ++ cornerBytes k.efmt k.fill ++ cornerBytes k.efmt k.read

/-- The buffer that an engine state image gives; the shadow then holds the counts after the commands that are
queued. -/
def ofStateImage (queue : List MxCmd) (bs : List Byte) : Corner :=
  let f := min 64 (ofBytes ((bs.drop 0x400).take 8))
  let r := min 64 (ofBytes ((bs.drop 0x408).take 8))
  let e := ofBytes ((bs.drop 0x410).take 8)
  let s := queue.foldl (fun s q => ctCounts q.opc q.typ q.ct q.desc s) (f, r)
  ⟨e, cornerRows e f (bs.drop 0x1000), cornerRows e r (bs.drop 0x5000), s.1, s.2⟩

/-- The codes that an acc.drain's or acc.fill's descriptor breaches. -/
def drainCodes (opc : Nat) (w : List Word) (r : Rect) : List Nat :=
  let g (k : Nat) : Word := w.getD k 0
  let st := bit (g 0) 48
  codesOf [
    need (fld (g 0) 7 0 == opc && fld (g 0) 63 49 == 0 && fld (g 0) 47 40 == 0 && ((w.drop 3).take 3).all (· == 0)
      && decide (spOf (g 2) ≤ 1) && resOk (g 2) && (!st || adOf (g 2) % 64 == 0)) cDescriptor,
    rangeFault false (g 1) (4 * r.nrow * r.ncol),
    if st then rangeFault false (g 2) 0x9000 else none,
    need (adOf (g 1) % 4 == 0) clsAlign]

/-- The cells of a rectangle as data. -/
def cellBytes (m : Matrix) (r : Rect) : List EB :=
  (List.range r.nrow).flatMap fun i => (List.range r.ncol).flatMap fun j =>
    let cell := 128 * (r.row0 + i) + r.col0 + j
    if m.bad.contains cell then List.replicate 4 .bad else goods (toBytes 4 (m.acc.get cell).toNat)

/-- What an acc.drain writes (R362). -/
def accDrainOut (d : Device) (core : Nat) (w : List Word) : StOut :=
  let w0 := w.getD 0 0
  match rectOf (fld w0 39 8) with
  | none => (.error cDescriptor, d)
  | some r =>
    let codes := drainCodes 0x5A w r
    if codes ≠ [] then (.error (lowest codes), d)
    else
      let m := (d.core core).mx
      let es := cellBytes m r
      (.ok (if hasBad es then clsEcc else 0,
        (w.getD 1 0, es) :: if bit w0 48 then [(w.getD 2 0, goods (stateImage m.corner))] else []), d)

/-- acc.fill; queue lists the commands whose steps the shadow has taken and the buffer has not. -/
def accFillExec (ea : Early) (d : Device) (core : Nat) (w : List Word) (queue : List MxCmd) : Nat × Device :=
  let w0 := w.getD 0 0
  match rectOf (fld w0 39 8) with
  | none => (cDescriptor, d)
  | some r =>
    let codes := drainCodes 0x5B w r
    if codes ≠ [] then (lowest codes, d)
    else
      let st := if bit w0 48 then mxRead ea d core (w.getD 2 0) 0x9000 else ([], none, d)
      let flat : Rect := { r with wide := false }
      let x := readRows ea st.2.2 core (w.getD 1 0) (4 * r.ncol) (4 * r.ncol) (List.range r.nrow)
      let o := fillRect x.2.2 core flat 4 id x.1 x.2.1
      let code := lowest (codesOf [st.2.1, need (!hasBad st.1) clsEcc, need (o.1 == 0) o.1])
      if bit w0 48 && st.2.1.isNone && !hasBad st.1 && x.2.1.isNone then
        (code, o.2.modCore core fun c => c.setCorner (ofStateImage queue (vals st.1)))
      else (code, o.2)

/-! ## wupd (R358 to R360) -/

/-- What a wupd works with: the arrays, G's element size, the nine constants and COUNT. -/
structure Upd where
  w : Word
  m : Word
  v : Word
  g : Word
  gsize : Nat
  k : List XR
  count : Nat
  rpt : Word
  deriving Repr, Inhabited

/-- One element: W, M and V from W, M, V and G (R359). -/
def updElem (u : Upd) (wb mb vb gb : Nat) : Nat × Nat × Nat :=
  let k (i : Nat) : XR := u.k.getD i .zero
  let r (x : XR) : XR := exact f32 (rneBits f32 x)
  let g := exact (if u.gsize = 2 then bf16 else f32) gb
  let w := exact f32 wb
  let m1 := rneBits f32 (XR.add (XR.mul (k 0) (exact f32 mb)) (XR.mul (k 1) g))
  let v1 := rneBits f32 (XR.add (XR.mul (k 2) (exact f32 vb)) (XR.mul (XR.mul (k 3) g) g))
  let mh := r (XR.mul (k 4) (exact f32 m1))
  let vh := rneBits f32 (XR.mul (k 5) (exact f32 v1))
  let dn := r (XR.add (exact f32 (fpSqrt f32 vh).1) (k 6))
  let q := exact f32 (rneDiv f32 mh dn).1
  (rneBits f32 (XR.sub (XR.sub w (XR.mul (k 7) q)) (XR.mul (k 8) w)), m1, v1)

/-- A granule of a wupd: what it writes, the elements that it skips, counted from the first of all, and the code of an
access that failed (R360). -/
structure UpdGran where
  pieces : List (Word × List EB)
  skipped : List Nat
  fail : Option Nat
  deriving Repr, Inhabited

/-- A granule of 1,024 elements. -/
def updGran (ea : Early) (core : Nat) (u : Upd) (k : Nat) (d : Device) : UpdGran × Device :=
  let n := min 1024 (u.count - 1024 * k)
  let rw := mxRead ea d core (eaPlus u.w (4096 * k)) (4 * n)
  let rm := mxRead ea rw.2.2 core (eaPlus u.m (4096 * k)) (4 * n)
  let rv := mxRead ea rm.2.2 core (eaPlus u.v (4096 * k)) (4 * n)
  let rg := mxRead ea rv.2.2 core (eaPlus u.g (1024 * u.gsize * k)) (u.gsize * n)
  let part (r : List EB) (size i : Nat) : List EB := (r.drop (size * i)).take size
  let item (i : Nat) : Bool × Option (Nat × Nat × Nat) :=
    let a := part rw.1 4 i ++ part rm.1 4 i ++ part rv.1 4 i ++ part rg.1 u.gsize i
    if a.any (· == .miss) || hasBad a then (hasBad a, none)
    else (false, some (updElem u (ebNat (part rw.1 4 i)) (ebNat (part rm.1 4 i)) (ebNat (part rv.1 4 i))
      (ebNat (part rg.1 u.gsize i))))
  let items := (List.range n).map item
  let col (f : Nat × Nat × Nat → Nat) : List EB := items.flatMap fun x => match x.2 with
    | some y => goods (toBytes 4 (f y))
    | none => List.replicate 4 .miss
  let skipped := (List.range n).filter fun i => (items.getD i default).1
  let fails := codesOf [rw.2.1, rm.2.1, rv.2.1, rg.2.1]
  (⟨[(eaPlus u.w (4096 * k), col (·.1)), (eaPlus u.m (4096 * k), col (·.2.1)), (eaPlus u.v (4096 * k), col (·.2.2))],
    skipped.map (1024 * k + ·), if fails = [] then none else some (lowest fails)⟩, rg.2.2)

/-- Granule k is read and written, or, where an access fails, a free choice of its words is: its notes, and the code. -/
def runUpdGran (ea : Early) (core : Nat) (u : Upd) (k : Nat) (d : Device) : List Nat × Option Nat × Device :=
  let g := updGran ea core u k d
  match g.1.fail with
  | some c => (g.1.skipped, some c, writeSubset g.2 core .none g.1.pieces)
  | none =>
    let o := writeOut g.2 core g.1.pieces
    (g.1.skipped, if o.1 = 0 then none else some o.1, o.2)

/-- n granules from k on, up to the first that fails: their notes, and that granule with its code. -/
def runUpdGrans (ea : Early) (core : Nat) (u : Upd) : (n k : Nat) → Device → List Nat × Option (Nat × Nat) × Device
  | 0, _, d => ([], none, d)
  | n + 1, k, d =>
    match runUpdGran ea core u k d with
    | (xs, some c, d) => (xs, some (k, c), d)
    | (xs, none, d) =>
      let r := runUpdGrans ea core u n (k + 1) d
      (xs ++ r.1, r.2)

/-- After a failure a free choice of the words of later granules may have been written too: elements are processed in
any order (R316, R359). -/
def strayUpd (ea : Early) (core : Nat) (u : Upd) : (n k : Nat) → Device → Device
  | 0, _, d => d
  | n + 1, k, d =>
    let g := updGran ea core u k d
    strayUpd ea core u n (k + 1) (writeSubset g.2 core .none g.1.pieces)

/-- The codes that a wupd's descriptor breaches, before its parameter record is read. -/
def updCodes (w : List Word) : List Nat :=
  let g (k : Nat) : Word := w.getD k 0
  let prm := g 5
  let gsize := if bit (g 0) 8 then 2 else 4
  codesOf [
    need (fld (g 0) 7 0 == 0x58 && fld (g 0) 63 9 == 0 && adOf prm % 64 == 0) cDescriptor,
    rangeFault false prm 64,
    rangeFault false (g 1) 4, rangeFault false (g 2) 4, rangeFault false (g 3) 4, rangeFault false (g 4) gsize,
    need (adOf (g 1) % 4 == 0 && adOf (g 2) % 4 == 0 && adOf (g 3) % 4 == 0 && adOf (g 4) % gsize == 0) clsAlign]

/-- The update that a descriptor and its parameter record's bytes name, with the codes that they breach. -/
def updRec (w : List Word) (es : List EB) : Upd × List Nat :=
  let g (k : Nat) : Word := w.getD k 0
  let gsize := if bit (g 0) 8 then 2 else 4
  let p (off n : Nat) : Nat := ebNat ((es.drop off).take n)
  let rpt : Word := BitVec.ofNat 64 (p 48 8)
  let u : Upd := ⟨g 1, g 2, g 3, g 4, gsize, (List.range 9).map fun i => exact f32 (p (4 * i) 4), p 40 8, rpt⟩
  (u, codesOf [
    need (p 36 4 == 0 && p 56 8 == 0 && decide (1 ≤ u.count ∧ u.count ≤ 2 ^ 32)) cDescriptor,
    rangeFault false u.w (4 * u.count), rangeFault false u.m (4 * u.count), rangeFault false u.v (4 * u.count),
    rangeFault false u.g (gsize * u.count), if rpt = 0 then none else rangeFault false rpt 16])

/-- The update that a wupd performs, or the lowest code of what its descriptor, its parameter record and its report
address breach (R317, R358, R360). -/
def updOf (ea : Early) (d : Device) (core : Nat) (w : List Word) : Except Nat Upd × Device :=
  let pre := updCodes w
  if (rangeFault false (w.getD 5 0) 64).isSome then (.error (lowest pre), d)
  else
    let x := mxRead ea d core (w.getD 5 0) 64
    let d := x.2.2
    let read := codesOf [x.2.1, need (!hasBad x.1) clsEcc]
    if read ≠ [] then (.error (lowest (pre ++ read)), d)
    else
      let r := updRec w x.1
      let o : Option Nat × Device :=
        if r.1.rpt = 0 ∨ (rangeFault false r.1.rpt 16).isSome then (none, d)
        else piecesFault d core .none [(r.1.rpt, zeros 16)]
      let codes := pre ++ r.2 ++ codesOf [o.1]
      (if codes = [] then .ok r.1 else .error (lowest codes), o.2)

/-- The granules of an update. -/
def Upd.grans (u : Upd) : Nat := ceilDiv u.count 1024

/-- A command's cursor after granules that have skipped elements. -/
def MxCmd.advance (q : MxCmd) (n : Nat) (xs : List Nat) : MxCmd :=
  { q with cursor := q.cursor + n, skips := q.skips + xs.length, low := if q.skips ≠ 0 then q.low else xs.headD 0 }

/-- The report of an update, as pieces (R360). -/
def Upd.report (u : Upd) (q : MxCmd) : List (Word × List EB) :=
  if u.rpt = 0 then [] else [(u.rpt, goods (bytesOfWords [BitVec.ofNat 64 q.skips, BitVec.ofNat 64 q.low]))]

/-- The granule of a wupd that has words still to write is completed: the code of a failed write, 0 for none. -/
def endUpdGran (d : Device) (core : Nat) (u : Upd) (q : MxCmd) : Nat × MxCmd × Device :=
  match q.outs with
  | some (_, ps) =>
    if q.cursor < u.grans then
      let o := writeOut d core (keptPieces ps)
      (o.1, { q with cursor := q.cursor + 1, outs := none }, o.2)
    else (0, q, d)
  | none => (0, q, d)

/-- wupd runs from its cursor to its end; it then writes what it has not written of the report and ends with PARTIAL if it
skipped any element (R360). -/
def wupdExec (d : Device) (core : Nat) (q : MxCmd) : Nat × Device :=
  match updOf q.early d core q.desc with
  | (.error c, d) => (c, d)
  | (.ok u, d) =>
    let stray (k : Nat) (d : Device) : Device := strayUpd q.early core u (u.grans - k - 1) (k + 1) d
    match endUpdGran d core u q with
    | (0, q, d) =>
      match runUpdGrans q.early core u (u.grans - q.cursor) q.cursor d with
      | (_, some (k, c), d) => (c, stray k d)
      | (xs, none, d) =>
        let q := q.advance 0 xs
        let o := writeOut d core (match q.outs with
          | some (_, ps) => keptPieces ps
          | none => u.report q)
        (lowest (codesOf [need (o.1 == 0) o.1, need (q.skips == 0) cPartial]), o.2)
    | (c, _, d) => (c, stray q.cursor d)

/-- A wupd goes on by a number of granules, none beyond the last but one, once a granule that it has begun is done; one
that would fail is left to its end. -/
def stepUpd (d : Device) (core n : Nat) (q : MxCmd) : MxCmd × Device :=
  match updOf q.early d core q.desc with
  | (.error _, d') => (q, d')
  | (.ok u, d') =>
    match endUpdGran d' core u q with
    | (0, q', d') =>
      let n := min n (u.grans - q'.cursor - 1)
      match runUpdGrans q'.early core u n q'.cursor d' with
      | (_, some _, _) => (q, d)
      | (xs, none, d) => (q'.advance n xs, d)
    | _ => (q, d)

/-- The runs of bytes that pieces write, cut into words, as a queue entry keeps them; a skipped element's are left out
(R360, R368). -/
def keepRuns (ps : List (Word × List EB)) : List (Word × List (Option Byte)) :=
  (ps.flatMap wordPieces).flatMap fun p =>
    (runsOf (adOf p.1) p.2).map fun r => (eaPlus p.1 (r.1 - adOf p.1), r.2.map some)

/-- The cursor of a wupd moves past a granule all of whose words are written. -/
def MxCmd.passGran (q : MxCmd) (u : Upd) : MxCmd :=
  if q.cursor < u.grans ∧ q.outs.any (·.2 == []) then { q with cursor := q.cursor + 1, outs := none } else q

/-- What a wupd has to write next, kept in its entry: the words of the granule at its cursor, whose skipped elements are
counted, or those of the report; none where an access fails. -/
def beginUpd (d : Device) (core : Nat) (u : Upd) (q : MxCmd) : Option MxCmd × Device :=
  if q.outs.isSome then (some q, d)
  else if q.cursor < u.grans then
    let g := updGran q.early core u q.cursor d
    match g.1.fail, piecesFault g.2 core .none g.1.pieces with
    | none, (none, d) => (some { q.advance 0 g.1.skipped with outs := some (0, keepRuns g.1.pieces) }, d)
    | _, (_, d) => (none, d)
  else (some { q with outs := some (0, keepRuns (u.report q)) }, d)

/-- A pre-emption stops a wupd after a free number of its remaining granules (R369). -/
def pauseUpd (d : Device) (core : Nat) (q : MxCmd) : MxCmd × Device :=
  let (v, d) := d.draw
  let r := stepUpd d core v q
  ({ r.1 with early := [] }, r.2)

/-! ## Self-test and fencing (R363 to R366, R439) -/

/-- A device number that no rule gives a machine-check record. -/
def unstated (d : Device) : Word × Device :=
  let (v, d) := d.draw
  (BitVec.ofNat 64 v, d)

/-- Is the core bound to a saved context that it has not restored yet (R293, R435)? -/
def awaitsRestore (d : Device) (c : Core) : Bool :=
  c.preempt == .saved && match c.bound with
    | some b => ((launchOf d b.record).bind fun l => l.saved.find b.cidx).isNone
    | none => false

/-- The cores that still hold a launch. -/
def liveCores (d : Device) (l : Launch) : List Nat :=
  l.cores.filter fun k => match (d.core k).bound with
    | some b => b.run == l.run
    | none => false

/-- The distributor sends a pre-emption request to cores (R437). -/
def sendPreempt (d : Device) (cores : List Nat) : Device :=
  cores.foldl (init := d) fun d k =>
    if (d.core k).bound.isSome && ((d.core k).preempt == .none || awaitsRestore d (d.core k)) then
      d.modCore k fun c => { c with preemptSent := true }
    else d

/-- How many quadrants are fenced, from SYS_MXSTAT. -/
def fenced (stat : Word) (q : Nat) : Bool := bit stat q

/-- A saturating count of SYS_MXSTAT goes up. -/
def bumpStat (stat : Word) (hi lo : Nat) : Word := setFld stat hi lo (min 255 (fld stat hi lo + 1))

/-- A quadrant that failed its test: retested, counted, fenced where the failure lasts, and reported; true when the
core goes out of service instead of losing its last quadrant (R364, R365). -/
def quadFails (d : Device) (now core q : Nat) (lasting : Bool) : Bool × Device :=
  let c := d.core core
  let stat := c.regs.mxstat
  let others := (List.range 4).any fun i => i != q && !fenced stat i
  let lost := lasting && !fenced stat q && !others
  let stat := if lasting then bumpStat stat 23 16 else bumpStat stat 15 8
  let stat := if lasting && !lost then setFld stat q q 1 else stat
  let d := d.modCore core fun c => { c with regs := { c.regs with mxstat := stat } }
  let (v, d) := d.draw
  let (a, d) := unstated d
  (lost, machineCheck d now 4 (if lasting then 2 else v % 2) core a (BitVec.ofNat 64 c.mx.sincePass))

/-- The test of the quadrants of a mask: those in bad fail, those in lasting fail their retest. -/
def testQuads (d : Device) (now core : Nat) (which bad lasting : Nat → Bool) : Bool × Device :=
  let qs := (List.range 4).filter fun q => which q && bad q
  let r := qs.foldl (init := (false, d)) fun s q =>
    let x := quadFails s.2 now core q (lasting q)
    (s.1 || x.1, x.2)
  if qs = [] then (false, r.2.modCore core fun c => { c with mx := { c.mx with sincePass := 0 } }) else r

/-- The matrix engine goes out of service: its queued commands end with ABORTED, the distributor records the core and
pre-empts its launch, and binds nothing more to it (R365, R439). -/
def matrixOut (d : Device) (now core : Nat) : Device :=
  let c := d.core core
  let d := completeAll d core cAborted (c.mx.queue.map (·.comp))
  let d := d.modCore core fun c => { c with mx := { c.mx with queue := [] }, inService := false }
  match c.bound with
  | none => d
  | some b =>
    let (a, d) := unstated d
    sendPreempt (machineCheck d now 8 2 core a 0) (((launchOf d b.record).map (liveCores d)).getD [])

/-- Is the periodic test due (R364)? -/
def testDue (c : Core) : Bool :=
  let n := fld c.regs.mxtest 15 0
  n != 0 && decide (n ≤ c.mx.sinceTest)

/-- MX_SELF_TEST (R364): which unfenced quadrants fail and which fail their retest are given. -/
def selfTest (d : Device) (now core : Nat) (bad lasting : BitVec 4) : Device :=
  let c := d.core core
  if !testDue c || c.frozen || !c.inService then d
  else
    let d := d.modCore core fun c => { c with mx := { c.mx with sinceTest := 0 } }
    let r := testQuads d now core (fun q => !fenced c.regs.mxstat q) bad.getLsbD lasting.getLsbD
    if r.1 then matrixOut r.2 now core else r.2

/-- MX_SELF_TEST. -/
def execMxSelfTest (core : Nat) (bad lasting : BitVec 4) (s : State) : Host.Outcome State Fault Refusal :=
  onDevice s fun d => selfTest d s.clock core bad lasting

/-- mx.test (R366): true when the core goes out of service. The tests' outcomes are free. -/
def mxTestExec (d : Device) (now core : Nat) (priv : Bool) (w : List Word) : Nat × Bool × Device :=
  let g (k : Nat) : Word := w.getD k 0
  let unfence := bit (g 0) 9
  let rpt := g 1
  let codes := codesOf [
    need (fld (g 0) 7 0 == 0x5C && fld (g 0) 63 10 == 0 && ((w.drop 2).take 4).all (· == 0)
      && (rpt == 0 || adOf rpt % 8 == 0)) cDescriptor,
    if rpt = 0 then none else rangeFault false rpt 8,
    need (!unfence || priv) clsPermission]
  if codes ≠ [] then (lowest codes, false, d)
  else
    let (v, d) := d.draw
    let (u, d) := d.draw
    let was := (d.core core).regs.mxstat
    let r := if bit (g 0) 8 then
        testQuads d now core (fun _ => true) (fun q => v / 2 ^ q % 2 == 1) (fun q => u / 2 ^ q % 2 == 1)
      else (false, d)
    let free (stat : Word) : Word := (List.range 4).foldl (init := stat) fun s q =>
      if unfence && fenced was q && v / 2 ^ q % 2 == 0 && u / 2 ^ q % 2 == 0 then setFld s q q 0 else s
    let d := r.2.modCore core fun c => { c with regs := { c.regs with mxstat := free c.regs.mxstat } }
    let o := if rpt = 0 then (0, d)
      else writeOut d core [(rpt, goods (toBytes 8 (d.core core).regs.mxstat.toNat))]
    (o.1, r.1, o.2)

/-! ## The queue (R342, R343) -/

/-- The command that is now at the head of a queue notes when it got there. -/
def stampHead (now : Nat) (q : List MxCmd) : List MxCmd :=
  match q with
  | c :: t => { c with since := some (c.since.getD now) } :: t
  | [] => []

/-- The head of the queue leaves, with its completion word written; mma commands count towards the tests (R343,
R364). -/
def endHead (d : Device) (now core code : Nat) : Device :=
  match (d.core core).mx.queue with
  | [] => d
  | q :: rest =>
    let n := if q.opc = 0x50 ∨ q.opc = 0x51 then 1 else 0
    let d := d.modCore core fun c => { c with mx := { c.mx with
      queue := stampHead now rest, sinceTest := c.mx.sinceTest + n, sincePass := c.mx.sincePass + n } }
    complete d core q.comp code

/-- MASK of an acc.red. -/
def MxCmd.mask (q : MxCmd) : Nat := fld (q.desc.getD 0 0) 47 40

/-- The run that a core is bound to. -/
def runOf (d : Device) (core : Nat) : Option Nat := (d.core core).bound.map (·.run)

/-- The $cidx of the cores of a core's cluster that a MASK names, in rank order, where they run the same launch (R355). -/
def matesOf (d : Device) (core mask : Nat) : List (Option Nat) :=
  ((List.range 8).filter fun k => mask / 2 ^ k % 2 == 1).map fun k =>
    let m := clusterOf core * 8 + k
    if runOf d m = runOf d core then (d.core m).bound.map (·.cidx) else none

/-- The members of an acc.red of a core, in rank order, on the cores that run them now (R22, R355, R369); fewer where one
is gone. -/
def redMembers (d : Device) (core : Nat) (q : MxCmd) : List Nat :=
  match runOf d core with
  | none => []
  | some run => q.mates.filterMap fun k => k.bind fun k => coreOfRun d run k

/-- What an acc.red's own descriptor or its members breach with DESCRIPTOR (R344, R355), and whether RECT and STAGE are
among it. -/
def redBreach (d : Device) (core : Nat) (q : MxCmd) : Bool × Bool :=
  let g (k : Nat) : Word := q.desc.getD k 0
  let ms := redMembers d core q
  let shared := (rectOf (fld (g 0) 39 8)).isNone || spOf (g 1) != 1 || !resOk (g 1) || adOf (g 1) % 64 != 0
  (shared || fld (g 0) 7 0 != 0x55 || fld (g 0) 63 48 != 0 || fld (g 2) 63 32 != 0
    || ((q.desc.drop 3).take 3).any (· != 0) || !ms.contains core || ms.length != q.mates.length, shared)

/-- Does STAGE leave the scratchpad (R344)? -/
def redLeaves (q : MxCmd) : Bool :=
  match rectOf (fld (q.desc.getD 0 0) 39 8) with
  | none => false
  | some r => decide (scratchSize < adOf (q.desc.getD 1 0) + 4 * r.nrow * r.ncol)

/-- Is a failed instance that of an acc.red: its MASK, its members and its number are the same? -/
def RedFail.isOf (f : RedFail) (q : MxCmd) : Bool := f.mask == q.mask && f.mates == q.mates && f.nth == q.nth

/-- The code that the instance of an acc.red has failed with, if it has (R355, R357). -/
def redFailed (d : Device) (core : Nat) (q : MxCmd) : Option Nat :=
  (d.redFailed.find? fun f => some f.run == runOf d core && f.isOf q).map (·.code)

/-- The instance of an acc.red of a core fails with a code, for every member whose command is still to end. -/
def failRed (d : Device) (core : Nat) (q : MxCmd) (code : Nat) : Device :=
  match runOf d core with
  | none => d
  | some run => if (redFailed d core q).isSome then d else
      { d with redFailed := ⟨run, q.mask, q.mates, q.nth, code, []⟩ :: d.redFailed }

/-- The acc.red at the head of a core's queue ends with the code of its failed instance, which is forgotten once the
command of every member has ended. -/
def endRed (d : Device) (now core : Nat) (q : MxCmd) (code : Nat) : Device :=
  let d := endHead d now core code
  let here (f : RedFail) : Bool := some f.run == runOf d core && f.isOf q
  let note (f : RedFail) : RedFail :=
    if here f then { f with ended := ((d.core core).bound.map (·.cidx)).toList ++ f.ended } else f
  { d with redFailed := (d.redFailed.map note).filter fun f => !(f.mates.all fun k => k.all f.ended.contains) }

/-- A command other than acc.red executes: its code, whether the core goes out of service, and the device. -/
def runCmd (d : Device) (now core : Nat) (q : MxCmd) (rest : List MxCmd) : Nat × Bool × Device :=
  let plain (r : Nat × Device) : Nat × Bool × Device := (r.1, false, r.2)
  let mma (r : Failing × Device) : Nat × Bool × Device := (r.1.1, false, r.2)
  match q.opc with
  | 0x50 => mma (mmaExec q.early d core q.priv false q.ct q.typ q.desc)
  | 0x51 => mma (mmaExec q.early d core q.priv true false q.typ q.desc)
  | 0x52 => plain (accZeroExec d core q.desc)
  | 0x53 => plain (accLdExec q.early d core q.desc)
  | 0x54 => plain (storeExec q.outs core (accStOut q.early d core q.priv q.desc) d)
  | 0x56 => plain (ctFillExec q.early d core q.desc)
  | 0x57 => plain (ctFlushExec d core q.desc)
  | 0x58 => plain (wupdExec d core q)
  | 0x5A => plain (storeExec q.outs core (accDrainOut d core q.desc) d)
  | 0x5B => plain (accFillExec q.early d core q.desc rest)
  | 0x5C => mxTestExec d now core q.priv q.desc
  | _ => (0, false, d)

/-- May the engine of a core start a command? -/
def mxRuns (c : Core) : Bool := !c.frozen && c.inService && !testDue c

/-- The head of the queue replaced. -/
def setMxHead (d : Device) (core : Nat) (q : MxCmd) : Device :=
  d.modCore core fun c => { c with mx := { c.mx with queue := q :: c.mx.queue.drop 1 } }

/-- An acc.red at the head: it ends with its own defect, which fails its instance where the defect lies in what all
members must name alike, or as its instance has failed; else it waits (R355, R357). -/
def redExecute (d : Device) (now core : Nat) (q : MxCmd) : Device :=
  match redFailed d core q, redBreach d core q with
  | some c, (bad, _) => endRed d now core q (if bad then cDescriptor else c)
  | none, (true, shared) => endRed (if shared then failRed d core q cDescriptor else d) now core q cDescriptor
  | none, (false, _) => d

/-- MATRIX_CMD_EXECUTE: the command at the head executes, but for an acc.red that waits for its members. -/
def matrixExecute (d : Device) (now core : Nat) : Device :=
  let c := d.core core
  match c.mx.queue with
  | [] => d
  | q :: rest =>
    if !mxRuns c then d
    else if q.opc = 0x55 then redExecute d now core q
    else
      let r := runCmd d now core q rest
      let d := endHead r.2.2 now core r.1
      if r.2.1 then matrixOut d now core else d

/-- MATRIX_CMD_EXECUTE (R343). -/
def execMatrixCmdExecute (core : Nat) (s : State) : Host.Outcome State Fault Refusal :=
  onDevice s fun d => matrixExecute d s.clock core

/-- The command at the head reads the aligned word at an engine address before it completes (R367). -/
def readAhead (d : Device) (core : Nat) (a : Word) (q : MxCmd) : Device :=
  if adOf a % 8 ≠ 0 ∨ q.early.any fun e => e.1 == a then d
  else match readCode d core .none a 8 with
    | (es, none, d) => setMxHead d core { q with early := (a, es.map EB.kept) :: q.early }
    | (_, some _, d) => d

/-- What a storing command at the head comes to. -/
def headOut (d : Device) (core : Nat) (q : MxCmd) : StOut :=
  if q.opc = 0x54 then accStOut q.early d core q.priv q.desc else accDrainOut d core q.desc

/-- One of the words that the entry at the head still has to write is written; f settles the entry. A write that fails is
left to the command's end. -/
def wordAhead (d : Device) (core k : Nat) (q : MxCmd) (f : MxCmd → MxCmd) : Device :=
  match q.outs with
  | none => d
  | some (code, ps) =>
    match ps[k % ps.length]? with
    | none => setMxHead d core (f q)
    | some p => match ewrite d core p.1 (p.2.map EB.ofKept) with
      | (some _, d) => d
      | (none, d) => setMxHead d core (f { q with outs := some (code, ps.eraseIdx (k % ps.length)) })

/-- The storing command at the head, or the wupd, writes one word of its output before the others (R368). -/
def writeAhead (d : Device) (core k : Nat) (q : MxCmd) : Device :=
  if q.opc = 0x58 then
    match updOf q.early d core q.desc with
    | (.error _, _) => d
    | (.ok u, d') => match beginUpd d' core u q with
      | (some q, d') => wordAhead d' core k q (·.passGran u)
      | (none, _) => d
  else if q.opc ≠ 0x54 ∧ q.opc ≠ 0x5A then d
  else match q.outs with
    | some _ => wordAhead d core k q id
    | none => match headOut d core q with
      | (.error _, _) => d
      | (.ok (code, ps), d') => match piecesFault d' core .none ps with
        | (some _, _) => d
        | (none, d') => wordAhead d' core k { q with outs := some (code, keepPieces ps) } id

/-- One access of the command at the head of a matrix engine's queue, ahead of its completion. -/
def matrixAhead (d : Device) (core : Nat) (a : Word) (write : Bool) : Device :=
  let c := d.core core
  match c.mx.queue with
  | [] => d
  | q :: _ =>
    if !mxRuns c || q.opc == 0x55 then d
    else if write then writeAhead d core a.toNat q
    else readAhead d core a q

/-! ## The tree reduction (R355 to R357) -/

/-- Has the matched command of an acc.red reached the head of a member's queue (R356)? -/
def redArrived (d : Device) (q : MxCmd) (m : Nat) : Bool :=
  match (d.core m).mx.queue with
  | [] => false
  | x :: _ => x.opc == 0x55 && x.mask == q.mask && x.mates == q.mates && x.nth == q.nth && !(redBreach d m x).1

/-- Have all members arrived? -/
def redAll (d : Device) (q : MxCmd) (ms : List Nat) : Bool := ms.length == q.mates.length && ms.all (redArrived d q)

/-- Do the members' commands name the same RECT and STAGE? -/
def redAgrees (d : Device) (q : MxCmd) (m : Nat) : Bool :=
  match (d.core m).mx.queue with
  | [] => false
  | x :: _ => fld (x.desc.getD 0 0) 39 8 == fld (q.desc.getD 0 0) 39 8 && x.desc.getD 1 0 == q.desc.getD 1 0

/-- One member adds another's cells to its own; the members that met bad cells are noted. -/
def redPair (r : Rect) (dst frm : Nat) (s : List Nat × Device) : List Nat × Device :=
  let src := (s.2.core frm).mx
  let out := r.spots.foldl (init := ([], s.2.core dst)) fun (t : List Nat × Core) p =>
    let cell := r.cell p.1 p.2
    let bads := (if accBad src r.wide cell then [frm, dst] else []) ++ (if accBad t.2.mx r.wide cell then [dst] else [])
    if bads ≠ [] then (t.1 ++ bads, t.2.spoil r.wide cell)
    else
      let sum := XR.add (exact r.fmt (accDatum t.2.mx r.wide cell)) (exact r.fmt (accDatum src r.wide cell))
      (t.1, t.2.setDatum r.wide cell (rneBits r.fmt sum))
  (s.1 ++ out.1, s.2.modCore dst fun _ => out.2)

/-- The tree over the members in rank order (R356). -/
def redTree (r : Rect) (ms : List Nat) (d : Device) : List Nat × Device :=
  let pairs := [1, 2, 4].flatMap fun k => (List.range ms.length).filterMap fun p =>
    if p % (2 * k) = 0 ∧ p + k < ms.length then some (ms.getD p 0, ms.getD (p + k) 0) else none
  pairs.foldl (fun s p => redPair r p.1 p.2 s) ([], d)

/-- The staging areas hold unspecified bytes afterwards. -/
def redStage (d : Device) (ms : List Nat) (stage n : Nat) : Device :=
  ms.foldl (init := d) fun d m =>
    let (v, d) := d.draw
    engScratchWrite d m stage (toBytes n v)

/-- ACC_RED_START: with every member's matched command at its head, the tree runs; a mismatch of RECT or STAGE ends every
member's command with DESCRIPTOR, and a STAGE that leaves the scratchpad with BOUNDS (R344, R355). -/
def accRedStart (d : Device) (now core : Nat) : Device :=
  match (d.core core).mx.queue with
  | [] => d
  | q :: _ =>
    let ms := redMembers d core q
    if q.opc ≠ 0x55 ∨ !ms.contains core ∨ (redFailed d core q).isSome ∨ !redAll d q ms
        ∨ !ms.all (fun m => mxRuns (d.core m)) then d
    else if !ms.all (redAgrees d q) then ms.foldl (fun d m => endHead d now m cDescriptor) d
    else if redLeaves q then ms.foldl (fun d m => endHead d now m clsBounds) d
    else match rectOf (fld (q.desc.getD 0 0) 39 8) with
      | none => d
      | some r =>
        let t := redTree r ms d
        let d := redStage t.2 ms (adOf (q.desc.getD 1 0)) (4 * r.nrow * r.ncol)
        ms.foldl (fun d m => endHead d now m (if t.1.contains m then clsEcc else 0)) d

/-- ACC_RED_START (R356). -/
def execAccRedStart (core : Nat) (s : State) : Host.Outcome State Fault Refusal :=
  onDevice s fun d => accRedStart d s.clock core

/-- ACC_RED_TIMEOUT: TMO has passed at a member's head without every member arriving: the instance fails, at once for
those that wait at their heads, and on arrival for the rest (R357). -/
def accRedTimeout (d : Device) (now core : Nat) : Device :=
  match (d.core core).mx.queue with
  | [] => d
  | q :: _ =>
    let tmo := fld (q.desc.getD 2 0) 31 0
    let ms := redMembers d core q
    let due := decide (q.since.getD now + 1750 * tmo ≤ now)
    if q.opc ≠ 0x55 ∨ tmo = 0 ∨ !due ∨ (d.core core).frozen ∨ (redBreach d core q).1 ∨ (redFailed d core q).isSome
        ∨ redAll d q ms then d
    else
      (ms.filter fun m => redArrived d q m && !(d.core m).frozen).foldl (fun d m => endRed d now m q cTimeout)
        (failRed d core q cTimeout)

/-- ACC_RED_TIMEOUT (R357). -/
def execAccRedTimeout (core : Nat) (s : State) : Host.Outcome State Fault Refusal :=
  onDevice s fun d => accRedTimeout d s.clock core

/-! ## The command nodes (R28 to R30, R341, R342, R361) -/

/-- Does Meridian own the engine (R28)? -/
def mxOwned (c : Core) : Bool := c.mer.job.isSome

/-- Do acc.drain and acc.fill execute at once (R28, R362): the engine is frozen, or its job is stopped? -/
def mxBypass (c : Core) : Bool :=
  c.frozen || (match c.mer.job with
    | some j => j.stop.isSome
    | none => false)

/-- A command enters the queue (R342, R350, R355); the pass that R29 lets go on has offered one now. -/
def pushMx (c : Core) (now num : Nat) (q : MxCmd) : Core :=
  let n := (c.mx.reds.find q.mask).getD 0
  let q := if q.opc = 0x55 then { q with nth := n } else q
  let reds := if q.opc = 0x55 then c.mx.reds.put q.mask (n + 1) else c.mx.reds
  let grace := c.mer.grace.map fun g => if g.1 = num then (num, now) else g
  let c := { c with mer := { c.mer with grace := grace } }
  Core.stepShadow { c with mx := { c.mx with queue := stampHead now (c.mx.queue ++ [q]), reds := reds } }
    q.opc q.typ q.ct q.desc

/-- An acc.drain or acc.fill that executes at once, with its completion word (R362); without system privilege it ends with
the lowest of PERMISSION and what its descriptor breaches (R344). -/
def mxAtOnce (d : Device) (core opc : Nat) (priv : Bool) (ws : List Word) (k : Comp) : Device :=
  let r := if priv then
      (if opc = 0x5A then storeExec none core (accDrainOut d core ws) d
       else accFillExec [] d core ws (d.core core).mx.queue)
    else
      (lowest (clsPermission :: match rectOf (fld (ws.getD 0 0) 39 8) with
        | none => [cDescriptor]
        | some r => drainCodes opc ws r), d)
  complete r.2 core k r.1

/-- A command as it enters the queue. -/
def MxCmd.fresh (opc typ : Nat) (ct : Bool) (ws : List Word) (k : Comp) (priv : Bool) : MxCmd where
  opc := opc
  typ := typ
  ct := ct
  desc := ws
  comp := k
  priv := priv
  cursor := 0
  skips := 0
  low := 0
  nth := 0
  mates := []
  since := none
  early := []
  outs := none

/-- The work of a matrix command node. -/
def matFn (opc typ : Nat) (ct : Bool) (w : MU) : NodeFn := fun e a _ _ d =>
  let c := d.core e.core
  let once := (opc == 0x5A || opc == 0x5B) && mxBypass c
  let counts := (c.mx.corner.shadowF, c.mx.corner.shadowD)
  engFn w a e d (once || (!mxOwned c && decide (c.mx.queue.length < 8))) (fun ws => ctRoom opc ct ws counts)
    fun ws k d =>
      if once then (0, mxAtOnce d e.core opc e.bound.priv ws k)
      else
        let q := MxCmd.fresh opc typ ct ws k e.bound.priv
        let q := if opc = 0x55 then { q with mates := matesOf d e.core q.mask } else q
        (0, d.modCore e.core fun c => pushMx c e.now e.pass.num q)

/-- The work of mx.post (R361). -/
def mxPostFn (w : MU) : NodeFn := fun e a b _ d =>
  let c := d.core e.core
  if e.pass.rev then (.poison clsAdj 0, d)
  else if mxOwned c || decide (8 ≤ c.mx.queue.length) then (.wait, d)
  else
    let addr := (a.toNat + (w.off.signExtend 64).toNat) % 2 ^ 64
    match compAt d e w.space.toNat (addrWord addr) b addr with
    | (.error o, d) => (o, d)
    | (.ok k, d) =>
      (.val 0 Fx.none, (publish d e.core 3).modCore e.core fun c =>
        pushMx c e.now e.pass.num (MxCmd.fresh 0x59 0 false [] k e.bound.priv))

/-- mma (R341, R342, R346, R347). -/
def execMma (w : MU) (s : State) : Host.Outcome State Fault Refusal :=
  muStep s 0x50 w (matFn 0x50 w.typ.toNat (w.mod.getLsbD 0) w)

/-- mma.sp (R342, R348). -/
def execMmaSp (w : MU) (s : State) : Host.Outcome State Fault Refusal :=
  muStep s 0x51 w (matFn 0x51 w.typ.toNat false w)

/-- acc.zero (R342, R353). -/
def execAccZero (w : MU) (s : State) : Host.Outcome State Fault Refusal := muStep s 0x52 w (matFn 0x52 0 false w)

/-- acc.ld (R342, R353). -/
def execAccLd (w : MU) (s : State) : Host.Outcome State Fault Refusal := muStep s 0x53 w (matFn 0x53 0 false w)

/-- acc.st (R342, R354). -/
def execAccSt (w : MU) (s : State) : Host.Outcome State Fault Refusal := muStep s 0x54 w (matFn 0x54 0 false w)

/-- acc.red (R342, R355). -/
def execAccRed (w : MU) (s : State) : Host.Outcome State Fault Refusal := muStep s 0x55 w (matFn 0x55 0 false w)

/-- ct.fill (R342, R350, R351). -/
def execCtFill (w : MU) (s : State) : Host.Outcome State Fault Refusal := muStep s 0x56 w (matFn 0x56 0 false w)

/-- ct.flush (R342, R352). -/
def execCtFlush (w : MU) (s : State) : Host.Outcome State Fault Refusal := muStep s 0x57 w (matFn 0x57 0 false w)

/-- wupd (R342, R358). -/
def execWupd (w : MU) (s : State) : Host.Outcome State Fault Refusal := muStep s 0x58 w (matFn 0x58 0 false w)

/-- mx.post (R361). -/
def execMxPost (w : MU) (s : State) : Host.Outcome State Fault Refusal := muStep s 0x59 w (mxPostFn w)

/-- acc.drain (R342, R362). -/
def execAccDrain (w : MU) (s : State) : Host.Outcome State Fault Refusal := muStep s 0x5A w (matFn 0x5A 0 false w)

/-- acc.fill (R342, R362). -/
def execAccFill (w : MU) (s : State) : Host.Outcome State Fault Refusal := muStep s 0x5B w (matFn 0x5B 0 false w)

/-- mx.test with RUN (R342, R366). -/
def execMxTestRun (w : MU) (s : State) : Host.Outcome State Fault Refusal := muStep s 0x5C w (matFn 0x5C 0 false w)

/-- mx.test with UNFENCE (R342, R366). -/
def execMxTestUnfence (w : MU) (s : State) : Host.Outcome State Fault Refusal :=
  muStep s 0x5C w (matFn 0x5C 0 false w)

end Sys2Proof.Machine
end

