-- ==== Sys2Proof/Machine/Reverse.lean ====
section
/-! DEFINITION. How adjoints flow backward through a block for one thread: the templates, the sums, and what the
thread commits in a reverse replay (11_differentiable: R271 to R273, R276, R277; DEDUCED, log 15). -/

namespace Sys2Proof.Machine

/-! ## The operands of a node at retirement -/

/-- The node word of an instruction of the fabric. -/
def nodeWordOf (i : Instr) : Option (Nat × Bool × NodeWord) :=
  match wordOf i with
  | .cu o w => some (o, false, cuWord o w)
  | .mu o w => some (o, true, muWord o w)
  | _ => none

/-- A node that has emitted a value: its opcode, unit, word, MOD, and the values of its operands and its result. -/
structure Fired where
  node : Nat
  opc : Nat
  mu : Bool
  w : NodeWord
  mod : Nat
  a : Option Word
  b : Option Word
  c : Option Word
  r : Word
  deriving DecidableEq, Repr

/-- MOD of an instruction of the fabric. -/
def modOf (i : Instr) : Nat :=
  match wordOf i with
  | .cu _ w => w.mod.toNat
  | .mu _ w => w.mod.toNat
  | _ => 0

/-- The value that an operand field holds, none for a token that is no value. -/
def fieldValue (d : Device) (e : Env) (w : NodeWord) (role : Role) (code : BitVec 8) : Option Word :=
  match operand d e role w.typ w.src w.imm code with
  | some (.value v) => some v
  | _ => none

/-- Node n of the lane, where it has emitted a value. -/
def firedAt (d : Device) (e : Env) (n : Nat) : Option Fired :=
  match e.l.tokens.find n, imgNode e.words n with
  | some (.value r), some i =>
    (nodeWordOf i).map fun x =>
      ⟨n, x.1, x.2.1, x.2.2, modOf i, fieldValue d e x.2.2 x.2.2.fmt.a x.2.2.a, fieldValue d e x.2.2 x.2.2.fmt.b x.2.2.b,
        fieldValue d e x.2.2 x.2.2.fmt.c x.2.2.c, r⟩
  | _, _ => none

/-- Is a type float or atom? -/
def isFlowing (t : Nat) : Bool := decide (4 ≤ t ∧ t ≤ 10 ∧ t ≠ 7)

/-- Is a type atom? -/
def isAtom (t : Nat) : Bool := decide (8 ≤ t)

/-- The type of a node's result: the scalar operations on atoms deliver binary32, pa.cvt the format of MOD, and
compares, fclass and fcvti no float (R213, R214, R217, R224, R225). -/
def resultType (mu : Bool) (opc typ mod : Nat) : Nat :=
  if mu then typ
  else match opc with
    | 0x68 | 0x69 | 0x6A | 0x6B | 0x6C | 0x6E => 4
    | 0x6D => mod
    | 0x4E | 0x4F => 7
    | _ => typ

/-! ## Contributions and sums (R272) -/

/-- A contribution to the adjoint of an operand: the operand's code, its bits and type, and the Legend of the
contributing node, where it has one. -/
structure Contrib where
  code : Nat
  bits : Nat
  typ : Nat
  lg : Option Legend
  deriving DecidableEq, Repr

/-- The sum of an adjoint of type t and a contribution, rounded once by the helper of t. What the rules do not state
(an atom sum without a Legend, a contribution of another kind of type) is a free value. -/
def addContrib (d : Device) (t : Nat) (own : Option Legend) (x : Nat) (k : Contrib) : Nat × Device :=
  let free : Nat × Device := (d.draw.1 % 2 ^ bitsOfType t, d.draw.2)
  if isAtom t then
    if t ≠ k.typ then free
    else match own, k.lg with
      | some lg, _ => ((atomOp2 XR.add (AFmt.ofType t) lg x k.bits).1, d)
      | none, some lg => ((atomOp2 XR.add (AFmt.ofType t) lg x k.bits).1, d)
      | none, none => free
  else if isAtom k.typ then free
  else if t = k.typ then ((fpAdd (fmtOfType t) x k.bits).1, d)
  else (rneBits (fmtOfType t) (XR.add (exact (fmtOfType t) x) (exact (fmtOfType k.typ) k.bits)), d)

/-- The sum of contributions in order, from a first term on (R272). -/
def sumContribs (d : Device) (t : Nat) (own : Option Legend) (x : Nat) : List Contrib → Nat × Device
  | [] => (x, d)
  | k :: ks =>
    let r := addContrib d t own x k
    sumContribs r.2 t own r.1 ks

/-- The adjoint that contributions come to, from the adjoint of a live-out, if there is one, or from the zero of the
type. An atom's one contribution is the adjoint where no Legend is there to add with: nothing is summed (R272, R276). -/
def adjointOf (d : Device) (t : Nat) (own : Option Legend) (first : Option Nat) (ks : List Contrib) : Nat × Device :=
  match first, ks with
  | none, [k] =>
    if isAtom t && t == k.typ && own.isNone && k.lg.isNone then (k.bits, d) else sumContribs d t own 0 ks
  | _, _ => sumContribs d t own (first.getD 0) ks

/-! ## The templates (R276) -/

/-- A contribution of a template: which operand (0 A, 1 B, 2 C), bits, type. -/
abbrev Part := Nat × Nat × Nat

/-- The contributions of an IEEE node of format f, type t: y the adjoint of its result. -/
def floatTemplate (x : Fired) (y : Nat) : List Part :=
  let t := x.w.typ
  let f := fmtOfType t
  let val (v : Option Word) : Nat := (v.getD 0).toNat % 2 ^ f.width
  let a := val x.a
  let b := val x.b
  let r := x.r.toNat % 2 ^ f.width
  let ex := exact f
  let pos := rneBits f (ex y)
  let neg := rneBits f (XR.neg (ex y))
  match x.opc with
  | 0x40 => [(0, pos, t), (1, pos, t)]
  | 0x41 => [(0, pos, t), (1, neg, t)]
  | 0x42 => [(0, rneBits f (XR.mul (ex y) (ex b)), t), (1, rneBits f (XR.mul (ex y) (ex a)), t)]
  | 0x43 => [(0, rneBits f (XR.mul (ex y) (ex b)), t), (1, rneBits f (XR.mul (ex y) (ex a)), t), (2, pos, t)]
  | 0x44 | 0x45 =>
    if a = b then [(0, pos, t)]
    else if isNanBits f a && isNanBits f b then []
    else [(if r = a then 0 else 1, pos, t)]
  | 0x46 => [(0, if signOf f a then neg else pos, t)]
  | 0x47 => [(0, neg, t)]
  | 0x48 =>
    [(0, (rneDiv f (ex y) (ex b)).1, t), (1, (rneDiv f (XR.neg (XR.mul (ex y) (ex a))) (XR.mul (ex b) (ex b))).1, t)]
  | 0x49 => [(0, (rneDiv f (ex y) (XR.mul (XR.ofInt 2) (ex r))).1, t)]
  | 0x4C => [(0, (rneMulLn2 f (XR.mul (ex y) (ex r))).1, t)]
  | 0x4D => [(0, (rneDivLn2 f (ex y) (ex a)).1, t)]
  | 0x50 => [(0, rneBits (fmtOfType x.w.src) (ex y), x.w.src)]
  | 0x54 => [(0, if signOf f a == signOf f r then pos else neg, t)]
  | _ => []

/-- The pattern of an atom that pa.gain divides by: the sum of its squares (R276). -/
def squares (p : List Int) : Nat := p.foldl (fun s v => s + v.natAbs * v.natAbs) 0

/-- The contributions of an atom node of format f with Legend lg; for pa.cvt, lgB is the Legend of its result. What is
computed from a NaR is NaR. -/
def atomTemplate (x : Fired) (lg lgB : Legend) (y : Nat) : List Part :=
  let t := x.w.typ
  let f := AFmt.ofType t
  let a := decodeOrNan f lg (abits f (x.a.getD 0))
  let b := decodeOrNan f lg (abits f (x.b.getD 0))
  let ys := decodeOrNan f lg y
  let enc (k : Nat) (xs : List XR) : Part := (k, encodeAtom f lg xs, t)
  let y32 := exact f32 y
  let only (i : Nat) : List XR := (List.range f.n).map fun j => if j = i then y32 else XR.zero
  match x.opc with
  | 0x62 => [enc 0 ys, enc 1 ys]
  | 0x63 => [enc 0 ys, enc 1 (ys.map XR.neg)]
  | 0x64 => [enc 0 ((ys.zip b).map fun p => XR.mul p.1 p.2), enc 1 ((ys.zip a).map fun p => XR.mul p.1 p.2)]
  | 0x65 =>
    let s := exact f32 ((x.b.getD 0).toNat % 2 ^ 32)
    [enc 0 (ys.map (XR.mul s)), (1, rneBits f32 (XR.sum XR.zero ((ys.zip a).map fun p => XR.mul p.1 p.2)), 4)]
  | 0x66 => [enc 0 ((ys.zip a).map fun p =>
      if p.2.isNan then .nan else if XR.lt XR.zero p.2 then p.1 else XR.zero)]
  | 0x67 => [enc 0 (ys.zipIdx.map fun p => if bit (x.b.getD 0) p.2 then XR.zero else p.1)]
  | 0x68 => [enc 0 (b.map (XR.mul y32)), enc 1 (a.map (XR.mul y32))]
  | 0x69 => [enc 0 (a.map (XR.mul (XR.mul (XR.ofInt 2) y32)))]
  | 0x6A => [enc 0 (List.replicate f.n y32)]
  | 0x6B =>
    if a.any XR.isNan then [enc 0 a] else
    let top := a.foldl (fun m v => if XR.lt m v then v else m) (a.getD 0 XR.zero)
    [enc 0 (only (a.findIdx fun v => XR.cmp v top == 0))]
  | 0x6C => [enc 0 (only (x.b.getD 0).toNat)]
  | 0x6D =>
    let g := AFmt.ofType x.mod
    [enc 0 (decodeOrNan g lgB y)]
  | 0x6E =>
    let p := patternOf f (abits f (x.a.getD 0))
    if a.any XR.isNan then [enc 0 a]
    else [(0, encodeOver (squares p) f lg (p.map fun v => XR.mul y32 (XR.ofInt v)), t)]
  | _ => []

/-- The contributions of the four nodes of any type that carry adjoints. -/
def moveTemplate (x : Fired) (y : Nat) : List Part :=
  let t := x.w.typ
  let v := if isAtom t then y else rneBits (fmtOfType t) (exact (fmtOfType t) y)
  match x.opc with
  | 0x01 => [(0, v, t)]
  | 0x03 => [(if (x.a.getD 0).getLsbD 0 then 1 else 2, v, t)]
  | 0x04 => [(1, v, t)]
  | 0x05 => [(if x.a.isSome then 0 else 1, v, t)]
  | _ => []

/-! ## What a thread of a reverse replay commits (R273) -/

/-- An effect at commit, with its node. -/
inductive RevFx where
  /-- a deferred store: of adj.st, the clear of adj.rc or of a region st -/
  | store (s : Store)
  /-- a region ld's adjoint added into its cell -/
  | cell (node typ : Nat) (r : Region) (lg : Legend) (key v : Nat)
  /-- a contribution added into the adjoint of a live-in slot -/
  | slot (node slot : Nat) (k : Contrib)
  /-- two binary32 contributions of pa.enc to a slot -/
  | pair (node slot lo hi : Nat)
  deriving DecidableEq, Repr

/-- The node of an effect. -/
def RevFx.node : RevFx → Nat
  | .store s => s.node
  | .cell n _ _ _ _ _ => n
  | .slot n _ _ => n
  | .pair n _ _ _ => n

/-- The effects in ascending node order; those of one node stay in their order. -/
def insertFx (x : RevFx) : List RevFx → List RevFx
  | [] => [x]
  | y :: t => if x.node ≤ y.node then x :: y :: t else y :: insertFx x t

/-- The state of the walk over a block's nodes from the last to the first: contributions with those of lower nodes in
front, effects, the live-outs whose adjoints are cleared, and the first fault. -/
structure RevSt where
  d : Device
  parts : List Contrib
  fx : List RevFx
  clears : List Nat
  fault : Option (Nat × Nat × Nat)
  deriving Repr

/-- Do the launch's slots carry adjoints (R257)? -/
def carries (e : Env) : Bool := e.bound.width == 128

/-- Spreads the contributions of a node over its operands: to a node's result, or to the adjoint of a live-in slot
(R272, R273). -/
def route (e : Env) (x : Fired) (lg : Option Legend) (ps : List Part) (s : RevSt) : RevSt :=
  let field (k : Nat) : Nat := (match k with
    | 0 => x.w.a
    | 1 => x.w.b
    | _ => x.w.c).toNat
  let cs := ps.map fun p => (⟨field p.1, p.2.1, p.2.2, lg⟩ : Contrib)
  let ins := (cs.filter fun k => decide (0x40 ≤ k.code ∧ k.code < 0x80) && carries e).map fun k =>
    RevFx.slot x.node (k.code - 0x40) k
  { s with parts := cs.filter (fun k => decide (k.code < 0x40)) ++ s.parts, fx := ins ++ s.fx }

/-- The value that a contribution's operand had, as bits of the contribution's type. -/
def operandBits (x : Fired) (p : Part) : Nat :=
  ((match p.1 with
    | 0 => x.a
    | 1 => x.b
    | _ => x.c).getD 0).toNat % 2 ^ bitsOfType p.2.2

/-- The contributions of a row of R276: one for a NaN or NaR operand is the canonical NaN or NaR. An atom of a node
without a Legend is read as no NaR. -/
def nanParts (x : Fired) (lg : Option Legend) (ps : List Part) : List Part :=
  ps.map fun p =>
    if isAtom p.2.2 then match lg with
      | some lg =>
        let f := AFmt.ofType p.2.2
        if isNaR f lg (operandBits x p) then (p.1, encodeAtom f lg (List.replicate f.n .nan), p.2.2) else p
      | none => p
    else
      let f := fmtOfType p.2.2
      if isNanBits f (operandBits x p) then (p.1, rneBits f .nan, p.2.2) else p

/-- Spreads the contributions of a row of R276. -/
def routeRow (e : Env) (x : Fired) (lg : Option Legend) (ps : List Part) (s : RevSt) : RevSt :=
  route e x lg (nanParts x lg ps) s

/-- A node's Legend operand read again (R220, R276). -/
def nodeLegend (e : Env) (f : AFmt) (v : Option Word) (d : Device) : Except Nat Legend × Device :=
  legendFor d e f (v.getD 0)

/-- The adjoint of a node's result: the adjoint of its live-out slot, where it has one, then the consumers'
contributions in ascending order (R272, R273); and whether a live-out was read. -/
def resultAdjoint (e : Env) (x : Fired) (own : Option Legend) (s : RevSt) : Nat × Bool × RevSt :=
  let t := resultType x.mu x.opc x.w.typ x.mod
  let dest := x.w.dest.toNat
  let out := x.w.fmt.result && dest < 64 && carries e && isFlowing t
  let first := if out then some ((e.t.live.get (64 + dest)).toNat % 2 ^ bitsOfType t) else none
  let r := adjointOf s.d t own first (s.parts.filter fun k => k.code == x.node)
  (r.1, out, { s with d := r.2, clears := if out then dest :: s.clears else s.clears })

/-- The binary32 elements that the adjoint slots from q on hold, zero where the launch's slots carry none or beyond
L127 (R257, R276). -/
def adjointElems (e : Env) (q n : Nat) : List Nat :=
  (List.range n).map fun i =>
    let s := q + i / 2
    if carries e && s < 64 then (e.t.live.get (64 + s)).toNat / 2 ^ (32 * (i % 2)) % 2 ^ 32 else 0

/-- Stops the walk with a fault of a class at the node. -/
def RevSt.stop (s : RevSt) (x : Fired) (cls addr : Nat) : RevSt := { s with fault := some (cls, x.node, addr) }

/-- pa.enc: its adjoint's elements, rounded, to the slots it read; a NaN there gets the canonical NaN (R276). -/
def encSlots (e : Env) (x : Fired) (lg : Legend) (y : Nat) (s : RevSt) : RevSt :=
  let f := AFmt.ofType x.w.typ
  let q := x.w.a.toNat - 0x40
  let read (i : Nat) : Nat := (e.t.live.get (q + i / 2)).toNat / 2 ^ (32 * (i % 2)) % 2 ^ 32
  let es := (decodeOrNan f lg y).zipIdx.map fun v => rneBits f32 (if isNanBits f32 (read v.2) then .nan else v.1)
  if !carries e || 64 < q + slotSpan f then s
  else
    { s with fx := (List.range (slotSpan f)).map (fun i =>
        RevFx.pair x.node (q + i) (es.getD (2 * i) 0) (es.getD (2 * i + 1) 0)) ++ s.fx }

/-- An atom node of the CU: its Legend is read, and its template applied. What pa.gain contributes for an atom whose
pattern is zero, a quotient by 0, is a free value (R276; DESIGN CHOICE, log 15). -/
def atomBack (e : Env) (x : Fired) (s : RevSt) : RevSt :=
  let f := AFmt.ofType x.w.typ
  match nodeLegend e f x.c s.d with
  | (.error c, d) => { s with d := d }.stop x c (x.c.getD 0).toNat
  | (.ok lg, d) =>
    let s := { s with d := d }
    match x.opc with
    | 0x60 =>
      let (y, _, s) := resultAdjoint e x (some lg) s
      encSlots e x lg y s
    | 0x61 =>
      let q := x.w.dest.toNat
      let s := if carries e then
          { s with clears := (span q (slotSpan f)).filter (· < 64) ++ s.clears } else s
      routeRow e x (some lg) [(0, encodeAtom f lg ((adjointElems e q f.n).map (exact f32)), x.w.typ)] s
    | 0x6D =>
      match nodeLegend e (AFmt.ofType x.mod) x.b s.d with
      | (.error c, d) => { s with d := d }.stop x c (x.b.getD 0).toNat
      | (.ok lgB, d) =>
        let (y, _, s) := resultAdjoint e x (some lgB) { s with d := d }
        routeRow e x (some lg) (atomTemplate x lg lgB y) s
    | _ =>
      let (y, _, s) := resultAdjoint e x (some lg) s
      let free := x.opc == 0x6E && decodeAtom f lg (abits f (x.a.getD 0)) != none
        && squares (patternOf f (abits f (x.a.getD 0))) == 0
      if free then
        let (v, d) := s.d.draw
        routeRow e x (some lg) [(0, v % 2 ^ bitsOfType x.w.typ, x.w.typ)] { s with d := d }
      else routeRow e x (some lg) (atomTemplate x lg lg y) s

/-- The key of the cell that a region's ld translated when it fired. -/
def cellKey (e : Env) (node : Nat) : Option Nat :=
  e.l.stores.findSome? fun s => match s.place with
    | .home k => if s.node = node then some k else none
    | _ => none

/-- A global ld of a region: its adjoint goes to the cell (R273). -/
def loadBack (e : Env) (x : Fired) (w : MU) (s : RevSt) : RevSt :=
  let (ea, _) := effAddr e w.ag (x.a.getD 0) w.off (sizeOfType x.w.typ)
  match (if w.space = 0 then revKind e.bound w ea else .plain) with
  | .region r =>
    match regionLegend s.d e x.w.typ r with
    | (.error c, d) => { s with d := d }.stop x c r.legend
    | (.ok lg, d) =>
      let cell := cellOf e.bound r ea
      let (y, _, s) := resultAdjoint e x (some lg) { s with d := d }
      match cellKey e x.node with
      | none => s
      | some k =>
        if badAt s.d k (sizeOfType x.w.typ) then s.stop x clsEcc cell
        else { s with fx := .cell x.node x.w.typ r lg k y :: s.fx }
  | _ => (resultAdjoint e x none s).2.2

/-- The templates of the nodes of the MU: a region's ld, st and rmw.fadd; st and rmw.fadd have read the cell when they
fired, and their token holds it. Other nodes of a float or atom type only read and clear their live-out. -/
def memBack (e : Env) (x : Fired) (s : RevSt) : RevSt :=
  match imgNode e.words x.node with
  | some (.ld w) => loadBack e x w s
  | some (.st w) =>
    let (ea, _) := effAddr e w.ag (x.a.getD 0) w.off (sizeOfType x.w.typ)
    match (if w.space = 0 then revKind e.bound w ea else .plain) with
    | .region r =>
      if isAtom x.w.typ then
        match regionLegend s.d e x.w.typ r with
        | (.error c, d) => { s with d := d }.stop x c r.legend
        | (.ok lg, d) => route e x (some lg) [(1, x.r.toNat, x.w.typ)] { s with d := d }
      else route e x none [(1, x.r.toNat, x.w.typ)] s
    | _ => s
  | some (.rmwFadd _) => routeRow e x none [(1, x.r.toNat, x.w.typ)] (resultAdjoint e x none s).2.2
  | _ => if isFlowing x.w.typ then (resultAdjoint e x none s).2.2 else s

/-- One node of the walk. -/
def backNode (e : Env) (s : RevSt) (n : Nat) : RevSt :=
  match s.fault, firedAt s.d e n with
  | none, some x =>
    if x.mu then memBack e x s
    else if 0x60 ≤ x.opc then atomBack e x s
    else if !isFlowing (resultType x.mu x.opc x.w.typ x.mod) then s
    else
      let (y, _, s) := resultAdjoint e x none s
      routeRow e x none (if x.opc ≤ 0x05 then moveTemplate x y else floatTemplate x y) s
  | _, _ => s

/-- The walk over all nodes, in descending node order (R272), starting from the lane's deferred stores. -/
def backward (d : Device) (e : Env) : RevSt :=
  let s := (List.range (imgSlots e.words).length).reverse.foldl (backNode e) ⟨d, [], [], [], none⟩
  { s with fx := (s.fx ++ (e.l.stores.filter (·.size != 0)).map RevFx.store).foldr insertFx [] }

/-- Does a block read one live slot as two different float or atom types (R273)? pa.enc reads its slots in its own
TYPE. -/
def mixedReads (ws : List Word) : Bool :=
  let reads (n : Nat) : List (Nat × Nat) :=
    match imgNode ws n with
    | none => []
    | some i => match nodeWordOf i with
      | none => []
      | some (_, _, w) =>
        let slot (r : Role) (c : BitVec 8) : List (Nat × Nat) :=
          let t := match r with
            | .val => w.typ
            | .src => w.src
            | .f32 => 4
            | .slots => w.typ
            | _ => 7
          let q := c.toNat - 0x40
          if c.toNat < 0x40 ∨ 0xC0 ≤ c.toNat ∨ !isFlowing t then []
          else if r = .slots then (span q (spanOf t)).map fun s => (s, t)
          else [(q, t)]
        slot w.fmt.a w.a ++ slot w.fmt.b w.b ++ slot w.fmt.c w.c
  let all := (List.range (imgSlots ws).length).flatMap reads
  all.any fun x => all.any fun y => x.1 == y.1 && x.2 != y.2

/-- Changes the adjoint of a live slot of a thread. -/
def setAdjoint (d : Device) (core tid slot : Nat) (v : Word) : Device :=
  modThread d core tid fun t => { t with live := t.live.set (64 + slot) v }

/-- One effect takes place (R273). -/
def applyRevFx (d : Device) (core tid : Nat) : RevFx → Device
  | .store s => commitStore d core s
  | .cell _ typ r lg key v => accumulate d core tid typ r lg key v
  | .slot _ slot k =>
    let old := ((threadOf d core tid).live.get (64 + slot)).toNat % 2 ^ bitsOfType k.typ
    let r := addContrib d k.typ none old k
    setAdjoint r.2 core tid slot (deliver k.typ r.1)
  | .pair _ slot lo hi =>
    let old := ((threadOf d core tid).live.get (64 + slot)).toNat
    let add (x y : Nat) : Nat := (fpAdd f32 x y).1
    setAdjoint d core tid slot (BitVec.ofNat 64 (add (old % 2 ^ 32) lo + 2 ^ 32 * add (old / 2 ^ 32) hi))

/-- A thread commits a reverse pass: the clears of its live-outs' adjoints, then its effects in node order (R271,
R273). -/
def commitBack (s : RevSt) (core tid : Nat) : Device :=
  let d := s.clears.foldl (fun d i => setAdjoint d core tid i 0) s.d
  s.fx.foldl (fun d f => applyRevFx d core tid f) d

end Sys2Proof.Machine
end

