-- ==== Sys2Proof/Machine/Meridian.lean ====
section
/-! DEFINITION. Meridian: jobs, microwords, gathers, stops and the attn nodes (19_meridian: R374 to R404; 01_device: R28
to R31). -/

namespace Sys2Proof.Machine

/-! ## The job of a core -/

/-- The core's Meridian replaced by f of it. -/
def modMer (d : Device) (core : Nat) (f : Meridian → Meridian) : Device :=
  d.modCore core fun c => { c with mer := f c.mer }

/-- The running or stopped job replaced. -/
def setJob (d : Device) (core : Nat) (j : Job) : Device := modMer d core fun m => { m with job := some j }

/-- Register Mi. -/
def Job.reg (j : Job) (i : BitVec 4) : Word := j.m.getD i.toNat 0

/-- Md := v. -/
def Job.setReg (j : Job) (i : BitVec 4) (v : Word) : Job := { j with m := j.m.set i.toNat v }

/-- Md := v, with Z and N (R381). -/
def Job.result (j : Job) (i : BitVec 4) (v : Word) : Job := { j.setReg i v with z := v == 0, neg := v.getLsbD 63 }

/-- IMM60, sign-extended. -/
def simmOf (w : MW) : Word := w.imm.signExtend 64

/-! ## Posted writes (R382) -/

/-- A posted write: its place, its translation, and its bytes. -/
abbrev Posted := Place × Mapped × List Byte

/-- Performs a write of the job. -/
def performWrite (d : Device) (core : Nat) (x : Posted) : Device :=
  match x.1 with
  | .scratch a => engScratchWrite d core a x.2.2
  | .home k => engWrite d k x.2.2
  | .remote t a => engScratchWrite d t a x.2.2

/-- Do two writes meet? -/
def writesMeet (x y : Posted) : Bool :=
  match x.1, y.1 with
  | .scratch a, .scratch b => overlaps a x.2.2.length b y.2.2.length
  | .home a, .home b => overlaps a x.2.2.length b y.2.2.length
  | _, _ => false

/-- A free subset of the posted writes is performed, none before an earlier one that it meets. -/
def drainPosted (core : Nat) : List Posted → List Posted → Device → List Posted × Device
  | [], kept, d => (kept, d)
  | x :: xs, kept, d =>
    if kept.any (writesMeet x) then drainPosted core xs (kept ++ [x]) d
    else
      let (v, d) := d.draw
      if v % 2 = 1 then drainPosted core xs kept (performWrite d core x)
      else drainPosted core xs (kept ++ [x]) d

/-- Every posted write is performed. -/
def flushPosted (d : Device) (core : Nat) (j : Job) : Device := j.posted.foldl (fun d x => performWrite d core x) d

/-! ## The end and the stops of a job (R389, R400, R401) -/

/-- The job ends with a code; a queued job then waits for its turn (R29). -/
def endJob (d : Device) (now core : Nat) (j : Job) (code : Nat) : Device :=
  let num := (d.core core).pass.map (·.num)
  let d := modMer (flushPosted d core j) core fun m =>
    { m with job := none, grace := if m.queued.isSome then num.map fun n => (n, now) else none }
  complete d core j.cmd.comp code

/-- The stop word (R400). -/
def stopWord (upc cause code detail : Nat) : Word :=
  BitVec.ofNat 64 (2 ^ 63 + code % 2 ^ 15 * 2 ^ 48 + cause * 2 ^ 44 + upc % 2 ^ 12 * 2 ^ 32 + detail % 2 ^ 32)

/-- The job stops at its microword: the stop word is kept, and written at STOPW where it can be; in host mode the fault
interrupt is raised (R400). Without an address or position that failed, DETAIL is a free value. -/
def stopJob (d : Device) (core : Nat) (j : Job) (cause code : Nat) (detail : Option Nat) : Device :=
  let (v, d) := d.draw
  let word := stopWord j.upc cause code (detail.getD v)
  let d := modMer d core fun m =>
    { m with job := some { j with stop := some word, wait := none, dbgStop := false }, lastStop := word }
  let stopw := j.cmd.desc.getD 2 0
  let d := if stopw = 0 then d else (ewrite d core stopw (goods (toBytes 8 word.toNat))).2
  match (d.core core).bound with
  | some b => if b.handler.isNone then raiseVector d 0 else d
  | none => d

/-! ## Saving and loading the state (R399) -/

/-- The core that a command of a core names, where its issuer may use it, or the code of R399. -/
def targetCore (d : Device) (core run : Nat) (priv : Bool) (w0 : Word) : Except Nat Nat :=
  match coreOfCode (fld w0 25 16) with
  | none => .error cDescriptor
  | some t =>
    if clusterOf t ≠ clusterOf core then .error cDescriptor
    else match (d.core t).bound with
      | none => .error cDescriptor
      | some b => if priv || b.run == run then .ok t else .error clsPermission

/-- The words of a tag in the image (R399). -/
def Tag.image (t : Tag) : List Word :=
  let st : Nat × Nat × Nat := match t.st with
    | .idle => (0, 0, 0)
    | .flight => (1, 0, 0)
    | .done n => (2, 0, n)
    | .failed c _ => (3, c, 0)
  [BitVec.ofNat 64 (st.2.1 % 2 ^ 15 * 2 ^ 48 + st.1), BitVec.ofNat 64 st.2.2, t.entry, t.seq, t.imm]
    ++ List.replicate 7 0

/-- The image of a core's Meridian (R399). Without a job the registers, flags, µPC and tags are free values. -/
def merImage (c : Core) (free : Nat) : List Byte :=
  let m := c.mer
  let queued := if m.queued.isSome then 2 ^ 61 else 0
  let desc (q : Option JobCmd) : List Byte := match q with
    | some q => bytesOfWords q.desc
    | none => List.replicate 64 0
  let body : List Byte := match m.job with
    | some j =>
      let st := if j.stop.isSome then 2 else if c.frozen then 3 else 1
      let fl := st * 2 ^ 62 + queued + j.upc % 2 ^ 12 * 2 ^ 32 + 8 * b2n j.ecc + 4 * b2n j.t + 2 * b2n j.neg + b2n j.z
      bytesOfWords j.m ++ j.n.flatMap (fun x => toBytes 8 x.toNat)
        ++ bytesOfWords [BitVec.ofNat 64 fl, m.lastStop] ++ List.replicate 16 0 ++ desc (some j.cmd) ++ desc m.queued
        ++ bytesOfWords (j.tags.flatMap Tag.image)
    | none =>
      let fl := queued + free / 2 ^ 2000 % 2 ^ 12 * 2 ^ 32 + free / 2 ^ 2012 % 8
      toBytes 160 free ++ bytesOfWords [BitVec.ofNat 64 fl, m.lastStop] ++ List.replicate 16 0 ++ desc none
        ++ desc m.queued ++ toBytes 384 (free / 2 ^ 2048)
  padTo 1024 body

/-- What LOAD takes from an image: M0 to M15, N0 to N3, the flags and the µPC (R399). -/
def loadImageWords (j : Job) (ws : List Word) : Job :=
  let f := ws.getD 20 0
  { j with
    m := ws.take 16
    n := ((ws.drop 16).take 4).map fun x => x.truncate 32
    z := bit f 0
    neg := bit f 1
    t := bit f 2
    upc := fld f 43 32 }

/-- Is the descriptor of an attn.save well formed? -/
def saveOk (w : List Word) : Bool :=
  let w0 := w.getD 0 0
  let img := w.getD 1 0
  fld w0 7 0 == 0x65 && zeroIn w0 (maskOf 63 26 + maskOf 15 9) && ((w.drop 2).take 4).all (· == 0)
    && decide (spOf img ≤ 1) && resOk img && adOf img % 64 == 0

/-- An attn.save of a core is applied at a microword boundary (R399): its code, and the device. -/
def applySave (d : Device) (core : Nat) (q : SaveCmd) : Nat × Device :=
  let w0 := q.desc.getD 0 0
  let img := q.desc.getD 1 0
  match targetCore d core q.run q.priv w0 with
  | .error c => (c, d)
  | .ok t =>
    if bit w0 8 then
      if !q.priv then (clsPermission, d)
      else match (d.core t).mer.job with
        | none => (cDescriptor, d)
        | some j =>
          if j.stop.isNone then (cDescriptor, d)
          else match ereadWords d core img 21 with
            | (.error x, d) => (x.1, d)
            | (.ok ws, d) => (0, setJob d t (loadImageWords j ws))
    else
      let (v, d) := d.draw
      match ewrite d core img (goods (merImage (d.core t) v)) with
      | (some x, d) => (x.1, d)
      | (none, d) => (0, d)

/-! ## Resuming a job (R401) -/

/-- A gather tag. -/
def Job.tag (j : Job) (t : Nat) : Tag := j.tags.getD t default

/-- A gather tag replaced. -/
def Job.setTag (j : Job) (t : Nat) (x : Tag) : Job := { j with tags := j.tags.set t x }

/-- A tag whose gather starts as the n-th of its job. -/
def Tag.started (entry seq imm : Word) (n : Nat) : Tag := ⟨.flight, entry, seq, imm, n, [], none, false⟩

/-- The job has started one more gather. -/
def Job.oneMore (j : Job) : Job := { j with gathers := j.gathers + 1 }

/-- What a tag gathers. -/
def Tag.gather (t : Tag) : Gather := gatherOf t.entry t.seq t.imm

/-- Writes what a gather comes to into the scratchpad. -/
def putGather (d : Device) (core dst : Nat) (ps : List (Nat × List Byte)) : Device :=
  ps.foldl (fun d p => engScratchWrite d core (dst + p.1) p.2) d

/-- CAUSE of a stop word. -/
def stopCause (w : Word) : Nat := fld w 47 44

/-- The failed tag that a rerun gathers again: the stopped microword is an mwait on it. -/
def regatherTag (d : Device) (j : Job) : Option Nat :=
  match mwMake ((microAt d j.upc).toNat / 2 ^ 88 % 256) (mwFields (microAt d j.upc).toNat) with
  | some (.mwait w) => match (j.tag (w.imm.toNat % 4)).st with
    | .failed _ _ => some (w.imm.toNat % 4)
    | _ => none
  | _ => none

/-- A gather that a job leaves in flight when it is abandoned finishes, or stops: a free subset of its bytes. -/
def leaveGather (now core : Nat) (d : Device) (t : Tag) : Device :=
  if t.st ≠ .flight then d
  else
    let (v, d) := d.draw
    match gather d now core t.rows t.wait t.gather with
    | (.ok (s, rows, none), d) =>
      let ps := gatherBytes t.gather s rows
      if v % 2 = 1 then putGather d core t.gather.dst ps
      else writeSubset d core .none (ps.map fun p => (scrAddr (t.gather.dst + p.1), goods p.2))
    | (_, d) => d

/-- A stopped job goes on (R401). -/
def resumeJob (d : Device) (core : Nat) (j : Job) (skip : Bool) : Device :=
  let j' := { j with stop := none }
  if skip || j.stop.map stopCause == some 2 then
    let j' := match regatherTag d j with
      | some t => j'.setTag t { j.tag t with st := .idle }
      | none => match mwMake ((microAt d j.upc).toNat / 2 ^ 88 % 256) (mwFields (microAt d j.upc).toNat) with
        | some (.mwait w) => j'.setTag (w.imm.toNat % 4) { j.tag (w.imm.toNat % 4) with st := .idle }
        | _ => j'
    setJob d core { j' with upc := j.upc + 1 }
  else match regatherTag d j with
    | none => setJob d core j'
    | some t =>
      let x := j.tag t
      match gatherCheck d core x.gather with
      | (.error e, d) => stopJob d core j' 0 e.1 (some e.2)
      | (.ok _, d) => setJob d core ((j'.setTag t (Tag.started x.entry x.seq x.imm j.gathers)).oneMore)

/-- Is the descriptor of an attn.go.resume well formed (R376)? -/
def resumeOk (w : List Word) : Bool :=
  let w0 := w.getD 0 0
  fld w0 7 0 == 0x60 && zeroIn w0 (maskOf 63 26 + maskOf 15 10) && ((w.drop 1).take 5).all (· == 0)

/-- An attn.go.resume of a core is applied at a microword boundary (R401): its code, and the device. -/
def applyResume (d : Device) (now core : Nat) (q : SaveCmd) : Nat × Device :=
  let w0 := q.desc.getD 0 0
  match targetCore d core q.run q.priv w0 with
  | .error c => (c, d)
  | .ok t =>
    match (d.core t).mer.job with
    | none => (cDescriptor, d)
    | some j =>
      if j.stop.isNone then (cDescriptor, d)
      else if bit w0 9 then (0, endJob (j.tags.foldl (leaveGather now t) d) now t j cAborted)
      else (0, resumeJob d t j (bit w0 8))

/-- Must a command of a core wait: it resumes a job with a gather again, and the copy engine has no slot? -/
def lacksRoom (d : Device) (core : Nat) (q : SaveCmd) : Bool :=
  let w0 := q.desc.getD 0 0
  fld w0 7 0 == 0x60 && !bit w0 8 && !bit w0 9 && (match targetCore d core q.run q.priv w0 with
    | .error _ => false
    | .ok t => !slotFree (d.core t) && (match (d.core t).mer.job with
      | none => false
      | some j => j.stop.isSome && (regatherTag d j).isSome))

/-! ## Microword boundaries (R375) -/

/-- Is a core's Meridian at a microword boundary: it is not parked at an mwait (R375, R402)? In a saved context it is
not: what comes then waits for the restoration (R293). -/
def atBoundary (c : Core) : Bool :=
  c.preempt != .saved && match c.mer.job with
  | some j => j.wait.isNone || j.stop.isSome || c.frozen
  | none => true

/-- The attn.save and attn.go.resume commands that wait for a core's Meridian are applied at a microword boundary, in
order, and complete; one whose issuer is saved waits for its restoration, and a resume that gathers again waits for a
slot of the copy engine (R22, R375, R401). -/
def settleSaves (d : Device) (now core : Nat) : Device :=
  if !atBoundary (d.core core) then d
  else (d.core core).mer.saves.foldl (init := modMer d core fun m => { m with saves := [] }) fun d q =>
    let later := modMer d core fun m => { m with saves := m.saves ++ [q] }
    match coreOfOwner d q.run q.cidx with
    | none => later
    | some o =>
      if lacksRoom d o q then later
      else
        let r := if fld (q.desc.getD 0 0) 7 0 = 0x60 then applyResume d now o q else applySave d o q
        complete r.2 o q.comp r.1

/-! ## Executing a microword -/

/-- What a microword comes to. -/
inductive MOut where
  | next (j : Job)
  | goto (j : Job) (upc : Nat)
  /-- it waits at its microaddress -/
  | stay (j : Job)
  | stop (j : Job) (cause code : Nat) (detail : Option Nat)
  | halt (j : Job) (code : Nat)
  deriving Repr

/-- The work of a microword: from the core, the clock and the job. -/
abbrev MicroFn := Nat → Nat → Job → Device → MOut × Device

/-- The running job of a core executes a microword at its boundary; a debugger stop that waits is taken first (R400).
A core without a running job, or frozen, leaves it (R402). -/
def microRun (d : Device) (now core : Nat) (fn : MicroFn) : Device :=
  let c := d.core core
  match c.mer.job with
  | none => d
  | some j =>
    if j.stop.isSome || c.frozen then d
    else
      let p := drainPosted core j.posted [] d
      let j := { j with posted := p.1 }
      if j.dbgStop && j.wait.isNone then stopJob p.2 core j 4 0 none
      else
        let after : MOut × Device → Device
          | (.next j, d) => setJob d core { j with upc := j.upc + 1 }
          | (.goto j u, d) => setJob d core { j with upc := u }
          | (.stay j, d) => setJob d core j
          | (.stop j cause code detail, d) => stopJob d core j cause code detail
          | (.halt j code, d) => endJob d now core j code
        settleSaves (after (fn core now j p.2)) now core

/-- The step of a microword at the focus's core. -/
def microStep (s : State) (fn : MicroFn) : Host.Outcome State Fault Refusal :=
  onDevice s fun d => microRun d s.clock s.focus.core fn

/-- Goes on with a value, or stops the job with cause 0. -/
def orStop {α : Type} (j : Job) (r : Got α) (k : α → Device → MOut × Device) : MOut × Device :=
  match r.1 with
  | .error e => (.stop j 0 e.1 (some e.2), r.2)
  | .ok a => k a r.2

/-- The work of an arithmetic microword (R381). -/
def arithFn (w : MW) (f : Word → Word → Word) : MicroFn := fun _ _ j d =>
  (.next (j.result w.d (f (j.reg w.a) (if w.cond = 0 then j.reg w.b else simmOf w))), d)

/-- mli (R381). -/
def execMli (w : MW) (s : State) : Host.Outcome State Fault Refusal :=
  microStep s fun _ _ j d => (.next (j.setReg w.d (simmOf w)), d)

/-- madd (R381). -/
def execMadd (w : MW) (s : State) : Host.Outcome State Fault Refusal := microStep s (arithFn w fun x y => x + y)

/-- msub (R381). -/
def execMsub (w : MW) (s : State) : Host.Outcome State Fault Refusal := microStep s (arithFn w fun x y => x - y)

/-- mmul (R381). -/
def execMmul (w : MW) (s : State) : Host.Outcome State Fault Refusal := microStep s (arithFn w fun x y => x * y)

/-- mand (R381). -/
def execMand (w : MW) (s : State) : Host.Outcome State Fault Refusal := microStep s (arithFn w fun x y => x &&& y)

/-- mshl (R381). -/
def execMshl (w : MW) (s : State) : Host.Outcome State Fault Refusal :=
  microStep s (arithFn w fun x y => x <<< (y.toNat % 64))

/-- mshr (R381). -/
def execMshr (w : MW) (s : State) : Host.Outcome State Fault Refusal :=
  microStep s (arithFn w fun x y => x >>> (y.toNat % 64))

/-- The condition of an mbr (R380). -/
def branchHolds (j : Job) (cond : Nat) : Bool :=
  match cond with
  | 0 => true
  | 1 => j.z
  | 2 => !j.z
  | 3 => j.neg
  | 4 => !j.neg
  | 5 => j.t
  | _ => !j.t

/-- mbr (R381). -/
def execMbr (w : MW) (s : State) : Host.Outcome State Fault Refusal :=
  microStep s fun _ _ j d => (if branchHolds j w.cond.toNat then .goto j w.target.toNat else .next j, d)

/-- mloop (R381). -/
def execMloop (w : MW) (s : State) : Host.Outcome State Fault Refusal :=
  microStep s fun _ _ j d =>
    let n := j.n.getD w.d.toNat 0
    let n' := if n = 0 then n else n - 1
    let j := { j with n := j.n.set w.d.toNat n' }
    (if n' = 0 then .next j else .goto j w.target.toNat, d)

/-- mloop.ld (R381). -/
def execMloopLd (w : MW) (s : State) : Host.Outcome State Fault Refusal :=
  microStep s fun _ _ j d => (.next { j with n := j.n.set w.d.toNat ((j.reg w.a).truncate 32) }, d)

/-- mnop (R389). -/
def execMnop (_w : MW) (s : State) : Host.Outcome State Fault Refusal := microStep s fun _ _ j d => (.next j, d)

/-- mtrap (R389). -/
def execMtrap (w : MW) (s : State) : Host.Outcome State Fault Refusal :=
  microStep s fun _ _ j d => (.stop j 2 0 (some (w.imm.toNat % 2 ^ 32)), d)

/-- An illegal microword (R114, R400). -/
def execIllegalMicroword (_w : BitVec 96) (s : State) : Host.Outcome State Fault Refusal :=
  microStep s fun _ _ j d => (.stop j 1 0 none, d)

/-! ## Memory (R382) -/

/-- Checks an engine address of a microword for n bytes aligned to al: SP 0 or 1 (R380, R382). -/
def microEa (a : Word) (al n : Nat) (d : Device) : Got Unit :=
  orFail (decide (spOf a ≤ 1) && resOk a) cDescriptor (adOf a) d fun d =>
    orFail (adOf a % al == 0) clsAlign (adOf a) d fun d =>
      match rangeFault false a n with
      | some c => (.error (c, adOf a), d)
      | none => (.ok (), d)

/-- Planned pieces from an address on, each with its translation. -/
def mappedPieces (d : Device) (core : Nat) : (va : Nat) → List (Nat × Nat) → List (Place × Mapped × Nat)
  | _, [] => []
  | va, (k, n) :: t => (.home k, mappedBy d core .none va, n) :: mappedPieces d core (va + n) t

/-- The places of n bytes at an engine address, checked for writing. -/
def placesFor (d : Device) (core : Nat) (a : Word) (n : Nat) : Got (List (Place × Mapped × Nat)) :=
  if spOf a = 1 then (.ok [(.scratch (adOf a), .none, n)], d)
  else Got.andThen (vplan d core (privOf d core) (n / 4096 + 2) (adOf a) n) fun ps d =>
    (.ok (mappedPieces d core (adOf a) ps), d)

/-- A place some bytes on. -/
def Place.plus (p : Place) (n : Nat) : Place :=
  match p with
  | .scratch a => .scratch (a + n)
  | .remote t a => .remote t (a + n)
  | .home k => .home (k + n)

/-- Bytes over the places of an address, cut into aligned 8-byte words (R403). -/
def wordWrites : List (Place × Mapped × Nat) → List Byte → List Posted
  | [], _ => []
  | (p, m, n) :: t, bs =>
    ((List.range (ceilDiv n 8)).map fun i => (p.plus (8 * i), m, ((bs.take n).drop (8 * i)).take 8))
      ++ wordWrites t (bs.drop n)

/-- Makes the lines of places poisoned where data is uncorrectable. -/
def poisonPlaces (d : Device) (core : Nat) : List (Place × Mapped × Nat) → List EB → Device
  | [], _ => d
  | (p, _, n) :: t, es =>
    let d := match p with
      | .scratch a => poisonScratch d core (badLines a (es.take n))
      | .remote u a => poisonScratch d u (badLines a (es.take n))
      | .home k => poisonHome d (badLines k (es.take n))
    poisonPlaces d core t (es.drop n)

/-- Data at an engine address; uncorrectable data fails with ECC. -/
def microRead (d : Device) (core : Nat) (a : Word) (n : Nat) : Got (List Byte) :=
  match eread d core a n with
  | (_, some e, d) => (.error e, d)
  | (es, none, d) => (eccAt a es).elim (.ok (vals es), d) fun x => (.error x, d)

/-- mld (R382). -/
def execMld (w : MW) (s : State) : Host.Outcome State Fault Refusal :=
  microStep s fun core _ j d =>
    let a := j.reg w.a + simmOf w
    orStop j (Got.andThen (microEa a 8 8 d) fun _ d => microRead d core a 8) fun bs d =>
      (.next (j.result w.d (BitVec.ofNat 64 (ofBytes bs))), d)

/-- mst (R382): posted. -/
def execMst (w : MW) (s : State) : Host.Outcome State Fault Refusal :=
  microStep s fun core _ j d =>
    let a := j.reg w.d + simmOf w
    orStop j (Got.andThen (microEa a 8 8 d) fun _ d => placesFor d core a 8) fun ps d =>
      (.next { j with posted := j.posted ++ wordWrites ps (toBytes 8 (j.reg w.a).toNat) }, d)

/-- mpost (R382): after every earlier write of the job, and performed at once. -/
def execMpost (w : MW) (s : State) : Host.Outcome State Fault Refusal :=
  microStep s fun core _ j d =>
    let a := j.reg w.d
    orStop j (Got.andThen (microEa a 8 8 d) fun _ d => placesFor d core a 8) fun ps d =>
      let d := flushPosted d core j
      (.next { j with posted := [] },
        (wordWrites ps (toBytes 8 (j.reg w.a).toNat)).foldl (fun d x => performWrite d core x) d)

/-- Does the word that an mwait names satisfy its condition; or the failure of its read (R201, R382)? -/
def mwaitHolds (d : Device) (core : Nat) (j : Job) (w : MW) : Got Bool :=
  Got.andThen (microRead d core (j.reg w.d) 8) fun bs d =>
    (.ok (condHolds (w.cond.toNat - 1) (BitVec.ofNat 64 (ofBytes bs)) (j.reg w.a)), d)

/-- mwait with a condition tests its word and, where that does not hold, parks the job (R172, R382); one that is parked
waits on. -/
def execMwaitCond (w : MW) (s : State) : Host.Outcome State Fault Refusal :=
  microStep s fun core now j d =>
    if j.wait.isSome then (.stay j, d)
    else orStop j (Got.andThen (microEa (j.reg w.d) 8 8 d) fun _ d => mwaitHolds d core j w) fun ok d =>
      (if ok then .next { j with t := false } else .stay { j with wait := some now }, d)

/-- The job of a core that is parked at an mwait, with the microword and the clock it was parked at. -/
def parkedJob (d : Device) (core : Nat) : Option (Job × MW × Nat) :=
  let c := d.core core
  match c.mer.job with
  | some j =>
    match j.wait, mwMake ((microAt d j.upc).toNat / 2 ^ 88 % 256) (mwFields (microAt d j.upc).toNat) with
    | some t, some (.mwaitCond w) => if j.stop.isSome || c.frozen then none else some (j, w, t)
    | _, _ => none
  | none => none

/-- The wait of a parked job ends with T. -/
def unpark (d : Device) (now core : Nat) (j : Job) (t : Bool) : Device :=
  settleSaves (setJob d core { j with t := t, wait := none, upc := j.upc + 1 }) now core

/-- A parked mwait tests its word: T is cleared where the condition holds, and expired says what becomes of it where it
does not; a failed read stops the job. -/
def mwaitTest (d : Device) (now core : Nat) (j : Job) (w : MW) (expired : Bool) : Device :=
  match mwaitHolds d core j w with
  | (.error e, d) => settleSaves (stopJob d core j 0 e.1 (some e.2)) now core
  | (.ok true, d) => unpark d now core j false
  | (.ok false, d) => if expired then unpark d now core j true else d

/-- MWAIT_RELEASE: the word at Md satisfies the condition against Ma; T is cleared. -/
def mwaitRelease (d : Device) (now core : Nat) : Device :=
  match parkedJob d core with
  | none => d
  | some (j, w, _) => mwaitTest d now core j w false

/-- MWAIT_RELEASE (R382). -/
def execMwaitRelease (core : Nat) (s : State) : Host.Outcome State Fault Refusal :=
  onDevice s fun d => mwaitRelease d s.clock core

/-- MWAIT_TIMEOUT: the wait's µs have passed; where the condition does not hold, T is set and the job goes on. -/
def mwaitTimeout (d : Device) (now core : Nat) : Device :=
  match parkedJob d core with
  | none => d
  | some (j, w, t) =>
    if w.imm = 0 ∨ now < t + 1750 * w.imm.toNat then d else mwaitTest d now core j w true

/-- MWAIT_TIMEOUT (R382). -/
def execMwaitTimeout (core : Nat) (s : State) : Host.Outcome State Fault Refusal :=
  onDevice s fun d => mwaitTimeout d s.clock core

/-! ## Lookups and gathers (R383 to R385) -/

/-- kvx (R383). -/
def execKvx (w : MW) (s : State) : Host.Outcome State Fault Refusal :=
  microStep s fun core _ j d =>
    let key := j.reg w.b
    if fld key 63 48 ≠ 0 then (.stop j 3 cKv (some (fld key 31 0)), d)
    else match kvLookup d (coreRd core) (j.reg w.a) (fld key 47 32) (fld key 31 0) with
      | (.error (c, a), d) => (.stop j (if c = cKv then 3 else 0) c (some a), d)
      | (.ok e, d) => (.next (j.setReg w.d e), d)

/-- mgat (R384): without a free slot of the copy engine it waits for one. -/
def execMgat (w : MW) (s : State) : Host.Outcome State Fault Refusal :=
  microStep s fun core _ j d =>
    let imm := BitVec.ofNat 64 w.imm.toNat
    let t := fld imm 54 53
    if (j.tag t).st ≠ .idle then (.stop j 0 cDescriptor none, d)
    else orStop j (gatherCheck d core (gatherOf (j.reg w.d) (j.reg w.a) imm)) fun _ d =>
      if !slotFree (d.core core) then (.stay j, d)
      else (.next ((j.setTag t (Tag.started (j.reg w.d) (j.reg w.a) imm j.gathers)).oneMore), d)

/-- Writes n free bytes into a scratchpad. -/
def scribble (d : Device) (core a n : Nat) : Device :=
  let (v, d) := d.draw
  engScratchWrite d core a (toBytes n v)

/-- Does a gather read state words that another reads too: of the same page, or, under PROXY, of pages that are not known
before the read? -/
def gathersMeet (d : Device) (core : Nat) (x y : Tag) : Bool :=
  let proxy (t : Tag) : Bool := match (gatherCheck d core t.gather).1 with
    | .ok s => s.policy == 2
    | .error _ => false
  pageOf x.entry == pageOf y.entry || proxy x || proxy y

/-- Must a gather wait for one of its job that started before it, so that the reads of a state word follow the order in
which gathers start (R418)? -/
def gatherBehind (d : Device) (core : Nat) (j : Job) (t : Tag) : Bool :=
  j.tags.any fun x => x.st == .flight && decide (x.nth < t.nth) && gathersMeet d core x t

/-- GATHER_COMPLETE: a gather in flight takes up its positions, up to one that waits; once it has taken up all, it ends
done with its skip count; an access that fails ends it failed, with its code and its destination unspecified. -/
def gatherComplete (d : Device) (now core tag : Nat) : Device :=
  let c := d.core core
  match c.mer.job with
  | none => d
  | some j =>
    let t := j.tag tag
    if t.st ≠ .flight ∨ c.frozen ∨ gatherBehind d core j t then d
    else
      let g := t.gather
      match gather d now core t.rows t.wait g with
      | (.ok (_, rows, some w), d) => setJob d core (j.setTag tag { t with rows := rows, wait := some w })
      | (.ok (s, rows, none), d) =>
        setJob (putGather d core g.dst (gatherBytes g s rows)) core
          (j.setTag tag { t with st := .done (skipCount rows), rows := [], wait := none })
      | (.error e, d) =>
        setJob (scribble d core g.dst (gatherExtent d core g)) core 
          (j.setTag tag { t with st := .failed e.1 e.2, rows := [], wait := none })

/-- GATHER_COMPLETE (R384). -/
def execGatherComplete (core tag : Nat) (s : State) : Host.Outcome State Fault Refusal :=
  onDevice s fun d => gatherComplete d s.clock core tag

/-- mwait on a tag (R385). -/
def execMwait (w : MW) (s : State) : Host.Outcome State Fault Refusal :=
  microStep s fun _ _ j d =>
    let t := w.imm.toNat % 4
    let x := j.tag t
    match x.st with
    | .flight => (.stay j, d)
    | .idle => (.next (j.setReg w.d 0), d)
    | .done n => (.next ((j.setReg w.d (BitVec.ofNat 64 n)).setTag t { x with st := .idle }), d)
    | .failed c a => (.stop (j.setTag t { x with waited := true }) 0 c (some a), d)

/-! ## mmma (R386) -/

/-- Where an mmma's completion word goes; none for CADDR 0. -/
def microComp (d : Device) (core : Nat) (caddr cval : Word) : Got (Option Comp) :=
  if caddr = 0 then (.ok none, d)
  else orFail (!cval.getLsbD 63) cDescriptor (adOf caddr) d fun d =>
    Got.andThen (microEa caddr 8 8 d) fun _ d =>
      Got.andThen (placesFor d core caddr 8) fun ps d => (.ok (ps.head?.map fun p => ⟨p.1, caddr, cval, p.2.1⟩), d)

/-- mmma: it waits for the commands that the engine holds and for a test that is due. -/
def execMmma (w : MW) (s : State) : Host.Outcome State Fault Refusal :=
  microStep s fun core _ j d =>
    let a := (j.reg w.d).toNat
    let typ := w.cond.toNat
    let ct := w.imm.getLsbD 0
    let sp := w.imm.getLsbD 1
    let c := d.core core
    if a % 64 ≠ 0 then (.stop j 0 clsAlign (some a), d)
    else if scratchSize < a + 64 then (.stop j 0 clsBounds (some a), d)
    else if c.mx.queue ≠ [] ∨ testDue c ∨ !c.inService then (.stay j, d)
    else if (ct && sp) || (sp && !isAtomType typ) || (ct && typ != 4 && typ != 6) then
      (.stop j 0 cDescriptor none, d)
    else if scratchBadAt d core a 64 then (.stop j 0 clsEcc (some a), d)
    else
      let ws := wordsOf 8 (scratchRead d core a 64)
      orStop j (microComp d core (ws.getD 6 0) (ws.getD 7 0)) fun k d =>
        let r := mmaExec [] (d.modCore core fun c => c.stepShadow 0x50 typ ct ws) core (privOf d core) sp ct typ ws
        let d := r.2.modCore core fun c =>
          { c with mx := { c.mx with sinceTest := c.mx.sinceTest + 1, sincePass := c.mx.sincePass + 1 } }
        let d := match k with
          | some k => complete d core k r.1.1
          | none => d
        if r.1.1 = 0 then (.next j, d)
        else if r.1.1 = clsEcc then (.next { j with ecc := true }, d)
        else (.stop j 0 r.1.1 r.1.2, d)

/-! ## The exponent unit (R387) -/

/-- The rectangle of a microword and its row-state records, checked; lim is the widest it may be. -/
def microRect (d : Device) (core : Nat) (md ma : Word) (lim : Nat) : Except (Nat × Option Nat) Rect :=
  match rectOf (fld md 31 0) with
  | none => .error (cDescriptor, none)
  | some r =>
    if fld md 63 32 ≠ 0 ∨ r.wide ∨ 64 < r.nrow ∨ lim < r.ncol then .error (cDescriptor, none)
    else if ma.toNat % 4 ≠ 0 then .error (clsAlign, some ma.toNat)
    else if scratchSize < ma.toNat + 16 * r.nrow then .error (clsBounds, some ma.toNat)
    else match scratchBadFrom d core ma.toNat (16 * r.nrow) with
      | some x => .error (clsEcc, some x)
      | none => .ok r

/-- Field i of row r's record: m, l, mnew, alpha. -/
def rowField (d : Device) (core : Nat) (ma : Word) (r i : Nat) : Nat :=
  ofBytes (scratchRead d core (ma.toNat + 16 * r + 4 * i) 4)

/-- MASK: the scratch offset of a gather's mask, a bit to a column (R384, R387; DEDUCED, log 21). -/
def maskAt (w : MW) : Nat := nfld w.imm.toNat 20 0

/-- What keeps the mask from being read, where MASKEN is 1: the code, and the address that fails. -/
def maskCheck (d : Device) (core : Nat) (w : MW) (ncol : Nat) : Option (Nat × Nat) :=
  let n := ceilDiv ncol 8
  if !w.imm.getLsbD 21 then none
  else if scratchSize < maskAt w + n then some (clsBounds, maskAt w)
  else (scratchBadFrom d core (maskAt w) n).map fun x => (clsEcc, x)

/-- The columns of U. -/
def maskCols (d : Device) (core : Nat) (w : MW) (ncol : Nat) : List Nat :=
  let m := ofBytes (scratchRead d core (maskAt w) (ceilDiv ncol 8))
  (List.range ncol).filter fun c => !w.imm.getLsbD 21 || m / 2 ^ c % 2 == 1

/-- Goes on with the columns of U, or stops the job. -/
def withMask (d : Device) (core : Nat) (w : MW) (j : Job) (ncol : Nat) (k : List Nat → MOut × Device) : MOut × Device :=
  match maskCheck d core w ncol with
  | some c => (.stop j 0 c.1 (some c.2), d)
  | none => k (maskCols d core w ncol)

/-- PADDR with the element size and format that PBF gives. -/
def pArea (w : MW) : Nat × Nat × FFmt :=
  (nfld w.imm.toNat 42 22, if w.imm.getLsbD 43 then 2 else 4, if w.imm.getLsbD 43 then bf16 else f32)

/-- fmax of binary32 data (R127). -/
def fmax32 (a b : Nat) : Nat := (fpMinMax f32 true a b).1

/-- alpha, a or b: 1 where the maxima are equal, else 2 to their difference (R387, R388). -/
def alphaOf (m mn : Nat) : Nat :=
  if XR.cmp (exact f32 m) (exact f32 mn) == 0 then 0x3F80_0000
  else (rneExp2 f32 (exact f32 (rneBits f32 (XR.sub (exact f32 m) (exact f32 mn))))).1

/-- x of a cell: s times the cell, rounded. -/
def scaled (m : Matrix) (s : Nat) (cell : Nat) : Nat :=
  rneBits f32 (XR.mul (exact f32 s) (exact f32 (accDatum m false cell)))

/-- The rows of a rectangle are worked on in turn; the job notes a sticky ECC where one met a bad cell. -/
def overRows (j : Job) (r : Rect) (d : Device) (row : Nat → Device → Bool × Device) : MOut × Device :=
  let out := (List.range r.nrow).foldl (init := (false, d)) fun s i =>
    let x := row i s.2
    (s.1 || x.1, x.2)
  (.next { j with ecc := j.ecc || out.1 }, out.2)

/-- The work of an mexu on its checked rectangle. -/
def mexuFn (w : MW) (lim : Nat) (k : Nat → Job → Rect → Device → MOut × Device) : MicroFn := fun core _ j d =>
  match microRect d core (j.reg w.d) (j.reg w.a) lim with
  | .error (c, a) => (.stop j 0 c a, d)
  | .ok r => k core j r d

/-- Checks the rows of P: the code of what fails, and its address. -/
def pCheck (d : Device) (core : Nat) (w : MW) (r : Rect) (reads : Bool) : Option (Nat × Nat) :=
  let (a, es, _) := pArea w
  if a % es ≠ 0 then some (clsAlign, a)
  else if scratchSize < a + r.nrow * 64 * es then some (clsBounds, a)
  else if reads then
    ((List.range r.nrow).findSome? fun i => scratchBadFrom d core (a + i * 64 * es) (r.ncol * es)).map fun x =>
      (clsEcc, x)
  else none

/-- mexu.max (R387). -/
def execMexuMax (w : MW) (s : State) : Host.Outcome State Fault Refusal :=
  microStep s <| mexuFn w 64 fun core j r d =>
    withMask d core w j r.ncol fun cols =>
    let sc := fld (j.reg w.b) 31 0
    overRows j r d fun i d =>
      let m := (d.core core).mx
      let xs := cols.map fun c => scaled m sc (r.cell i c)
      let bad := cols.any fun c => accBad m false (r.cell i c)
      let top := match xs with
        | [] => 0xFF80_0000
        | x :: t => t.foldl fmax32 x
      let old := rowField d core (j.reg w.a) i 0
      let mn := fmax32 old top
      let es := if bad then List.replicate 8 .bad else goods (toBytes 4 mn ++ toBytes 4 (alphaOf old mn))
      (bad, putScratch d core ((j.reg w.a).toNat + 16 * i + 8) es)

/-- mexu.exp (R387). -/
def execMexuExp (w : MW) (s : State) : Host.Outcome State Fault Refusal :=
  microStep s <| mexuFn w 64 fun core j r d =>
    let (a, sz, f) := pArea w
    match pCheck d core w r false with
    | some c => (.stop j 0 c.1 (some c.2), d)
    | none => withMask d core w j r.ncol fun cols =>
      let sc := fld (j.reg w.b) 31 0
      overRows j r d fun i d =>
        let m := (d.core core).mx
        let mn := rowField d core (j.reg w.a) i 2
        let used (c : Nat) : Bool := cols.contains c && mn != 0xFF80_0000
        let bad (c : Nat) : Bool := used c && accBad m false (r.cell i c)
        let elem (c : Nat) : List EB :=
          if bad c then List.replicate sz .bad
          else if used c then
            goods (toBytes sz (rneExp2 f (exact f32 (rneBits f32
              (XR.sub (exact f32 (scaled m sc (r.cell i c))) (exact f32 mn))))).1)
          else zeros sz
        ((List.range 64).any bad, putScratch d core (a + i * 64 * sz) ((List.range 64).flatMap elem))

/-- mexu.sum (R387). -/
def execMexuSum (w : MW) (s : State) : Host.Outcome State Fault Refusal :=
  microStep s <| mexuFn w 64 fun core j r d =>
    let (a, sz, f) := pArea w
    match pCheck d core w r true with
    | some c => (.stop j 0 c.1 (some c.2), d)
    | none =>
      overRows j r d fun i d =>
        let fl (k : Nat) : Nat := rowField d core (j.reg w.a) i k
        let ps := (List.range r.ncol).map fun c => exact f (ofBytes (scratchRead d core (a + i * 64 * sz + c * sz) sz))
        let l := rneBits f32 (XR.sum (XR.mul (exact f32 (fl 3)) (exact f32 (fl 1))) ps)
        (false, engScratchWrite d core ((j.reg w.a).toNat + 16 * i) (toBytes 4 (fl 2) ++ toBytes 4 l))

/-- The work of a microword that changes cells: it waits for the commands that the engine's queue held as the job
started (R30). -/
def afterQueue (fn : MicroFn) : MicroFn := fun core now j d =>
  if (d.core core).mx.queue ≠ [] then (.stay j, d) else fn core now j d

/-- mexu.scale (R387). -/
def execMexuScale (w : MW) (s : State) : Host.Outcome State Fault Refusal :=
  microStep s <| afterQueue <| mexuFn w 128 fun core j r d =>
    overRows j r d fun i d =>
      let al := exact f32 (rowField d core (j.reg w.a) i 3)
      let out := (List.range r.ncol).foldl (init := (false, d.core core)) fun (s : Bool × Core) k =>
        let cell := r.cell i k
        if accBad s.2.mx false cell then (true, s.2)
        else (s.1, s.2.setCell cell (rneBits f32 (XR.mul al (exact f32 (accDatum s.2.mx false cell)))))
      (out.1, d.modCore core fun _ => out.2)

/-! ## Partial results (R388) -/

/-- The work of a macc: its rectangle and Mb are checked. -/
def maccFn (w : MW) (k : Nat → Job → Rect → Word → Device → MOut × Device) : MicroFn :=
  mexuFn w 128 fun core j r d =>
    let mb := j.reg w.b
    orStop j (microEa mb 64 0 d) fun _ d => k core j r mb d

/-- The cells of a rectangle's rows as data of a format. -/
def rowData (m : Matrix) (r : Rect) (size : Nat) (f : Nat → Nat → Nat) : List EB :=
  r.spots.flatMap fun p =>
    if accBad m false (r.cell p.1 p.2) then List.replicate size .bad
    else goods (toBytes size (f p.1 (accDatum m false (r.cell p.1 p.2))))

/-- Posts data at an engine address (R388); a bad cell makes its line poisoned and is sticky ECC. -/
def postData (j : Job) (core : Nat) (ps : List (Place × Mapped × Nat)) (es : List EB) (d : Device) : Job × Device :=
  ({ j with posted := j.posted ++ wordWrites ps (vals es), ecc := j.ecc || hasBad es }, poisonPlaces d core ps es)

/-- Places that n bytes at an engine address take, with their range checked. -/
def microPlaces (d : Device) (core : Nat) (a : Word) (n : Nat) : Got (List (Place × Mapped × Nat)) :=
  Got.andThen (microEa a 8 n d) fun _ d => placesFor d core a n

/-- macc.export (R388). -/
def execMaccExport (w : MW) (s : State) : Host.Outcome State Fault Refusal :=
  microStep s <| maccFn w fun core j r mb d =>
    orStop j (microPlaces d core mb (8 * r.nrow)) fun ps d =>
      orStop j (microPlaces d core (eaPlus mb 512) (4 * r.ncol * r.nrow)) fun qs d =>
        let ml := (List.range r.nrow).flatMap fun i => scratchRead d core ((j.reg w.a).toNat + 16 * i) 8
        let x := postData j core ps (goods ml) d
        let y := postData x.1 core qs (rowData (d.core core).mx r 4 fun _ v => v) x.2
        (.next y.1, y.2)

/-- macc.final (R388). -/
def execMaccFinal (w : MW) (s : State) : Host.Outcome State Fault Refusal :=
  microStep s <| maccFn w fun core j r mb d =>
    let size := if w.imm.getLsbD 0 then 2 else 4
    let f := if w.imm.getLsbD 0 then bf16 else f32
    orStop j (microPlaces d core mb (r.ncol * size * r.nrow)) fun ps d =>
      let l (i : Nat) : XR := exact f32 (rowField d core (j.reg w.a) i 1)
      let es := rowData (d.core core).mx r size fun i v =>
        if (l i).isZero then 0 else (rneDiv f (exact f32 v) (l i)).1
      let y := postData j core ps es d
      (.next y.1, y.2)

/-- macc.merge (R388). -/
def execMaccMerge (w : MW) (s : State) : Host.Outcome State Fault Refusal :=
  microStep s <| afterQueue <| maccFn w fun core j r mb d =>
    orStop j (microRead d core mb (8 * r.nrow)) fun ml d =>
      orStop j (microRead d core (eaPlus mb 512) (4 * r.ncol * r.nrow)) fun ob d =>
        let part (bs : List Byte) (off : Nat) : Nat := ofBytes ((bs.drop off).take 4)
        overRows j r d fun i d =>
          let m := rowField d core (j.reg w.a) i 0
          let l := rowField d core (j.reg w.a) i 1
          let m' := part ml (8 * i)
          let mn := fmax32 m m'
          let a := exact f32 (alphaOf m mn)
          let b := exact f32 (alphaOf m' mn)
          let mix (x y : Nat) : Nat :=
            rneBits f32 (XR.add (XR.mul a (exact f32 x)) (XR.mul b (exact f32 y)))
          let out := (List.range r.ncol).foldl (init := (false, d.core core)) fun (s : Bool × Core) k =>
            let cell := r.cell i k
            if accBad s.2.mx false cell then (true, s.2)
            else (s.1, s.2.setCell cell (mix (accDatum s.2.mx false cell) (part ob (4 * (r.ncol * i + k)))))
          let d := d.modCore core fun _ => out.2
          (out.1, engScratchWrite d core ((j.reg w.a).toNat + 16 * i)
            (toBytes 4 mn ++ toBytes 4 (mix l (part ml (8 * i + 4)))))

/-! ## The end of a job (R389) -/

/-- The code that a job ends with at mhalt: the lowest of the tags that failed and were never waited on, else a sticky
ECC. -/
def haltCode (j : Job) : Nat :=
  let fails := j.tags.filterMap fun t => match t.st with
    | .failed c _ => if t.waited then none else some c
    | _ => none
  if fails ≠ [] then lowest fails else if j.ecc then clsEcc else 0

/-- mhalt (R389). -/
def execMhalt (_w : MW) (s : State) : Host.Outcome State Fault Refusal :=
  microStep s fun _ _ j d =>
    if j.tags.any fun t => t.st == .flight then (.stay j, d) else (.halt j (haltCode j), d)

/-! ## The start of a job (R28, R29, R376, R377) -/

/-- Does a matrix node whose operands are present wait for nothing but a queue entry: for no room in the corner-turn
buffer, and for no walk (R29, R45, R350)? -/
def onlyEntry (d : Device) (e : Env) (opc : Nat) (w : MU) (a b : Word) : Bool :=
  let k := (d.core e.core).mx.corner
  let r : Except Out Comp :=
    if opc = 0x59 then
      let addr := (a.toNat + (w.off.signExtend 64).toNat) % 2 ^ 64
      (compAt d e w.space.toNat (addrWord addr) b addr).1
    else match descAt d e w a with
      | (.error o, _) => .error o
      | (.ok ws, d) =>
        if ctRoom opc (w.mod.getLsbD 0) ws (k.shadowF, k.shadowD) then (compCheck d e (ws.getD 6 0) (ws.getD 7 0)).1
        else .error .wait
  e.pass.rev || (match r with
    | .error .wait | .error (.hold _) => false
    | _ => true)

/-- Does a matrix node of the running pass offer a command (R29)? -/
def mxOffers (d : Device) (now core : Nat) : Bool :=
  match (d.core core).pass with
  | none => false
  | some p => (List.range p.lanes.length).any fun lane => (List.range 64).any fun node =>
      match envOf d now ⟨core, lane, node⟩ with
      | none => false
      | some e =>
        match (imgNode e.words node).map wordOf with
        | some (.mu opc w) =>
          decide (0x50 ≤ opc ∧ opc ≤ 0x5C) && mayFire e (muWord opc w) && (match argsOf d e (muWord opc w) with
            | .values a b _ => onlyEntry d e opc w a b
            | _ => false)
        | _ => false

/-- May the queued job start, by R29? -/
def handedOver (d : Device) (now core : Nat) : Bool :=
  let c := d.core core
  match c.mer.grace with
  | none => true
  | some (num, t) =>
    !(c.pass.any fun p => p.num == num) || (decide (t + 64 ≤ now) && !mxOffers d now core)

/-- The code of a start's parameter block and stop word that leave their spaces; 0 where they do not (R308). -/
def goRange (w : List Word) : Nat :=
  let g (k : Nat) : Word := w.getD k 0
  lowest ((rangeFault false (g 1) 1).toList ++ if g 2 = 0 then [] else (rangeFault false (g 2) 8).toList)

/-- Is the descriptor of a start well formed (R374, R376)? -/
def goOk (w : List Word) : Bool :=
  let g (k : Nat) : Word := w.getD k 0
  let ea (a : Word) : Bool := decide (spOf a ≤ 1) && resOk a
  fld (g 0) 7 0 == 0x60 && zeroIn (g 0) (maskOf 63 44 + maskOf 31 8) && ea (g 1)
    && (g 2 == 0 || (ea (g 2) && adOf (g 2) % 8 == 0)) && ((w.drop 3).take 3).all (· == 0)

/-- A gather tag at the start of a job. -/
def Tag.fresh : Tag := ⟨.idle, 0, 0, 0, 0, [], none, false⟩

/-- A job at its start (R377). -/
def freshJob (c : JobCmd) : Job where
  cmd := c
  m := [c.desc.getD 1 0, BitVec.ofNat 64 c.cidx, BitVec.ofNat 64 c.ncores, BitVec.ofNat 64 c.coord]
    ++ List.replicate 12 0
  n := [0, 0, 0, 0]
  z := false
  neg := false
  t := false
  upc := fld (c.desc.getD 0 0) 43 32
  tags := List.replicate 4 Tag.fresh
  ecc := false
  stop := none
  posted := []
  wait := none
  dbgStop := false
  gathers := 0

/-- JOB_START: the queued job starts once the engine is handed over; one whose descriptor is defective ends, with
DESCRIPTOR before the codes of its ranges (R317). -/
def jobStart (d : Device) (now core : Nat) : Device :=
  let c := d.core core
  match c.mer.queued with
  | none => d
  | some q =>
    if c.mer.job.isSome || c.frozen || !handedOver d now core then d
    else
      let code := if goOk q.desc then goRange q.desc else cDescriptor
      if code = 0 then modMer d core fun m => { m with job := some (freshJob q), queued := none, grace := none }
      else complete (modMer d core fun m => { m with queued := none }) core q.comp code

/-- JOB_START (R377). -/
def execJobStart (core : Nat) (s : State) : Host.Outcome State Fault Refusal :=
  onDevice s fun d => jobStart d s.clock core

/-- The work of attn.go: it takes the queue's place (R375). -/
def attnGoFn (w : MU) : NodeFn := fun e a _ _ d =>
  engFn w a e d (d.core e.core).mer.queued.isNone (fun _ => true) fun ws k d =>
    (0, modMer d e.core fun m =>
      { m with queued := some ⟨ws, k, e.bound.cidx, e.bound.ncores, coreCode e.core⟩ })

/-- attn.go (R375 to R377). -/
def execAttnGo (w : MU) (s : State) : Host.Outcome State Fault Refusal := muStep s 0x60 w (attnGoFn w)

/-! ## Resuming and saving (R399, R401) -/

/-- The work of a command to the Meridian that it names, whose descriptor is checked by ok: it is applied at that
Meridian's next microword boundary (R375). -/
def boundaryFn (w : MU) (ok : List Word → Bool) : NodeFn := fun e a _ _ d =>
  engFn w a e d true (fun _ => true) fun ws k d =>
    let q : SaveCmd := ⟨e.bound.run, e.bound.cidx, e.bound.priv, ws, k⟩
    if !ok ws then (0, complete d e.core k cDescriptor)
    else match targetCore d e.core q.run q.priv (ws.getD 0 0) with
      | .error c => (0, complete d e.core k c)
      | .ok t => (0, settleSaves (modMer d t fun m => { m with saves := m.saves ++ [q] }) e.now t)

/-- The work of attn.go.resume. -/
def attnResumeFn (w : MU) : NodeFn := boundaryFn w resumeOk

/-- The work of attn.save. -/
def attnSaveFn (w : MU) : NodeFn := boundaryFn w saveOk

/-- attn.go.resume (R374, R401). -/
def execAttnGoResume (w : MU) (s : State) : Host.Outcome State Fault Refusal := muStep s 0x60 w (attnResumeFn w)

/-- attn.go.resume with SKIP (R374, R401). -/
def execAttnGoSkip (w : MU) (s : State) : Host.Outcome State Fault Refusal := muStep s 0x60 w (attnResumeFn w)

/-- attn.go.resume with ABANDON (R374, R401). -/
def execAttnGoAbandon (w : MU) (s : State) : Host.Outcome State Fault Refusal := muStep s 0x60 w (attnResumeFn w)

/-- attn.save (R374, R399). -/
def execAttnSave (w : MU) (s : State) : Host.Outcome State Fault Refusal := muStep s 0x65 w (attnSaveFn w)

/-- attn.save with LOAD (R374, R399). -/
def execAttnSaveLoad (w : MU) (s : State) : Host.Outcome State Fault Refusal := muStep s 0x65 w (attnSaveFn w)

end Sys2Proof.Machine
end

