-- ==== Sys2Proof/Machine/Distributor.lean ====
section
/-! DEFINITION. The distributor: lr.* and q.prio, triggers, selection, binding, queue slots, the choice of victims,
the end of a core's share and of a launch, and discarding (22_launch_scheduling: R420 to R439; 25_host_system: R480). -/

namespace Sys2Proof.Machine

/-! ## Distributor nodes (R428 to R432) -/

/-- Is i the index of a record (R428)? -/
def isRecord (d : Device) (i : Word) : Bool := decide (i.toNat < d.dist.count.toNat)

/-- May the issuer act on a record: its own context's, or with system privilege (R428)? -/
def ownsRecord (d : Device) (e : Env) (i : Nat) : Bool := e.bound.priv || fld (recWord d i 0) 27 16 == e.bound.ctx

/-- A node that acts on record i with its checks of R428: in reverse mode it is not supported; a record in memory that
is not served fails with TRANSLATION (R477). -/
def recordFn (e : Env) (i : Word) (wordOk : Bool) (d : Device) (k : Device → Out × Device) : Out × Device :=
  if e.pass.rev then (.poison clsAdj 0, d)
  else if !isRecord d i || !wordOk then (.poison clsBounds i, d)
  else if !recServed d i.toNat then (.poison clsTranslation i, d)
  else if !ownsRecord d e i.toNat then (.poison clsPermission i, d)
  else k d

/-- The words that lr.patch may write without system privilege (R428). -/
def patchable (w : Nat) : Bool := [4, 5, 6, 7, 8, 9, 10, 18, 19].contains w

/-- The work of lr.patch: word w of record i becomes v at the home slice (R429). -/
def lrPatchFn (w : Nat) (e : Env) (i v : Word) (d : Device) : Out × Device :=
  recordFn e i (decide (w ≤ 19) && zeroIn v (recReserved w)) d fun d =>
    if w = 0 ∨ (!patchable w ∧ !e.bound.priv) then (.poison clsPermission i, d)
    else if recState d i.toNat ≠ 0 then (.poison clsEngine i, d)
    else (.val 0 Fx.none, homeWriteWord d (recKey d i.toNat w) v)

/-- lr.patch. -/
def execLrPatch (w : MU) (s : State) : Host.Outcome State Fault Refusal :=
  muStep s 0x70 w fun e a b _ d => lrPatchFn (w.imm.toNat % 32) e a b d

/-- The work of lr.arm (R430). -/
def lrArmFn (e : Env) (i : Word) (d : Device) : Out × Device :=
  recordFn e i true d fun d =>
    let r := armRecord (publish d e.core 3) e.now i.toNat none
    (.val (BitVec.ofNat 64 r.1) Fx.none, r.2)

/-- lr.arm. -/
def execLrArm (w : MU) (s : State) : Host.Outcome State Fault Refusal :=
  muStep s 0x71 w fun e a _ _ d => lrArmFn e a d

/-- Installs a binding and evaluates it at once; 1 where the record is READY, RUNNING or SUSPENDED with no binding
(R431). -/
def installBinding (d : Device) (now i : Nat) (b : Binding) : Nat × Device :=
  if (d.dist.bindings.find i).isNone ∧ 2 ≤ recState d i then (1, d)
  else (0, testBinding (modDist d fun t => { t with bindings := t.bindings.put i b }) now i)

/-- The work of lr.bind at a trigger address (R428, R431). -/
def lrBindFn (cond : Nat) (e : Env) (ea : Nat) (i v : Word) (d : Device) : Out × Device :=
  recordFn e i true d fun d =>
    if ea % 8 ≠ 0 then (.poison clsAlign (addrWord ea), d)
    else match access d e.core ea e.bound.priv false with
      | (.error c, d) => (.poison c (addrWord ea), d)
      | (.ok x, d) =>
        if x.host then (.poison clsPermission (addrWord ea), d)
        else if 4096 ≤ d.dist.bindings.length then (.poison clsBounds i, d)
        else
          let r := installBinding (publish d e.core 3) e.now i.toNat ⟨x.key, cond, v⟩
          (.val (BitVec.ofNat 64 r.1) Fx.none, r.2)

/-- lr.bind. -/
def execLrBind (w : MU) (s : State) : Host.Outcome State Fault Refusal :=
  muStep s 0x72 w fun e a b c d => lrBindFn w.mod.toNat e (effAddr e 15 a w.off 8).1 b c d

/-- The work of lr.unbind: 1 removed, 0 none (R432). -/
def lrUnbindFn (e : Env) (i : Word) (d : Device) : Out × Device :=
  recordFn e i true d fun d =>
    if (d.dist.bindings.find i.toNat).isNone then (.val 0 Fx.none, d)
    else (.val 1 Fx.none, modDist d fun t => { t with bindings := t.bindings.del i.toNat })

/-- lr.unbind. -/
def execLrUnbind (w : MU) (s : State) : Host.Outcome State Fault Refusal :=
  muStep s 0x73 w fun e a _ _ d => lrUnbindFn e a d

/-- The work of q.prio (R428, R433). -/
def qPrioFn (e : Env) (q p : Word) (d : Device) : Out × Device :=
  if e.pass.rev then (.poison clsAdj 0, d)
  else if 4095 < q.toNat ∨ 7 < p.toNat then (.poison clsBounds q, d)
  else (.val 0 Fx.none, modDist d fun t => { t with prios := t.prios.put q.toNat p.toNat })

/-- q.prio. -/
def execQPrio (w : MU) (s : State) : Host.Outcome State Fault Refusal :=
  muStep s 0x74 w fun e a b _ d => qPrioFn e a b d

/-- TRIGGER_TEST (R431). -/
def execTriggerTest (rec : Nat) (s : State) : Host.Outcome State Fault Refusal :=
  onDevice s fun d => testBinding d s.clock rec

/-! ## Selection (R433, R434) -/

/-- DEADLINE of a launch. -/
def Launch.deadline (l : Launch) : Nat := (l.word 6).toNat

/-- Is a head promoted at a clock: DEADLINE − EST ≤ SYS_TIME, exactly (R433)? -/
def promoted (l : Launch) (now : Nat) : Bool :=
  l.deadline != 0 && decide (l.deadline ≤ usOf now + fld (l.word 7) 63 32)

/-- The priority of a queue: the last that q.prio set, else the PRIO of its head (R433). -/
def queuePrio (d : Device) (q : Nat) (l : Launch) : Nat := (d.dist.prios.find q).getD (fld (l.word 5) 2 0)

/-- The level of a head. -/
def levelOf (d : Device) (now q : Nat) (l : Launch) : Nat := if promoted l now then 8 else queuePrio d q l

/-- A head of a mapped queue: its queue, record and launch. -/
structure Head where
  queue : Nat
  record : Nat
  launch : Launch
  deriving DecidableEq, Repr, Inhabited

/-- The head of a queue. -/
def headOf (d : Device) (q : Nat) : Option Head :=
  match queueOf d q with
  | [] => none
  | i :: _ => (launchOf d i).map fun l => ⟨q, i, l⟩

/-- The heads of the mapped queues. -/
def heads (d : Device) : List Head := d.dist.slots.filterMap fun s => match s with
  | some x => headOf d x.1
  | none => none

/-- The clusters a launch may take cores of: those of CMASK, or a handler's own (R435). -/
def allowed (l : Launch) : List Nat :=
  match l.only with
  | some c => [c]
  | none => maskClusters (l.word 3)

/-- Do the CMASK fields of two launches overlap (R434)? -/
def contend (a b : Launch) : Bool := (maskClusters (a.word 3)).any (maskClusters (b.word 3)).contains

/-- Does a come before b in a selection at a clock: a promoted head by DEADLINE then queue; otherwise the higher
level, and within a level the queue that follows rr soonest (R434)? -/
def before (d : Device) (now : Nat) (a b : Head) : Bool :=
  let la := levelOf d now a.queue a.launch
  let lb := levelOf d now b.queue b.launch
  if la ≠ lb then decide (lb < la)
  else if la = 8 then
    decide (a.launch.deadline < b.launch.deadline) || (a.launch.deadline == b.launch.deadline && decide (a.queue < b.queue))
  else
    let r := d.dist.rr.getD la 4095
    decide ((a.queue + 4095 - r) % 4096 < (b.queue + 4095 - r) % 4096)

/-- SelectHead over some heads (R434). -/
def bestHead (d : Device) (now : Nat) : List Head → Option Head
  | [] => none
  | h :: t =>
    match bestHead d now t with
    | none => some h
    | some b => some (if before d now b h then b else h)

/-- Is a record selected? -/
def isSelected (d : Device) (i : Nat) : Bool := d.dist.selected.any fun x => x.1 == i

/-- Does a selected head keep head h from being selected: one that contends with it, unless h is promoted and comes
before it (R434)? -/
def blockedBy (d : Device) (now : Nat) (h : Head) (x : Nat × Nat) : Bool :=
  match launchOf d x.1 with
  | none => false
  | some l => contend h.launch l && !(promoted h.launch now && before d now h ⟨l.queue, x.1, l⟩)

/-- Selects a head at its level, in the place of those it contends with. -/
def selectIt (d : Device) (now : Nat) (h : Head) : Device :=
  let stays (x : Nat × Nat) : Bool := match launchOf d x.1 with
    | some l => !contend h.launch l
    | none => false
  modDist d fun t =>
    { t with selected := t.selected.filter stays ++ [(h.record, levelOf d now h.queue h.launch)] }

/-- The next head to select. -/
def nextHead (d : Device) (now : Nat) : Option Head :=
  bestHead d now ((heads d).filter fun h => !isSelected d h.record && !d.dist.selected.any (blockedBy d now h))

/-! ## Cores and victims (R435, R437) -/

/-- Is a core free for a launch: in service, its island on, with none bound; in REDUCED only the cores
of die 0 (R435, R439, R477, R484)? -/
def coreFree (d : Device) (k : Nat) : Bool :=
  (d.core k).bound.isNone && (d.core k).inService && !(d.host.islands.getD k default).gate
    && (d.host.phase == 3 || (d.host.phase == 2 && decide (k < 96)))

/-- The free cores of a cluster, ascending. -/
def freeIn (d : Device) (c : Nat) : List Nat := (List.range 8).map (8 * c + ·) |>.filter (coreFree d)

/-- The cores in rounds: the first of each list, then the second, and so on. -/
def rounds (n : Nat) (ls : List (List Nat)) : List Nat :=
  (List.range n).flatMap fun r => ls.filterMap fun l => l[r]?

/-- The cores a launch is bound to now, in $cidx order: none where fewer than C are free (R435). -/
def pickCores (d : Device) (l : Launch) : Option (List Nat) :=
  let ls := (allowed l).map (freeIn d)
  let order := if fld (l.word 2) 3 0 = 1 then rounds 8 ls else ls.flatten
  if order.length < l.ncores then none else some (order.take l.ncores)

/-- Is a launch being pre-empted: a request is on its way, or a context is saved? -/
def leaving (d : Device) (l : Launch) : Bool :=
  l.saved != [] || l.drop
    || (liveCores d l).any fun k => (d.core k).preemptSent || (d.core k).preempt == .requested

/-- The cores of a launch in some clusters. -/
def coresIn (d : Device) (l : Launch) (cs : List Nat) : Nat :=
  ((liveCores d l).filter fun k => cs.contains (clusterOf k)).length

/-- Is launch a a victim before launch b: the lower level, then the more recently bound (R437)? -/
def victimBefore (a b : Launch) : Bool := decide (a.level < b.level) || (a.level == b.level && decide (b.order < a.order))

/-- Puts a launch among victims in their order. -/
def insertVictim (l : Launch) : List Launch → List Launch
  | [] => [l]
  | x :: t => if victimBefore l x then l :: x :: t else x :: insertVictim l t

/-- Takes victims until enough cores are counted: the victims, and the count reached. -/
def takeVictims (d : Device) (cs : List Nat) (n : Nat) : (have_ : Nat) → List Launch → List Launch × Nat
  | h, [] => ([], h)
  | h, l :: t =>
    if n ≤ h then ([], h)
    else
      let r := takeVictims d cs n (h + coresIn d l cs) t
      (l :: r.1, r.2)

/-- The distributor's decision for a promoted head that waits for cores: requests go to every core of each victim, or
none where the victims cannot free enough (R437). -/
def preemptFor (d : Device) (l : Launch) : Device :=
  let cs := allowed l
  let running := (d.dist.launches.map (·.2)).filter fun v => v.state == .running
  let free := ((cs.map (freeIn d)).flatten).length
  let coming := ((running.filter (leaving d)).map fun v => coresIn d v cs).sum
  let may := (running.filter fun v => !leaving d v && v.level != 8 && coresIn d v cs != 0).foldl
    (fun t v => insertVictim v t) []
  let r := takeVictims d cs l.ncores (free + coming) may
  if r.2 < l.ncores then d else r.1.foldl (fun d v => sendPreempt d (liveCores d v)) d

/-- Decides for every promoted head that is selected. -/
def preemptAll (d : Device) : Device :=
  (d.dist.selected.filter fun x => x.2 == 8).foldl (init := d) fun d x => match launchOf d x.1 with
    | some l => if (pickCores d l).isSome then d else preemptFor d l
    | none => d

/-- SELECT_HEAD at a clock. -/
def selectHead (d : Device) (now : Nat) : Device :=
  match nextHead d now with
  | none => d
  | some h => preemptAll (selectIt d now h)

/-- SELECT_HEAD (R434). -/
def execSelectHead (s : State) : Host.Outcome State Fault Refusal := onDevice s fun d => selectHead d s.clock

/-- A queue's head reaches DEADLINE − EST: where it is selected its level becomes 8; otherwise it is selected when it
is the head that SelectHead returns (R433, R434, R437). -/
def headPromote (d : Device) (now q : Nat) : Device :=
  match headOf d q with
  | none => d
  | some h =>
    if !promoted h.launch now || !isMapped d.dist q then d
    else if isSelected d h.record then
      preemptAll (modDist d fun t =>
        { t with selected := t.selected.map fun x => if x.1 = h.record then (x.1, 8) else x })
    else if (nextHead d now).map (·.record) = some h.record then selectHead d now
    else d

/-- HEAD_PROMOTE (R433). -/
def execHeadPromote (queue : Nat) (s : State) : Host.Outcome State Fault Refusal :=
  onDevice s fun d => headPromote d s.clock queue

/-! ## Binding (R435, R154) -/

/-- A core that holds no launch: what outlives a binding is its caches, whether it is in service, the registers and
counts of its matrix engine's test, and Meridian's last stop word. -/
def bareCore (c : Core) : Core :=
  { Core.reset with
    cache := c.cache
    inService := c.inService
    regs := { CoreRegs.reset with mxtest := c.regs.mxtest, mxstat := c.regs.mxstat }
    mx := { Matrix.reset with sinceTest := c.mx.sinceTest, sincePass := c.mx.sincePass }
    mer := { Meridian.reset with lastStop := c.mer.lastStop } }

/-- SYS_LAUNCH of a record selected at a level (R420). -/
def launchReg (i level : Nat) : Word := BitVec.ofNat 64 (level * 2 ^ 16 + i)

/-- What a core with index cidx holds of the launch of record i (R421). -/
def boundOf (d : Device) (i : Nat) (l : Launch) (cidx : Nat) : Bound :=
  let g (k hi lo : Nat) : Nat := fld (l.word k) hi lo
  let fills := d.clusters.filterMap fun c => match c.fillArmed with
    | some b => if b.lr = i ∧ b.ended.isNone then some (b.addr, b.reqs.length) else none
    | none => none
  { run := l.run, record := i, ctx := l.ctx, cidx := cidx, ncores := l.ncores, nthreads := g 2 63 48
    width := g 2 47 40, stages := g 2 39 32, table := (l.kdesc.getD 0 0).toNat, nblk := fld (l.kdesc.getD 1 0) 47 40
    param := (l.word 4).toNat, priv := l.priv, strict := bit (l.word 0) 7, hold := bit (l.word 0) 6
    handler := if bit (l.word 0) 5 then some (g 14 63 48) else none
    flist := g 12 55 0, save := g 17 55 0, regions := l.regions, fill := fills.head? }

/-- The registers that the distributor loads (R46, R129, R161, R258, R281, R285, R420). -/
def boundRegs (i : Nat) (l : Launch) (cidx : Nat) (r : CoreRegs) : CoreRegs :=
  let g (k hi lo : Nat) : Nat := fld (l.word k) hi lo
  let pool := g 15 55 0
  let base := if pool = 0 then 0 else pool + cidx * g 16 31 0
  { r with
    fpflags := 0
    fptrap := BitVec.ofNat 64 (g 14 37 32)
    agelimit := BitVec.ofNat 64 (if g 2 15 8 = 0 then 16 else g 2 15 8)
    tapebase := BitVec.ofNat 64 base
    tapelimit := BitVec.ofNat 64 (if pool = 0 then 0 else base + g 16 31 0)
    tapehead := BitVec.ofNat 64 (if pool = 0 then 0 else base + 64)
    dmode := 0
    xlroot := BitVec.ofNat 64 l.root
    xlasid := BitVec.ofNat 64 l.asid
    faultbase := BitVec.ofNat 64 (g 13 55 0 + cidx * 64 * g 2 63 48)
    xltimeout := BitVec.ofNat 64 (g 14 31 0)
    faultctl := BitVec.ofNat 64 (g 0 6 6)
    launch := launchReg i l.level }

/-- A core as a fresh binding leaves it (R154, R290, R435). -/
def bindFresh (b : Bound) (i : Nat) (l : Launch) (c : Core) : Core :=
  let c := bareCore c
  { c with
    bound := some b
    regs := boundRegs i l b.cidx c.regs
    threads := List.replicate b.nthreads Thread.fresh }

/-- A core that a saved context is bound to: CONTEXT_RESTORE then reads the save area (R288, R293). -/
def bindSaved (x : Core) (i : Nat) (l : Launch) (c : Core) : Core :=
  { x with
    cache := c.cache
    inService := c.inService
    preempt := .saved
    preemptSent := false
    frozen := true
    regs := { x.regs with mxtest := c.regs.mxtest, mxstat := c.regs.mxstat, launch := launchReg i l.level }
    mx := { x.mx with sinceTest := c.mx.sinceTest, sincePass := c.mx.sincePass } }

/-- Binds the launch of record i to C cores: a fresh binding, or the restoration of a SUSPENDED one, where a core whose
$cidx has ended its share has nothing to restore and is released at once (R156, R435). -/
def bindCores (d : Device) (i : Nat) (l : Launch) (cores : List Nat) : Device :=
  if l.state = .suspended then
    l.saved.foldl (init := d) fun d x => match cores[x.1]? with
      | some k => d.modCore k (bindSaved x.2 i l)
      | none => d
  else
    cores.zipIdx.foldl (init := d) fun d x =>
      refresh (d.modCore x.1 (bindFresh (boundOf d i l x.2) i l)) x.1 4

/-- The address space of a launch as its context has it now (R472). -/
def rereadContext (d : Device) (l : Launch) : Launch :=
  let c := ctxEntry d l.ctx
  if c.valid && served d (ctxKey d l.ctx) then { l with root := c.root, asid := c.asid } else l

/-- Binds the selected head of record i at its level, where enough cores are free. -/
def bindHead (d : Device) (now i level : Nat) (l : Launch) (cores : List Nat) : Device :=
  let fresh := decide (l.state ≠ .suspended)
  let n := d.dist.runs
  let l0 := { (if fresh then rereadContext d l else l) with
    level := level, order := n, cores := cores, run := if fresh then n else l.run }
  let d := bindCores d i l0 cores
  let d := modDist d fun t =>
    { t with
      runs := n + 1
      rr := t.rr.set level l.queue
      selected := t.selected.filter fun x => x.1 != i
      launches := t.launches.put i { l0 with state := .running, saved := [] } }
  dequeue (setRecState d i 3) now l.queue i

/-- LAUNCH_BIND at a clock: the first of the selected heads for which enough allowed cores are free, unless the
distributor has stopped binding (R477). -/
def launchBind (d : Device) (now : Nat) : Device :=
  if d.dist.closed then d else
  let ready (x : Nat × Nat) : Option (Nat × Nat × Launch × List Nat) :=
    (launchOf d x.1).bind fun l => (pickCores d l).map fun cs => (x.1, x.2, l, cs)
  match d.dist.selected.findSome? ready with
  | none => d
  | some x => preemptAll (bindHead d now x.1 x.2.1 x.2.2.1 x.2.2.2)

/-- LAUNCH_BIND (R435). -/
def execLaunchBind (s : State) : Host.Outcome State Fault Refusal := onDevice s fun d => launchBind d s.clock

/-! ## Queue slots (R436) -/

/-- May the queue of a slot be evicted: mapped for 100 µs, and none of its records selected? A selected head is bound
before that even where a victim has entered the queue in front of it. -/
def evictable (d : Device) (now : Nat) (x : Nat × Nat) : Bool :=
  decide (x.2 + 175000 ≤ now) && !(queueOf d x.1).any (isSelected d)

/-- The slot whose queue is evicted, with the queue: the one mapped longest, then the lowest. -/
def evictSlot (d : Device) (now : Nat) : Option (Nat × Nat × Nat) :=
  d.dist.slots.zipIdx.foldl (init := none) fun best s =>
    match s.1 with
    | none => best
    | some x =>
      if !evictable d now x then best
      else match best with
        | none => some (s.2, x.1, x.2)
        | some b => if x.2 < b.2.2 then some (s.2, x.1, x.2) else best

/-- QUEUE_SLOT_EVICT at a clock. -/
def slotEvict (d : Device) (now : Nat) : Device :=
  match d.dist.unmapped, evictSlot d now with
  | u :: us, some (i, q, _) =>
    modDist d fun t => { t with slots := t.slots.set i (some (u, now)), unmapped := us ++ [q] }
  | _, _ => d

/-- QUEUE_SLOT_EVICT (R436). -/
def execQueueSlotEvict (s : State) : Host.Outcome State Fault Refusal := onDevice s fun d => slotEvict d s.clock

/-! ## Discarding and suspending (R321, R437 to R439, R480) -/

/-- Completes with ABORTED the commands whose completion words are global (R321). -/
def abortCommands (d : Device) (cs : List Comp) : Device := completeAll d 0 cAborted (cs.filter Comp.isGlobal)

/-- The completion words of the attn.save and attn.go.resume commands of a run that wait in other cores' Meridians. -/
def savesOf (d : Device) (run : Nat) : List Comp :=
  (d.cores.flatMap (·.mer.saves)).filterMap fun q => if q.run = run then some q.comp else none

/-- Without those commands. -/
def dropSaves (d : Device) (run : Nat) : Device :=
  { d with cores := d.cores.map fun c =>
      { c with mer := { c.mer with saves := c.mer.saves.filter fun q => q.run != run } } }

/-- Releases a core: an attn.save or attn.go.resume that waits for its Meridian finds it without a job (R375). -/
def releaseCore (now : Nat) (d : Device) (core : Nat) : Device :=
  let bare (c : Core) : Core := { c with preempt := .none, mer := { c.mer with job := none, queued := none } }
  (settleSaves (d.modCore core bare) now core).modCore core bareCore

/-- An attn.save or attn.go.resume that waits in a context which is discarded finds no job (R375). -/
def orphanSave (d : Device) (q : SaveCmd) : Device :=
  match coreOfOwner d q.run q.cidx with
  | none => if q.comp.isGlobal then complete d 0 q.comp cDescriptor else d
  | some o => complete d o q.comp cDescriptor

/-- The launch of record i is discarded: its saved commands are completed, its cores freed, and ABORTED is written. Its
fill.sync commands keep to their requests: R419 gives them no ABORTED (log 31). -/
def discardLaunch (d : Device) (now i : Nat) (l : Launch) : Device :=
  let bound := decide (l.state ≠ .ready)
  let d := abortCommands d (l.saved.flatMap (fun x => compsOf x.2) ++ if bound then savesOf d l.run else [])
  let d := if bound then dropSaves { d with syncs := d.syncs.filter fun x => x.run != l.run || x.comp.isGlobal } l.run
    else d
  let d := l.saved.foldl (fun d x => x.2.mer.saves.foldl orphanSave d) d
  let d := (liveCores d l).foldl (releaseCore now) d
  let d := modDist d fun t => { t with selected := t.selected.filter fun x => x.1 != i }
  abortLaunch d now i l.root l.words

/-- Once every core that still holds the launch of record i has been saved, the launch is SUSPENDED at the head of
its queue, or discarded where it is to be (R422, R437, R439, R480). -/
def suspendIfSaved (d : Device) (now i : Nat) : Device :=
  match launchOf d i with
  | none => d
  | some l =>
    let saved (k : Nat) : Bool := match (d.core k).bound with
      | some b => (l.saved.find b.cidx).isSome
      | none => true
    if l.state ≠ .running ∨ !(liveCores d l).all saved ∨ (l.saved = [] ∧ !l.drop) then d
    else if l.drop then discardLaunch d now i l
    else
      let keep (t : Tbl Core) (k : Nat) : Tbl Core := match (d.core k).bound with
        | some b => t.put b.cidx (d.core k)
        | none => t
      let saved := (liveCores d l).foldl keep l.saved
      let d := (liveCores d l).foldl (fun d k => d.modCore k bareCore) d
      let d := modLaunch d i fun l => { l with state := .suspended, cores := [], saved := saved }
      enqueue (setRecState d i 4) now l.queue i true

/-- The launch of record i is to be discarded once its cores are saved: they are all pre-empted. -/
def dropRunning (d : Device) (now i : Nat) : Device :=
  match launchOf d i with
  | none => d
  | some l => suspendIfSaved (sendPreempt (modLaunch d i fun l => { l with drop := true }) (liveCores d l)) now i

/-- The host's DISCARD of record i, by its state (R480). -/
def discardRecord (d : Device) (now i : Nat) : Device :=
  if !recValid d i || !recServed d i then d
  else match launchOf d i with
    | some l =>
      if l.state = .running then dropRunning d now i
      else discardLaunch (dequeue d now l.queue i) now i l
    | none =>
      if recState d i = 1 then
        let w := (List.range 32).map (recWord d i)
        let d := modDist d fun t => { t with confined := t.confined.del i }
        abortLaunch d now i (ctxEntry d (fld (w.getD 0 0) 27 16)).root w
      else d

/-! ## The end of a share and of a launch (R156, R426) -/

/-- Have all engine operations of a core's threads ended (R156)? -/
def enginesIdle (d : Device) (c : Core) : Bool :=
  c.copy.isEmpty && c.mx.queue.isEmpty && c.mer.job.isNone && c.mer.queued.isNone && c.mer.table.isEmpty
    && (outsideOf d c).isEmpty

/-- Has the core's share of its launch ended: no thread is live, the engines are idle, and a core with FAULTED or
HALTED threads has had its handler launch completed (R156, R426)? While a pre-emption of the core is pending, it is saved
first (DESIGN CHOICE, log 51). -/
def shareEnded (d : Device) (c : Core) (b : Bound) : Bool :=
  c.pass.isNone && c.preempt == .none && !c.threads.any isLive && c.ctls.isEmpty && (boundaryEntries c).isEmpty
    && enginesIdle d c && (!c.threads.any isStopped || (b.handler.isSome && c.handling == .done))

/-- CORE_SHARE_END at a clock. The launch keeps the core's spill rings for their receiver (R178; DEDUCED, log 45). -/
def coreShareEnd (d : Device) (now core : Nat) : Device :=
  let c := d.core core
  match c.bound with
  | none => d
  | some b =>
    if !shareEnded d c b then d
    else
      let d := publish (untape d core) core 4
      let ill := c.threads.any fun t => isStopped t || t.revFault
      let d := modLaunch d b.record fun l =>
        { l with ended := l.ended ++ [b.cidx], partly := l.partly || ill, rings := l.rings.put b.cidx c.rings }
      suspendIfSaved (releaseCore now d core) now b.record

/-- CORE_SHARE_END (R156, R426). -/
def execCoreShareEnd (core : Nat) (s : State) : Host.Outcome State Fault Refusal :=
  onDevice s fun d => coreShareEnd d s.clock core

/-- LAUNCH_COMPLETE for a record: once the share of every core has ended. -/
def launchComplete (d : Device) (now i : Nat) : Device :=
  match launchOf d i with
  | none => d
  | some l => if l.state = .running ∧ !l.drop ∧ l.ended.length = l.ncores then finishLaunch d now i l else d

/-- LAUNCH_COMPLETE (R426). -/
def execLaunchComplete (rec : Nat) (s : State) : Host.Outcome State Fault Refusal :=
  onDevice s fun d => launchComplete d s.clock rec

end Sys2Proof.Machine
end

