-- ==== Sys2Proof/Machine/FloatOps.lean ====
section
/-! DEFINITION. The meanings of the IEEE instructions of the CU map, opcodes 0x40 to 0x54 (08_core_float_atom: R205 to
R218). -/

namespace Sys2Proof.Machine

/-- A datum of the node's float type in a 64-bit operand (R206). -/
def fbits (t : Nat) (x : Word) : Nat := x.toNat % 2 ^ (fmtOfType t).width

/-- A datum and its flags as a node delivers them (R122). -/
def fdel (t : Nat) (r : FRes) : Word × Flags := (deliver t r.1, r.2)

/-- The smallest and largest value of an integer type (R217). -/
def intRange (t : Nat) : Int × Int :=
  if tSigned? t then (-(2 : Int) ^ (tWidth t - 1), (2 : Int) ^ (tWidth t - 1) - 1)
  else (0, (2 : Int) ^ tWidth t - 1)

/-- fadd (R207, R208). -/
def execFadd (w : CU) (s : State) : Host.Outcome State Fault Refusal :=
  cuStep s 0x40 w (floatFn fun a b _ => fdel w.typ.toNat (fpAdd (fmtOfType w.typ.toNat) (fbits w.typ.toNat a) (fbits w.typ.toNat b)))

/-- fsub (R207, R208). -/
def execFsub (w : CU) (s : State) : Host.Outcome State Fault Refusal :=
  cuStep s 0x41 w (floatFn fun a b _ => fdel w.typ.toNat (fpSub (fmtOfType w.typ.toNat) (fbits w.typ.toNat a) (fbits w.typ.toNat b)))

/-- fmul (R207, R208). -/
def execFmul (w : CU) (s : State) : Host.Outcome State Fault Refusal :=
  cuStep s 0x42 w (floatFn fun a b _ => fdel w.typ.toNat (fpMul (fmtOfType w.typ.toNat) (fbits w.typ.toNat a) (fbits w.typ.toNat b)))

/-- fma (R207, R208). -/
def execFma (w : CU) (s : State) : Host.Outcome State Fault Refusal :=
  cuStep s 0x43 w (floatFn fun a b c =>
    fdel w.typ.toNat (fpFma (fmtOfType w.typ.toNat) (fbits w.typ.toNat a) (fbits w.typ.toNat b) (fbits w.typ.toNat c)))

/-- fmin (R127, R209). -/
def execFmin (w : CU) (s : State) : Host.Outcome State Fault Refusal :=
  cuStep s 0x44 w (floatFn fun a b _ => fdel w.typ.toNat (fpMinMax (fmtOfType w.typ.toNat) false (fbits w.typ.toNat a) (fbits w.typ.toNat b)))

/-- fmax (R127, R209). -/
def execFmax (w : CU) (s : State) : Host.Outcome State Fault Refusal :=
  cuStep s 0x45 w (floatFn fun a b _ => fdel w.typ.toNat (fpMinMax (fmtOfType w.typ.toNat) true (fbits w.typ.toNat a) (fbits w.typ.toNat b)))

/-- fabs (R209). -/
def execFabs (w : CU) (s : State) : Host.Outcome State Fault Refusal :=
  cuStep s 0x46 w (pureFn fun a _ _ => deliver w.typ.toNat (fpAbs (fmtOfType w.typ.toNat) (fbits w.typ.toNat a)))

/-- fneg (R209). -/
def execFneg (w : CU) (s : State) : Host.Outcome State Fault Refusal :=
  cuStep s 0x47 w (pureFn fun a _ _ => deliver w.typ.toNat (fpNeg (fmtOfType w.typ.toNat) (fbits w.typ.toNat a)))

/-- fdiv (R210). -/
def execFdiv (w : CU) (s : State) : Host.Outcome State Fault Refusal :=
  cuStep s 0x48 w (floatFn fun a b _ => fdel w.typ.toNat (fpDiv (fmtOfType w.typ.toNat) (fbits w.typ.toNat a) (fbits w.typ.toNat b)))

/-- fsqrt (R210). -/
def execFsqrt (w : CU) (s : State) : Host.Outcome State Fault Refusal :=
  cuStep s 0x49 w (floatFn fun a _ _ => fdel w.typ.toNat (fpSqrt (fmtOfType w.typ.toNat) (fbits w.typ.toNat a)))

/-- frcp.seed (R132, R134, R211). -/
def execFrcpSeed (w : CU) (s : State) : Host.Outcome State Fault Refusal :=
  cuStep s 0x4A w (floatFn fun a _ _ => fdel 4 (fpRcpSeed (fbits 4 a)))

/-- frsqrt.seed (R133, R134, R211). -/
def execFrsqrtSeed (w : CU) (s : State) : Host.Outcome State Fault Refusal :=
  cuStep s 0x4B w (floatFn fun a _ _ => fdel 4 (fpRsqrtSeed (fbits 4 a)))

/-- fex2 (R212). -/
def execFex2 (w : CU) (s : State) : Host.Outcome State Fault Refusal :=
  cuStep s 0x4C w (floatFn fun a _ _ => fdel 4 (fpEx2 (fbits 4 a)))

/-- flg2 (R212). -/
def execFlg2 (w : CU) (s : State) : Host.Outcome State Fault Refusal :=
  cuStep s 0x4D w (floatFn fun a _ _ => fdel 4 (fpLg2 (fbits 4 a)))

/-- fcmp (R213): MOD is the condition. -/
def execFcmp (w : CU) (s : State) : Host.Outcome State Fault Refusal :=
  cuStep s 0x4E w (floatFn fun a b _ =>
    let r := fpCmp (fmtOfType w.typ.toNat) w.mod.toNat (fbits w.typ.toNat a) (fbits w.typ.toNat b)
    (predVal r.1, r.2))

/-- fclass (R214). -/
def execFclass (w : CU) (s : State) : Host.Outcome State Fault Refusal :=
  cuStep s 0x4F w (pureFn fun a _ _ => BitVec.ofNat 64 (2 ^ fpClass (fmtOfType w.typ.toNat) (fbits w.typ.toNat a)))

/-- fcvt (R215): MOD names the source type. -/
def execFcvt (w : CU) (s : State) : Host.Outcome State Fault Refusal :=
  cuStep s 0x50 w (floatFn fun a _ _ =>
    fdel w.typ.toNat (fpCvt (fmtOfType w.typ.toNat) (fmtOfType w.mod.toNat) (fbits w.mod.toNat a)))

/-- fcvti (R217): MOD names the mode and the source type. -/
def execFcvti (w : CU) (s : State) : Host.Outcome State Fault Refusal :=
  cuStep s 0x51 w (floatFn fun a _ _ =>
    let src := srcType true w.mod.toNat
    let r := fpToInt (fmtOfType src) (w.mod.toNat / 4) (intRange w.typ.toNat).1 (intRange w.typ.toNat).2 (fbits src a)
    (deliverInt w.typ.toNat r.1, r.2))

/-- icvtf (R216): MOD names the source type. -/
def execIcvtf (w : CU) (s : State) : Host.Outcome State Fault Refusal :=
  cuStep s 0x52 w (floatFn fun a _ _ => fdel w.typ.toNat (fpOfInt (fmtOfType w.typ.toNat) (ival w.mod.toNat a)))

/-- fround (R218): MOD is the mode. -/
def execFround (w : CU) (s : State) : Host.Outcome State Fault Refusal :=
  cuStep s 0x53 w (floatFn fun a _ _ => fdel w.typ.toNat (fpRound (fmtOfType w.typ.toNat) w.mod.toNat (fbits w.typ.toNat a)))

/-- fcopysign (R209). -/
def execFcopysign (w : CU) (s : State) : Host.Outcome State Fault Refusal :=
  cuStep s 0x54 w (pureFn fun a b _ => deliver w.typ.toNat (fpCopysign (fmtOfType w.typ.toNat) (fbits w.typ.toNat a) (fbits w.typ.toNat b)))

end Sys2Proof.Machine
end

