-- ==== Sys2Proof/Machine/Link.lean ====
section
/-! DEFINITION. The link engine: cl.put, cl.get and the collectives, packets, failure detection and the state of the
ports (23_link_engine: R440 to R459). Peers lie outside the device: what they send arrives as events, and what this
device sends stands in outbox. -/

namespace Sys2Proof.Machine

/-! ## Access by the engine (R443, R456) -/

/-- Bytes as they travel. -/
def toWire (es : List EB) : Wire := es.map fun e => match e with
  | .byte b => some b
  | _ => none

/-- Bytes as they arrive. -/
def ofWire (bs : Wire) : List EB := bs.map fun b => match b with
  | some b => .byte b
  | none => .bad

/-- Data of a range under a root at home, and the code of a failure (R316, R317). -/
def rootData (d : Device) (root : Nat) (priv : Bool) (a n : Nat) : List EB × Option Nat :=
  match rootPlan d root priv false (n / 4096 + 2) a n with
  | .error e => (List.replicate n .miss, some e.1)
  | .ok ps => (ps.flatMap fun p => mark (fun x => badAt d x 1) p.1 (homeRead d p.1 p.2), none)

/-- Writes data under a root at home, all or none. -/
def rootPut (d : Device) (root : Nat) (priv : Bool) (a : Nat) (es : List EB) : Option Nat × Device :=
  match rootPlan d root priv true (es.length / 4096 + 2) a es.length with
  | .error e => (some e.1, d)
  | .ok ps => (none, putPieces d ps es)

/-- The core whose scratchpad an operation's local addresses lie in. -/
def LinkOp.owner (d : Device) (o : LinkOp) : Option Nat := coreOfOwner d o.run o.cidx

/-- Reads local data of an operation; scratch whose core is gone is uncorrectable. -/
def localRead (d : Device) (o : LinkOp) (a : Word) (n : Nat) : List EB × Option Nat :=
  if spOf a = 0 then rootData d o.root o.priv (adOf a) n
  else match o.owner d with
    | some k => (mark (fun x => scratchBadAt d k x 1) (adOf a) (scratchRead d k (adOf a) n), none)
    | none => (List.replicate n .bad, none)

/-- Writes local data of an operation, all or none; scratch whose core is gone takes nothing. -/
def localPut (d : Device) (o : LinkOp) (a : Word) (es : List EB) : Option Nat × Device :=
  if spOf a = 0 then rootPut d o.root o.priv (adOf a) es
  else match o.owner d with
    | some k => (none, putScratch d k (adOf a) es)
    | none => (none, d)

/-- Writes local data; where that fails, a free subset of its bytes (R316). -/
def localWrite (d : Device) (o : LinkOp) (a : Word) (es : List EB) : Option Nat × Device :=
  match localPut d o a es with
  | (none, d) => (none, d)
  | (some c, d) =>
    (some c, (wordPieces (a, es)).foldl (init := d) fun d q =>
      let (v, d) := d.draw
      let part := q.2.zipIdx.map fun x => if v / 2 ^ x.2 % 2 = 1 then x.1 else .miss
      (localPut d o q.1 part).2)

/-- A remote access: JOB's context here and its pages; a host-mapped page is refused (R443, R455). -/
def peerPages (d : Device) (job a n : Nat) (write : Bool) : Except Nat (List (Nat × Nat)) :=
  match ctxOfJob d job with
  | none => .error cLink
  | some c =>
    match rootPlan d c.root false write (n / 4096 + 2) a n with
    | .error e => .error e.1
    | .ok ps => if ps.any fun p => isHostKey p.1 then .error clsPermission else .ok ps

/-- Writes data at a remote address of this device: the code, 0 for none. -/
def peerWrite (d : Device) (job a : Nat) (es : List EB) : Nat × Device :=
  match peerPages d job a es.length true with
  | .error c => (c, d)
  | .ok ps => (0, putPieces d ps es)

/-- Reads data at a remote address of this device: the code and the data. -/
def peerRead (d : Device) (job a n : Nat) : Nat × List EB :=
  match peerPages d job a n false with
  | .error c => (c, [])
  | .ok ps => (0, ps.flatMap fun p => mark (fun x => badAt d x 1) p.1 (homeRead d p.1 p.2))

/-! ## Descriptors (R442, R446) -/

/-- Bits of word k of an operation's descriptor. -/
def LinkOp.fld (o : LinkOp) (k hi lo : Nat) : Nat := Machine.fld (o.desc.getD k 0) hi lo

/-- Word k of an operation's descriptor. -/
def LinkOp.word (o : LinkOp) (k : Nat) : Word := o.desc.getD k 0

/-- SEQ of a collective. -/
def LinkOp.seq (o : LinkOp) : Nat := o.fld 0 63 32

/-- The bytes of an element of a cl.red's ETYPE. -/
def LinkOp.elem (o : LinkOp) : Nat := sizeOfType (o.fld 4 63 56)

/-- COUNT of a cl.red. -/
def LinkOp.count (o : LinkOp) : Nat := o.fld 4 31 0

/-- COUNT of a cl.redq, its format and its elements. -/
def LinkOp.atoms (o : LinkOp) : Nat := o.fld 0 31 9

/-- DFMT of a cl.redq. -/
def LinkOp.dfmt (o : LinkOp) : AFmt := AFmt.ofType (o.fld 4 63 56)

/-- The elements of a cl.redq. -/
def LinkOp.elems (o : LinkOp) : Nat := o.atoms * o.dfmt.n

/-- STAGE of a cl.redq (R449). -/
def LinkOp.stage (o : LinkOp) : Word := eaPlus (o.word 5) (4 * o.elems)

/-- LEN or BLK. -/
def LinkOp.len (o : LinkOp) : Nat := o.fld 4 47 0

/-- Is a word a remote address (R443)? -/
def isRemote (a : Word) : Bool := fld a 63 56 == 0

/-- Is LEN or BLK in its range, with the bits above it 0? -/
def LinkOp.lenOk (o : LinkOp) (most : Nat) : Bool := o.fld 4 63 48 == 0 && decide (1 ≤ o.len ∧ o.len ≤ most)

/-- The local ranges of an operation whose P members are known: sources, destinations, and both (R446). -/
def LinkOp.ranges (o : LinkOp) (p : Nat) : List (Word × Nat) × List (Word × Nat) × List (Word × Nat) :=
  match o.opc with
  | 0x80 => ([(o.word 2, o.len)], [], [])
  | 0x81 => ([], [(o.word 3, o.len)], [])
  | 0x82 => ([(o.word 2, o.elem * o.count)], [(o.word 3, o.elem * o.count)], [])
  | 0x83 => ([(o.word 2, 4 * o.elems)], [(o.word 3, 4 * o.elems)], [(o.word 5, 4 * o.elems + o.dfmt.bytes * o.atoms)])
  | 0x84 => ([(o.word 2, p * o.len)], [(o.word 3, p * o.len)], [])
  | 0x86 => ([], [(o.word 3, 32)], [(o.word 2, 2 * o.len)])
  | _ => ([], [], [])

/-- Do two local ranges overlap? -/
def meets (x y : Word × Nat) : Bool := spOf x.1 == spOf y.1 && overlaps (adOf x.1) x.2 (adOf y.1) y.2

/-- Do a source and a destination of the ranges overlap? -/
def rangesMeet (r : List (Word × Nat) × List (Word × Nat) × List (Word × Nat)) : Bool :=
  r.1.any (fun x => (r.2.1 ++ r.2.2).any (meets x)) || r.2.2.any fun x => r.2.1.any (meets x)

/-- The fields of a descriptor that its command does not break (R446). -/
def LinkOp.fieldsOk (o : LinkOp) : Bool :=
  let low := o.fld 0 31 8 == 0
  o.fld 0 7 0 == o.opc && spOf (o.word 1) == 0 && resOk (o.word 1) && adOf (o.word 1) % 64 == 0
    && match o.opc with
      | 0x80 => o.fld 0 31 9 == 0 && o.fld 0 63 45 == 0 && isRemote (o.word 3) && o.lenOk (2 ^ 40)
        && (if bit (o.word 0) 8 then isRemote (o.word 5) && adOf (o.word 5) % 8 == 0 else o.word 5 == 0)
      | 0x81 => low && o.fld 0 63 45 == 0 && isRemote (o.word 2) && o.lenOk (2 ^ 48) && o.word 5 == 0
      | 0x82 => low && decide (o.fld 4 63 56 ≤ 6) && decide (o.fld 4 55 48 ≤ 2) && o.fld 4 47 32 == 0
        && o.count != 0 && o.word 5 == 0
      | 0x83 => decide (8 ≤ o.fld 4 63 56 ∧ o.fld 4 63 56 ≤ 10) && o.atoms != 0
      | 0x84 => low && o.lenOk (2 ^ 32) && o.word 5 == 0
      | 0x85 => o.fld 0 31 9 == 0 && o.fld 2 63 32 == 0 && o.word 3 == 0 && o.word 4 == 0 && o.word 5 == 0
      | _ => low && o.lenOk (2 ^ 32) && o.fld 5 63 32 == 0 && o.fld 5 31 0 != 0 && adOf (o.word 3) % 8 == 0

/-- Are the addresses of a cl.red or cl.redq aligned to their element size (R446)? -/
def LinkOp.aligned (o : LinkOp) : Bool :=
  match o.opc with
  | 0x82 => adOf (o.word 2) % o.elem == 0 && adOf (o.word 3) % o.elem == 0
  | 0x83 => adOf (o.word 2) % 4 == 0 && adOf (o.word 3) % 4 == 0 && adOf (o.word 5) % 4 == 0
  | _ => true

/-- The code that a local range breaks R443 with. R455 allows no BOUNDS: a scratch range that leaves the scratchpad is no
local address, and DESCRIPTOR (DEDUCED, log 35). -/
def localFault (a : Word) (n : Nat) : Option Nat :=
  (rangeFault false a n).map fun c => if c = clsBounds then cDescriptor else c

/-- The codes that a descriptor breaches in a group of p members. -/
def LinkOp.codes (o : LinkOp) (p : Nat) : List Nat :=
  let r := o.ranges p
  codesOf ([need (o.fieldsOk && !rangesMeet r) cDescriptor, need o.aligned clsAlign]
    ++ (r.1 ++ r.2.1 ++ r.2.2).map fun x => localFault x.1 x.2)

/-- The indices at which a device number stands in a member list. -/
def ranksOf (dev : Nat) (ms : List Nat) : List Nat := (List.range ms.length).filter fun i => ms.getD i 8192 == dev

/-- The group that a descriptor names, seen from this device, or the code of its failure (R442). -/
def groupAt (d : Device) (o : LinkOp) : Except Nat Group :=
  match rootRead d o.root o.priv (adOf (o.word 1)) 64 with
  | .error e => .error e.1
  | .ok bs =>
    let ws := wordsOf 8 bs
    let w0 := ws.getD 0 0
    let p := Machine.fld w0 13 0
    if Machine.fld w0 63 48 ≠ 0x474D ∨ Machine.fld w0 47 40 ≠ 1 ∨ Machine.fld w0 39 14 ≠ 0 ∨ p = 0 ∨ 8192 < p
        ∨ Machine.fld (ws.getD 1 0) 31 16 ≠ 0 ∨ !(ws.drop 2).all (· == 0) then .error cDescriptor
    else match rootRead d o.root o.priv (adOf (o.word 1) + 64) (2 * p) with
      | .error e => .error e.1
      | .ok bs =>
        let ms := (List.range p).map fun i => ofBytes ((bs.drop (2 * i)).take 2)
        match ranksOf d.devid.toNat ms with
        | [r] =>
          if ms.any fun m => decide (8192 ≤ m) then .error cDescriptor
          else .ok ⟨Machine.fld (ws.getD 1 0) 15 0, Machine.fld (ws.getD 1 0) 63 32, r, ms⟩
        | _ => .error cDescriptor

/-! ## Operations (R444, R445) -/

/-- The operation replaced by f of it. -/
def modLink (d : Device) (k : Nat) (f : LinkOp → LinkOp) : Device :=
  match d.links.find k with
  | some o => { d with links := d.links.put k (f o) }
  | none => d

/-- A packet leaves for a device. -/
def sendTo (d : Device) (dev : Nat) (p : Packet) : Device := { d with outbox := (dev, p) :: d.outbox }

/-- Notes a code, keeping the lowest. -/
def LinkOp.note (o : LinkOp) (c : Nat) : LinkOp := { o with code := if o.code = 0 ∨ c < o.code then c else o.code }

/-- Notes ECC where data is uncorrectable (R455). -/
def LinkOp.noteBad (o : LinkOp) (es : List EB) : LinkOp := if hasBad es then o.note clsEcc else o

/-- The operation ends with its code, and a further one: its completion word is written (R25, R456), but of a cl.bar that
has timed out before, which is written already (R452). -/
def endLink (d : Device) (k : Nat) (o : LinkOp) (c : Nat) : Device :=
  let code := if c = 0 then o.code else (o.note c).code
  let d := { d with links := d.links.del k }
  if o.ended then d
  else match o.comp.place with
  | .home _ => complete d 0 o.comp code
  | _ => match o.owner d with
    | some core => complete d core o.comp code
    | none => d

/-- The group of a started operation. -/
def LinkOp.grp (o : LinkOp) : Group := o.group.getD ⟨0, 0, 0, []⟩

/-- P of a started operation. -/
def LinkOp.p (o : LinkOp) : Nat := o.grp.members.length

/-- The device that holds a rank. -/
def LinkOp.dev (o : LinkOp) (rank : Nat) : Nat := o.grp.members.getD rank 8192

/-- PEER of a cl.put or cl.get. -/
def LinkOp.peer (o : LinkOp) : Nat := o.fld 0 44 32

/-- Is the command a collective (R444)? -/
def isCollective (opc : Nat) : Bool := decide (0x82 ≤ opc)

/-- Are two started operations of one key? -/
def LinkOp.sameKey (a b : LinkOp) : Bool :=
  isCollective a.opc && isCollective b.opc && a.group.isSome && b.group.isSome && !a.ended && !b.ended
    && a.grp.job == b.grp.job && a.grp.gen == b.grp.gen && a.seq == b.seq

/-- What must agree among the members of an instance: OPC, the descriptor fields but for local addresses, CADDR and
CVAL, and the members (R444). -/
def LinkOp.agree (o : LinkOp) : List Word :=
  let own := match o.opc with
    | 0x83 => [o.word 0, BitVec.ofNat 64 (o.fld 4 63 56)]
    | 0x85 => [o.word 0, o.word 2]
    | 0x86 => [o.word 0, o.word 4, o.word 5]
    | _ => [o.word 0, o.word 4]
  BitVec.ofNat 64 o.opc :: own ++ o.grp.members.map (BitVec.ofNat 64)

/-- The member's contribution for a rank: its part, from its source data (R448, R449, R451). -/
def LinkOp.partFor (o : LinkOp) (data : List EB) (rank : Nat) : List EB :=
  if o.opc = 0x84 then (data.drop (rank * o.len)).take o.len else data

/-- The arrival of this member: its own part, and a part to every other. -/
def arrive (d : Device) (k : Nat) (o : LinkOp) (fields : List Word) (data : List EB) : Device :=
  let g := o.grp
  let d := modLink d k fun o => { o with
    sent := true, parts := o.parts.put g.rank (fields, toWire (o.partFor data g.rank)) }
  (List.range o.p).foldl (init := d) fun d m =>
    if m = g.rank then d
    else sendTo d (o.dev m) (.part g.job g.gen o.seq g.rank fields (toWire (o.partFor data m)))

/-! ## cl.redq, phase 1 (R449) -/

/-- A Legend under a root (R145): the Legend, or the code. -/
def rootLegend (d : Device) (o : LinkOp) : Except Nat Legend :=
  let va := o.fld 4 55 0
  if va = 0 then (if o.dfmt = .pa8 then .ok Legend.pa8Default else .error cDescriptor)
  else if va % 64 ≠ 0 then .error cDescriptor
  else match rootRead d o.root o.priv va 1088 with
    | .error e => .error e.1
    | .ok bs =>
      let ws := wordsOf 136 bs
      match legendOf o.dfmt (ws.getD 0 0) (ws.getD 1 0) (ws.drop 8) with
      | none => .error cDescriptor
      | some lg => .ok lg

/-- Element i of binary32 data. -/
def f32At (es : List EB) (i : Nat) : Nat := ebNat ((es.drop (4 * i)).take 4)

/-- Atom group a of phase 1: the staged atom, the residual, and whether its data is uncorrectable. -/
def stageAtom (f : AFmt) (lg : Legend) (gr res : List EB) (a : Nat) : List EB × List EB × Bool :=
  let g := (gr.drop (4 * f.n * a)).take (4 * f.n)
  let r := (res.drop (4 * f.n * a)).take (4 * f.n)
  if hasBad g || hasBad r then (goods (toBytes f.bytes f.nar), List.replicate (4 * f.n) .miss, true)
  else
    let xs := (List.range f.n).map fun i => XR.add (exact f32 (f32At g i)) (exact f32 (f32At r i))
    let atom := encodeAtom f lg xs
    let ds := decodeOrNan f lg atom
    (goods (toBytes f.bytes atom),
      goods ((List.range f.n).flatMap fun i => toBytes 4 (rneBits f32 (XR.sub (xs.getD i .nan) (ds.getD i .nan)))), false)

/-- Phase 1: nothing is written where a translation fails; else STAGE and RES are, and ECC is noted. -/
def redqPhase1 (d : Device) (o : LinkOp) : Except Nat (Bool × Device) :=
  let gr := localRead d o (o.word 2) (4 * o.elems)
  let res := localRead d o (o.word 5) (4 * o.elems)
  let blank := List.replicate (4 * o.elems + o.dfmt.bytes * o.atoms) EB.miss
  match rootLegend d o, codesOf [gr.2, res.2, (localPut d o (o.word 5) blank).1] with
  | .error c, cs => .error (lowest (c :: cs))
  | .ok lg, [] =>
    let xs := (List.range o.atoms).map (stageAtom o.dfmt lg gr.1 res.1)
    let d := (localPut d o o.stage (xs.flatMap (·.1))).2
    .ok (xs.any (·.2.2), (localPut d o (o.word 5) (xs.flatMap (·.2.1))).2)
  | .ok _, cs => .error (lowest cs)

/-! ## The start of an operation (R447 to R453) -/

/-- The source data of a collective, or the code that ends it; phase 1 of a cl.redq runs first. -/
def sourceOf (d : Device) (o : LinkOp) : Except Nat (List EB) × Bool × Device :=
  let get (d : Device) (a : Word) (n : Nat) (ecc : Bool) : Except Nat (List EB) × Bool × Device :=
    match localRead d o a n with
    | (_, some c) => (.error c, ecc, d)
    | (es, none) => (.ok es, ecc, d)
  match o.opc with
  | 0x82 => get d (o.word 2) (o.elem * o.count) false
  | 0x83 =>
    if bit (o.word 0) 8 then get d o.stage (o.dfmt.bytes * o.atoms) false
    else match redqPhase1 d o with
      | .error c => (.error c, false, d)
      | .ok (ecc, d) => get d o.stage (o.dfmt.bytes * o.atoms) ecc
  | 0x84 => get d (o.word 2) (o.p * o.len) false
  | _ => (.ok [], false, d)

/-- A collective starts: two operations of one key fail; else its contribution leaves. -/
def startCollective (d : Device) (k : Nat) (o : LinkOp) : Device :=
  let twins := d.links.filter fun x => x.1 != k && x.2.sameKey o
  if twins ≠ [] then
    let d := twins.foldl (fun d x => modLink d x.1 fun o => { o.note cDescriptor with failed := true }) d
    let d := modLink d k fun o => { o.note cDescriptor with failed := true }
    arrive d k o [] []
  else match sourceOf d o with
    | (.error c, _, d) => endLink d k o c
    | (.ok es, ecc, d) =>
      let d := modLink d k fun o => (if ecc then o.note clsEcc else o).noteBad es
      if o.opc = 0x85 then d else arrive d k o o.agree es

/-- A cl.put starts: within the device at once, else its bytes leave for the peer. -/
def startPut (d : Device) (k : Nat) (o : LinkOp) : Device :=
  match localRead d o (o.word 2) o.len with
  | (_, some c) => endLink d k o c
  | (es, none) =>
    let o := o.noteBad es
    let job := o.grp.job
    if o.peer = o.grp.rank then
      match peerWrite d job (adOf (o.word 3)) es with
      | (0, d) =>
        if bit (o.word 0) 8 then
          let r := peerWrite d job (adOf (o.word 5)) (goods (toBytes 8 (o.word 7).toNat))
          endLink r.2 k o r.1
        else endLink d k o 0
      | (c, d) => endLink d k o c
    else
      sendTo (modLink d k fun _ => { o with sent := true, steps := 1 }) (o.dev o.peer)
        (.write job (adOf (o.word 3)) (toWire es) d.devid.toNat k)

/-- A cl.get starts. -/
def startGet (d : Device) (k : Nat) (o : LinkOp) : Device :=
  if o.peer = o.grp.rank then
    match peerRead d o.grp.job (adOf (o.word 2)) o.len with
    | (0, es) =>
      let r := localWrite d o (o.word 3) es
      endLink r.2 k (o.noteBad es) (r.1.getD 0)
    | (c, _) => endLink d k o c
  else
    sendTo (modLink d k fun o => { o with sent := true, steps := 1 }) (o.dev o.peer)
      (.readReq o.grp.job (adOf (o.word 2)) o.len d.devid.toNat k)

/-- Is a peer unreachable at a clock: no port has reached it for the SYS_RINGTIMEOUT of an operation, in µs (R440,
R441)? -/
def isUnreachable (d : Device) (now timeout dev : Nat) : Bool :=
  match d.unreachable.find dev with
  | some t => decide (t + 1750 * timeout ≤ now)
  | none => false

/-- The devices that an operation needs: the peer, or every member. -/
def LinkOp.needs (o : LinkOp) : List Nat :=
  if isCollective o.opc then o.grp.members else [o.dev o.peer]

/-- What breaks the rules of a command in its group: PEER, P = 1 or STEPS (R446). -/
def LinkOp.groupOk (o : LinkOp) : Bool :=
  match o.opc with
  | 0x80 | 0x81 => decide (o.peer < o.p)
  | 0x86 => decide (2 ≤ o.p ∧ o.fld 5 31 0 < o.p)
  | _ => true

/-- An operation starts: its descriptor and group are checked, then it reads and sends. -/
def startLink (d : Device) (now k : Nat) (o : LinkOp) : Device :=
  let early := o.codes 1
  if !o.fieldsOk then endLink d k o (lowest early)
  else match groupAt d o with
    | .error c => endLink d k o (lowest (c :: early))
    | .ok g =>
      let o := { o with group := some g }
      let codes := o.codes o.p ++ codesOf [need o.groupOk cDescriptor,
        need (o.opc == 0x86 || !o.needs.any (isUnreachable d now o.timeout)) cLink]
      let d := modLink d k fun _ => o
      if codes ≠ [] then endLink d k o (lowest codes)
      else match o.opc with
        | 0x80 => startPut d k o
        | 0x81 => startGet d k o
        | _ => startCollective d k o

/-! ## The inbox (R444) -/

/-- The key of a collective's packet. -/
def packetKey : Packet → Option (Nat × Nat × Nat)
  | .part j g s _ _ _ => some (j, g, s)
  | .ring j g s _ _ => some (j, g, s)
  | .ringAck j g s _ => some (j, g, s)
  | .ringAbort j g s => some (j, g, s)
  | _ => none

/-- The key of a started operation. -/
def LinkOp.key (o : LinkOp) : Option (Nat × Nat × Nat) :=
  if isCollective o.opc then o.group.map fun g => (g.job, g.gen, o.seq) else none

/-- The bytes of a member's part that a member contributes. -/
def LinkOp.partLen (o : LinkOp) : Nat :=
  match o.opc with
  | 0x82 => o.elem * o.count
  | 0x83 => o.dfmt.bytes * o.atoms
  | 0x84 => o.len
  | _ => 0

/-- Takes the parts that wait for an operation: one of each rank; a part without fields says that its member fails, and
one that agrees has the length that every member's has (log 37). -/
def takeParts (d : Device) (k : Nat) : Device :=
  d.inbox.foldl (init := { d with inbox := [] }) fun d x =>
    let back := { d with inbox := d.inbox ++ [x] }
    match d.links.find k, x.1 with
    | some o, .part _ _ _ rank fields data =>
      if o.key.isSome ∧ o.key = packetKey x.1 ∧ ((o.parts.find rank).isNone ∨ fields = []) ∧ !o.ended
          ∧ (fields ≠ o.agree ∨ data.length = o.partLen) then
        modLink d k fun o => { o with parts := o.parts.put rank (fields, data) }
      else back
    | _, _ => back

/-- Has a member's part arrived that does not agree (R444)? -/
def LinkOp.mismatch (o : LinkOp) : Bool := o.parts.any fun x => x.2.1 != o.agree

/-- The members that the fields of a part name. -/
def membersIn (fields : List Word) : List Nat :=
  (fields.drop (if fields.headD 0 = 0x86 then 4 else 3)).map BitVec.toNat

/-- An instance whose members disagree fails on every member: a member that finds it so, or that will now not arrive,
tells all that its own list and the others' lists name, and its operation ends (R444). -/
def disagree (d : Device) (k : Nat) (o : LinkOp) : Device :=
  let g := o.grp
  let others := (g.members ++ o.parts.flatMap fun x => membersIn x.2.1).eraseDups.filter (· != d.devid.toNat)
  let d := if o.sent && o.parts.all (fun x => x.2.1 == o.agree || x.2.1 == []) then d
    else others.foldl (fun d m => sendTo d m (.part g.job g.gen o.seq g.rank [] [])) d
  endLink d k o cDescriptor

/-- Have the parts of all members arrived? -/
def LinkOp.whole (o : LinkOp) : Bool := (List.range o.p).all fun m => (o.parts.find m).isSome

/-- The data of a member's part. -/
def LinkOp.part (o : LinkOp) (m : Nat) : List EB := ofWire (((o.parts.find m).map (·.2)).getD [])

/-! ## Reductions (R448, R449) -/

/-- The chunk of element i of n among p members. -/
def chunkOf (i n p : Nat) : Nat := ((i + 1) * p - 1) / n

/-- The members in the order in which a chunk is reduced: j + 1, j + 2, …, j + P, modulo P. -/
def ringOrder (j p : Nat) : List Nat := (List.range p).map fun t => (j + 1 + t) % p

/-- Op on two data of a type: 0 sum, 1 min, 2 max (R448). -/
def redOp (typ op a b : Nat) : Nat :=
  if 4 ≤ typ then
    match op with
    | 0 => (fpAdd (fmtOfType typ) a b).1
    | 1 => (fpMinMax (fmtOfType typ) false a b).1
    | _ => (fpMinMax (fmtOfType typ) true a b).1
  else
    let w := 8 * sizeOfType typ
    let v (x : Nat) : Int := if tSigned? typ then sext w x else x
    match op with
    | 0 => (a + b) % 2 ^ w
    | 1 => if v b < v a then b else a
    | _ => if v a < v b then b else a

/-- The fold of a list from its first element. -/
def foldFirst (f : Nat → Nat → Nat) : List Nat → Nat
  | [] => 0
  | x :: t => t.foldl f x

/-- Element i of a cl.red's result: uncorrectable where a term is. -/
def redElem (o : LinkOp) (i : Nat) : List EB :=
  let size := o.elem
  let terms := (ringOrder (chunkOf i o.count o.p) o.p).map fun m => ((o.part m).drop (size * i)).take size
  if terms.any hasBad then List.replicate size .bad
  else goods (toBytes size (foldFirst (redOp (o.fld 4 63 56) (o.fld 4 55 48)) (terms.map ebNat)))

/-- Atom a of a cl.redq's result under a Legend. -/
def redqAtom (o : LinkOp) (lg : Legend) (a : Nat) : List EB :=
  let f := o.dfmt
  let terms := (ringOrder (chunkOf a o.atoms o.p) o.p).map fun m => ((o.part m).drop (f.bytes * a)).take f.bytes
  if terms.any hasBad then List.replicate (4 * f.n) .bad
  else
    let ds := terms.map fun t => decodeOrNan f lg (ebNat t)
    goods ((List.range f.n).flatMap fun i =>
      let xs := ds.map fun v => v.getD i .nan
      let acc := xs.tail.foldl (fun acc x => rneBits f32 (XR.add (exact f32 acc) x)) (rneBits f32 (xs.headD .nan))
      toBytes 4 acc)

/-- The result of a collective whose parts are all there: where it goes and what it is, or the code. -/
def LinkOp.result (d : Device) (o : LinkOp) : Except Nat (Word × List EB) :=
  match o.opc with
  | 0x82 => .ok (o.word 3, (List.range o.count).flatMap (redElem o))
  | 0x83 =>
    match rootLegend d o with
    | .error c => .error c
    | .ok lg => .ok (o.word 3, (List.range o.atoms).flatMap (redqAtom o lg))
  | 0x84 => .ok (o.word 3, (List.range o.p).flatMap o.part)
  | _ => .ok (0, [])

/-- A collective ends once every member's part is there. -/
def finishCollective (d : Device) (k : Nat) (o : LinkOp) : Device :=
  if !o.whole then d
  else match o.result d with
    | .error c => endLink d k o c
    | .ok r =>
      let w := if r.2 = [] then (none, d) else localWrite d o r.1 r.2
      endLink w.2 k (o.noteBad r.2) (w.1.getD 0)

/-! ## cl.ring (R453, R454) -/

/-- Word i of REPORT: 0 PROGRESS, 1 FAILSTEP, 2 HOLDS, 3 GATE. -/
def LinkOp.report (o : LinkOp) (i : Nat) : Word := eaPlus (o.word 3) (8 * i)

/-- Writes a word of REPORT. -/
def writeReport (d : Device) (o : LinkOp) (i v : Nat) : Option Nat × Device :=
  localPut d o (o.report i) (goods (toBytes 8 v))

/-- GATE, or the code of its read. -/
def gateOf (d : Device) (o : LinkOp) : Except Nat Nat :=
  match localRead d o (o.report 3) 8 with
  | (_, some c) => .error c
  | (es, none) => if hasBad es then .error clsEcc else .ok (ebNat es)

/-- Buffer b of a ring. -/
def LinkOp.buffer (o : LinkOp) (b : Nat) : Word := eaPlus (o.word 2) (b % 2 * o.len)

/-- The rank whose block a member's buffer holds after step s. -/
def LinkOp.holds (o : LinkOp) (s : Nat) : Nat := (o.grp.rank + (s / o.p + 1) * o.p - s) % o.p

/-- Sends the buffer of step s once step s − 1 is complete. -/
def ringSend (d : Device) (k : Nat) (o : LinkOp) (s : Nat) : Option Nat × Device :=
  if s ≤ o.sends then (none, d)
  else match localRead d o (o.buffer (s - 1)) o.len with
    | (_, some c) => (some c, d)
    | (es, none) =>
      let g := o.grp
      (none, sendTo (modLink d k fun o => { o.noteBad es with sends := s }) (o.dev ((g.rank + 1) % o.p))
        (.ring g.job g.gen o.seq s (toWire es)))

/-- Takes a packet of step s from the inbox. -/
def takeStep (d : Device) (o : LinkOp) (s : Nat) (ack : Bool) : Option (Wire × Device) :=
  let hit (x : Packet × Nat) : Bool := match x.1 with
    | .ring _ _ _ t bs => !ack && o.key == packetKey x.1 && t == s && bs.length == o.len
    | .ringAck _ _ _ t => ack && o.key == packetKey x.1 && t == s
    | _ => false
  match d.inbox.find? hit with
  | none => none
  | some x => some (match x.1 with
      | .ring _ _ _ _ bs => bs
      | _ => [], { d with inbox := d.inbox.erase x })

/-- Receives the block of step s once GATE ≥ s − 1, and acknowledges it; the descriptor of the member that it comes from
has been compared before (R444). -/
def ringReceive (d : Device) (k : Nat) (o : LinkOp) (s : Nat) : Option Nat × Device :=
  if s ≤ o.recvs ∨ (o.parts.find ((o.grp.rank + o.p - 1) % o.p)).isNone then (none, d)
  else match gateOf d o with
    | .error c => (some c, d)
    | .ok g =>
      if g < s - 1 then (none, d)
      else match takeStep d o s false with
        | none => (none, d)
        | some (bs, d) =>
          match localWrite d o (o.buffer s) (ofWire bs) with
          | (some c, d) => (some c, d)
          | (none, d) =>
            let x := o.grp
            (none, sendTo (modLink d k fun o => { o.noteBad (ofWire bs) with recvs := s })
              (o.dev ((x.rank + o.p - 1) % o.p)) (.ringAck x.job x.gen o.seq s))

/-- Takes the acknowledgement of step s. -/
def ringAcked (d : Device) (k : Nat) (o : LinkOp) (s : Nat) : Device :=
  if s ≤ o.acks then d
  else match takeStep d o s true with
    | none => d
    | some (_, d) => modLink d k fun o => { o with acks := s }

/-- Notes whether the next step of a ring waits on its GATE: from when it is seen not to, its time without an advance
runs (R454). -/
def ringWatch (d : Device) (now k : Nat) (o : LinkOp) : Device :=
  match gateOf d o with
  | .error _ => d
  | .ok g => modLink d k fun o => { o with
      advance := if g < o.steps then none else some (o.advance.getD now) }

/-- Step s is complete where its block is whole and its send acknowledged: HOLDS, then PROGRESS; the last step ends
the operation, once every member is known to have issued the same (R444). -/
def ringStep (d : Device) (now k : Nat) (o : LinkOp) (s : Nat) : Device :=
  if o.sends < s ∨ o.recvs < s ∨ o.acks < s ∨ (s = o.fld 5 31 0 ∧ !o.whole) then d
  else match writeReport d o 2 (o.holds s) with
    | (some c, d) => endLink d k o c
    | (none, d) =>
      match writeReport d o 0 s with
      | (some c, d) => endLink d k o c
      | (none, d) =>
        if s = o.fld 5 31 0 then endLink d k o 0
        else
          let o := { o with steps := s, advance := some now }
          ringWatch (modLink d k fun _ => o) now k o

/-- A ring goes on with its next step as far as it can. -/
def ringAdvance (d : Device) (now k : Nat) (o : LinkOp) : Device :=
  let s := o.steps + 1
  let again (d : Device) : LinkOp := (d.links.find k).getD o
  match ringSend d k o s with
  | (some c, d) => endLink d k (again d) c
  | (none, d) =>
    match ringReceive d k (again d) s with
    | (some c, d) => endLink d k (again d) c
    | (none, d) =>
      let d := ringWatch (ringAcked d k (again d) s) now k (again d)
      ringStep d now k (again d) s

/-- A ring fails: the other buffer is left with free bytes, HOLDS names the block of the last complete step, FAILSTEP :=
PROGRESS, and the operation ends with RING, or with the lower code of a report word that could not be written (R454,
R455). -/
def ringFail (d : Device) (k : Nat) (o : LinkOp) : Device :=
  let (v, d) := d.draw
  let d := (localPut d o (o.buffer (o.steps + 1)) (goods (toBytes o.len v))).2
  let h := writeReport d o 2 (o.holds o.steps)
  let f := writeReport h.2 o 1 o.steps
  endLink f.2 k o (lowest (cRing :: h.1.toList ++ f.1.toList))

/-- The abort of a ring that stands in the inbox, where one has arrived (R444, R454). -/
def abortOf (d : Device) (o : LinkOp) : Option (Packet × Nat) :=
  d.inbox.find? fun x => match x.1 with
    | .ringAbort _ _ _ => o.opc == 0x86 && o.key.isSome && o.key == packetKey x.1
    | _ => false

/-- A ring takes the abort that has arrived for it and fails. -/
def takeAbort (d : Device) (k : Nat) (o : LinkOp) (x : Packet × Nat) : Device :=
  ringFail { d with inbox := d.inbox.erase x } k o

/-! ## Progress and completion -/

/-- May a fenced cl.bar arrive: have the operations it waits for written their completion words (R452)? -/
def fenceOpen (d : Device) (o : LinkOp) : Bool :=
  o.fence.all fun j => match d.links.find j with
    | some x => x.ended
    | none => true

/-- A cl.bar that has not arrived does so once its fence is open; one that had timed out is then forgotten. -/
def barArrive (d : Device) (k : Nat) (o : LinkOp) : Device :=
  if o.opc ≠ 0x85 ∨ o.sent ∨ !fenceOpen d o then d
  else
    let d := arrive d k o o.agree []
    if o.ended then { d with links := d.links.del k } else d

/-- A cl.put or cl.get takes the peer's answer to its last packet. -/
def takeReply (d : Device) (k : Nat) (o : LinkOp) : Device :=
  match o.parts.find o.steps with
  | none => d
  | some (c, bs) =>
    let code := (c.headD 0).toNat
    if code ≠ 0 then endLink d k o code
    else if o.opc = 0x81 then
      let es := ofWire bs
      let r := localWrite d o (o.word 3) es
      endLink r.2 k (o.noteBad es) (r.1.getD 0)
    else if bit (o.word 0) 8 ∧ o.steps = 1 then
      sendTo (modLink d k fun o => { o with steps := 2 }) (o.dev o.peer)
        (.signal o.grp.job (adOf (o.word 5)) (o.word 7) d.devid.toNat k)
    else endLink d k o 0

/-- An operation starts, goes on with what has arrived, and ends when nothing is left. -/
def linkAdvance (d : Device) (now k : Nat) : Device :=
  match d.links.find k with
  | none => d
  | some o =>
    if o.failed then endLink d k o 0
    else if o.group.isNone then startLink d now k o
    else if let some x := abortOf d o then takeAbort d k o x
    else
      let d := takeParts (barArrive d k o) k
      match d.links.find k with
      | none => d
      | some o =>
        if o.ended then d
        else if isCollective o.opc && o.mismatch then disagree d k o
        else if o.opc = 0x86 then ringAdvance d now k o
        else if isCollective o.opc then finishCollective d k o
        else takeReply d k o

/-- LINK_OP_COMPLETE (R456): an operation goes on, to its completion word where everything is there. -/
def execLinkOpComplete (op : Nat) (s : State) : Host.Outcome State Fault Refusal :=
  onDevice s fun d => linkAdvance d s.clock op

/-- A cl.bar has waited TMO µs from its fork: it completes with TIMEOUT; an arrival that is still to come is kept
(R452). -/
def barTimeout (d : Device) (now k : Nat) : Device :=
  match d.links.find k with
  | none => d
  | some o =>
    let tmo := o.fld 2 31 0
    if o.opc ≠ 0x85 ∨ tmo = 0 ∨ o.ended ∨ o.failed ∨ !o.fieldsOk ∨ now < o.since + 1750 * tmo then d
    else
      let late := !o.sent
      let d := endLink d k o cTimeout
      if late then { d with links := d.links.put k { o with ended := true } } else d

/-- CL_BAR_TIMEOUT (R452). -/
def execClBarTimeout (op : Nat) (s : State) : Host.Outcome State Fault Refusal :=
  onDevice s fun d => barTimeout d s.clock op

/-- Does an instance of cl.ring fail: a member is unreachable, or PROGRESS has not advanced for the failure-detection
time while the next step does not wait on its own GATE (R454)? -/
def ringStalled (d : Device) (now : Nat) (o : LinkOp) : Bool :=
  o.grp.members.any (isUnreachable d now o.timeout) || (match o.advance with
    | some t => decide (t + 1750 * o.timeout ≤ now)
    | none => false)

/-- Has another member been reset, SYS_RINGTIMEOUT ago? That happens outside the device: a free value, from that time
after the fork on (R454; DESIGN CHOICE, log 36). -/
def memberReset (d : Device) (now : Nat) (o : LinkOp) : Bool × Device :=
  if now < o.since + 1750 * o.timeout then (false, d)
  else
    let (v, d) := d.draw
    (v % 2 == 1, d)

/-- The engine detects the failure of a ring: aborts leave, and its own operation fails. -/
def ringDetect (d : Device) (now k : Nat) : Device :=
  match d.links.find k with
  | none => d
  | some o =>
    let d := if o.opc = 0x86 ∧ o.group.isSome then ringWatch d now k o else d
    let o := (d.links.find k).getD o
    if o.opc ≠ 0x86 ∨ o.group.isNone ∨ o.failed then d
    else
      let r := if ringStalled d now o then (true, d) else memberReset d now o
      let d := r.2
      if !r.1 then d
      else
        let g := o.grp
        let d := (List.range o.p).foldl (init := d) fun d m =>
          if m = g.rank then d else sendTo d (o.dev m) (.ringAbort g.job g.gen o.seq)
        ringFail d k o

/-- RING_FAILURE_DETECT (R454). -/
def execRingFailureDetect (op : Nat) (s : State) : Host.Outcome State Fault Refusal :=
  onDevice s fun d => ringDetect d s.clock op

/-- A member receives the abort of a ring; one that has been forked and not started reads its group first (R460). -/
def ringAborted (d : Device) (now k : Nat) : Device :=
  match d.links.find k with
  | none => d
  | some o =>
    if o.opc ≠ 0x86 ∨ o.failed then d
    else if o.group.isSome then ringFail d k o
    else
      let d := startLink d now k o
      match d.links.find k with
      | some o => if o.failed then d else ringFail d k o
      | none => d

/-- RING_ABORT_RECEIVE (R454). -/
def execRingAbortReceive (op : Nat) (s : State) : Host.Outcome State Fault Refusal :=
  onDevice s fun d => ringAborted d s.clock op

/-! ## Packets, ports and peers (R440, R444) -/

/-- The device that a packet comes from, as far as it and the operations in flight tell. -/
def senderOf (d : Device) (p : Packet) : Option Nat :=
  let started : Option LinkOp := (d.links.find? fun x => x.2.key.isSome && x.2.key == packetKey p).map (·.2)
  match p with
  | .write _ _ _ peer _ => some peer
  | .signal _ _ _ peer _ => some peer
  | .readReq _ _ _ peer _ => some peer
  | .reply k _ _ => (d.links.find k).map fun o => o.dev o.peer
  | .part _ _ _ rank _ _ => started.map fun o => o.dev rank
  | .ring _ _ _ _ _ => started.map fun o => o.dev ((o.grp.rank + o.p - 1) % o.p)
  | .ringAck _ _ _ _ => started.map fun o => o.dev ((o.grp.rank + 1) % o.p)
  | .ringAbort _ _ _ => none

/-- May a peer answer a remote access with a code and data: success, with the bytes that were asked for, or a code that
the access can fail with there (R26, R443, R455; DESIGN CHOICE, log 37)? -/
def answers (o : LinkOp) (code : Nat) (data : Wire) : Bool :=
  if code = 0 then o.opc != 0x81 || data.length == o.len
  else [cDescriptor, clsTranslation, clsPermission, cLink].contains code

/-- A packet is performed once (R440); where it comes from is reached. Packets of a collective wait in the inbox for
their operation, an abort too (R444). -/
def receive (d : Device) (now : Nat) (p : Packet) : Device :=
  let d := match senderOf d p with
    | some dev => { d with unreachable := d.unreachable.del dev }
    | none => d
  match p with
  | .write job a data peer tag =>
    let r := peerWrite d job a (ofWire data)
    sendTo r.2 peer (.reply tag r.1 [])
  | .signal job a v peer tag =>
    let r := if a % 8 = 0 then peerWrite d job a (goods (toBytes 8 v.toNat)) else (cDescriptor, d)
    sendTo r.2 peer (.reply tag r.1 [])
  | .readReq job a n peer tag =>
    let r := peerRead d job a n
    sendTo d peer (.reply tag r.1 (toWire r.2))
  | .reply k code data =>
    match d.links.find k with
    | some o =>
      if isCollective o.opc || !o.sent || !answers o code data then d
      else modLink d k fun o => { o with parts := o.parts.put o.steps ([BitVec.ofNat 64 code], data) }
    | none => d
  | .ringAbort job gen seq =>
    match d.links.find? fun x => x.2.opc == 0x86 && x.2.key == some (job, gen, seq) with
    | some x => ringAborted d now x.1
    | none => { d with inbox := d.inbox ++ [(p, now)] }
  | _ => { d with inbox := d.inbox ++ [(p, now)] }

/-- LINK_PACKET_RECEIVE (R440, R443, R444). -/
def execLinkPacketReceive (p : Packet) (s : State) : Host.Outcome State Fault Refusal :=
  onDevice s fun d => receive d s.clock p

/-- Could a packet still match an operation in flight? -/
def awaited (d : Device) (p : Packet) : Bool :=
  d.links.any fun x => isCollective x.2.opc && (x.2.group.isNone || x.2.key == packetKey p)

/-- A packet that has had no local operation for SYS_RINGTIMEOUT is discarded (R444). -/
def discardPacket (d : Device) (now i : Nat) : Device :=
  match d.inbox[i]? with
  | none => d
  | some x =>
    if now < x.2 + 1750 * d.ringTimeout.toNat || awaited d x.1 then d else { d with inbox := d.inbox.eraseIdx i }

/-- LINK_PACKET_DISCARD (R444). -/
def execLinkPacketDiscard (i : Nat) (s : State) : Host.Outcome State Fault Refusal :=
  onDevice s fun d => discardPacket d s.clock i

/-- A flit is sent again after tries earlier replays; after 16 the engine takes its port down (R440, R441). -/
def flitReplay (d : Device) (tries : Nat) : Device :=
  if tries < 16 then { d with replays := min 65535 (d.replays + 1) } else { d with portsUp := d.portsUp - 1 }

/-- FLIT_CRC_REPLAY (R440). -/
def execFlitCrcReplay (tries : Nat) (s : State) : Host.Outcome State Fault Refusal :=
  onDevice s fun d => flitReplay d tries

/-- No port reaches a peer, from now on or still: once that has been so for SYS_RINGTIMEOUT the peer is unreachable, and
operations that need it end with LINK, but for a cl.ring, which fails under R454 (R440, R444). -/
def peerLost (d : Device) (now dev : Nat) : Device :=
  let d := { d with unreachable := d.unreachable.put dev ((d.unreachable.find dev).getD now) }
  d.links.foldl (init := d) fun d x =>
    if isUnreachable d now x.2.timeout dev && x.2.group.isSome && x.2.opc != 0x86 && x.2.needs.contains dev
        && !x.2.ended then
      modLink d x.1 fun o => { o.note cLink with failed := true }
    else d

/-- PEER_UNREACHABLE (R440). -/
def execPeerUnreachable (dev : Nat) (s : State) : Host.Outcome State Fault Refusal := onDevice s fun d => peerLost d s.clock dev

/-! ## The command nodes (R445, R459) -/

/-- The operations of an issuing core in flight. -/
def linksOf (d : Device) (run cidx : Nat) : List Nat :=
  (d.links.filter fun x => x.2.run == run && x.2.cidx == cidx && !x.2.ended).map (·.1)

/-- A new operation enters; a cl.ring's PROGRESS, FAILSTEP and HOLDS become 0 at the fork (R453). -/
def enterLink (d : Device) (e : Env) (opc : Nat) (ws : List Word) (c : Comp) : Device :=
  let o : LinkOp :=
    { run := e.bound.run, cidx := e.bound.cidx, opc := opc, desc := ws, comp := c
      root := (d.core e.core).regs.xlroot.toNat, priv := e.bound.priv, group := none, since := e.now
      timeout := d.ringTimeout.toNat, parts := [], sent := false
      fence := if opc = 0x85 ∧ bit (ws.getD 0 0) 8 then linksOf d e.bound.run e.bound.cidx else []
      steps := 0, sends := 0, recvs := 0, acks := 0, advance := some e.now, code := 0, failed := false, ended := false }
  let d := { d with links := d.links.put d.linkCount o, linkCount := d.linkCount + 1 }
  if opc = 0x86 ∧ o.codes 1 = [] then
    [0, 1, 2].foldl (fun d i => (writeReport d o i 0).2) d
  else d

/-- The work of a link node. -/
def linkFn (opc : Nat) (w : MU) : NodeFn := fun e a _ _ d =>
  engFn w a e d (decide ((linksOf d e.bound.run e.bound.cidx).length < 256)) (fun _ => true) fun ws c d =>
    (0, enterLink d e opc ws c)

/-- cl.put (R447). -/
def execClPut (w : MU) (s : State) : Host.Outcome State Fault Refusal := muStep s 0x80 w (linkFn 0x80 w)

/-- cl.get (R447). -/
def execClGet (w : MU) (s : State) : Host.Outcome State Fault Refusal := muStep s 0x81 w (linkFn 0x81 w)

/-- cl.red (R448). -/
def execClRed (w : MU) (s : State) : Host.Outcome State Fault Refusal := muStep s 0x82 w (linkFn 0x82 w)

/-- cl.redq (R449). -/
def execClRedq (w : MU) (s : State) : Host.Outcome State Fault Refusal := muStep s 0x83 w (linkFn 0x83 w)

/-- cl.a2a (R451). -/
def execClA2a (w : MU) (s : State) : Host.Outcome State Fault Refusal := muStep s 0x84 w (linkFn 0x84 w)

/-- cl.bar (R452). -/
def execClBar (w : MU) (s : State) : Host.Outcome State Fault Refusal := muStep s 0x85 w (linkFn 0x85 w)

/-- cl.ring (R453). -/
def execClRing (w : MU) (s : State) : Host.Outcome State Fault Refusal := muStep s 0x86 w (linkFn 0x86 w)

end Sys2Proof.Machine
end

