-- ==== Sys2Proof/Machine/Waits.lean ====
section
/-! DEFINITION. What ends a wait, and th.ctl requests: WAIT_RELEASE, HOST_PAGE_WAIT_POLL, PARK_TIMEOUT, PHASE_RELEASE
and TH_CTL_APPLY (06_core_execution: R170 to R173; 07_core_integer_control: R201 to R203; 09_core_memory: R247, R248;
11_differentiable: R274). -/

namespace Sys2Proof.Machine

/-- A parked exit.wait tests its word and is released where the condition holds (R172, R201, R202). -/
def waitRelease (d : Device) (core tid : Nat) : Device := releaseWait d core tid

/-- WAIT_RELEASE (R172, R201). -/
def execWaitRelease (core tid : Nat) (s : State) : Host.Outcome State Fault Refusal :=
  onDevice s fun d => waitRelease d core tid

/-- Does a thread wait on a word of a host-mapped page (R201)? -/
def waitsOnHost (t : Thread) : Bool :=
  match t.status with
  | .parked p => match p.kind with
    | .wait _ _ (.home k) _ => isHostKey k
    | _ => false
  | _ => false

/-- HOST_PAGE_WAIT_POLL: the core reads the word of a host-mapped page again (R201). -/
def execHostPageWaitPoll (core tid : Nat) (s : State) : Host.Outcome State Fault Refusal :=
  onDevice s fun d => if waitsOnHost (threadOf d core tid) then releaseWait d core tid else d

/-- Is a thread among those of a phase instance that is complete (R203)? -/
def inPhase (c : Core) (tid : Nat) : Bool :=
  match c.phase with
  | some x => x.1.contains tid
  | none => false

/-- The timeout of a parked thread: where its condition holds, completion wins (R171); otherwise it is released with
status 0, and its arrival is withdrawn (R173). In a saved context it waits for the restoration (R170, R290). -/
def parkTimeout (d : Device) (now core tid : Nat) : Device :=
  match (threadOf d core tid).status with
  | .parked p =>
    match p.deadline with
    | none => d
    | some t =>
      if p.woken || decide (now < t) || inPhase (d.core core) tid || (d.core core).preempt == .saved then d
      else if waitHolds d core p.kind then releaseWait d core tid
      else settle (wakeThread d core tid false) core
  | _ => d

/-- PARK_TIMEOUT (R171, R173). -/
def execParkTimeout (core tid : Nat) (s : State) : Host.Outcome State Fault Refusal :=
  onDevice s fun d => parkTimeout d s.clock core tid

/-- The place of a phase instance's publication among the publications in progress: no lane's, no node's. -/
def phaseLane : Nat := 4096

/-- A complete phase instance: one publication, one refresh, at the widest scope, then the release (R55, R203); in a saved
context it waits for the restoration. -/
def phaseRelease (d : Device) (core : Nat) : Device :=
  match (d.core core).phase with
  | none => d
  | some (tids, scope) =>
    if (d.core core).preempt == .saved then d else
    let d := refresh (completePub d core phaseLane 0x40 scope) core scope
    let d := d.modCore core fun c => { c with phase := none }
    tids.foldl (fun d t => wakeThread d core t true) d

/-- PHASE_RELEASE (R55, R203). -/
def execPhaseRelease (core : Nat) (s : State) : Host.Outcome State Fault Refusal :=
  onDevice s fun d => phaseRelease d core

/-- A FAULTED or HALTED thread resumes: one that a sweep faulted re-enters AFTER with DONE and REPLAY cleared, whatever
its record holds (R274); any other goes on as its record says, or restarts at a block (R155, R248). -/
def resumeAny (d : Device) (core tid : Nat) (restart : Option Nat) : Device :=
  let t := threadOf d core tid
  match t.status, t.revFault with
  | .faulted b, true =>
    modThread d core tid fun t =>
      { t with
        status := .waiting b, done := 0, replay := [0, 0, 0, 0], pend := false, revFault := false, recFailed := false }
  | _, _ => resumeThread d core tid restart

/-- One th.ctl request (R155, R248, R274). -/
def applyCtl (d : Device) (core : Nat) (q : Ctl) : Device :=
  resumeAny d core q.tid (if q.restart then some q.block else none)

/-- The core applies the queued requests in order when no pass runs; during a sweep, and while its context is saved,
they are held (R248, R274, R293). -/
def thCtlApply (d : Device) (core : Nat) : Device :=
  let c := d.core core
  if c.bound.isNone || passRuns c || dmodeState c == 2 || c.preempt == .saved then d
  else
    let d := c.ctls.foldl (fun d q => applyCtl d core q) d
    settle (applyHalts (d.modCore core fun c => { c with ctls := [] }) core) core

/-- TH_CTL_APPLY (R248). -/
def execThCtlApply (core : Nat) (s : State) : Host.Outcome State Fault Refusal :=
  onDevice s fun d => thCtlApply d core

end Sys2Proof.Machine
end

