-- ==== Sys2Proof/Machine/Preempt.lean ====
section
/-! DEFINITION. Pre-emption of a core: the request, the return of a held pass, saving and restoring the context
(06_core_execution: R177; 12_core_faults: R288 to R293; 15_copy_engine: R320; 17_matrix_engine: R369; 19_meridian:
R402). -/

namespace Sys2Proof.Machine

/-! ## The request (R286, R288, R292) -/

/-- A pre-emption request reaches a core: the selector stops, the engines stop or freeze, and held accesses become
poison with PEND. -/
def preemptRequest (d : Device) (core : Nat) : Device :=
  let c := d.core core
  if c.bound.isNone || !c.preemptSent || c.preempt != .none then d
  else d.modCore core fun c => { c with
    preempt := .requested
    preemptSent := false
    frozen := true
    pass := c.pass.map fun p => { p with lanes := p.lanes.map (holdToPoison p.block true fun _ => true) } }

/-- PREEMPT_REQUEST (R288). -/
def execPreemptRequest (core : Nat) (s : State) : Host.Outcome State Fault Refusal :=
  onDevice s fun d => preemptRequest d core

/-! ## A pass that is held (R177, R289) -/

/-- The work of a node that may wait for an engine or a channel. -/
def waiterFn (i : Instr) : Option NodeFn :=
  match i with
  | .chr w => some (chrFn w)
  | .wrsr w => some (wrsrFn w)
  | .attnGo w => some (attnGoFn w)
  | .attnGoResume w => some (attnResumeFn w)
  | .attnGoSkip w => some (attnResumeFn w)
  | .attnGoAbandon w => some (attnResumeFn w)
  | .mxPost w => some (mxPostFn w)
  | .mma w => some (matFn 0x50 w.typ.toNat (w.mod.getLsbD 0) w)
  | .mmaSp w => some (matFn 0x51 w.typ.toNat false w)
  | i =>
    match wordOf i with
    | .mu o w =>
      if 0x40 ≤ o ∧ o ≤ 0x47 then some (copyFn o w)
      else if 0x52 ≤ o ∧ o ≤ 0x5C then some (matFn o 0 false w)
      else if 0x61 ≤ o ∧ o ≤ 0x64 then some (tableFn o w)
      else if o = 0x68 ∨ o = 0x69 then some fun e _ _ _ d => (if fillRoom d e.core then .cancel else .wait, d)
      else if 0x80 ≤ o ∧ o ≤ 0x86 then some (linkFn o w)
      else none
    | _ => none

/-- Can a node not fire for a lane: its operands are values, and its work waits? -/
def nodeHeld (d : Device) (e : Env) (i : Instr) : Bool :=
  match nodeWordOf i, waiterFn i with
  | some (_, _, w), some fn =>
    mayFire e w && !hasDone e w && (match argsOf d e w with
      | .values a b c => (fn e a b c d).1 == .wait
      | _ => false)
  | _, _ => false

/-- Has every engine of the core stopped, frozen or completed: no copy that names cluster scratch is left (R289,
R320)? -/
def enginesStopped (c : Core) : Bool := !c.copy.any fun x => namesCluster x.2

/-- Is a node of the next beat of the core's pass held: a chr on an empty channel, or a node that waits for an engine
once the engines have stopped? -/
def passHeld (d : Device) (now core : Nat) : Bool :=
  match (d.core core).pass, (d.core core).active with
  | some p, some pl =>
    !p.rev && !p.loading && (beatLanes p (nextBeat p)).any fun lane =>
      (imgNodes pl.words).any fun n =>
        match envOf d now ⟨core, lane, n⟩, imgNode pl.words n with
        | some e, some i => nodeHeld d e i && (enginesStopped (d.core core) || (match i with
            | .chr _ => true
            | _ => false))
        | _, _ => false
  | _, _ => false

/-- w2 to w6 of the record of a thread that is returned: VALID, PEND, DONE and REPLAY (R177, R281). -/
def returnWords (l : Lane) : List Word :=
  BitVec.ofNat 64 (2 ^ 19 + 2 ^ 16 + l.done.toNat) :: (List.range 4).map fun j => l.replay.getD j 0

/-- A thread whose beat has not retired returns to the block's waiting set, with DONE and REPLAY kept and PEND set. -/
def returnLane (d : Device) (core block : Nat) (l : Lane) : Device :=
  let d := match ownWrite d core (recordAddr d core l.tid + 16) (bytesOfWords (returnWords l)) with
    | (.ok _, d) => noteRecord d core l.tid false
    | (.error _, d) => noteRecord d core l.tid true
  modThread d core l.tid fun t => { t with status := .waiting block, done := l.done, replay := l.replay, pend := true }

/-- The held pass of a core that is being pre-empted ends: the threads of the beats that have not retired return. -/
def passReturn (d : Device) (now core : Nat) : Device :=
  match (d.core core).pass with
  | none => d
  | some p =>
    if (d.core core).preempt != .requested || !passHeld d now core then d
    else endPass ((p.lanes.drop (16 * p.retired)).foldl (fun d l => returnLane d core p.block l) d) core

/-- PASS_RETURN_AT_PREEMPT (R177, R289). -/
def execPassReturnAtPreempt (core : Nat) (s : State) : Host.Outcome State Fault Refusal :=
  onDevice s fun d => passReturn d s.clock core

/-! ## The save area (R290) -/

/-- Bits as bytes, bit t in byte t / 8. -/
def bitBytes (n : Nat) (p : Nat → Bool) : List Byte :=
  (List.range n).map fun i =>
    BitVec.ofNat 8 ((List.range 8).foldl (fun v j => if p (8 * i + j) then v + 2 ^ j else v) 0)

/-- n bytes from an offset on. -/
def cut (bs : List Byte) (off n : Nat) : List Byte := (bs.drop off).take n

/-- The numbers of the context registers, in the order of the save area. -/
def ctxRegs : List Nat := [0x010, 0x011, 0x020, 0x030, 0x031, 0x032, 0x033, 0x040, 0x041, 0x050, 0x051, 0x052]

/-- The thread table's entry of a thread; the block of a PARKED or RETIRED thread is not stated, and free. -/
def threadEntry (t : Thread) (free : Nat) : Nat :=
  let v : Nat × Nat := match t.status with
    | .waiting b => (b, 0)
    | .parked _ => (free, 1)
    | .faulted b => (b, 2)
    | .halted b => (b, 3)
    | .retired => (free, 4)
    | .streaming => (free, 0)
  v.1 % 256 + v.2 * 2 ^ 8 + b2n t.pend * 2 ^ 11

/-- Bytes of the save area whose layout is not stated: free values. -/
def freeBytes (d : Device) (n : Nat) : List Byte × Device :=
  let (v, d) := d.draw
  (toBytes n v, d)

/-- The first 2,168 bytes: header, context registers, ages, granules ever saved and occupancy. -/
def saveHead (d : Device) (now core : Nat) (b : Bound) : List Byte :=
  let c := d.core core
  bytesOfWords [BitVec.ofNat 64 (0x4358 * 2 ^ 48 + 2 ^ 40 + b.nthreads), BitVec.ofNat 64 b.width, BitVec.ofNat 64 c.passes,
      0, 0, 0, 0, 0]
    ++ padTo 256 (bytesOfWords (ctxRegs.map (regRead d core now)))
    ++ c.ages.read 0 256 ++ toBytes 8 (c.accSaved ||| c.accDirty) ++ toBytes 48 (c.scrSaved ||| c.scrDirty)
    ++ bitBytes 512 fun t => decide (t < b.nthreads) && (c.threads.getD t Thread.fresh).status != .retired

/-- An accumulator granule: 8 rows of 64 columns. -/
def accGran (m : Matrix) (g : Nat) : List EB :=
  (List.range 8).flatMap fun r => (List.range 64).flatMap fun j =>
    let cell := 128 * (8 * (g / 2) + r) + 64 * (g % 2) + j
    if m.bad.contains cell then List.replicate 4 .bad else goods (toBytes 4 (m.acc.get cell).toNat)

/-- The set bits of a mask below n. -/
def bitsOf (n mask : Nat) : List Nat := (List.range n).filter fun g => mask / 2 ^ g % 2 == 1

/-- The arrival sets: barriers of core, cluster and device scope, phase, dfwd and drev. -/
def arrivalSets (c : Core) : List Byte :=
  [isBar 1, isBar 2, isBar 3, isPhase, isDfwd, isDrev].flatMap fun k =>
    bitBytes 512 fun t => parkedFor (c.threads.getD t { Thread.fresh with status := .retired }) k

/-- The granules that a save writes: those dirtied since the last restore or since binding. -/
def saveGranules (d : Device) (core : Nat) : List (Nat × List EB) :=
  let c := d.core core
  (bitsOf 64 c.accDirty).map (fun g => (0x08_1000 + 2048 * g, accGran c.mx g))
    ++ (bitsOf 384 c.scrDirty).map fun g =>
      (0x0A_1000 + 4096 * g, mark (fun a => scratchBadAt d core a 1) (4096 * g) (scratchRead d core (4096 * g) 4096))

/-- A queued th.ctl request as the engine section holds it: bits 11:0 TID, 12 RESTART, 23:16 the block (DESIGN CHOICE,
log 26). -/
def Ctl.word (q : Ctl) : Word := BitVec.ofNat 64 (q.tid + b2n q.restart * 2 ^ 12 + q.block * 2 ^ 16)

/-- The request that a word of the engine section holds. -/
def Ctl.ofWord (w : Word) : Ctl := ⟨fld w 11 0, bit w 12, fld w 23 16⟩

/-- A command's 128 bytes: its descriptor and, in word 8, its cursor; free bytes where there is no command, and for the
descriptor of an mx.post, which has none. -/
def entryBytes (free : Nat) (q : Option (List Word × Nat)) : List Byte :=
  match q with
  | some q =>
    let ws := bytesOfWords q.1
    ws ++ toBytes (64 - ws.length) (free / 2 ^ 448) ++ bytesOfWords [BitVec.ofNat 64 q.2] ++ toBytes 56 free
  | none => toBytes 128 free

/-- The th.ctl requests, behind Meridian's image: their number, then a word each. -/
def ctlBytes (c : Core) : List Byte := bytesOfWords (BitVec.ofNat 64 c.ctls.length :: c.ctls.map Ctl.word)

/-- The engine section: copy commands and matrix commands with their cursors, the corner-turn buffer, Meridian, and the
th.ctl requests; what of it is not laid out is free (DESIGN CHOICE, log 26). -/
def saveEngines (d : Device) (core free : Nat) : List (Nat × List EB) :=
  let c := d.core core
  let k := c.mx.corner
  let more (i n : Nat) : List Byte := toBytes n (free / 2 ^ (1024 * i))
  let copies := (List.range 96).flatMap fun i =>
    entryBytes (free / 2 ^ (1024 * i)) ((c.copy.find i).map fun s => (s.desc, s.cursor))
  let queue := (List.range 8).flatMap fun i =>
    entryBytes (free / 2 ^ (1024 * (96 + i))) (c.mx.queue[i]?.map fun q => (q.desc, q.cursor))
  let ctls := ctlBytes c
  [(0x26_7000, goods copies),
    (0x26_A000, goods (queue ++ cut (stateImage k) 0x400 0x18 ++ more 104 (0xC00 - 0x18) ++ cornerBytes k.efmt k.fill
      ++ cornerBytes k.efmt k.read)),
    (0x27_3000, goods (merImage c (free / 2 ^ (1024 * 128)) ++ ctls ++ more 144 (0x3C00 - ctls.length)))]

/-- The values of a channel, from a table of channels. -/
def channelVals (t : Tbl (List Word)) (ch : Nat) : List Word := (t.find ch).getD []

/-- A spill ring of 4,096 values: those it holds, from entry 0 on, and free bytes (R176; DESIGN CHOICE, log 26). -/
def ringBytes (c : Core) (free ch : Nat) : List Byte :=
  let vs := channelVals c.rings ch
  bytesOfWords vs ++ toBytes (0x8000 - 8 * vs.length) (free / 2 ^ (0x4_0000 * ch))

/-- A channel's 1 KiB: the occupancy word, the ring's head and tail, the FIFO's 64 entries, and free bytes (DESIGN
CHOICE, log 26). -/
def fifoBytes (c : Core) (free ch : Nat) : List Byte :=
  let vs := channelVals c.fifos ch
  bytesOfWords ([BitVec.ofNat 64 vs.length, 0, BitVec.ofNat 64 (channelVals c.rings ch).length] ++ vs)
    ++ toBytes (1000 - 8 * vs.length) (free / 2 ^ (0x2000 * ch))

/-- Everything that a save writes, by offset (R290). -/
def savePieces (d : Device) (now core : Nat) (b : Bound) : List (Nat × List EB) × Device :=
  let c := d.core core
  let (v, d) := d.draw
  let (parks, d) := freeBytes d 0x2_0000
  let (f, d) := d.draw
  let (r, d) := d.draw
  ([(0, goods (saveHead d now core b)), (0x1000, goods ((List.range 16).flatMap (ringBytes c r)))] ++ saveGranules d core
    ++ [(0x22_1000, goods (padTo 8192 (c.threads.zipIdx.flatMap fun t => toBytes 2 (threadEntry t.1 (v / 256 ^ t.2))))),
      (0x22_3000, goods ((List.range 256).flatMap fun q => bitBytes 512 fun t =>
        decide (t < b.nthreads) && waitsAt q (c.threads.getD t Thread.fresh))),
      (0x24_3000, goods parks), (0x26_3000, goods ((List.range 16).flatMap (fifoBytes c f)))]
    ++ saveEngines d core v
    ++ (c.threads.zipIdx.filter fun t => t.1.status != .retired).map (fun t =>
      (0x27_7000 + 8 * b.width * t.2, goods (bytesOfWords (t.1.live.read 0 b.width))))
    ++ [(0x37_7000, goods (arrivalSets c))], d)

/-- How far into planned pieces a line with uncorrectable data begins that they write in part only (R39). -/
def partBad (d : Device) : List (Nat × Nat) → Option Nat
  | [] => none
  | (k, n) :: t =>
    let hit (l : Nat) : Bool :=
      let x := l / 64 * 64
      decide (x < k + n ∧ k < x + 64) && !decide (k ≤ x ∧ x + 64 ≤ k + n)
    match d.mem.bad.find? hit with
    | some l => some (l / 64 * 64 - k)
    | none => (partBad d t).map (n + ·)

/-- Writes pieces in turn with system privilege, until one cannot be written: the address that failed (R291). -/
def writeSave (d : Device) (core base : Nat) : List (Nat × List EB) → Option Nat × Device
  | [] => (none, d)
  | (off, es) :: t =>
    match vplan d core true (es.length / 4096 + 2) (base + off) es.length with
    | (.error e, d) => (some e.2, d)
    | (.ok ps, d) =>
      match partBad d ps with
      | some n => (some (base + off + n), d)
      | none => writeSave (putPieces d ps es) core base t

/-! ## Saving (R288, R291, R320, R369, R402, R458) -/

/-- Does a copy command name the scratch of a core as cluster scratch (R320)? -/
def copyNames (core owner : Nat) (s : CopySlot) : Bool :=
  let hit (a : Word) : Bool := spOf a == 2 && clusterOf owner * 8 + adOf a / 2 ^ 21 % 8 == core
  s.opc == 0x40 && (hit (s.desc.getD 1 0) || hit (s.desc.getD 2 0))

/-- Does a link operation name its issuer's scratch (R458)? -/
def linkNames (o : LinkOp) : Bool :=
  let locals := match o.opc with
    | 0x80 => [o.word 2]
    | 0x81 => [o.word 3]
    | 0x82 | 0x84 => [o.word 2, o.word 3]
    | 0x83 => [o.word 2, o.word 3, o.word 5]
    | 0x86 => [o.word 2, o.word 3]
    | _ => []
  !o.ended && (!o.comp.isGlobal || locals.any fun a => spOf a == 1)

/-- May the core save: it has drained, and no operation that cannot stop names its scratch. -/
def maySave (d : Device) (core : Nat) (b : Bound) : Bool :=
  let c := d.core core
  let near := (List.range 8).map (clusterOf core * 8 + ·)
  c.preempt == .requested && c.pass.isNone && enginesStopped c
    && !near.any (fun k => (d.core k).copy.any fun x => copyNames core k x.2)
    && !d.links.any fun x => x.2.run == b.run && x.2.cidx == b.cidx && linkNames x.2

/-- Meridian stops at a microword: its posted writes are performed, an mwait is abandoned, to run again after
restoration with its full timeout, and the commands that wait for the boundary are applied (R375, R402). -/
def stopMeridian (d : Device) (now core : Nat) : Device :=
  match (d.core core).mer.job with
  | some j => settleSaves (setJob (flushPosted d core j) core { j with posted := [], wait := none }) now core
  | none => d

/-- The matrix engine finishes the command that it has begun; a wupd stops at one of its granules (R369). -/
def stopMatrix (d : Device) (now core : Nat) : Device :=
  match (d.core core).mx.queue with
  | q :: t =>
    if q.opc = 0x58 then
      let r := pauseUpd d core q
      r.2.modCore core fun c => { c with mx := { c.mx with queue := r.1 :: t } }
    else if q.early ≠ [] ∨ q.outs.isSome then
      (matrixExecute (d.modCore core fun c => { c with frozen := false }) now core).modCore core fun c =>
        { c with frozen := true }
    else d
  | [] => d

/-- The engines of a core stop at their resumable points: Meridian at a microword, each copy at a granule. -/
def stopEngines (d : Device) (now core : Nat) : Device :=
  let d := stopMeridian d now core
  stopMatrix ((d.core core).copy.foldl (fun d x => pauseSlot d core x.1 x.2) d) now core

/-- The core reports itself saved: the distributor keeps its context, and suspends or discards the launch once its
last core is saved (R437). -/
def reportSaved (d : Device) (now core : Nat) (b : Bound) : Device :=
  let d := d.modCore core fun c => { c with
    preempt := .saved, preemptSent := false, frozen := true
    accSaved := c.accSaved ||| c.accDirty, scrSaved := c.scrSaved ||| c.scrDirty, accDirty := 0, scrDirty := 0 }
  let c := d.core core
  suspendIfSaved (modLaunch d b.record fun l => { l with saved := l.saved.put b.cidx c }) now b.record

/-- A save or restore has failed at an address: a machine check is recorded, and the launch is discarded (R291). -/
def saveFailed (d : Device) (now core : Nat) (b : Bound) (a : Nat) : Device :=
  let (v, d) := d.draw
  let d := machineCheck d now 7 (v % 3) core (BitVec.ofNat 64 a) 0
  let d := modLaunch d b.record fun l => { l with drop := true }
  let cores := ((launchOf d b.record).map (liveCores d)).getD []
  reportSaved (sendPreempt d (cores.filter (· != core))) now core b

/-- CONTEXT_SAVE at a clock. -/
def contextSave (d : Device) (now core : Nat) : Device :=
  match (d.core core).bound with
  | none => d
  | some b =>
    if !maySave d core b then d
    else
      let d := publish (untape (stopEngines d now core) core) core 4
      let r := savePieces d now core b
      match writeSave r.2 core (saveBase b) r.1 with
      | (some a, d) => saveFailed d now core b a
      | (none, d) => reportSaved d now core b

/-- CONTEXT_SAVE (R288, R290, R291). -/
def execContextSave (core : Nat) (s : State) : Host.Outcome State Fault Refusal :=
  onDevice s fun d => contextSave d s.clock core

/-! ## Restoring (R290 to R293, R435) -/

/-- The registers as a save area holds them. -/
def restoredRegs (r : CoreRegs) (ws : List Word) : CoreRegs :=
  let g (i : Nat) : Word := ws.getD i 0
  { r with
    fpflags := g 0, fptrap := g 1, agelimit := g 2, tapebase := g 3, tapelimit := g 4, tapehead := g 5, dmode := g 6
    xlroot := g 7, xlasid := g 8, faultbase := g 9, xltimeout := g 10, faultctl := g 11 }

/-- Reads ranges of the save area in turn: the bytes of each, or the address that failed. -/
def readSave (d : Device) (core base : Nat) : List (Nat × Nat) → Except Nat (List (List Byte)) × Device
  | [] => (.ok [], d)
  | (off, n) :: t =>
    match engRead d core true (base + off) n with
    | (.error e, d) => (.error e.2, d)
    | (.ok bs, d) =>
      match readSave d core base t with
      | (.error a, d) => (.error a, d)
      | (.ok rest, d) => (.ok (bs :: rest), d)

/-- The cells of an accumulator granule from its bytes. -/
def putAccGran (m : Cells 32) (g : Nat) (bs : List Byte) : Cells 32 :=
  (List.range 512).foldl (init := m) fun m i =>
    m.set (128 * (8 * (g / 2) + i / 64) + 64 * (g % 2) + i % 64) (BitVec.ofNat 32 (ofBytes ((bs.drop (4 * i)).take 4)))

/-- The fixed parts of a save area, which a restore reads whole: the head, the spill rings, the thread table, the waiting
sets, the parked-thread table, the channel FIFOs, the copy commands, the matrix engine, Meridian with the th.ctl
requests, and the arrival sets (R290). -/
def fixedParts : List (Nat × Nat) :=
  [(0, 0x478), (0x1000, 0x8_0000), (0x22_1000, 0x2000), (0x22_3000, 0x2_0000), (0x24_3000, 0x2_0000), (0x26_3000, 0x4000),
    (0x26_7000, 0x3000), (0x26_A000, 0x9000), (0x27_3000, 0x4000), (0x37_7000, 0xC00)]

/-- A thread as its entry of the thread table has it, with its live slots; why a PARKED one is parked is what the core
kept, as the layout of the parked-thread table is not stated (R290; DESIGN CHOICE, log 26). -/
def restoredThread (width : Nat) (table : List Byte) (live : List (Nat × List Byte)) (t : Thread) (i : Nat) : Thread :=
  let v := ofBytes (cut table (2 * i) 2)
  let b := v % 256
  let status := match v / 256 % 8 with
    | 0 => .waiting b
    | 2 => .faulted b
    | 3 => .halted b
    | 4 => .retired
    | _ => t.status
  { t with
    status := status
    pend := v / 2 ^ 11 % 2 == 1
    live := match live.find? fun x => x.1 == i with
      | some x => Cells.write [] 0 (wordsOf width x.2)
      | none => t.live }

/-- The spill ring of a channel, as the save area holds it, without the values that receivers have taken since. -/
def restoredRing (c : Core) (rings fifos : List Byte) (ch : Nat) : List Word :=
  let word (k : Nat) : Nat := ofBytes (cut fifos (1024 * ch + 8 * k) 8)
  let vs := wordsOf (word 2 - word 1) (cut rings (0x8000 * ch + 8 * word 1) (8 * (word 2 - word 1)))
  vs.drop (vs.length - (channelVals c.rings ch).length)

/-- The FIFO of a channel, as the save area holds it, with the values that have entered it since. -/
def restoredFifo (c : Core) (fifos : List Byte) (ch : Nat) : List Word :=
  let n := ofBytes (cut fifos (1024 * ch) 8)
  wordsOf n (cut fifos (1024 * ch + 24) (8 * n)) ++ (channelVals c.fifos ch).drop n

/-- A table of channels from the values of each. -/
def channelTable (f : Nat → List Word) : Tbl (List Word) :=
  ((List.range 16).map fun ch => (ch, f ch)).filter fun x => x.2 != []

/-- Meridian as its image has it: what LOAD takes, the sticky ECC, the descriptors and the last stop word; the tags keep
what their gathers have taken up (R399, R402). -/
def restoredMeridian (m : Meridian) (bs : List Byte) : Meridian :=
  let ws := wordsOf 128 bs
  let desc (k : Nat) : List Word := (ws.drop k).take 8
  { m with
    job := m.job.map fun j => { loadImageWords j (ws.take 21) with
      cmd := { j.cmd with desc := desc 24 }, ecc := bit (ws.getD 20 0) 3, wait := none }
    queued := m.queued.map fun q => { q with desc := desc 32 }
    lastStop := ws.getD 21 0 }

/-- The th.ctl requests of the save area, and those that have come since. -/
def restoredCtls (c : Core) (bs : List Byte) : List Ctl :=
  let n := ofBytes (cut bs 0x400 8)
  (wordsOf n (cut bs 0x408 (8 * n))).map Ctl.ofWord ++ c.ctls.drop n

/-- The context as restoration leaves it, from the fixed parts, the granules and the live slots. Images that were found
defective are fetched again (DESIGN CHOICE, log 52). -/
def restoredCore (c : Core) (width : Nat) (parts : List (List Byte)) (acc scr live : List (Nat × List Byte)) : Core :=
  let part (k : Nat) : List Byte := parts.getD k []
  let word (o : Nat) : Nat := ofBytes (cut (part 0) o 8)
  let entry (bs : List Byte) (i : Nat) : List Word := wordsOf 9 (cut bs (128 * i) 72)
  { c with
    regs := restoredRegs c.regs (wordsOf 32 (cut (part 0) 0x40 256))
    passes := word 0x10
    ages := Cells.write [] 0 (cut (part 0) 0x140 256)
    accSaved := word 0x240
    scrSaved := ofBytes (cut (part 0) 0x248 48)
    accDirty := 0
    scrDirty := 0
    rings := channelTable (restoredRing c (part 1) (part 5))
    fifos := channelTable (restoredFifo c (part 5))
    copy := c.copy.map fun x => (x.1, { x.2 with
      desc := (entry (part 6) x.1).take 8, cursor := ((entry (part 6) x.1).getD 8 0).toNat })
    mx := { c.mx with
      acc := acc.foldl (fun m x => putAccGran m x.1 x.2) []
      bad := []
      queue := c.mx.queue.zipIdx.map fun x => { x.1 with
        desc := if x.1.desc = [] then [] else (entry (part 7) x.2).take 8
        cursor := ((entry (part 7) x.2).getD 8 0).toNat }
      corner := ofStateImage c.mx.queue (part 7) }
    mer := restoredMeridian c.mer (part 8)
    ctls := restoredCtls c (part 8)
    scratch := scr.foldl (fun m x => m.write (4096 * x.1) x.2) []
    scratchBad := []
    threads := c.threads.zipIdx.map fun t => restoredThread width (part 2) live t.1 t.2
    active := none
    shadow := none
    defects := []
    frozen := false
    preempt := .none }

/-- Resumes the FAULTED threads with PEND set (R292). One that a sweep faulted re-enters AFTER, at once or, while the
sweep goes on, once it has ended (R274). -/
def resumePending (d : Device) (core : Nat) : Device :=
  let c := d.core core
  (tidsWhere c fun t => t.pend && (match t.status with
    | .faulted _ => true
    | _ => false)).foldl (init := d) fun d i =>
      if (threadOf d core i).revFault && dmodeState (d.core core) == 2 then
        d.modCore core fun c => { c with ctls := c.ctls ++ [⟨i, false, 0⟩] }
      else resumeAny d core i none

/-- The barriers and other instances of a run's cores that may have completed meanwhile complete (R173). -/
def settleRun (d : Device) (run : Nat) : Device := (runCores d run).foldl settle d

/-- CONTEXT_RESTORE at a clock. -/
def contextRestore (d : Device) (now core : Nat) : Device :=
  match (d.core core).bound with
  | none => d
  | some b =>
    if !awaitsRestore d (d.core core) then d
    else
      let d := refresh d core 4
      let base := saveBase b
      match readSave d core base fixedParts with
      | (.error a, d) => saveFailed d now core b a
      | (.ok parts, d) =>
        let head := parts.headD []
        let ag := bitsOf 64 (ofBytes (cut head 0x240 8))
        let sg := bitsOf 384 (ofBytes (cut head 0x248 48))
        let tids := (List.range b.nthreads).filter fun t => (ofBytes (cut head (0x278 + t / 8) 1)) / 2 ^ (t % 8) % 2 == 1
        let rs := ag.map (fun g => (0x08_1000 + 2048 * g, 2048)) ++ sg.map (fun g => (0x0A_1000 + 4096 * g, 4096))
          ++ tids.map fun t => (0x27_7000 + 8 * b.width * t, 8 * b.width)
        match readSave d core base rs with
        | (.error a, d) => saveFailed d now core b a
        | (.ok bs, d) =>
          let na := ag.length
          let ns := sg.length
          let d := d.modCore core fun c => restoredCore c b.width parts (ag.zip (bs.take na))
            (sg.zip ((bs.drop na).take ns)) (tids.zip (bs.drop (na + ns)))
          settleRun (settleSaves (settleSyncs (resumePending d core)) now core) b.run

/-- CONTEXT_RESTORE (R290 to R293, R435). -/
def execContextRestore (core : Nat) (s : State) : Host.Outcome State Fault Refusal :=
  onDevice s fun d => contextRestore d s.clock core

end Sys2Proof.Machine
end

