-- ==== Sys2Proof/Machine/HostIf.lean ====
section
/-! DEFINITION. The host: CXL.mem, the MMIO window, bring-up, attestation, contexts, the debug window, errors, power
and temperature (02_memory_model: R41; 12_core_faults: R294 to R296; 22_launch_scheduling: R439; 25_host_system: R471
to R484). -/

namespace Sys2Proof.Machine

/-- Does the window answer: in every phase but ROM (R476)? -/
def windowOn (d : Device) : Bool := d.host.phase != 0

/-- Is service on: REDUCED or READY (R476, R477)? -/
def serving (d : Device) : Bool := d.host.phase == 2 || d.host.phase == 3

/-- The host's registers changed by f. -/
def modHost (d : Device) (f : HostRegs → HostRegs) : Device := { d with host := f d.host }

/-! ## CXL.mem (R41, R471) -/

/-- May the host access n bytes at a home key: device memory that is served, or its own memory? Which physical
addresses hold the memory of R471 is not said: every one of R42 (below 2^48) is taken to (DESIGN CHOICE, log 38). -/
def hostMay (d : Device) (key n : Nat) : Bool :=
  if isHostKey key then decide (key + n ≤ 2 * hostBase)
  else serving d && decide (key + n ≤ hostBase) && (span key n).all (served d)

/-- What a host's read returns: bytes, and whether they are poisoned (the MODEL's own record of it). -/
def hostGets (d : Device) (bs : List Byte) (poison : Bool) : Device :=
  modHost d fun h => { h with rdata := bs, rpoison := poison }

/-- A host access at the home slice: a write; or a read of the 64-byte line, of published data, poisoned where the line is
uncorrectable or not served (R39, R41, R477). -/
def hostAccess (d : Device) (key : Nat) (bytes : Option (List Byte)) : Device :=
  match bytes with
  | none =>
    let line := key / 64 * 64
    if hostMay d line 64 then hostGets d (homeRead d line 64) (badAt d line 64) else hostGets d [] true
  | some bs => if hostMay d key bs.length then engWrite d key bs else d

/-- HOST_CXL_MEM_ACCESS (R41). -/
def execHostCxlMemAccess (key : Nat) (bytes : Option (List Byte)) (s : State) : Host.Outcome State Fault Refusal :=
  onDevice s fun d => hostAccess d key bytes

/-! ## The window (R473 to R475, R478, R482) -/

/-- A write to ARM. What ARMSTAT reads for a record in memory that is not served, which is not armed, no rule gives: a
free value (R474, R477). -/
def hostArm (d : Device) (now : Nat) (v : Word) : Device :=
  if !windowOn d then d
  else if !serving d then modHost d fun h => { h with armstat := 2 }
  else
    let r := armRecord d now (fld v 15 0) none
    if r.1 ≤ 2 then modHost r.2 fun h => { h with armstat := r.1 }
    else
      let (v, d) := r.2.draw
      modHost d fun h => { h with armstat := v % 3 }

/-- HOST_ARM (R475). -/
def execHostArm (v : Word) (s : State) : Host.Outcome State Fault Refusal := onDevice s fun d => hostArm d s.clock v

/-- The host's fetch of a signed image, at physical addresses (DEDUCED, log 14). -/
def fetchHost (d : Device) : Fetch := fun a n =>
  if badAt d a n || !(span a n).all (served d) then none else some (homeRead d a n)

/-- A host write to system register n, where R474 allows it. -/
def hostSysWrite (d : Device) (num : Nat) (v : Word) : Device :=
  let early := !d.dist.armed
  match num with
  | 0x060 => if zeroIn v (regReserved 0x060) then loadXr d (fetchHost d) v else d
  | 0x080 => if zeroIn v (regReserved 0x080) then loadMcs d (fetchHost d) v else d
  | 0x0A1 => if early && zeroIn v (maskOf 63 56 + maskOf 7 0) then modDist d fun t => { t with pool := v } else d
  | 0x0A2 => if early && decide (1 ≤ v.toNat ∧ v.toNat ≤ 65536) then modDist d fun t => { t with count := v } else d
  | 0x0B0 => if early && decide (v.toNat ≤ 8191) then { d with devid := v } else d
  | 0x0B1 => if decide (1 ≤ v.toNat ∧ v.toNat ≤ 40000) then { d with ringTimeout := v } else d
  | _ => d

/-- A host write to the window at an offset: an unaligned one is dropped, one that breaks its register's fields or
falls outside the registers of this kind is ignored (R473, R474). -/
def hostWrite (d : Device) (off : Nat) (v : Word) : Device :=
  if !windowOn d || off % 8 != 0 then d
  else if off < 0x8000 then hostSysWrite d (off / 8) v
  else match off with
    | 0x8018 => if !d.dist.armed && zeroIn v (maskOf 63 56 + maskOf 11 0) then modHost d fun h => { h with ctxtab := v } else d
    | 0x8030 => if zeroIn v (maskOf 63 56 + maskOf 11 4) then modHost d fun h => { h with mclog := v } else d
    | 0x8048 => modHost d fun h => { h with dbgdata := v }
    | _ => d

/-- HOST_REG_WRITE (R474). -/
def execHostRegWrite (off : Nat) (v : Word) (s : State) : Host.Outcome State Fault Refusal :=
  onDevice s fun d => hostWrite d off v

/-- The host acknowledges features: in phase 2 or 3, before the first arm; bits that FEAT does not set are 0. -/
def featAck (d : Device) (high : Bool) (v : Word) : Device :=
  if !serving d || d.dist.armed then d
  else if high then modHost d fun h => { h with featackx := v &&& h.featx }
  else modHost d fun h => { h with featack := v &&& h.feat }

/-- FEATACK_WRITE (R478). -/
def execFeatackWrite (high : Bool) (v : Word) (s : State) : Host.Outcome State Fault Refusal :=
  onDevice s fun d => featAck d high v

/-- INTSTAT is cleared where a bit of the written value is 1. -/
def intClear (d : Device) (v : Word) : Device :=
  if windowOn d then modHost d fun h => { h with intstat := h.intstat &&& ~~~(v.truncate 4) } else d

/-- INTSTAT_CLEAR (R473, R482). -/
def execIntstatClear (v : Word) (s : State) : Host.Outcome State Fault Refusal := onDevice s fun d => intClear d v

/-- A frequency under a host limit, 0 for none. -/
def limitMhz (rated limit : Nat) : Nat := if limit = 0 ∨ rated < limit then rated else limit

/-- The rated clock of an island: 1.75 GHz, but 900 MHz of a core of die 0 in REDUCED (R477). -/
def ratedMhz (d : Device) (i : Nat) : Nat := if d.host.phase = 2 ∧ i < 96 then 900 else 1750

/-- An island at a frequency, at most its limit: THROT says that it is held below the limit (R484). -/
def retune (limit mhz : Nat) (x : Island) : Island :=
  { x with mhz := min mhz limit, throt := decide (min mhz limit < limit) }

/-- An island changed by f. -/
def modIsland (d : Device) (i : Nat) (f : Island → Island) : Device :=
  modHost d fun h => { h with islands := updAt h.islands i f }

/-- ISLAND i as the host reads it (R484). -/
def islandWord (x : Island) : Word :=
  BitVec.ofNat 64 (x.mhz % 2 ^ 16 * 2 ^ 48 + x.maxMhz % 2 ^ 16 * 2 ^ 32 + x.temp % 2 ^ 8 * 2 ^ 24 + 2 * b2n x.gate
    + b2n x.throt)

/-- A register of the window as the host reads it, where it may be read (R473, R474, R476). -/
def windowWord (d : Device) (now off : Nat) : Option Word :=
  if off < 0x8000 then some (devRegRead d now (off / 8))
  else if 0x8100 ≤ off ∧ off < 0x9100 then some (islandWord (d.host.islands.getD ((off - 0x8100) / 8) default))
  else match off with
    | 0x8008 => some (BitVec.ofNat 64 d.host.armstat)
    | 0x8010 => some (BitVec.ofNat 64 (d.host.cause.toNat * 2 ^ 8 + d.host.phase))
    | 0x8028 => some (BitVec.ofNat 64 d.host.intstat.toNat)
    | 0x8038 => some (BitVec.ofNat 64 d.host.pcap.toNat)
    | 0x8048 => some d.host.dbgdata
    | _ => none

/-- A read of an island's register measures its temperature: a free value, below 105 °C but on an island that is off or
that heat throttles (R484; DESIGN CHOICE, log 40). -/
def senseTemp (d : Device) (off : Nat) : Device :=
  if 0x8100 ≤ off ∧ off < 0x9100 then
    let (v, d) := d.draw
    modIsland d ((off - 0x8100) / 8) fun x => { x with
      temp := if x.gate then v % 256 else if x.temp < 105 then v % 105 else 105 + v % 10 }
  else d

/-- The host reads the window: a read that is misaligned, or in ROM, gets no answer; what a place that is only written
reads as is a free value (R473, R476). -/
def hostRead (d : Device) (now off : Nat) : Device :=
  if !windowOn d || off % 8 != 0 then hostGets d [] false
  else
    let d := senseTemp d off
    match windowWord d now off with
    | some v => hostGets d (toBytes 8 v.toNat) false
    | none =>
      let (v, d) := d.draw
      hostGets d (toBytes 8 v) false

/-! ## Bring-up (R476, R477, R479) -/

/-- Islands at their rated clock, under the host's limits, where a predicate selects them and nothing else lowers
them. -/
def setMhz (d : Device) (p : Nat → Bool) : Device :=
  let set (x : Island × Nat) : Island :=
    if p x.2 && !x.1.throt then { x.1 with mhz := limitMhz (ratedMhz d x.2) x.1.maxMhz } else x.1
  modHost d fun h => { h with islands := h.islands.zipIdx.map set }

/-- Reset: everything is as after reset but host memory; then ROM verifies the firmware image: M0 is extended and
PHASE becomes FIRMWARE, or PHASE becomes FAILED with cause 1. -/
def deviceReset (d : Device) (image sig : List Byte) : Device :=
  let digest := Config.shake256 image
  let r := { Device.reset with
    free := d.free
    mem := { Mem.reset with
      home := d.mem.home.filter fun x => isHostKey x.1, bad := d.mem.bad.filter isHostKey } }
  if Config.signatureOk Config.romKey digest sig then modHost r fun h => { h with phase := 1, m0 := extend h.m0 digest }
  else modHost r fun h => { h with phase := 7, cause := 1 }

/-- DEVICE_RESET (R476, R479): the clock starts again (R420). -/
def execDeviceReset (image sig : List Byte) (s : State) : Host.Outcome State Fault Refusal :=
  .next { s with clock := 0, dev := deviceReset s.dev image sig }

/-- A cause of FAILED other than the signature, in any phase: 2 HBM training, 3 die self-test, 4 fuse. -/
def bringupFailed (d : Device) (cause : BitVec 8) : Device :=
  if d.host.phase ≤ 3 ∧ 2 ≤ cause.toNat ∧ cause.toNat ≤ 4 then modHost d fun h => { h with phase := 7, cause := cause }
  else d

/-- BRINGUP_FAILED (R476). -/
def execBringupFailed (cause : BitVec 8) (s : State) : Host.Outcome State Fault Refusal :=
  onDevice s fun d => bringupFailed d cause

/-- FIRMWARE goes on to REDUCED, where the cores of die 0 run at 900 MHz (R476, R477). -/
def enterReduced (d : Device) : Device :=
  if d.host.phase = 1 then setMhz (modHost d fun h => { h with phase := 2 }) (decide <| · < 96) else d

/-- The passage from REDUCED to READY: the distributor stops binding; once no launch runs, every die and stack opens, at
1.75 GHz, and it binds again. -/
def enterReady (d : Device) : Device :=
  if d.host.phase ≠ 2 then d
  else if d.dist.launches.all (fun x => x.2.state != .running) then
    setMhz (modDist (modHost d fun h => { h with phase := 3 }) fun t => { t with closed := false }) (decide <| · < 384)
  else modDist d fun t => { t with closed := true }

/-- REDUCED_TO_READY (R477). -/
def execReducedToReady (s : State) : Host.Outcome State Fault Refusal := onDevice s enterReady

/-- A module that fails training is left down. -/
def moduleFail (d : Device) (m : Nat) : Device :=
  modHost d fun h => { h with modules := h.modules &&& ~~~(BitVec.ofNat 8 (2 ^ m)) }

/-- UCIE_MODULE_FAIL (R471). -/
def execUcieModuleFail (m : Nat) (s : State) : Host.Outcome State Fault Refusal := onDevice s fun d => moduleFail d m

/-- The report behind a request area, from its nonce. -/
def reportBytes (d : Device) (nonce : List Byte) : List Byte :=
  let h := d.host
  let n := 8 + 32 + 192 + (Config.identity h.m0).length + sigBytes
  let body := toBytes 8 n ++ nonce ++ h.m0 ++ h.m1 ++ h.m2 ++ Config.identity h.m0
  body ++ Config.sign h.m0 (Config.shake256 body)

/-- A write to ATTEST names the request area; one in memory that is not served takes no report (R477). -/
def attest (d : Device) (v : Word) : Device :=
  if !windowOn d || !zeroIn v (maskOf 63 56 + maskOf 5 0) then d
  else
    let a := v.toNat
    let bs := reportBytes d (homeRead d a 32)
    if (span a (64 + bs.length)).all (served d) then raiseVector (homeWrite d (a + 64) bs) 3 else d

/-- ATTEST_REQUEST (R479). -/
def execAttestRequest (v : Word) (s : State) : Host.Outcome State Fault Refusal := onDevice s fun d => attest d v

/-! ## Contexts and the debug window (R294 to R296, R480, R481) -/

/-- The core and its launch that a command names, where its TID is one of the launch's. -/
def named (d : Device) (v : Word) : Option (Nat × Bound) :=
  match coreOfCode (fld v 25 16) with
  | none => none
  | some k => match (d.core k).bound with
    | none => none
    | some b => if fld v 11 0 < b.nthreads then some (k, b) else none

/-- CTXCMD RESUME or RESTART: a th.ctl request with the host's privilege. -/
def ctxResume (d : Device) (op : Nat) (v : Word) : Device :=
  if !serving d || fld v 63 60 != op then d
  else match named d v with
    | none => d
    | some (k, _) => d.modCore k fun c => { c with ctls := c.ctls ++ [⟨fld v 11 0, op == 1, fld v 39 32⟩] }

/-- CTXCMD_RESUME (R480). -/
def execCtxcmdResume (v : Word) (s : State) : Host.Outcome State Fault Refusal := onDevice s fun d => ctxResume d 0 v

/-- CTXCMD_RESTART (R480). -/
def execCtxcmdRestart (v : Word) (s : State) : Host.Outcome State Fault Refusal := onDevice s fun d => ctxResume d 1 v

/-- CTXCMD DISCARD. -/
def ctxDiscard (d : Device) (now : Nat) (v : Word) : Device :=
  if !serving d || fld v 63 60 != 2 then d else discardRecord d now (fld v 15 0)

/-- CTXCMD_DISCARD (R480). -/
def execCtxcmdDiscard (v : Word) (s : State) : Host.Outcome State Fault Refusal :=
  onDevice s fun d => ctxDiscard d s.clock v

/-- A debug request enters a core's list, in order, and is applied where no pass runs (R294). -/
def pushDbg (d : Device) (core : Nat) (r : Dbg) : Device :=
  let d := d.modCore core fun c => { c with dbgs := c.dbgs ++ [r] }
  if passRuns (d.core core) || (d.core core).preempt == .saved then d else settle (boundary d core) core

/-- A debug command of an OP that is not dropped: the core, with its launch (R478, R481). -/
def debugTarget (d : Device) (op : Nat) (v : Word) : Option (Nat × Bound) :=
  if !serving d || !bit d.host.featack 5 || fld v 63 60 != op then none else named d v

/-- DBGCMD halt. -/
def debugHalt (d : Device) (v : Word) : Device :=
  match debugTarget d 0 v with
  | some (k, _) => pushDbg d k (.halt (fld v 11 0))
  | none => d

/-- DBGCMD_HALT (R295, R481). -/
def execDbgcmdHalt (v : Word) (s : State) : Host.Outcome State Fault Refusal := onDevice s fun d => debugHalt d v

/-- DBGCMD write and read of a slot below the live width. -/
def debugSlot (d : Device) (op : Nat) (v : Word) : Device :=
  match debugTarget d op v with
  | some (k, b) =>
    if b.width ≤ fld v 38 32 then d
    else pushDbg d k (if op = 1 then .write (fld v 11 0) (fld v 38 32) d.host.dbgdata else .read (fld v 11 0) (fld v 38 32))
  | none => d

/-- DBGCMD_WRITE_SLOT (R296, R481). -/
def execDbgcmdWriteSlot (v : Word) (s : State) : Host.Outcome State Fault Refusal := onDevice s fun d => debugSlot d 1 v

/-- DBGCMD_READ_SLOT (R481). -/
def execDbgcmdReadSlot (v : Word) (s : State) : Host.Outcome State Fault Refusal := onDevice s fun d => debugSlot d 2 v

/-- DBGCMD stop of a Meridian job: like the other requests it takes effect between passes, in their order (R294). -/
def debugStopJob (d : Device) (v : Word) : Device :=
  match debugTarget d 3 v with
  | some (k, _) => pushDbg d k .stopJob
  | none => d

/-- DBGCMD_STOP_JOB (R400, R481). -/
def execDbgcmdStopJob (v : Word) (s : State) : Host.Outcome State Fault Refusal := onDevice s fun d => debugStopJob d v

/-! ## Errors (R39, R340, R483) -/

/-- What an uncorrectable error leaves bad. -/
def spoilAt (d : Device) (e : EccError) : Device :=
  let d := match e.line with
    | some a => poisonHome d [a / 64 * 64]
    | none => d
  let d := match e.scratch with
    | some x => poisonScratch d x.1 [x.2 / 64 * 64]
    | none => d
  match e.cell with
  | some x => d.modCore x.1 fun c => { c with mx := { c.mx with bad := if c.mx.bad.contains x.2 then c.mx.bad else x.2 :: c.mx.bad } }
  | none => d

/-- Can an error of a SOURCE at an address have a UNIT? HBM: the stack that holds the line; L2: the island of the
quadrant that holds its home slice; a cluster cache, core, Proulo port or UCIe module: an island of that kind (R10, R38,
R484; DEDUCED, log 14). -/
def unitOk (source unit a : Nat) : Bool :=
  match source with
  | 0 => unit == Config.stackOf (a / 64)
  | 1 => unit == 432 + homeSlice a / 8
  | 2 => decide (384 ≤ unit ∧ unit < 432)
  | 3 | 4 => decide (unit < 384)
  | 5 => decide (460 ≤ unit ∧ unit < 496)
  | 6 => decide (496 ≤ unit ∧ unit < 504)
  | _ => false

/-- Does the place that an error leaves bad lie where its record says: at most one place, memory and the caches hold
lines, a core's SRAM its scratchpad and accumulator cells, at their offset or number; links and quadrants hold no data
(DEDUCED, log 14)? -/
def placeOk (e : EccError) : Bool :=
  let unit := e.unit.toNat
  let a := e.addr.toNat
  match e.source.toNat, e.line, e.scratch, e.cell with
  | _, none, none, none => true
  | 0, some x, none, none | 1, some x, none, none | 2, some x, none, none => x / 64 == a / 64
  | 3, none, some x, none => x.1 == unit && x.2 / 64 == a / 64
  | 3, none, none, some x => x.1 == unit && x.2 == a
  | _, _, _, _ => false

/-- Is an error one that the device meets? A corrected error leaves nothing bad; an uncorrectable transient one leaves
its line bad; a lasting one may do either. What a read of a core's other arrays gives after an uncorrectable error no
rule says: such an error is recorded, and nothing else (log 14). -/
def eccOk (e : EccError) : Bool :=
  let nowhere := e.line.isNone && e.scratch.isNone && e.cell.isNone
  let class_ := match e.cls.toNat with
    | 0 => nowhere
    | 1 => !nowhere || decide (3 ≤ e.source.toNat)
    | 2 => true
    | _ => false
  class_ && unitOk e.source.toNat e.unit.toNat e.addr.toNat && placeOk e

/-- An error of SOURCE 0 to 6 and CLASS 0 to 2 is recorded; data stays bad where it is uncorrectable. A matrix quadrant,
named by ADDR, is retested, and fenced where it fails again (R364, R365). -/
def eccError (d : Device) (now : Nat) (e : EccError) : Device :=
  if !eccOk e then d
  else if e.source = 4 then
    let r := quadFails d now e.unit.toNat (e.addr.toNat % 4) (e.cls == 2)
    if r.1 then matrixOut r.2 now e.unit.toNat else r.2
  else machineCheck (spoilAt d e) now e.source.toNat e.cls.toNat e.unit.toNat e.addr 0

/-- ECC_ERROR (R483). -/
def execEccError (e : EccError) (s : State) : Host.Outcome State Fault Refusal := onDevice s fun d => eccError d s.clock e

/-! ## Power and temperature (R439, R484) -/

/-- Does an island hold a bound launch: a core's island whose core does? -/
def holdsLaunch (d : Device) (i : Nat) : Bool := decide (i < 384) && (d.core i).bound.isSome

/-- A host write to ISLAND i: its limit, and GATE. A write that sets GATE on an island that holds a bound launch is
refused. An island that PCAP or heat holds down stays so until its limit is no higher. -/
def islandSet (d : Device) (i : Nat) (v : Word) : Device :=
  if !windowOn d || fld v 23 2 != 0 || (bit v 1 && holdsLaunch d i) then d
  else
    let limit := limitMhz (ratedMhz d i) (fld v 47 32)
    modIsland d i fun x =>
      retune limit (if x.throt then x.mhz else limit) { x with maxMhz := fld v 47 32, gate := bit v 1 }

/-- ISLAND_WRITE (R484). -/
def execIslandWrite (isl : Nat) (v : Word) (s : State) : Host.Outcome State Fault Refusal :=
  onDevice s fun d => islandSet d isl v

/-- A host write to PCAP: 1,000 to 3,400 W. -/
def pcapSet (d : Device) (v : Word) : Device :=
  if windowOn d && decide (1000 ≤ v.toNat ∧ v.toNat ≤ 3400) then modHost d fun h => { h with pcap := v.truncate 12 } else d

/-- PCAP_WRITE (R484). -/
def execPcapWrite (v : Word) (s : State) : Host.Outcome State Fault Refusal := onDevice s fun d => pcapSet d v

/-- The device lowers the frequency of a core or cluster island to hold PCAP, and raises an island again, up to its
limit, where power and temperature allow it: one that heat throttled has then cooled (DEDUCED, log 40). -/
def capAdjust (d : Device) (i mhz : Nat) : Device :=
  let x := d.host.islands.getD i default
  let limit := limitMhz (ratedMhz d i) x.maxMhz
  if mhz < x.mhz then if i < 432 then modIsland d i (retune limit mhz) else d
  else if x.temp < 105 then modIsland d i (retune limit mhz)
  else
    let (v, d) := d.draw
    modIsland d i fun x => retune limit mhz { x with temp := v % 105 }

/-- POWER_CAP_ADJUST (R484). -/
def execPowerCapAdjust (isl mhz : Nat) (s : State) : Host.Outcome State Fault Refusal :=
  onDevice s fun d => capAdjust d isl mhz

/-- An island at 105 °C is throttled, to a frequency that is a free value below its present one (R484, log 40). -/
def throttle (d : Device) (i : Nat) : Device :=
  let (v, d) := d.draw
  let limit := limitMhz (ratedMhz d i) (d.host.islands.getD i default).maxMhz
  modIsland d i fun x => retune limit (v % max 1 x.mhz) { x with temp := 105 }

/-- THERMAL_THROTTLE (R484). -/
def execThermalThrottle (isl : Nat) (s : State) : Host.Outcome State Fault Refusal := onDevice s fun d => throttle d isl

/-- A core whose island is gated while a launch is bound to it: the commands with global completion words end with
ABORTED, and the launch's other cores are pre-empted for its discarding; a core whose context is saved already only
leaves (R439). -/
def gateBound (d : Device) (now core : Nat) (b : Bound) : Device :=
  let lose (d : Device) : Device := (releaseCore now d core).modCore core fun c => { c with cache := Cache.empty }
  let saved := ((launchOf d b.record).bind fun l => l.saved.find b.cidx).isSome
  if saved then suspendIfSaved (lose d) now b.record
  else
    let d := lose (abortCommands d (compsOf (d.core core)))
    let d := modLaunch d b.record fun l => { l with ended := l.ended ++ [b.cidx], drop := true }
    let others := ((launchOf d b.record).map (liveCores d)).getD []
    suspendIfSaved (sendPreempt d others) now b.record

/-- An island at 115 °C: a lasting machine check is recorded for it and it is gated; a core is taken out of service.
The record of a core with a launch has SOURCE 8; no rule gives the SOURCE of any other, or an ADDR (R439, R484). -/
def thermalGate (d : Device) (now i : Nat) : Device :=
  let (v, d) := d.draw
  let (a, d) := unstated d
  let d := machineCheck d now (if holdsLaunch d i then 8 else v % 256) 2 i a 0
  let d := modIsland d i fun x => { x with temp := 115, gate := true }
  if 384 ≤ i then d
  else
    let d := d.modCore i fun c => { c with inService := false }
    match (d.core i).bound with
    | some b => gateBound d now i b
    | none => d

/-- THERMAL_GATE (R484). -/
def execThermalGate (isl : Nat) (s : State) : Host.Outcome State Fault Refusal :=
  onDevice s fun d => thermalGate d s.clock isl

end Sys2Proof.Machine
end

