-- ==== Sys2Proof/Machine/Integer.lean ====
section
/-! DEFINITION. The meanings of the integer, logic, steering and bit instructions of the CU map, opcodes 0x01 to 0x2C
(07_core_integer_control: R179 to R193). -/

namespace Sys2Proof.Machine

/-- mov (R182). -/
def execMov (w : CU) (s : State) : Host.Outcome State Fault Refusal :=
  cuStep s 0x01 w (pureFn fun a _ _ => movVal w.typ.toNat a)

/-- cvt (R183): MOD names the source type. -/
def execCvt (w : CU) (s : State) : Host.Outcome State Fault Refusal :=
  cuStep s 0x02 w (pureFn fun a _ _ => cvtVal w.typ.toNat w.mod.toNat a)

/-- sel (R184): B when bit 0 of A is 1, else C. -/
def execSel (w : CU) (s : State) : Host.Outcome State Fault Refusal :=
  cuStep s 0x03 w (pureFn fun p a b => movVal w.typ.toNat (if p.getLsbD 0 then a else b))

/-- steer (R185): B when bit 0 of A is 1, else a cancel token. -/
def execSteer (w : CU) (s : State) : Host.Outcome State Fault Refusal :=
  cuStep s 0x04 w fun _ p v _ d =>
    (if p.getLsbD 0 then .val (movVal w.typ.toNat v) Fx.none else .cancel, d)

/-- merge (R186) at an environment: A if it is a value, else B if it is a value, else cancel; poison on either
operand is poison. In a reverse replay only the operand that it delivers counts as taken as a value (R276; DESIGN CHOICE,
log 54). -/
def mergeEnv (d : Device) (e : Env) (w : NodeWord) : Device :=
  if !mayFire e w then d
  else
    match operand d e w.fmt.a w.typ w.src w.imm w.a, operand d e w.fmt.b w.typ w.src w.imm w.b with
    | some a, some b =>
      match worse (originOf a) (originOf b) with
      | some o => emit d e (.poison o)
      | none =>
        let take (role : Role) (code : BitVec 8) (v : Word) : Device :=
          if e.pass.rev && readsFadd e role code then finishNode d e w (.poison clsAdj 0)
          else deliverNode d e w (movVal w.typ v) Fx.none
        match a, b with
        | .value v, _ => take w.fmt.a w.a v
        | _, .value v => take w.fmt.b w.b v
        | _, _ => emit d e .cancel
    | _, _ => d

/-- merge (R186). -/
def execMerge (w : CU) (s : State) : Host.Outcome State Fault Refusal :=
  onDevice s fun d =>
    match envOf d s.clock s.focus with
    | none => d
    | some e => mergeEnv d e (cuWord 0x05 w)

/-- add (R187). -/
def execAdd (w : CU) (s : State) : Host.Outcome State Fault Refusal :=
  cuStep s 0x10 w (pureFn fun a b _ => deliverInt w.typ.toNat (ival w.typ.toNat a + ival w.typ.toNat b))

/-- sub (R187). -/
def execSub (w : CU) (s : State) : Host.Outcome State Fault Refusal :=
  cuStep s 0x11 w (pureFn fun a b _ => deliverInt w.typ.toNat (ival w.typ.toNat a - ival w.typ.toNat b))

/-- mul (R187). -/
def execMul (w : CU) (s : State) : Host.Outcome State Fault Refusal :=
  cuStep s 0x12 w (pureFn fun a b _ => deliverInt w.typ.toNat (ival w.typ.toNat a * ival w.typ.toNat b))

/-- mulhi (R187): the upper W bits of the full product. -/
def execMulhi (w : CU) (s : State) : Host.Outcome State Fault Refusal :=
  cuStep s 0x13 w (pureFn fun a b _ =>
    deliverInt w.typ.toNat (ival w.typ.toNat a * ival w.typ.toNat b / (2 : Int) ^ tWidth w.typ.toNat))

/-- mad (R187). -/
def execMad (w : CU) (s : State) : Host.Outcome State Fault Refusal :=
  cuStep s 0x14 w (pureFn fun a b c => deliverInt w.typ.toNat (ival w.typ.toNat a * ival w.typ.toNat b + ival w.typ.toNat c))

/-- div (R123, R187). -/
def execDiv (w : CU) (s : State) : Host.Outcome State Fault Refusal :=
  cuStep s 0x15 w (pureFn fun a b _ => deliverInt w.typ.toNat (divRem w.typ.toNat (ival w.typ.toNat a) (ival w.typ.toNat b)).1)

/-- rem (R123, R187). -/
def execRem (w : CU) (s : State) : Host.Outcome State Fault Refusal :=
  cuStep s 0x16 w (pureFn fun a b _ => deliverInt w.typ.toNat (divRem w.typ.toNat (ival w.typ.toNat a) (ival w.typ.toNat b)).2)

/-- abs (R187). -/
def execIabs (w : CU) (s : State) : Host.Outcome State Fault Refusal :=
  cuStep s 0x17 w (pureFn fun a _ _ => deliverInt w.typ.toNat (sv w.typ.toNat a).natAbs)

/-- neg (R187). -/
def execIneg (w : CU) (s : State) : Host.Outcome State Fault Refusal :=
  cuStep s 0x18 w (pureFn fun a _ _ => deliverInt w.typ.toNat (-sv w.typ.toNat a))

/-- min (R187). -/
def execImin (w : CU) (s : State) : Host.Outcome State Fault Refusal :=
  cuStep s 0x19 w (pureFn fun a b _ => deliverInt w.typ.toNat (min (ival w.typ.toNat a) (ival w.typ.toNat b)))

/-- max (R187). -/
def execImax (w : CU) (s : State) : Host.Outcome State Fault Refusal :=
  cuStep s 0x1A w (pureFn fun a b _ => deliverInt w.typ.toNat (max (ival w.typ.toNat a) (ival w.typ.toNat b)))

/-- cmp (R188): MOD is the condition. -/
def execCmp (w : CU) (s : State) : Host.Outcome State Fault Refusal :=
  cuStep s 0x1B w (pureFn fun a b _ => predVal (cmpVal w.mod.toNat (ival w.typ.toNat a) (ival w.typ.toNat b)))

/-- and on the W bits of TYPE (R189). -/
def execIand (w : CU) (s : State) : Host.Outcome State Fault Refusal :=
  cuStep s 0x20 w (pureFn fun a b _ => deliver w.typ.toNat (uv w.typ.toNat a &&& uv w.typ.toNat b))

/-- or on the W bits of TYPE (R189). -/
def execIor (w : CU) (s : State) : Host.Outcome State Fault Refusal :=
  cuStep s 0x21 w (pureFn fun a b _ => deliver w.typ.toNat (uv w.typ.toNat a ||| uv w.typ.toNat b))

/-- xor on the W bits of TYPE (R189). -/
def execIxor (w : CU) (s : State) : Host.Outcome State Fault Refusal :=
  cuStep s 0x22 w (pureFn fun a b _ => deliver w.typ.toNat (uv w.typ.toNat a ^^^ uv w.typ.toNat b))

/-- not on the W bits of TYPE (R189). -/
def execInot (w : CU) (s : State) : Host.Outcome State Fault Refusal :=
  cuStep s 0x23 w (pureFn fun a _ _ => deliver w.typ.toNat (2 ^ tWidth w.typ.toNat - 1 - uv w.typ.toNat a))

/-- shl (R189). -/
def execShl (w : CU) (s : State) : Host.Outcome State Fault Refusal :=
  cuStep s 0x24 w (pureFn fun a b _ => shlVal w.typ.toNat a b)

/-- shr (R189). -/
def execShr (w : CU) (s : State) : Host.Outcome State Fault Refusal :=
  cuStep s 0x25 w (pureFn fun a b _ => shrVal w.typ.toNat a b)

/-- sar (R189). -/
def execSar (w : CU) (s : State) : Host.Outcome State Fault Refusal :=
  cuStep s 0x26 w (pureFn fun a b _ => sarVal w.typ.toNat a b)

/-- clz (R190). -/
def execClz (w : CU) (s : State) : Host.Outcome State Fault Refusal :=
  cuStep s 0x27 w (pureFn fun a _ _ => deliver w.typ.toNat (clzVal w.typ.toNat a))

/-- popc (R190). -/
def execPopc (w : CU) (s : State) : Host.Outcome State Fault Refusal :=
  cuStep s 0x28 w (pureFn fun a _ _ => deliver w.typ.toNat (popcVal w.typ.toNat a))

/-- brev (R190). -/
def execBrev (w : CU) (s : State) : Host.Outcome State Fault Refusal :=
  cuStep s 0x29 w (pureFn fun a _ _ => deliver w.typ.toNat (brevVal w.typ.toNat a))

/-- bfx (R191). -/
def execBfx (w : CU) (s : State) : Host.Outcome State Fault Refusal :=
  cuStep s 0x2A w (pureFn fun a b _ => bfxVal w.typ.toNat a b)

/-- bfi (R191). -/
def execBfi (w : CU) (s : State) : Host.Outcome State Fault Refusal :=
  cuStep s 0x2B w (pureFn fun a b c => bfiVal w.typ.toNat a b c)

/-- rng (R152, R192). -/
def execRng (w : CU) (s : State) : Host.Outcome State Fault Refusal :=
  cuStep s 0x2C w (pureFn fun a b c => BitVec.ofNat 64 (rngDraw a.toNat b.toNat c.toNat))

end Sys2Proof.Machine
end

