-- ==== Sys2Proof/Machine/Sweep.lean ====
section
/-! DEFINITION. BEAT_RETIRE, the answers to a Traverse trap, and the reverse sweep: TRAVERSE_CMD_EXTEND,
TRAVERSE_CMD_ABORT, REVERSE_SWEEP_START and SWEEP_RECORD (06_core_execution: R168; 07_core_integer_control: R204;
11_differentiable: R260, R261, R268 to R271, R274, R275). -/

namespace Sys2Proof.Machine

/-! ## Retirement in a reverse replay (R271, R274) -/

/-- The AFTER field of SYS_DMODE (R258). -/
def afterBlock (c : Core) : Nat := fld c.regs.dmode 15 8

/-- Does a replay leave a thread out: FAULTED, or poisoned earlier in the sweep (R271, R274)? -/
def isSkipped (t : Thread) : Bool :=
  match t.status with
  | .faulted _ => true
  | _ => t.revFault

/-- A replayed thread faults: its record carries REV. A RETIRED thread stays RETIRED and is to be reported; any other
becomes FAULTED, to re-enter AFTER once it is resumed (R274). -/
def reverseFault (d : Device) (e : Env) (o : Origin) : Device :=
  let r : Record :=
    { passNum := e.pass.num, node := o.node, block := e.pass.block, code := o.cls, addr := o.addr
      pend := e.l.pend, held := false, rev := true, exc := o.exc, done := e.l.done, replay := e.l.replay }
  let d := writeRecord d e.core e.l.tid r
  let after := afterBlock (d.core e.core)
  modThread d e.core e.l.tid fun t =>
    { t with
      status := if t.status = .retired then .retired else .faulted after
      revFault := true
      pend := e.l.pend
      reported := false }

/-- One thread retires from a reverse replay: exit words are not acted on (R204); poison at any node, or slots read
as two types, fault it (R273, R274); otherwise it commits. Its stores are pending no longer. -/
def reverseLane (d : Device) (e : Env) : Device :=
  let d := dropStores d e
  if isSkipped (threadOf d e.core e.l.tid) then d
  else match laneOrigin e.l with
    | some o => reverseFault d e o
    | none =>
      if mixedReads e.words then reverseFault d e ⟨e.pass.block, 0x40, clsAdj, 0, 0⟩
      else
        let s := backward d e
        match s.fault with
        | some f => reverseFault s.d e ⟨e.pass.block, f.2.1, f.1, addrWord f.2.2, 0⟩
        | none => commitBack s e.core e.l.tid

/-- The threads of a beat retire in descending order (R271). -/
def reverseLanes (d : Device) (now core : Nat) : List Nat → Device
  | [] => d
  | i :: t =>
    match laneEnv d now core i with
    | none => reverseLanes d now core t
    | some e => reverseLanes (reverseLane d e) now core t

/-- The next beat of a reverse replay retires. -/
def reverseBeat (d : Device) (now core : Nat) : Device :=
  match (d.core core).pass, (d.core core).active with
  | some p, some pl =>
    if p.rev && beatReady pl.words p then
      beatDone (reverseLanes d now core (beatLanes p (nextBeat p)).reverse) core []
    else d
  | _, _ => d

/-- BEAT_RETIRE: the oldest complete beat of a core's pass retires through the exit word of the block's image
(R168), or, in a reverse replay, without it. -/
def beatRetire (d : Device) (now core : Nat) : Device :=
  match (d.core core).pass, (d.core core).active with
  | some p, some pl =>
    if p.rev then reverseBeat d now core
    else match decodeExit (imgExit pl.words) with
      | .ok i => match actionOf i with
        | some (x, k) => retireBeat d now core x k
        | none => d
      | .error _ => d
  | _, _ => d

/-- BEAT_RETIRE (R168). -/
def execBeatRetire (core : Nat) (s : State) : Host.Outcome State Fault Refusal :=
  onDevice s fun d => beatRetire d s.clock core

/-! ## Answers to a Traverse trap (R268) -/

/-- Word 2 of the control header at the home slice: CMD and NEWLIM. -/
def traverseCmd (d : Device) (core : Nat) : (Nat × Nat) × Device :=
  match engReadWord d core true ((d.core core).regs.tapebase.toNat + 16) with
  | (.ok w, d) => ((fld w 63 56, fld w 55 0), d)
  | (.error _, d) => ((0, 0), d)

/-- CMD becomes 0. -/
def clearCmd (d : Device) (core newlim : Nat) : Device :=
  (ownWrite d core ((d.core core).regs.tapebase.toNat + 16) (toBytes 8 newlim)).2

/-- The trap that a core can answer: while its context is saved it reads no command (R268, R288). -/
def openTrap (c : Core) : Option Trap := if c.preempt == .saved then none else c.trap

/-- CMD 1: the limit is extended, and the write that failed is made again; an unfit NEWLIM leaves the core
trapped. -/
def traverseExtend (d : Device) (core : Nat) : Device :=
  match openTrap (d.core core) with
  | none => d
  | some t =>
    match traverseCmd d core with
    | ((1, lim), d) =>
      let d := clearCmd d core lim
      if lim % 8 ≠ 0 ∨ lim < (d.core core).regs.tapehead.toNat + t.need then d
      else
        let d := (modRegs d core fun r =>
          { r with tapelimit := BitVec.ofNat 64 lim, dmode := setFld r.dmode 2 2 0 }).modCore core fun c =>
          { c with trap := none, trapReported := false }
        settle (settleTape (if t.retry = [] then d else pushWords d core t.retry) core) core
    | (_, d) => d

/-- TRAVERSE_CMD_EXTEND (R268). -/
def execTraverseCmdExtend (core : Nat) (s : State) : Host.Outcome State Fault Refusal :=
  onDevice s fun d => traverseExtend d core

/-- CMD 2: the Traverse is aborted. -/
def traverseAbort (d : Device) (core : Nat) : Device :=
  if (openTrap (d.core core)).isNone then d
  else match traverseCmd d core with
    | ((2, _), d) => settle (tapeAbort d core) core
    | (_, d) => d

/-- TRAVERSE_CMD_ABORT (R268). -/
def execTraverseCmdAbort (core : Nat) (s : State) : Host.Outcome State Fault Refusal :=
  onDevice s fun d => traverseAbort d core

/-! ## The sweep (R269 to R271, R274, R275) -/

/-- May the sweep act on a core: between passes, with no trap and no pre-emption (R275)? -/
def sweepFree (c : Core) : Bool := c.bound.isSome && c.pass.isNone && c.trap.isNone && c.tapeFail.isNone
  && c.preempt == .none

/-- Every live thread has arrived at exit.drev while the core records: STATE becomes 2 (R269). Commits and pushes are
complete and core-visible when they are made. -/
def sweepStart (d : Device) (core : Nat) : Device :=
  let c := d.core core
  if sweepFree c && dmodeState c == 1 && c.wakes.isEmpty && allArrived d [core] isDrev then
    modRegs d core fun r => { r with dmode := setFld r.dmode 1 0 2 }
  else d

/-- REVERSE_SWEEP_START (R269). -/
def execReverseSweepStart (core : Nat) (s : State) : Host.Outcome State Fault Refusal :=
  onDevice s fun d => sweepStart d core

/-- A broken Traverse: every live thread FAULTED with TAPE_FULL, node 0xFE, and the Traverse starts over (R274). -/
def brokenTraverse (d : Device) (core : Nat) (addr : Nat) : Device :=
  settle (tapeReset (faultLive d core 0xFE (addrWord addr) true) core) core

/-- The core reads bytes of the Traverse, core-visible, with system privilege (R260): the bytes, or the failing
address. -/
def tapeRead (d : Device) (core : Nat) : (fuel : Nat) → (va n : Nat) → Except Nat (List Byte) × Device
  | 0, _, _ => (.ok [], d)
  | fuel + 1, va, n =>
    if n = 0 then (.ok [], d)
    else
      let k := min n (4096 - va % 4096)
      match reachVia d core .none va k true false with
      | (.error e, d) => (.error e.2, d)
      | (.ok x, d) =>
        if badAt d x.key k then (.error (va + badOff d x.key k), d)
        else
          let r := coreRead d core [] x.key k
          match tapeRead r.2.2 core fuel (va + k) (n - k) with
          | (.ok rest, d) => (.ok (r.1 ++ rest), d)
          | (.error a, d) => (.error a, d)

/-- A word of the Traverse. -/
def tapeWords (d : Device) (core va n : Nat) : Except Nat (List Word) × Device :=
  match tapeRead d core (8 * n / 4096 + 2) va (8 * n) with
  | (.ok bs, d) => (.ok (wordsOf n bs), d)
  | (.error a, d) => (.error a, d)

/-- A record: its kind, length, INFO, its address and the words before the trailer. -/
structure Rec where
  kind : Nat
  len : Nat
  info : Nat
  start : Nat
  words : List Word
  deriving DecidableEq, Repr, Inhabited

/-- Does a trailer agree with R261? -/
def trailerOk (kind len info : Nat) : Bool :=
  match kind with
  | 1 => len == 16 && decide (info < 2 ^ 16)
  | 2 =>
    let n := info % 2 ^ 13
    decide (1 ≤ n ∧ n ≤ 4096) && len == 24 + 8 * ceilDiv n 4 && info / 2 ^ 13 % 2 ^ 19 == 0
  | 3 => len == 24 && (info == 2 || info == 4 || info == 8)
  | 4 => len == 16 && info / 2 ^ 6 % 2 ^ 10 == 0 && decide (info < 2 ^ 28)
  | _ => false

/-- The record whose trailer lies at head − 8; or the address that makes the Traverse broken (R261, R274). -/
def recordBelow (d : Device) (core head : Nat) : Except Nat Rec × Device :=
  let floor := (d.core core).regs.tapebase.toNat + 64
  if head < floor + 8 then (.error head, d)
  else match tapeWords d core (head - 8) 1 with
    | (.error a, d) => (.error a, d)
    | (.ok ws, d) =>
      let t := ws.getD 0 0
      let kind := fld t 63 56
      let len := fld t 55 40
      let info := fld t 39 0
      if !trailerOk kind len info || decide (head < floor + len) then (.error (head - 8), d)
      else match tapeWords d core (head - len) (len / 8 - 1) with
        | (.error a, d) => (.error a, d)
        | (.ok ws, d) => (.ok ⟨kind, len, info, head - len, ws⟩, d)

/-- Makes bytes core-visible over planned pieces, as a store of the core (R270, R271). -/
def storePieces (d : Device) (core : Nat) : List (Nat × Nat) → List Byte → Device
  | [], _ => d
  | (k, n) :: t, bs => storePieces (coreWrite d core k (bs.take n)) core t (bs.drop n)

/-- HEAD of the Traverse becomes a. -/
def setHead (d : Device) (core a : Nat) : Device := modRegs d core fun r => { r with tapehead := BitVec.ofNat 64 a }

/-- Pop: a STORE or LIVE record is restored, and HEAD lowered (R270). -/
def popRecord (d : Device) (core : Nat) (r : Rec) : Except Nat Unit × Device :=
  let n := match (d.core core).bound with
    | some b => b.nthreads
    | none => 0
  if r.kind = 3 then
    let va := (r.words.getD 0 0).toNat
    let bs := toBytes r.info (r.words.getD 1 0).toNat
    match vplan d core true 2 va r.info with
    | (.error e, d) => (.error e.2, d)
    | (.ok ps, d) =>
      if ps.any fun p => badAt d p.1 p.2 then (.error va, d)
      else (.ok (), setHead (storePieces d core ps bs) core r.start)
  else
    let tid := r.info / 2 ^ 16
    let slot := r.info % 2 ^ 6
    if n ≤ tid then (.error r.start, d)
    else (.ok (), setHead (modThread d core tid fun t => { t with live := t.live.set slot (r.words.getD 0 0) }) core
      r.start)

/-- Pops the records that fill left bytes below HEAD; gives the STORE records in the order in which they were popped,
as address and size. -/
def popData (d : Device) (core : Nat) : (fuel : Nat) → (left : Nat) → Except Nat (List (Nat × Nat)) × Device
  | 0, left => (if left = 0 then .ok [] else .error (d.core core).regs.tapehead.toNat, d)
  | fuel + 1, left =>
    if left = 0 then (.ok [], d)
    else
      let head := (d.core core).regs.tapehead.toNat
      match recordBelow d core head with
      | (.error a, d) => (.error a, d)
      | (.ok r, d) =>
        if (r.kind ≠ 3 ∧ r.kind ≠ 4) ∨ left < r.len then (.error (head - 8), d)
        else match popRecord d core r with
          | (.error a, d) => (.error a, d)
          | (.ok _, d) =>
            match popData d core fuel (left - r.len) with
            | (.error a, d) => (.error a, d)
            | (.ok rest, d) =>
              (.ok (if r.kind = 3 then ((r.words.getD 0 0).toNat, r.info) :: rest else rest), d)

/-- The tids of a PASS record, where its list is as R274 asks. -/
def passTids (nthreads : Nat) (r : Rec) : Option (List Nat) :=
  let n := r.info % 2 ^ 13
  let all := (r.words.drop 2).flatMap fun w => [fld w 15 0, fld w 31 16, fld w 47 32, fld w 63 48]
  let ts := all.take n
  if ts.all (· < nthreads) && (ts.zip (ts.drop 1)).all (fun p => decide (p.1 < p.2))
      && (all.drop n).all (· == 0xFFFF) then some ts else none

/-- Clears the adjoint cells that a popped region store touches, with the launch's privilege (R271). -/
def clearCell (d : Device) (core : Nat) (b : Bound) (va size : Nat) : Except Nat Unit × Device :=
  match regionOf b.regions va size with
  | .whole r =>
    let es := elemBytes r.typ
    let first := (va - r.base) / es * es
    let n := ceilDiv (va - r.base + size) es * es - first
    let cell := cellOf b r (r.base + first)
    match vplan d core b.priv 2 cell n with
    | (.error e, d) => (.error e.2, d)
    | (.ok ps, d) =>
      if ps.any fun p => badAt d p.1 p.2 then (.error cell, d)
      else (.ok (), storePieces d core ps (List.replicate n 0))
  | _ => (.ok (), d)

/-- Clears the cells of the popped stores in order. -/
def clearCells (d : Device) (core : Nat) (b : Bound) : List (Nat × Nat) → Except Nat Unit × Device
  | [] => (.ok (), d)
  | (va, n) :: t =>
    match clearCell d core b va n with
    | (.error a, d) => (.error a, d)
    | (.ok _, d) => clearCells d core b t

/-- The replay of a block whose DIFF flag is clear: the adjoints of its live-outs are cleared (R271). -/
def clearSlots (d : Device) (core : Nat) (b : Bound) (ws : List Word) (tids : List Nat) : Device :=
  let outs := (imgWrites ws).filter (· < 64)
  if b.width ≠ 128 then d
  else tids.foldl (init := d) fun d tid =>
    if isSkipped (threadOf d core tid) then d
    else outs.foldl (fun d i => setAdjoint d core tid i 0) d

/-- A listed thread's lane in a replay; a thread that is left out has a token at every node already. -/
def replayLane (c : Core) (ws : List Word) (tid : Nat) : Lane :=
  let toks : Tbl Token :=
    if isSkipped (c.threads.getD tid Thread.fresh) then (imgNodes ws).map fun n => (n, .cancel) else []
  ⟨tid, toks, 0, [], [], 0, [0, 0, 0, 0], [], false⟩

/-- Replay of a PASS record: the block's reverse configuration is set up, and its threads are streamed with the beats
of the forward pass (R271). -/
def replayPass (d : Device) (core : Nat) (b : Bound) (r : Rec) (tids : List Nat) (stores : List (Nat × Nat)) : Device :=
  let block := r.info / 2 ^ 32
  let img : Except LoadFault (List Word) × Device :=
    match (d.core core).defects.find block, planeOf (d.core core) block with
    | some k, _ => (.error ⟨clsConfig, k.1, k.2⟩, d)
    | none, some ws => (.ok ws, d)
    | none, none => loadImage d core block
  match img with
  | (.error f, d) => brokenTraverse d core f.addr
  | (.ok ws, d) =>
    if imgDiff ws then
      d.modCore core fun c =>
        { c with
          active := some ⟨block, ws⟩
          pass := some ⟨block, (r.words.getD 0 0).toNat, tids.map (replayLane c ws), 0, false, false, true, 0, []⟩ }
    else match clearCells d core b stores with
      | (.error a, d) => brokenTraverse d core a
      | (.ok _, d) => clearSlots d core b ws tids

/-- The sweep ends at the MARK: STATE 0, and every thread still alive waits at AFTER (R270). -/
def sweepEnd (d : Device) (core : Nat) (r : Rec) : Device :=
  let d := modRegs (setHead d core r.start) core fun x => { x with dmode := setFld x.dmode 1 0 0 }
  let after := afterBlock (d.core core)
  (tidsWhere (d.core core) isLive).foldl (fun d t => setWaiting d core t after) d

/-- SWEEP_RECORD: the record below HEAD (R270, R274). R274 does not say which address names a defective record: it is
that of the trailer where the trailer or the record's place is wrong, and the record's first where what it holds is
(DESIGN CHOICE, log 54). -/
def sweepRecord (d : Device) (core : Nat) : Device :=
  let c := d.core core
  match c.bound with
  | none => d
  | some b =>
    if !sweepFree c || dmodeState c != 2 then d
    else match recordBelow d core c.regs.tapehead.toNat with
      | (.error a, d) => brokenTraverse d core a
      | (.ok r, d) =>
        match r.kind with
        | 1 => boundary (sweepEnd d core r) core
        | 2 =>
          match passTids b.nthreads r with
          | none => brokenTraverse d core r.start
          | some tids =>
            let data := (r.words.getD 1 0).toNat
            match popData (setHead d core r.start) core (data / 16 + 1) data with
            | (.error a, d) => brokenTraverse d core a
            | (.ok stores, d) => replayPass d core b r tids stores
        | _ =>
          match popRecord d core r with
          | (.error a, d) => brokenTraverse d core a
          | (.ok _, d) => d

/-- SWEEP_RECORD (R270). -/
def execSweepRecord (core : Nat) (s : State) : Host.Outcome State Fault Refusal :=
  onDevice s fun d => sweepRecord d core

end Sys2Proof.Machine
end

