-- ==== Sys2Proof/Machine/Dispatch.lean ====
section
/-! DEFINITION. One arm per instruction and event: the meaning it has. -/

namespace Sys2Proof.Machine

open Sys2Proof

def exec (i : Instr) (s : State) : Host.Outcome State Fault Refusal :=
  match i with
  | .mov w => Sys2Proof.Machine.execMov w s
  | .cvt w => Sys2Proof.Machine.execCvt w s
  | .sel w => Sys2Proof.Machine.execSel w s
  | .steer w => Sys2Proof.Machine.execSteer w s
  | .merge w => Sys2Proof.Machine.execMerge w s
  | .add w => Sys2Proof.Machine.execAdd w s
  | .sub w => Sys2Proof.Machine.execSub w s
  | .mul w => Sys2Proof.Machine.execMul w s
  | .mulhi w => Sys2Proof.Machine.execMulhi w s
  | .mad w => Sys2Proof.Machine.execMad w s
  | .div w => Sys2Proof.Machine.execDiv w s
  | .rem w => Sys2Proof.Machine.execRem w s
  | .iabs w => Sys2Proof.Machine.execIabs w s
  | .ineg w => Sys2Proof.Machine.execIneg w s
  | .imin w => Sys2Proof.Machine.execImin w s
  | .imax w => Sys2Proof.Machine.execImax w s
  | .cmp w => Sys2Proof.Machine.execCmp w s
  | .iand w => Sys2Proof.Machine.execIand w s
  | .ior w => Sys2Proof.Machine.execIor w s
  | .ixor w => Sys2Proof.Machine.execIxor w s
  | .inot w => Sys2Proof.Machine.execInot w s
  | .shl w => Sys2Proof.Machine.execShl w s
  | .shr w => Sys2Proof.Machine.execShr w s
  | .sar w => Sys2Proof.Machine.execSar w s
  | .clz w => Sys2Proof.Machine.execClz w s
  | .popc w => Sys2Proof.Machine.execPopc w s
  | .brev w => Sys2Proof.Machine.execBrev w s
  | .bfx w => Sys2Proof.Machine.execBfx w s
  | .bfi w => Sys2Proof.Machine.execBfi w s
  | .rng w => Sys2Proof.Machine.execRng w s
  | .fadd w => Sys2Proof.Machine.execFadd w s
  | .fsub w => Sys2Proof.Machine.execFsub w s
  | .fmul w => Sys2Proof.Machine.execFmul w s
  | .fma w => Sys2Proof.Machine.execFma w s
  | .fmin w => Sys2Proof.Machine.execFmin w s
  | .fmax w => Sys2Proof.Machine.execFmax w s
  | .fabs w => Sys2Proof.Machine.execFabs w s
  | .fneg w => Sys2Proof.Machine.execFneg w s
  | .fcopysign w => Sys2Proof.Machine.execFcopysign w s
  | .fdiv w => Sys2Proof.Machine.execFdiv w s
  | .fsqrt w => Sys2Proof.Machine.execFsqrt w s
  | .frcpSeed w => Sys2Proof.Machine.execFrcpSeed w s
  | .frsqrtSeed w => Sys2Proof.Machine.execFrsqrtSeed w s
  | .fex2 w => Sys2Proof.Machine.execFex2 w s
  | .flg2 w => Sys2Proof.Machine.execFlg2 w s
  | .fcmp w => Sys2Proof.Machine.execFcmp w s
  | .fclass w => Sys2Proof.Machine.execFclass w s
  | .fcvt w => Sys2Proof.Machine.execFcvt w s
  | .icvtf w => Sys2Proof.Machine.execIcvtf w s
  | .fcvti w => Sys2Proof.Machine.execFcvti w s
  | .fround w => Sys2Proof.Machine.execFround w s
  | .paEnc w => Sys2Proof.Machine.execPaEnc w s
  | .paDec w => Sys2Proof.Machine.execPaDec w s
  | .paAdd w => Sys2Proof.Machine.execPaAdd w s
  | .paSub w => Sys2Proof.Machine.execPaSub w s
  | .paMul w => Sys2Proof.Machine.execPaMul w s
  | .paScale w => Sys2Proof.Machine.execPaScale w s
  | .paRelu w => Sys2Proof.Machine.execPaRelu w s
  | .paMask w => Sys2Proof.Machine.execPaMask w s
  | .paDot w => Sys2Proof.Machine.execPaDot w s
  | .paNrm w => Sys2Proof.Machine.execPaNrm w s
  | .paSum w => Sys2Proof.Machine.execPaSum w s
  | .paMax w => Sys2Proof.Machine.execPaMax w s
  | .paGet w => Sys2Proof.Machine.execPaGet w s
  | .paCvt w => Sys2Proof.Machine.execPaCvt w s
  | .paGain w => Sys2Proof.Machine.execPaGain w s
  | .ld w => Sys2Proof.Machine.execLd w s
  | .st w => Sys2Proof.Machine.execSt w s
  | .lea w => Sys2Proof.Machine.execLea w s
  | .pref w => Sys2Proof.Machine.execPref w s
  | .rmwAdd w => Sys2Proof.Machine.execRmwAdd w s
  | .rmwFadd w => Sys2Proof.Machine.execRmwFadd w s
  | .rmwMin w => Sys2Proof.Machine.execRmwMin w s
  | .rmwMax w => Sys2Proof.Machine.execRmwMax w s
  | .rmwAnd w => Sys2Proof.Machine.execRmwAnd w s
  | .rmwOr w => Sys2Proof.Machine.execRmwOr w s
  | .rmwXor w => Sys2Proof.Machine.execRmwXor w s
  | .rmwXchg w => Sys2Proof.Machine.execRmwXchg w s
  | .rmwCas w => Sys2Proof.Machine.execRmwCas w s
  | .rmwLd w => Sys2Proof.Machine.execRmwLd w s
  | .rmwSt w => Sys2Proof.Machine.execRmwSt w s
  | .chs w => Sys2Proof.Machine.execChs w s
  | .chr w => Sys2Proof.Machine.execChr w s
  | .adjLd w => Sys2Proof.Machine.execAdjLd w s
  | .adjSt w => Sys2Proof.Machine.execAdjSt w s
  | .adjAcc w => Sys2Proof.Machine.execAdjAcc w s
  | .adjRc w => Sys2Proof.Machine.execAdjRc w s
  | .dqPush w => Sys2Proof.Machine.execDqPush w s
  | .dqPop w => Sys2Proof.Machine.execDqPop w s
  | .dqSteal w => Sys2Proof.Machine.execDqSteal w s
  | .pub w => Sys2Proof.Machine.execPub w s
  | .refresh w => Sys2Proof.Machine.execRefresh w s
  | .thCtlResume w => Sys2Proof.Machine.execThCtlResume w s
  | .thCtlRestart w => Sys2Proof.Machine.execThCtlRestart w s
  | .rdsr w => Sys2Proof.Machine.execRdsr w s
  | .wrsr w => Sys2Proof.Machine.execWrsr w s
  | .xlinvPage w => Sys2Proof.Machine.execXlinvPage w s
  | .xlinvAsid w => Sys2Proof.Machine.execXlinvAsid w s
  | .xlinvAll w => Sys2Proof.Machine.execXlinvAll w s
  | .tapebaseWrite w => Sys2Proof.Machine.execTapebaseWrite w s
  | .tapelimitWrite w => Sys2Proof.Machine.execTapelimitWrite w s
  | .mcswinLoad w => Sys2Proof.Machine.execMcswinLoad w s
  | .xrimgLoad w => Sys2Proof.Machine.execXrimgLoad w s
  | .exitBr w => Sys2Proof.Machine.execExitBr w s
  | .exitCbr w => Sys2Proof.Machine.execExitCbr w s
  | .exitInd w => Sys2Proof.Machine.execExitInd w s
  | .exitSw w => Sys2Proof.Machine.execExitSw w s
  | .exitRetire w => Sys2Proof.Machine.execExitRetire w s
  | .exitTrap w => Sys2Proof.Machine.execExitTrap w s
  | .exitBar w => Sys2Proof.Machine.execExitBar w s
  | .exitWait w => Sys2Proof.Machine.execExitWait w s
  | .exitPhase w => Sys2Proof.Machine.execExitPhase w s
  | .exitDfwd w => Sys2Proof.Machine.execExitDfwd w s
  | .exitDrev w => Sys2Proof.Machine.execExitDrev w s
  | .cp w => Sys2Proof.Machine.execCp w s
  | .cpTBox w => Sys2Proof.Machine.execCpTBox w s
  | .cpTWindow w => Sys2Proof.Machine.execCpTWindow w s
  | .cpG w => Sys2Proof.Machine.execCpG w s
  | .cpS w => Sys2Proof.Machine.execCpS w s
  | .cpQ w => Sys2Proof.Machine.execCpQ w s
  | .cpZ w => Sys2Proof.Machine.execCpZ w s
  | .cpX w => Sys2Proof.Machine.execCpX w s
  | .cpCancel w => Sys2Proof.Machine.execCpCancel w s
  | .mma w => Sys2Proof.Machine.execMma w s
  | .mmaSp w => Sys2Proof.Machine.execMmaSp w s
  | .accZero w => Sys2Proof.Machine.execAccZero w s
  | .accLd w => Sys2Proof.Machine.execAccLd w s
  | .accSt w => Sys2Proof.Machine.execAccSt w s
  | .accRed w => Sys2Proof.Machine.execAccRed w s
  | .ctFill w => Sys2Proof.Machine.execCtFill w s
  | .ctFlush w => Sys2Proof.Machine.execCtFlush w s
  | .wupd w => Sys2Proof.Machine.execWupd w s
  | .mxPost w => Sys2Proof.Machine.execMxPost w s
  | .accDrain w => Sys2Proof.Machine.execAccDrain w s
  | .accFill w => Sys2Proof.Machine.execAccFill w s
  | .mxTestRun w => Sys2Proof.Machine.execMxTestRun w s
  | .mxTestUnfence w => Sys2Proof.Machine.execMxTestUnfence w s
  | .attnGo w => Sys2Proof.Machine.execAttnGo w s
  | .attnGoResume w => Sys2Proof.Machine.execAttnGoResume w s
  | .attnGoSkip w => Sys2Proof.Machine.execAttnGoSkip w s
  | .attnGoAbandon w => Sys2Proof.Machine.execAttnGoAbandon w s
  | .attnPlan w => Sys2Proof.Machine.execAttnPlan w s
  | .kvMap w => Sys2Proof.Machine.execKvMap w s
  | .kvFork w => Sys2Proof.Machine.execKvFork w s
  | .kvTrunc w => Sys2Proof.Machine.execKvTrunc w s
  | .attnSave w => Sys2Proof.Machine.execAttnSave w s
  | .attnSaveLoad w => Sys2Proof.Machine.execAttnSaveLoad w s
  | .mli w => Sys2Proof.Machine.execMli w s
  | .madd w => Sys2Proof.Machine.execMadd w s
  | .msub w => Sys2Proof.Machine.execMsub w s
  | .mmul w => Sys2Proof.Machine.execMmul w s
  | .mand w => Sys2Proof.Machine.execMand w s
  | .mshl w => Sys2Proof.Machine.execMshl w s
  | .mshr w => Sys2Proof.Machine.execMshr w s
  | .mld w => Sys2Proof.Machine.execMld w s
  | .mst w => Sys2Proof.Machine.execMst w s
  | .mbr w => Sys2Proof.Machine.execMbr w s
  | .mloop w => Sys2Proof.Machine.execMloop w s
  | .mloopLd w => Sys2Proof.Machine.execMloopLd w s
  | .kvx w => Sys2Proof.Machine.execKvx w s
  | .mgat w => Sys2Proof.Machine.execMgat w s
  | .mwait w => Sys2Proof.Machine.execMwait w s
  | .mwaitCond w => Sys2Proof.Machine.execMwaitCond w s
  | .mmma w => Sys2Proof.Machine.execMmma w s
  | .mexuMax w => Sys2Proof.Machine.execMexuMax w s
  | .mexuExp w => Sys2Proof.Machine.execMexuExp w s
  | .mexuSum w => Sys2Proof.Machine.execMexuSum w s
  | .mexuScale w => Sys2Proof.Machine.execMexuScale w s
  | .maccMerge w => Sys2Proof.Machine.execMaccMerge w s
  | .maccExport w => Sys2Proof.Machine.execMaccExport w s
  | .maccFinal w => Sys2Proof.Machine.execMaccFinal w s
  | .mpost w => Sys2Proof.Machine.execMpost w s
  | .mhalt w => Sys2Proof.Machine.execMhalt w s
  | .mtrap w => Sys2Proof.Machine.execMtrap w s
  | .mnop w => Sys2Proof.Machine.execMnop w s
  | .confTest w => Sys2Proof.Machine.execConfTest w s
  | .fillReq w => Sys2Proof.Machine.execFillReq w s
  | .fillSync w => Sys2Proof.Machine.execFillSync w s
  | .lrPatch w => Sys2Proof.Machine.execLrPatch w s
  | .lrArm w => Sys2Proof.Machine.execLrArm w s
  | .lrBind w => Sys2Proof.Machine.execLrBind w s
  | .lrUnbind w => Sys2Proof.Machine.execLrUnbind w s
  | .qPrio w => Sys2Proof.Machine.execQPrio w s
  | .clPut w => Sys2Proof.Machine.execClPut w s
  | .clGet w => Sys2Proof.Machine.execClGet w s
  | .clRed w => Sys2Proof.Machine.execClRed w s
  | .clRedq w => Sys2Proof.Machine.execClRedq w s
  | .clA2a w => Sys2Proof.Machine.execClA2a w s
  | .clBar w => Sys2Proof.Machine.execClBar w s
  | .clRing w => Sys2Proof.Machine.execClRing w s
  | .illegalMicroword w => Sys2Proof.Machine.execIllegalMicroword w s
  | .copyComplete core slot => Sys2Proof.Machine.execCopyComplete core slot s
  | .accRedStart core => Sys2Proof.Machine.execAccRedStart core s
  | .accRedTimeout core => Sys2Proof.Machine.execAccRedTimeout core s
  | .matrixCmdExecute core => Sys2Proof.Machine.execMatrixCmdExecute core s
  | .mxSelfTest core bad lasting => Sys2Proof.Machine.execMxSelfTest core bad lasting s
  | .jobStart core => Sys2Proof.Machine.execJobStart core s
  | .gatherComplete core tag => Sys2Proof.Machine.execGatherComplete core tag s
  | .mwaitRelease core => Sys2Proof.Machine.execMwaitRelease core s
  | .mwaitTimeout core => Sys2Proof.Machine.execMwaitTimeout core s
  | .fillBatchForm cluster => Sys2Proof.Machine.execFillBatchForm cluster s
  | .fillBatchResolve cluster => Sys2Proof.Machine.execFillBatchResolve cluster s
  | .triggerTest rec => Sys2Proof.Machine.execTriggerTest rec s
  | .headPromote queue => Sys2Proof.Machine.execHeadPromote queue s
  | .launchComplete rec => Sys2Proof.Machine.execLaunchComplete rec s
  | .coreShareEnd core => Sys2Proof.Machine.execCoreShareEnd core s
  | .clBarTimeout op => Sys2Proof.Machine.execClBarTimeout op s
  | .ringFailureDetect op => Sys2Proof.Machine.execRingFailureDetect op s
  | .ringAbortReceive op => Sys2Proof.Machine.execRingAbortReceive op s
  | .linkPacketReceive p => Sys2Proof.Machine.execLinkPacketReceive p s
  | .linkOpComplete op => Sys2Proof.Machine.execLinkOpComplete op s
  | .passSelect core => Sys2Proof.Machine.execPassSelect core s
  | .shadowPredict core => Sys2Proof.Machine.execShadowPredict core s
  | .imageLoad core => Sys2Proof.Machine.execImageLoad core s
  | .beatRetire core => Sys2Proof.Machine.execBeatRetire core s
  | .waitRelease core tid => Sys2Proof.Machine.execWaitRelease core tid s
  | .parkTimeout core tid => Sys2Proof.Machine.execParkTimeout core tid s
  | .phaseRelease core => Sys2Proof.Machine.execPhaseRelease core s
  | .thCtlApply core => Sys2Proof.Machine.execThCtlApply core s
  | .translationWalkComplete core va => Sys2Proof.Machine.execTranslationWalkComplete core va s
  | .heldAccessRetry core lane => Sys2Proof.Machine.execHeldAccessRetry core lane s
  | .heldAccessTimeout core lane => Sys2Proof.Machine.execHeldAccessTimeout core lane s
  | .faultReport core => Sys2Proof.Machine.execFaultReport core s
  | .traverseCmdExtend core => Sys2Proof.Machine.execTraverseCmdExtend core s
  | .traverseCmdAbort core => Sys2Proof.Machine.execTraverseCmdAbort core s
  | .reverseSweepStart core => Sys2Proof.Machine.execReverseSweepStart core s
  | .sweepRecord core => Sys2Proof.Machine.execSweepRecord core s
  | .preemptRequest core => Sys2Proof.Machine.execPreemptRequest core s
  | .passReturnAtPreempt core => Sys2Proof.Machine.execPassReturnAtPreempt core s
  | .contextSave core => Sys2Proof.Machine.execContextSave core s
  | .contextRestore core => Sys2Proof.Machine.execContextRestore core s
  | .hostCxlMemAccess key bytes => Sys2Proof.Machine.execHostCxlMemAccess key bytes s
  | .hostArm v => Sys2Proof.Machine.execHostArm v s
  | .hostRegWrite off v => Sys2Proof.Machine.execHostRegWrite off v s
  | .ctxcmdResume v => Sys2Proof.Machine.execCtxcmdResume v s
  | .ctxcmdRestart v => Sys2Proof.Machine.execCtxcmdRestart v s
  | .ctxcmdDiscard v => Sys2Proof.Machine.execCtxcmdDiscard v s
  | .dbgcmdHalt v => Sys2Proof.Machine.execDbgcmdHalt v s
  | .dbgcmdWriteSlot v => Sys2Proof.Machine.execDbgcmdWriteSlot v s
  | .tableUnitExecute core => Sys2Proof.Machine.execTableUnitExecute core s
  | .flitCrcReplay tries => Sys2Proof.Machine.execFlitCrcReplay tries s
  | .peerUnreachable dev => Sys2Proof.Machine.execPeerUnreachable dev s
  | .linkPacketDiscard idx => Sys2Proof.Machine.execLinkPacketDiscard idx s
  | .ucieModuleFail m => Sys2Proof.Machine.execUcieModuleFail m s
  | .powerCapAdjust isl mhz => Sys2Proof.Machine.execPowerCapAdjust isl mhz s
  | .thermalThrottle isl => Sys2Proof.Machine.execThermalThrottle isl s
  | .thermalGate isl => Sys2Proof.Machine.execThermalGate isl s
  | .islandWrite isl v => Sys2Proof.Machine.execIslandWrite isl v s
  | .pcapWrite v => Sys2Proof.Machine.execPcapWrite v s
  | .intstatClear v => Sys2Proof.Machine.execIntstatClear v s
  | .attestRequest v => Sys2Proof.Machine.execAttestRequest v s
  | .featackWrite high v => Sys2Proof.Machine.execFeatackWrite high v s
  | .bringupFailed cause => Sys2Proof.Machine.execBringupFailed cause s
  | .deviceReset image sig => Sys2Proof.Machine.execDeviceReset image sig s
  | .hostPageWaitPoll core tid => Sys2Proof.Machine.execHostPageWaitPoll core tid s
  | .eccError e => Sys2Proof.Machine.execEccError e s
  | .dbgcmdReadSlot v => Sys2Proof.Machine.execDbgcmdReadSlot v s
  | .dbgcmdStopJob v => Sys2Proof.Machine.execDbgcmdStopJob v s
  | .reducedToReady => Sys2Proof.Machine.execReducedToReady s
  | .selectHead => Sys2Proof.Machine.execSelectHead s
  | .launchBind => Sys2Proof.Machine.execLaunchBind s
  | .queueSlotEvict => Sys2Proof.Machine.execQueueSlotEvict s

end Sys2Proof.Machine
end

