-- ==== Sys2Proof/Machine/Turns.lean ====
section
/-! DEFINITION. Taking a turn: which agent acts, the fetch and decoding of what it executes, and placing one
instruction where the next step executes it (06_core_execution: R159, R165, R168, R271; 19_meridian: R378; 25_host_system:
R476; DESIGN CHOICE, log 1). -/

namespace Sys2Proof.Machine

/-! ## Which row of a shared word executes -/

/-- The descriptor that a command node finds at its focus, where its base operand is a value. -/
def descSeen (d : Device) (e : Env) (w : MU) (opc : Nat) : List Word :=
  match argsOf d e (muWord opc w) with
  | .values a _ _ =>
    match descAt d e w a with
    | (.ok ws, _) => ws
    | _ => []
  | _ => []

/-- Operand values of a node at its focus, 0 where they are none. -/
def valuesSeen (d : Device) (e : Env) (w : MU) (opc : Nat) : Word × Word :=
  match argsOf d e (muWord opc w) with
  | .values a b _ => (a, b)
  | _ => (0, 0)

/-- The row of the opcode table that a node executes as: rows that share a word are told apart by a command operand, a
register's value, a tensor map or a descriptor. -/
def rowOf (d : Device) (e : Env) (i : Instr) : Instr :=
  let b (w : MU) (opc k : Nat) : Bool := bit ((descSeen d e w opc).getD 0 0) k
  match i with
  | .thCtlResume w => if (valuesSeen d e w 0xC2).2 = 1 then .thCtlRestart w else i
  | .xlinvPage w =>
    match fld (valuesSeen d e w 0xC4).1 3 0 with
    | 1 => .xlinvAsid w
    | 2 => .xlinvAll w
    | _ => i
  | .cpTBox w =>
    let map := match (descSeen d e w 0x41).getD 1 0 |> fun a => (ereadWords d e.core a 8).1 with
      | .ok ms => ms
      | .error _ => []
    if (tmapOf map).window then .cpTWindow w else i
  | .mxTestRun w => if b w 0x5C 9 then .mxTestUnfence w else i
  | .attnGoResume w => if b w 0x60 9 then .attnGoAbandon w else if b w 0x60 8 then .attnGoSkip w else i
  | .attnSave w => if b w 0x65 8 then .attnSaveLoad w else i
  | i => i

/-! ## Turns -/

/-- The lanes of a pass in the order in which they reach a node: forwards by beat, in a reverse replay from the
highest beat down (R165, R271). -/
def laneOrder (p : Pass) : List Nat :=
  if p.rev then (List.range (beatCount p)).flatMap fun q => beatLanes p (beatCount p - 1 - q)
  else List.range p.lanes.length

/-- The lane for which a node fires next: the first that has no token of it. -/
def nextLane (p : Pass) (node : Nat) : Option Nat :=
  (laneOrder p).find? fun i => match p.lanes[i]? with
    | some l => (l.tokens.find node).isNone
    | none => false

/-- The node that fires on a turn: its lane, and its instruction as decoded from the active image. -/
def nodeTurn (d : Device) (core node : Nat) : Option (Nat × Instr) :=
  match (d.core core).pass, (d.core core).active with
  | some p, some pl =>
    match nextLane p node, imgNode pl.words node with
    | some lane, some i => some (lane, i)
    | _, _ => none
  | _, _ => none

/-- The exit that retires the oldest beat, as decoded from the active image. -/
def exitTurn (d : Device) (core : Nat) : Option Instr :=
  match (d.core core).active with
  | some pl => (decode .exit (imgExit pl.words)).toOption
  | none => none

/-- What Meridian of a core executes: its microword as decoded from the control store; a microaddress beyond the
store is an illegal microword. -/
def microTurn (d : Device) (core : Nat) : Option Instr :=
  match (d.core core).mer.job with
  | none => none
  | some j =>
    if j.stop.isSome ∨ j.wait.isSome then none
    else if 4095 < j.upc then some (.illegalMicroword 0)
    else (decode .micro (microAt d j.upc).toNat).toOption

/-- A job that executes nothing goes on performing its posted writes (R382), and at a microword boundary the
commands that wait for it are applied (R375). -/
def drainTurn (d : Device) (now core : Nat) : Device :=
  match (d.core core).mer.job with
  | none => settleSaves d now core
  | some j =>
    if (d.core core).frozen then settleSaves d now core
    else
      let p := drainPosted core j.posted [] d
      settleSaves (setJob p.2 core { j with posted := p.1 }) now core

/-- The scope at which words of a publication in progress, or about to be, may reach the coherence point: of a pub that
may fire for a lane; or, under lane numbers of their own, of a phase release and of the publication with which a share
ends or a context is saved (R53, R55, R288, R426). -/
def spreadScope (d : Device) (now core lane node : Nat) : Option Nat :=
  let c := d.core core
  if lane = phaseLane then c.phase.map (·.2)
  else if lane = phaseLane + 1 then
    c.bound.bind fun b =>
      if c.pass.isNone && (c.preempt == .requested || shareEnded d c b) then some 4 else none
  else match envOf d now ⟨core, lane, node⟩, nodeTurn d core node with
    | some e, some (l, .pub w) =>
      let k := muWord 0xC0 w
      if l = lane ∧ mayFire e k ∧ !hasDone e k then (match argsOf d e k with
        | .values _ _ _ => some w.scope.toNat
        | _ => none)
      else none
    | _, _ => none

/-- A word of a set reaches the coherence point before the others (R53). -/
def spreadTurn (d : Device) (now core lane node word : Nat) : Device :=
  match spreadScope d now core lane node with
  | some scope => spread d core lane node scope word
  | none => d

/-- The state with its focus set. -/
def State.at_ (s : State) (core lane node : Nat) : State := { s with focus := ⟨core, lane, node⟩ }

/-- Executes a decoded instruction for a core's lane and node: as the row it stands for. -/
def runNode (i : Instr) (core lane node : Nat) (s : State) : Host.Outcome State Fault Refusal :=
  let s := s.at_ core lane node
  match envOf s.dev s.clock s.focus with
  | some e => exec (rowOf s.dev e i) s
  | none => exec i s

/-- Takes a turn of a core. -/
def coreTurn (t : Turn) (s : State) : Host.Outcome State Fault Refusal :=
  match t with
  | .fire core node =>
    match nodeTurn s.dev core node with
    | some (lane, i) => runNode i core lane node s
    | none => .next s
  | .exit core =>
    match exitTurn s.dev core with
    | some i => exec i (s.at_ core 0 0x40)
    | none => .next s
  | .micro core =>
    match microTurn s.dev core with
    | some i => exec i (s.at_ core 0 0)
    | none => .next { s with dev := drainTurn s.dev s.clock core }
  | .walk core node va => onDevice s fun d => startWalk d core node va
  | .spread core lane node word => onDevice s fun d => spreadTurn d s.clock core lane node word
  | .copy core slot off write => onDevice s fun d => copyAccess d core slot off write
  | .copyAhead core slot part a => onDevice s fun d => copyAhead d core slot part a
  | .matrix core a write => onDevice s fun d => matrixAhead d core a write
  | _ => .next s

/-- Is the instruction an event, which has no word? -/
def isEvent (i : Instr) : Bool := wordOf i == .event

/-- The core a turn names. -/
def turnCore : Turn → Option Nat
  | .fire c _ => some c
  | .exit c => some c
  | .micro c => some c
  | .walk c _ _ => some c
  | .spread c _ _ _ => some c
  | .copy c _ _ _ => some c
  | .copyAhead c _ _ _ => some c
  | .matrix c _ _ => some c
  | _ => none

/-- Is an event one of the host's window and memory, of bring-up, or of the device's errors and islands? In FAILED, and
before REDUCED, the device does nothing else (R476). -/
def outsideService : Instr → Bool
  | .hostCxlMemAccess _ _ | .hostArm _ | .hostRegWrite _ _ | .featackWrite _ _ | .intstatClear _ | .attestRequest _ => true
  | .ctxcmdResume _ | .ctxcmdRestart _ | .ctxcmdDiscard _ => true
  | .dbgcmdHalt _ | .dbgcmdWriteSlot _ | .dbgcmdReadSlot _ | .dbgcmdStopJob _ => true
  | .deviceReset _ _ | .bringupFailed _ | .reducedToReady | .ucieModuleFail _ | .flitCrcReplay _ => true
  | .eccError _ | .islandWrite _ _ | .pcapWrite _ | .powerCapAdjust _ _ | .thermalThrottle _ | .thermalGate _ => true
  | _ => false

/-- Takes a turn. Outside REDUCED and READY only the host, bring-up and the clock act (R476). -/
def runTurn (t : Turn) (s : State) : Host.Outcome State Fault Refusal :=
  match t with
  | .event i => if isEvent i && (serving s.dev || outsideService i) then exec i s else .next s
  | .tick n => .next { s with clock := s.clock + n }
  | .boot => .next { s with dev := enterReduced s.dev }
  | .hostRead off => onDevice s fun d => hostRead d s.clock off
  | t =>
    match turnCore t with
    | none => .next s
    | some c =>
      if 384 ≤ c then .fault (.noSuchCore c) else if serving s.dev then coreTurn t s else .next s

/-- The next turn: the first of the agenda, or, without one, a free value (DESIGN CHOICE, log 1). -/
def nextTurn (s : State) : Turn × State :=
  match s.agenda with
  | t :: ts => (t, { s with agenda := ts })
  | [] => (Config.freeTurn s.dev.free, { s with dev := { s.dev with free := s.dev.free + 1 } })

/-! ## Placing one instruction (for the host's question) -/

/-- A launch of one thread of one core, its save area away from what a program uses. -/
def soloBound : Bound where
  run := 0
  record := 0
  ctx := 0
  cidx := 0
  ncores := 1
  nthreads := 1
  width := 32
  stages := 1
  table := 0
  nblk := 0
  param := 0
  priv := true
  strict := false
  hold := false
  handler := none
  flist := 0
  save := 2 ^ 40
  regions := []
  fill := none

/-- A lane of thread 0 as a pass starts with it. -/
def soloLane : Lane := ⟨0, [], 0, [], [], 0, [0, 0, 0, 0], [], false⟩

/-- Core 0 runs a pass of one thread on an image. -/
def soloCore (ws : List Word) (c : Core) : Core :=
  { c with
    bound := some soloBound
    threads := [{ Thread.fresh with status := .streaming }]
    pass := some ⟨0, 0, [soloLane], 0, false, false, false, 0, []⟩
    active := some ⟨0, ws⟩ }

/-- Core 0's Meridian runs a job at microaddress 0. -/
def soloJob (c : Core) : Core :=
  { soloCore [] c with
    mer := { c.mer with
      job := some (freshJob ⟨[0, 0, 0, 0, 0, 0, 0, 0], ⟨.scratch 0, 0, 0, .none⟩, 0, 1, 0⟩) } }

/-- The 64-bit words of a number, the least significant first. -/
def numWords (n : Nat) (w : Nat) : List Word := (List.range n).map fun i => BitVec.ofNat 64 (w / 2 ^ (64 * i))

/-- A device in full service. -/
def inService (d : Device) : Device := modHost d fun h => { h with phase := 3 }

/-- The state in which the next turn executes a word of the given size, in full service: a compute node, a microword, a
memory, engine or system node, or the exit word of a header frame. -/
def placeWord (s : State) (nbits w : Nat) : State :=
  let s := { s with dev := inService s.dev }
  let at_ (f : Core → Core) (t : Turn) : State := { s with dev := s.dev.modCore 0 f, agenda := [t] }
  if nbits ≤ 64 then at_ (soloCore (oneFrameImage 0 1 0 false (numWords 1 w ++ [0, 0, 0]))) (.fire 0 0)
  else if nbits ≤ 96 then
    let s := { s with dev := { s.dev with cstore := s.dev.cstore.put 0 (BitVec.ofNat 96 w) } }
    { s with dev := s.dev.modCore 0 soloJob, agenda := [.micro 0] }
  else if nbits ≤ 128 then at_ (soloCore (oneFrameImage 0 1 0 true (numWords 2 w ++ [0, 0]))) (.fire 0 0)
  else at_ (soloCore (numWords 4 w)) (.exit 0)

end Sys2Proof.Machine
end

