-- ==== Sys2Proof/Laws/PerInstr.lean ====
section
/-! SUPPORT. Per instruction: the decoding tables give back the instruction whose word they are asked about
(04_encoding: R107, R109, R111, R114). -/

namespace Sys2Proof.Laws.Remade

open Sys2Proof Sys2Proof.Machine

/-- The tables rebuild a well-formed instruction from the opcode and the fields of its word; rows that share a word
come back as the first of them, an illegal microword is in no table, and an event has no word. -/
def Statement (i : Instr) : Prop :=
  i.wf = true → match wordOf i with
  | .cu o w => cuMake o w = some i.canonical
  | .mu o w => muMake o w = some i.canonical
  | .ex k w => exMake k w = some i.canonical
  | .mw m w => mwMake m w = some i.canonical
  | .raw w => mwMake (w.toNat / 2 ^ 88)
      ⟨w.extractLsb' 84 4, w.extractLsb' 80 4, w.extractLsb' 76 4, w.extractLsb' 72 4, w.extractLsb' 60 12,
        w.extractLsb' 0 60⟩ = none
  | .event => encode i = none

/-- A well-formed memory, engine or system word is the one the table makes of its opcode and fields. -/
theorem muMake_of_wf {i : Instr} {o : Nat} {w : MU} (hw : wordOf i = .mu o w) (h : i.wf = true) :
    muMake o w = some i.canonical := by
  simp only [Instr.wf, Instr.defect, hw] at h
  split at h
  · assumption
  · simp at h

/-- A well-formed microword is the one the table makes of its fields. -/
theorem mwMake_of_wf {i : Instr} {m : Nat} {w : MW} (hw : wordOf i = .mw m w) (h : i.wf = true) :
    mwMake m w = some i := by
  simp only [Instr.wf, Instr.defect, hw] at h
  split at h
  · assumption
  · simp at h

theorem mov (w : CU) : Statement (.mov w) := fun _ => rfl
theorem cvt (w : CU) : Statement (.cvt w) := fun _ => rfl
theorem sel (w : CU) : Statement (.sel w) := fun _ => rfl
theorem steer (w : CU) : Statement (.steer w) := fun _ => rfl
theorem merge (w : CU) : Statement (.merge w) := fun _ => rfl
theorem add (w : CU) : Statement (.add w) := fun _ => rfl
theorem sub (w : CU) : Statement (.sub w) := fun _ => rfl
theorem mul (w : CU) : Statement (.mul w) := fun _ => rfl
theorem mulhi (w : CU) : Statement (.mulhi w) := fun _ => rfl
theorem mad (w : CU) : Statement (.mad w) := fun _ => rfl
theorem div (w : CU) : Statement (.div w) := fun _ => rfl
theorem rem (w : CU) : Statement (.rem w) := fun _ => rfl
theorem iabs (w : CU) : Statement (.iabs w) := fun _ => rfl
theorem ineg (w : CU) : Statement (.ineg w) := fun _ => rfl
theorem imin (w : CU) : Statement (.imin w) := fun _ => rfl
theorem imax (w : CU) : Statement (.imax w) := fun _ => rfl
theorem cmp (w : CU) : Statement (.cmp w) := fun _ => rfl
theorem iand (w : CU) : Statement (.iand w) := fun _ => rfl
theorem ior (w : CU) : Statement (.ior w) := fun _ => rfl
theorem ixor (w : CU) : Statement (.ixor w) := fun _ => rfl
theorem inot (w : CU) : Statement (.inot w) := fun _ => rfl
theorem shl (w : CU) : Statement (.shl w) := fun _ => rfl
theorem shr (w : CU) : Statement (.shr w) := fun _ => rfl
theorem sar (w : CU) : Statement (.sar w) := fun _ => rfl
theorem clz (w : CU) : Statement (.clz w) := fun _ => rfl
theorem popc (w : CU) : Statement (.popc w) := fun _ => rfl
theorem brev (w : CU) : Statement (.brev w) := fun _ => rfl
theorem bfx (w : CU) : Statement (.bfx w) := fun _ => rfl
theorem bfi (w : CU) : Statement (.bfi w) := fun _ => rfl
theorem rng (w : CU) : Statement (.rng w) := fun _ => rfl
theorem fadd (w : CU) : Statement (.fadd w) := fun _ => rfl
theorem fsub (w : CU) : Statement (.fsub w) := fun _ => rfl
theorem fmul (w : CU) : Statement (.fmul w) := fun _ => rfl
theorem fma (w : CU) : Statement (.fma w) := fun _ => rfl
theorem fmin (w : CU) : Statement (.fmin w) := fun _ => rfl
theorem fmax (w : CU) : Statement (.fmax w) := fun _ => rfl
theorem fabs (w : CU) : Statement (.fabs w) := fun _ => rfl
theorem fneg (w : CU) : Statement (.fneg w) := fun _ => rfl
theorem fcopysign (w : CU) : Statement (.fcopysign w) := fun _ => rfl
theorem fdiv (w : CU) : Statement (.fdiv w) := fun _ => rfl
theorem fsqrt (w : CU) : Statement (.fsqrt w) := fun _ => rfl
theorem frcpSeed (w : CU) : Statement (.frcpSeed w) := fun _ => rfl
theorem frsqrtSeed (w : CU) : Statement (.frsqrtSeed w) := fun _ => rfl
theorem fex2 (w : CU) : Statement (.fex2 w) := fun _ => rfl
theorem flg2 (w : CU) : Statement (.flg2 w) := fun _ => rfl
theorem fcmp (w : CU) : Statement (.fcmp w) := fun _ => rfl
theorem fclass (w : CU) : Statement (.fclass w) := fun _ => rfl
theorem fcvt (w : CU) : Statement (.fcvt w) := fun _ => rfl
theorem icvtf (w : CU) : Statement (.icvtf w) := fun _ => rfl
theorem fcvti (w : CU) : Statement (.fcvti w) := fun _ => rfl
theorem fround (w : CU) : Statement (.fround w) := fun _ => rfl
theorem paEnc (w : CU) : Statement (.paEnc w) := fun _ => rfl
theorem paDec (w : CU) : Statement (.paDec w) := fun _ => rfl
theorem paAdd (w : CU) : Statement (.paAdd w) := fun _ => rfl
theorem paSub (w : CU) : Statement (.paSub w) := fun _ => rfl
theorem paMul (w : CU) : Statement (.paMul w) := fun _ => rfl
theorem paScale (w : CU) : Statement (.paScale w) := fun _ => rfl
theorem paRelu (w : CU) : Statement (.paRelu w) := fun _ => rfl
theorem paMask (w : CU) : Statement (.paMask w) := fun _ => rfl
theorem paDot (w : CU) : Statement (.paDot w) := fun _ => rfl
theorem paNrm (w : CU) : Statement (.paNrm w) := fun _ => rfl
theorem paSum (w : CU) : Statement (.paSum w) := fun _ => rfl
theorem paMax (w : CU) : Statement (.paMax w) := fun _ => rfl
theorem paGet (w : CU) : Statement (.paGet w) := fun _ => rfl
theorem paCvt (w : CU) : Statement (.paCvt w) := fun _ => rfl
theorem paGain (w : CU) : Statement (.paGain w) := fun _ => rfl
theorem ld (w : MU) : Statement (.ld w) := fun h => muMake_of_wf rfl h
theorem st (w : MU) : Statement (.st w) := fun h => muMake_of_wf rfl h
theorem lea (w : MU) : Statement (.lea w) := fun h => muMake_of_wf rfl h
theorem pref (w : MU) : Statement (.pref w) := fun h => muMake_of_wf rfl h
theorem rmwAdd (w : MU) : Statement (.rmwAdd w) := fun h => muMake_of_wf rfl h
theorem rmwFadd (w : MU) : Statement (.rmwFadd w) := fun h => muMake_of_wf rfl h
theorem rmwMin (w : MU) : Statement (.rmwMin w) := fun h => muMake_of_wf rfl h
theorem rmwMax (w : MU) : Statement (.rmwMax w) := fun h => muMake_of_wf rfl h
theorem rmwAnd (w : MU) : Statement (.rmwAnd w) := fun h => muMake_of_wf rfl h
theorem rmwOr (w : MU) : Statement (.rmwOr w) := fun h => muMake_of_wf rfl h
theorem rmwXor (w : MU) : Statement (.rmwXor w) := fun h => muMake_of_wf rfl h
theorem rmwXchg (w : MU) : Statement (.rmwXchg w) := fun h => muMake_of_wf rfl h
theorem rmwCas (w : MU) : Statement (.rmwCas w) := fun h => muMake_of_wf rfl h
theorem rmwLd (w : MU) : Statement (.rmwLd w) := fun h => muMake_of_wf rfl h
theorem rmwSt (w : MU) : Statement (.rmwSt w) := fun h => muMake_of_wf rfl h
theorem chs (w : MU) : Statement (.chs w) := fun h => muMake_of_wf rfl h
theorem chr (w : MU) : Statement (.chr w) := fun h => muMake_of_wf rfl h
theorem adjLd (w : MU) : Statement (.adjLd w) := fun h => muMake_of_wf rfl h
theorem adjSt (w : MU) : Statement (.adjSt w) := fun h => muMake_of_wf rfl h
theorem adjAcc (w : MU) : Statement (.adjAcc w) := fun h => muMake_of_wf rfl h
theorem adjRc (w : MU) : Statement (.adjRc w) := fun h => muMake_of_wf rfl h
theorem dqPush (w : MU) : Statement (.dqPush w) := fun h => muMake_of_wf rfl h
theorem dqPop (w : MU) : Statement (.dqPop w) := fun h => muMake_of_wf rfl h
theorem dqSteal (w : MU) : Statement (.dqSteal w) := fun h => muMake_of_wf rfl h
theorem pub (w : MU) : Statement (.pub w) := fun h => muMake_of_wf rfl h
theorem refresh (w : MU) : Statement (.refresh w) := fun h => muMake_of_wf rfl h
theorem thCtlResume (w : MU) : Statement (.thCtlResume w) := fun h => muMake_of_wf rfl h
theorem thCtlRestart (w : MU) : Statement (.thCtlRestart w) := fun h => muMake_of_wf rfl h
theorem rdsr (w : MU) : Statement (.rdsr w) := fun h => muMake_of_wf rfl h
theorem wrsr (w : MU) : Statement (.wrsr w) := fun h => muMake_of_wf rfl h
theorem xlinvPage (w : MU) : Statement (.xlinvPage w) := fun h => muMake_of_wf rfl h
theorem xlinvAsid (w : MU) : Statement (.xlinvAsid w) := fun h => muMake_of_wf rfl h
theorem xlinvAll (w : MU) : Statement (.xlinvAll w) := fun h => muMake_of_wf rfl h
theorem tapebaseWrite (w : MU) : Statement (.tapebaseWrite w) := fun h => muMake_of_wf rfl h
theorem tapelimitWrite (w : MU) : Statement (.tapelimitWrite w) := fun h => muMake_of_wf rfl h
theorem mcswinLoad (w : MU) : Statement (.mcswinLoad w) := fun h => muMake_of_wf rfl h
theorem xrimgLoad (w : MU) : Statement (.xrimgLoad w) := fun h => muMake_of_wf rfl h
theorem exitBr (w : EX) : Statement (.exitBr w) := fun _ => rfl
theorem exitCbr (w : EX) : Statement (.exitCbr w) := fun _ => rfl
theorem exitInd (w : EX) : Statement (.exitInd w) := fun _ => rfl
theorem exitSw (w : EX) : Statement (.exitSw w) := fun _ => rfl
theorem exitRetire (w : EX) : Statement (.exitRetire w) := fun _ => rfl
theorem exitTrap (w : EX) : Statement (.exitTrap w) := fun _ => rfl
theorem exitBar (w : EX) : Statement (.exitBar w) := fun _ => rfl
theorem exitWait (w : EX) : Statement (.exitWait w) := fun _ => rfl
theorem exitPhase (w : EX) : Statement (.exitPhase w) := fun _ => rfl
theorem exitDfwd (w : EX) : Statement (.exitDfwd w) := fun _ => rfl
theorem exitDrev (w : EX) : Statement (.exitDrev w) := fun _ => rfl
theorem cp (w : MU) : Statement (.cp w) := fun h => muMake_of_wf rfl h
theorem cpTBox (w : MU) : Statement (.cpTBox w) := fun h => muMake_of_wf rfl h
theorem cpTWindow (w : MU) : Statement (.cpTWindow w) := fun h => muMake_of_wf rfl h
theorem cpG (w : MU) : Statement (.cpG w) := fun h => muMake_of_wf rfl h
theorem cpS (w : MU) : Statement (.cpS w) := fun h => muMake_of_wf rfl h
theorem cpQ (w : MU) : Statement (.cpQ w) := fun h => muMake_of_wf rfl h
theorem cpZ (w : MU) : Statement (.cpZ w) := fun h => muMake_of_wf rfl h
theorem cpX (w : MU) : Statement (.cpX w) := fun h => muMake_of_wf rfl h
theorem cpCancel (w : MU) : Statement (.cpCancel w) := fun h => muMake_of_wf rfl h
theorem mma (w : MU) : Statement (.mma w) := fun h => muMake_of_wf rfl h
theorem mmaSp (w : MU) : Statement (.mmaSp w) := fun h => muMake_of_wf rfl h
theorem accZero (w : MU) : Statement (.accZero w) := fun h => muMake_of_wf rfl h
theorem accLd (w : MU) : Statement (.accLd w) := fun h => muMake_of_wf rfl h
theorem accSt (w : MU) : Statement (.accSt w) := fun h => muMake_of_wf rfl h
theorem accRed (w : MU) : Statement (.accRed w) := fun h => muMake_of_wf rfl h
theorem ctFill (w : MU) : Statement (.ctFill w) := fun h => muMake_of_wf rfl h
theorem ctFlush (w : MU) : Statement (.ctFlush w) := fun h => muMake_of_wf rfl h
theorem wupd (w : MU) : Statement (.wupd w) := fun h => muMake_of_wf rfl h
theorem mxPost (w : MU) : Statement (.mxPost w) := fun h => muMake_of_wf rfl h
theorem accDrain (w : MU) : Statement (.accDrain w) := fun h => muMake_of_wf rfl h
theorem accFill (w : MU) : Statement (.accFill w) := fun h => muMake_of_wf rfl h
theorem mxTestRun (w : MU) : Statement (.mxTestRun w) := fun h => muMake_of_wf rfl h
theorem mxTestUnfence (w : MU) : Statement (.mxTestUnfence w) := fun h => muMake_of_wf rfl h
theorem attnGo (w : MU) : Statement (.attnGo w) := fun h => muMake_of_wf rfl h
theorem attnGoResume (w : MU) : Statement (.attnGoResume w) := fun h => muMake_of_wf rfl h
theorem attnGoSkip (w : MU) : Statement (.attnGoSkip w) := fun h => muMake_of_wf rfl h
theorem attnGoAbandon (w : MU) : Statement (.attnGoAbandon w) := fun h => muMake_of_wf rfl h
theorem attnPlan (w : MU) : Statement (.attnPlan w) := fun h => muMake_of_wf rfl h
theorem kvMap (w : MU) : Statement (.kvMap w) := fun h => muMake_of_wf rfl h
theorem kvFork (w : MU) : Statement (.kvFork w) := fun h => muMake_of_wf rfl h
theorem kvTrunc (w : MU) : Statement (.kvTrunc w) := fun h => muMake_of_wf rfl h
theorem attnSave (w : MU) : Statement (.attnSave w) := fun h => muMake_of_wf rfl h
theorem attnSaveLoad (w : MU) : Statement (.attnSaveLoad w) := fun h => muMake_of_wf rfl h
theorem mli (w : MW) : Statement (.mli w) := fun h => mwMake_of_wf rfl h
theorem madd (w : MW) : Statement (.madd w) := fun h => mwMake_of_wf rfl h
theorem msub (w : MW) : Statement (.msub w) := fun h => mwMake_of_wf rfl h
theorem mmul (w : MW) : Statement (.mmul w) := fun h => mwMake_of_wf rfl h
theorem mand (w : MW) : Statement (.mand w) := fun h => mwMake_of_wf rfl h
theorem mshl (w : MW) : Statement (.mshl w) := fun h => mwMake_of_wf rfl h
theorem mshr (w : MW) : Statement (.mshr w) := fun h => mwMake_of_wf rfl h
theorem mld (w : MW) : Statement (.mld w) := fun h => mwMake_of_wf rfl h
theorem mst (w : MW) : Statement (.mst w) := fun h => mwMake_of_wf rfl h
theorem mbr (w : MW) : Statement (.mbr w) := fun h => mwMake_of_wf rfl h
theorem mloop (w : MW) : Statement (.mloop w) := fun h => mwMake_of_wf rfl h
theorem mloopLd (w : MW) : Statement (.mloopLd w) := fun h => mwMake_of_wf rfl h
theorem kvx (w : MW) : Statement (.kvx w) := fun h => mwMake_of_wf rfl h
theorem mgat (w : MW) : Statement (.mgat w) := fun h => mwMake_of_wf rfl h
theorem mwait (w : MW) : Statement (.mwait w) := fun h => mwMake_of_wf rfl h
theorem mwaitCond (w : MW) : Statement (.mwaitCond w) := fun h => mwMake_of_wf rfl h
theorem mmma (w : MW) : Statement (.mmma w) := fun h => mwMake_of_wf rfl h
theorem mexuMax (w : MW) : Statement (.mexuMax w) := fun h => mwMake_of_wf rfl h
theorem mexuExp (w : MW) : Statement (.mexuExp w) := fun h => mwMake_of_wf rfl h
theorem mexuSum (w : MW) : Statement (.mexuSum w) := fun h => mwMake_of_wf rfl h
theorem mexuScale (w : MW) : Statement (.mexuScale w) := fun h => mwMake_of_wf rfl h
theorem maccMerge (w : MW) : Statement (.maccMerge w) := fun h => mwMake_of_wf rfl h
theorem maccExport (w : MW) : Statement (.maccExport w) := fun h => mwMake_of_wf rfl h
theorem maccFinal (w : MW) : Statement (.maccFinal w) := fun h => mwMake_of_wf rfl h
theorem mpost (w : MW) : Statement (.mpost w) := fun h => mwMake_of_wf rfl h
theorem mhalt (w : MW) : Statement (.mhalt w) := fun h => mwMake_of_wf rfl h
theorem mtrap (w : MW) : Statement (.mtrap w) := fun h => mwMake_of_wf rfl h
theorem mnop (w : MW) : Statement (.mnop w) := fun h => mwMake_of_wf rfl h
theorem confTest (w : MU) : Statement (.confTest w) := fun h => muMake_of_wf rfl h
theorem fillReq (w : MU) : Statement (.fillReq w) := fun h => muMake_of_wf rfl h
theorem fillSync (w : MU) : Statement (.fillSync w) := fun h => muMake_of_wf rfl h
theorem lrPatch (w : MU) : Statement (.lrPatch w) := fun h => muMake_of_wf rfl h
theorem lrArm (w : MU) : Statement (.lrArm w) := fun h => muMake_of_wf rfl h
theorem lrBind (w : MU) : Statement (.lrBind w) := fun h => muMake_of_wf rfl h
theorem lrUnbind (w : MU) : Statement (.lrUnbind w) := fun h => muMake_of_wf rfl h
theorem qPrio (w : MU) : Statement (.qPrio w) := fun h => muMake_of_wf rfl h
theorem clPut (w : MU) : Statement (.clPut w) := fun h => muMake_of_wf rfl h
theorem clGet (w : MU) : Statement (.clGet w) := fun h => muMake_of_wf rfl h
theorem clRed (w : MU) : Statement (.clRed w) := fun h => muMake_of_wf rfl h
theorem clRedq (w : MU) : Statement (.clRedq w) := fun h => muMake_of_wf rfl h
theorem clA2a (w : MU) : Statement (.clA2a w) := fun h => muMake_of_wf rfl h
theorem clBar (w : MU) : Statement (.clBar w) := fun h => muMake_of_wf rfl h
theorem clRing (w : MU) : Statement (.clRing w) := fun h => muMake_of_wf rfl h
theorem illegalMicroword (w : BitVec 96) : Statement (.illegalMicroword w) := by
  intro h
  simpa [Instr.wf, Instr.defect, wordOf] using h
theorem copyComplete (core slot : Nat) : Statement (.copyComplete core slot) := fun _ => rfl
theorem accRedStart (core : Nat) : Statement (.accRedStart core) := fun _ => rfl
theorem accRedTimeout (core : Nat) : Statement (.accRedTimeout core) := fun _ => rfl
theorem matrixCmdExecute (core : Nat) : Statement (.matrixCmdExecute core) := fun _ => rfl
theorem mxSelfTest (core : Nat) (bad lasting : BitVec 4) : Statement (.mxSelfTest core bad lasting) := fun _ => rfl
theorem jobStart (core : Nat) : Statement (.jobStart core) := fun _ => rfl
theorem gatherComplete (core tag : Nat) : Statement (.gatherComplete core tag) := fun _ => rfl
theorem mwaitRelease (core : Nat) : Statement (.mwaitRelease core) := fun _ => rfl
theorem mwaitTimeout (core : Nat) : Statement (.mwaitTimeout core) := fun _ => rfl
theorem fillBatchForm (cluster : Nat) : Statement (.fillBatchForm cluster) := fun _ => rfl
theorem fillBatchResolve (cluster : Nat) : Statement (.fillBatchResolve cluster) := fun _ => rfl
theorem triggerTest (rec : Nat) : Statement (.triggerTest rec) := fun _ => rfl
theorem headPromote (queue : Nat) : Statement (.headPromote queue) := fun _ => rfl
theorem launchComplete (rec : Nat) : Statement (.launchComplete rec) := fun _ => rfl
theorem coreShareEnd (core : Nat) : Statement (.coreShareEnd core) := fun _ => rfl
theorem clBarTimeout (op : Nat) : Statement (.clBarTimeout op) := fun _ => rfl
theorem ringFailureDetect (op : Nat) : Statement (.ringFailureDetect op) := fun _ => rfl
theorem ringAbortReceive (op : Nat) : Statement (.ringAbortReceive op) := fun _ => rfl
theorem linkPacketReceive (p : Packet) : Statement (.linkPacketReceive p) := fun _ => rfl
theorem linkOpComplete (op : Nat) : Statement (.linkOpComplete op) := fun _ => rfl
theorem passSelect (core : Nat) : Statement (.passSelect core) := fun _ => rfl
theorem shadowPredict (core : Nat) : Statement (.shadowPredict core) := fun _ => rfl
theorem imageLoad (core : Nat) : Statement (.imageLoad core) := fun _ => rfl
theorem beatRetire (core : Nat) : Statement (.beatRetire core) := fun _ => rfl
theorem waitRelease (core tid : Nat) : Statement (.waitRelease core tid) := fun _ => rfl
theorem parkTimeout (core tid : Nat) : Statement (.parkTimeout core tid) := fun _ => rfl
theorem phaseRelease (core : Nat) : Statement (.phaseRelease core) := fun _ => rfl
theorem thCtlApply (core : Nat) : Statement (.thCtlApply core) := fun _ => rfl
theorem translationWalkComplete (core va : Nat) : Statement (.translationWalkComplete core va) := fun _ => rfl
theorem heldAccessRetry (core lane : Nat) : Statement (.heldAccessRetry core lane) := fun _ => rfl
theorem heldAccessTimeout (core lane : Nat) : Statement (.heldAccessTimeout core lane) := fun _ => rfl
theorem faultReport (core : Nat) : Statement (.faultReport core) := fun _ => rfl
theorem traverseCmdExtend (core : Nat) : Statement (.traverseCmdExtend core) := fun _ => rfl
theorem traverseCmdAbort (core : Nat) : Statement (.traverseCmdAbort core) := fun _ => rfl
theorem reverseSweepStart (core : Nat) : Statement (.reverseSweepStart core) := fun _ => rfl
theorem sweepRecord (core : Nat) : Statement (.sweepRecord core) := fun _ => rfl
theorem preemptRequest (core : Nat) : Statement (.preemptRequest core) := fun _ => rfl
theorem passReturnAtPreempt (core : Nat) : Statement (.passReturnAtPreempt core) := fun _ => rfl
theorem contextSave (core : Nat) : Statement (.contextSave core) := fun _ => rfl
theorem contextRestore (core : Nat) : Statement (.contextRestore core) := fun _ => rfl
theorem hostCxlMemAccess (key : Nat) (bytes : Option (List Byte)) :
    Statement (.hostCxlMemAccess key bytes) := fun _ => rfl
theorem hostArm (v : Word) : Statement (.hostArm v) := fun _ => rfl
theorem hostRegWrite (off : Nat) (v : Word) : Statement (.hostRegWrite off v) := fun _ => rfl
theorem ctxcmdResume (v : Word) : Statement (.ctxcmdResume v) := fun _ => rfl
theorem ctxcmdRestart (v : Word) : Statement (.ctxcmdRestart v) := fun _ => rfl
theorem ctxcmdDiscard (v : Word) : Statement (.ctxcmdDiscard v) := fun _ => rfl
theorem dbgcmdHalt (v : Word) : Statement (.dbgcmdHalt v) := fun _ => rfl
theorem dbgcmdWriteSlot (v : Word) : Statement (.dbgcmdWriteSlot v) := fun _ => rfl
theorem tableUnitExecute (core : Nat) : Statement (.tableUnitExecute core) := fun _ => rfl
theorem flitCrcReplay (tries : Nat) : Statement (.flitCrcReplay tries) := fun _ => rfl
theorem peerUnreachable (dev : Nat) : Statement (.peerUnreachable dev) := fun _ => rfl
theorem linkPacketDiscard (idx : Nat) : Statement (.linkPacketDiscard idx) := fun _ => rfl
theorem ucieModuleFail (m : Nat) : Statement (.ucieModuleFail m) := fun _ => rfl
theorem powerCapAdjust (isl mhz : Nat) : Statement (.powerCapAdjust isl mhz) := fun _ => rfl
theorem thermalThrottle (isl : Nat) : Statement (.thermalThrottle isl) := fun _ => rfl
theorem thermalGate (isl : Nat) : Statement (.thermalGate isl) := fun _ => rfl
theorem islandWrite (isl : Nat) (v : Word) : Statement (.islandWrite isl v) := fun _ => rfl
theorem pcapWrite (v : Word) : Statement (.pcapWrite v) := fun _ => rfl
theorem intstatClear (v : Word) : Statement (.intstatClear v) := fun _ => rfl
theorem attestRequest (v : Word) : Statement (.attestRequest v) := fun _ => rfl
theorem featackWrite (high : Bool) (v : Word) : Statement (.featackWrite high v) := fun _ => rfl
theorem bringupFailed (cause : BitVec 8) : Statement (.bringupFailed cause) := fun _ => rfl
theorem deviceReset (image : List Byte) (sig : List Byte) : Statement (.deviceReset image sig) := fun _ => rfl
theorem hostPageWaitPoll (core tid : Nat) : Statement (.hostPageWaitPoll core tid) := fun _ => rfl
theorem eccError (e : EccError) : Statement (.eccError e) := fun _ => rfl
theorem dbgcmdReadSlot (v : Word) : Statement (.dbgcmdReadSlot v) := fun _ => rfl
theorem dbgcmdStopJob (v : Word) : Statement (.dbgcmdStopJob v) := fun _ => rfl
theorem reducedToReady : Statement .reducedToReady := fun _ => rfl
theorem selectHead : Statement .selectHead := fun _ => rfl
theorem launchBind : Statement .launchBind := fun _ => rfl
theorem queueSlotEvict : Statement .queueSlotEvict := fun _ => rfl

end Sys2Proof.Laws.Remade
end

