-- ==== Sys2Proof/Safety.lean ====
section
/-! DEFINITION. What counts as a safe run, and the terms in which claims speak of a step: a node that is ready to fire,
what a node leaves with its thread, and the canonical forms of the stores. -/

namespace Sys2Proof.Machine

/-- A step that goes on. -/
def Goes (s : State) : Prop := ∃ t, step s = .next t

/-- k steps that all go on. -/
def SafeFor : Nat → State → Prop
  | 0, _ => True
  | k + 1, s => ∃ t, step s = .next t ∧ SafeFor k t

/-- Does every turn of the agenda name a core of the part (R7)? -/
def agendaOk (s : State) : Bool := s.agenda.all fun t => match turnCore t with
  | some c => decide (c < 384)
  | none => true

/-! ## Canonical memory -/

/-- Is global memory, in both its parts, in its canonical form? -/
def Mem.wf (m : Mem) : Bool := m.home.wf

/-- Is every store of a core in its canonical form: its scratchpad, its block ages, its accumulators and the live slots
of its threads? -/
def Core.wf (c : Core) : Bool :=
  c.scratch.wf && c.ages.wf && c.mx.acc.wf && c.threads.all fun t => t.live.wf

/-- Is all memory of the machine in its canonical form? -/
def Memory.wf (s : State) : Bool := s.dev.mem.wf && s.dev.cores.all Core.wf

/-- The soundness of a device: 384 cores in 48 clusters (R7), and every store canonical: global memory, the stores of
the cores, and those of the contexts that suspended launches keep. -/
def Device.sound (d : Device) : Bool :=
  d.cores.length == 384 && d.clusters.length == 48 && d.mem.wf && d.cores.all Core.wf
    && d.dist.launches.all fun l => l.2.saved.all fun x => x.2.wf

/-! ## Nodes -/

/-- In a reverse replay, does the node take the result of an rmw.fadd as a value (R276)? -/
def rereadsFadd (e : Env) (w : NodeWord) : Bool :=
  e.pass.rev && (readsFadd e w.fmt.a w.a || readsFadd e w.fmt.b w.b || readsFadd e w.fmt.c w.c)

/-- A node may fire at the focus for the thread of e, and has not performed for it (R165, R284). -/
def Fires (s : State) (w : NodeWord) (e : Env) : Prop :=
  envOf s.dev s.clock s.focus = some e ∧ mayFire e w = true ∧ hasDone e w = false

/-- A node may fire at the focus on the operand values a, b and c. -/
def Ready (s : State) (w : NodeWord) (e : Env) (a b c : Word) : Prop :=
  Fires s w e ∧ argsOf s.dev e w = .values a b c ∧ rereadsFadd e w = false

/-- The state after a node has delivered v for the thread of e, with effects fx at commit, where the node's own work
left the device d. -/
def State.gave (s : State) (d : Device) (e : Env) (w : NodeWord) (v : Word) (fx : Fx) : State :=
  { s with dev := modLane d e.core e.lane fun l => l.deliver e w v fx }

/-- The state after a node has emitted a token for the thread of e, where its own work left the device d. -/
def State.gaveToken (s : State) (d : Device) (e : Env) (t : Token) : State :=
  { s with dev := modLane d e.core e.lane fun l => l.emit e.node t }

/-- Is the token poison? -/
def Token.isPoison (t : Token) : Bool := (originOf t).isSome

end Sys2Proof.Machine
end

