-- ==== Sys2Proof/Certificates/Slice0/Obligations.lean ====
section
/-! DEFINITION. The statements for the provers. What each rests on in spec/ stands in its docstring; names under
Sys2Proof.Claim are the terms the statements share. -/

open Sys2Proof Sys2Proof.Machine

/-! ## Shared terms -/

/-- A well-formed compute node that is ready delivers g of its operand values, and nothing else changes. -/
def Sys2Proof.Claim.CuGives (mk : CU → Instr) (opc : Nat) (g : CU → Word → Word → Word → Word) : Prop :=
  ∀ (w : CU) (s : State) (e : Env) (a b c : Word), (mk w).wf = true → Ready s (cuWord opc w) e a b c →
    exec (mk w) s = .next (s.gave s.dev e (cuWord opc w) (g w a b c) Fx.none)

/-- A well-formed floating-point node that is ready delivers the datum of g, delivered in TYPE t, and raises the
exceptions of g, where none of them is enabled to trap; in a reverse replay it raises none (R130, R131, R270). -/
def Sys2Proof.Claim.FpGives (mk : CU → Instr) (opc : Nat) (t : CU → Nat) (g : CU → Word → Word → Word → FRes) : Prop :=
  ∀ (w : CU) (s : State) (e : Env) (a b c : Word), (mk w).wf = true → Ready s (cuWord opc w) e a b c →
    (e.pass.rev = true ∨ (g w a b c).2 &&& (s.dev.core e.core).regs.fptrap.truncate 6 = 0) →
    exec (mk w) s = .next (s.gave s.dev e (cuWord opc w) (deliver (t w) (g w a b c).1)
      ⟨if e.pass.rev then 0 else (g w a b c).2, [], []⟩)

/-- An operand cut to the W bits of an integer type or pred (R180). -/
def Sys2Proof.Claim.asT (w : CU) (x : Word) : BitVec (tWidth w.typ.toNat) := x.setWidth _

/-- A W-bit result as it is delivered: sign-extended for i32, else zero-extended (R122). -/
def Sys2Proof.Claim.outT (w : CU) (z : BitVec (tWidth w.typ.toNat)) : Word :=
  if w.typ.toNat = 0 then z.signExtend 64 else z.setWidth 64

/-- Is TYPE i32 or i64? -/
def Sys2Proof.Claim.signedT (w : CU) : Bool := w.typ.toNat == 0 || w.typ.toNat == 2

open Sys2Proof.Claim

/-! ## Compute nodes: integer, logic, steering (07_core_integer_control) -/

/-- mov, cvt, sel and steer deliver what R182 to R185 give; steer of a 0 predicate emits a cancel token (R185). -/
def Sys2Proof.Claim.MovesAndSteering : Prop :=
  CuGives .mov 0x01 (fun w a _ _ => deliver w.typ.toNat (a.toNat % 2 ^ bitsOfType w.typ.toNat)) ∧
  CuGives .cvt 0x02 (fun w a _ _ => outT w (BitVec.ofInt _ (ival w.mod.toNat a))) ∧
  CuGives .sel 0x03 (fun w p a b => deliver w.typ.toNat
    ((if p.getLsbD 0 then a else b).toNat % 2 ^ bitsOfType w.typ.toNat)) ∧
  (∀ (w : CU) (s : State) (e : Env) (p v c : Word), (Instr.steer w).wf = true → Ready s (cuWord 0x04 w) e p v c →
    (p.getLsbD 0 = true → exec (.steer w) s = .next (s.gave s.dev e (cuWord 0x04 w)
      (deliver w.typ.toNat (v.toNat % 2 ^ bitsOfType w.typ.toNat)) Fx.none)) ∧
    (p.getLsbD 0 = false → exec (.steer w) s = .next (s.gaveToken s.dev e .cancel)))

/-- merge delivers A if A is a value, otherwise B if B is a value, and otherwise cancel; poison on either operand
gives poison (R186). In a reverse replay a merge that would deliver the result of an rmw.fadd is ADJ_UNSUPPORTED
(R276). -/
def Sys2Proof.Claim.MergeRoutes : Prop :=
  ∀ (w : CU) (s : State) (e : Env) (x y : Token), (Instr.merge w).wf = true → Fires s (cuWord 0x05 w) e →
    operand s.dev e .val w.typ.toNat (cuWord 0x05 w).src w.imm w.a = some x →
    operand s.dev e .val w.typ.toNat (cuWord 0x05 w).src w.imm w.b = some y →
    let fadd (code : BitVec 8) : Bool := e.pass.rev && readsFadd e .val code
    let refused : Token := .poison ⟨e.pass.block, e.node, clsAdj, 0, 0⟩
    (∀ v, x = .value v → originOf y = none → fadd w.a = false →
      exec (.merge w) s = .next (s.gave s.dev e (cuWord 0x05 w)
      (deliver w.typ.toNat (v.toNat % 2 ^ bitsOfType w.typ.toNat)) Fx.none)) ∧
    (∀ v, x = .cancel → y = .value v → fadd w.b = false → exec (.merge w) s = .next (s.gave s.dev e (cuWord 0x05 w)
      (deliver w.typ.toNat (v.toNat % 2 ^ bitsOfType w.typ.toNat)) Fx.none)) ∧
    (∀ v, x = .value v → originOf y = none → fadd w.a = true →
      exec (.merge w) s = .next (s.gaveToken s.dev e refused)) ∧
    (∀ v, x = .cancel → y = .value v → fadd w.b = true → exec (.merge w) s = .next (s.gaveToken s.dev e refused)) ∧
    (x = .cancel → y = .cancel → exec (.merge w) s = .next (s.gaveToken s.dev e .cancel)) ∧
    (∀ o, x = .poison o → originOf y = none → exec (.merge w) s = .next (s.gaveToken s.dev e (.poison o))) ∧
    (∀ o, originOf x = none → y = .poison o → exec (.merge w) s = .next (s.gaveToken s.dev e (.poison o))) ∧
    (∀ o o', x = .poison o → y = .poison o' →
      exec (.merge w) s = .next (s.gaveToken s.dev e (.poison (if o'.node < o.node then o' else o))))

/-- The integer nodes compute on the W bits of TYPE, modulo 2^W; min and max compare as TYPE is signed or not
(R187, R180, R122). -/
def Sys2Proof.Claim.IntegerArithmetic : Prop :=
  CuGives .add 0x10 (fun w a b _ => outT w (asT w a + asT w b)) ∧
  CuGives .sub 0x11 (fun w a b _ => outT w (asT w a - asT w b)) ∧
  CuGives .mul 0x12 (fun w a b _ => outT w (asT w a * asT w b)) ∧
  CuGives .mulhi 0x13 (fun w a b _ => outT w (BitVec.ofInt _ ((if signedT w then (asT w a).toInt * (asT w b).toInt
    else ((asT w a).toNat * (asT w b).toNat : Nat)) / 2 ^ tWidth w.typ.toNat))) ∧
  CuGives .mad 0x14 (fun w a b c => outT w (asT w a * asT w b + asT w c)) ∧
  CuGives .iabs 0x17 (fun w a _ _ => outT w (if (asT w a).msb then -asT w a else asT w a)) ∧
  CuGives .ineg 0x18 (fun w a _ _ => outT w (-asT w a)) ∧
  CuGives .imin 0x19 (fun w a b _ => outT w (
    if signedT w then (if (asT w b).slt (asT w a) then asT w b else asT w a)
    else if (asT w b).ult (asT w a) then asT w b else asT w a)) ∧
  CuGives .imax 0x1A (fun w a b _ => outT w (
    if signedT w then (if (asT w a).slt (asT w b) then asT w b else asT w a)
    else if (asT w a).ult (asT w b) then asT w b else asT w a))

/-- div and rem truncate; division by 0 gives all ones and the dividend, and the least signed value by −1 gives that
value and 0 (R123, R187). -/
def Sys2Proof.Claim.DivisionAndRemainder : Prop :=
  CuGives .div 0x15 (fun w a b _ => outT w (
    if asT w b = 0 then BitVec.allOnes _
    else if signedT w then (asT w a).sdiv (asT w b) else asT w a / asT w b)) ∧
  CuGives .rem 0x16 (fun w a b _ => outT w (
    if asT w b = 0 then asT w a
    else if signedT w then (asT w a).srem (asT w b) else asT w a % asT w b))

/-- cmp delivers 1 when the operands satisfy the condition of MOD, compared as TYPE is signed or not, and 0 otherwise
(R188). -/
def Sys2Proof.Claim.IntegerCompare : Prop :=
  CuGives .cmp 0x1B (fun w a b _ =>
    let lt := if signedT w then (asT w a).slt (asT w b) else (asT w a).ult (asT w b)
    let eq := asT w a == asT w b
    let holds := match w.mod.toNat with
      | 0 => eq
      | 1 => !eq
      | 2 => lt
      | 3 => lt || eq
      | 4 => !lt && !eq
      | _ => !lt
    if holds then 1 else 0)

/-- The logic nodes work on the W bits of TYPE; a shift count is never reduced modulo W, and sar is arithmetic for
every TYPE (R189). -/
def Sys2Proof.Claim.LogicAndShifts : Prop :=
  CuGives .iand 0x20 (fun w a b _ => outT w (asT w a &&& asT w b)) ∧
  CuGives .ior 0x21 (fun w a b _ => outT w (asT w a ||| asT w b)) ∧
  CuGives .ixor 0x22 (fun w a b _ => outT w (asT w a ^^^ asT w b)) ∧
  CuGives .inot 0x23 (fun w a _ _ => outT w (~~~asT w a)) ∧
  CuGives .shl 0x24 (fun w a b _ => outT w (asT w a <<< b.toNat)) ∧
  CuGives .shr 0x25 (fun w a b _ => outT w (asT w a >>> b.toNat)) ∧
  CuGives .sar 0x26 (fun w a b _ => outT w ((asT w a).sshiftRight b.toNat))

/-- clz, popc and brev count and reverse the W bits of TYPE; bfx and bfi act on the clipped field of bits, bfx
extending its sign for i32 and i64 (R190, R191). -/
def Sys2Proof.Claim.BitsAndFields : Prop :=
  CuGives .clz 0x27 (fun w a _ _ => outT w (BitVec.ofNat _
    ((List.range (tWidth w.typ.toNat)).findIdx fun i => (asT w a).getMsbD i))) ∧
  CuGives .popc 0x28 (fun w a _ _ => outT w (BitVec.ofNat _
    ((List.range (tWidth w.typ.toNat)).countP fun i => (asT w a).getLsbD i))) ∧
  (∀ (w : CU) (s : State) (e : Env) (a b c : Word), (Instr.brev w).wf = true → Ready s (cuWord 0x29 w) e a b c →
    ∃ z : BitVec (tWidth w.typ.toNat),
      exec (.brev w) s = .next (s.gave s.dev e (cuWord 0x29 w) (outT w z) Fx.none) ∧
      ∀ i, i < tWidth w.typ.toNat → z.getLsbD i = (asT w a).getLsbD (tWidth w.typ.toNat - 1 - i)) ∧
  (∀ (w : CU) (s : State) (e : Env) (a k c : Word), (Instr.bfx w).wf = true → Ready s (cuWord 0x2A w) e a k c →
    ∃ z : BitVec (tWidth w.typ.toNat),
      exec (.bfx w) s = .next (s.gave s.dev e (cuWord 0x2A w) (outT w z) Fx.none) ∧
      let p := min (k.toNat % 256) (tWidth w.typ.toNat)
      let l := min (k.toNat / 256 % 256) (tWidth w.typ.toNat - p)
      ∀ i, i < tWidth w.typ.toNat → z.getLsbD i =
        if i < l then (asT w a).getLsbD (p + i) else signedT w && decide (0 < l) && (asT w a).getLsbD (p + l - 1)) ∧
  (∀ (w : CU) (s : State) (e : Env) (a b k : Word), (Instr.bfi w).wf = true → Ready s (cuWord 0x2B w) e a b k →
    ∃ z : BitVec (tWidth w.typ.toNat),
      exec (.bfi w) s = .next (s.gave s.dev e (cuWord 0x2B w) (outT w z) Fx.none) ∧
      let p := min (k.toNat % 256) (tWidth w.typ.toNat)
      let l := min (k.toNat / 256 % 256) (tWidth w.typ.toNat - p)
      ∀ i, i < tWidth w.typ.toNat → z.getLsbD i =
        if p ≤ i ∧ i < p + l then (asT w b).getLsbD (i - p) else (asT w a).getLsbD i)

/-- rng delivers the draw of R152 of the low 32 bits of its operands, and reads and writes no state (R192). -/
def Sys2Proof.Claim.CounterDraw : Prop :=
  CuGives .rng 0x2C (fun _ seed stream counter =>
    let x : BitVec 32 := counter.setWidth 32 ^^^ seed.setWidth 32 ^^^ (stream.setWidth 32).rotateLeft 16
    let x := (x ^^^ x >>> 15) * 0x2C1B3C6D
    let x := (x ^^^ x >>> 12) * 0x297A2D39
    (x ^^^ x >>> 15).setWidth 64)

/-! ## Compute nodes: floating point and atoms (08_core_float_atom) -/

/-- The arithmetic nodes round the exact result once, to the nearest of TYPE, ties to even, and raise the exceptions
of R125 to R134; fex2 and flg2 rest on log 10 (R207, R208, R210 to R212). -/
def Sys2Proof.Claim.FloatArithmetic : Prop :=
  FpGives .fadd 0x40 (·.typ.toNat) (fun w a b _ =>
    fpAdd (fmtOfType w.typ.toNat) (fbits w.typ.toNat a) (fbits w.typ.toNat b)) ∧
  FpGives .fsub 0x41 (·.typ.toNat) (fun w a b _ =>
    fpSub (fmtOfType w.typ.toNat) (fbits w.typ.toNat a) (fbits w.typ.toNat b)) ∧
  FpGives .fmul 0x42 (·.typ.toNat) (fun w a b _ =>
    fpMul (fmtOfType w.typ.toNat) (fbits w.typ.toNat a) (fbits w.typ.toNat b)) ∧
  FpGives .fma 0x43 (·.typ.toNat) (fun w a b c =>
    fpFma (fmtOfType w.typ.toNat) (fbits w.typ.toNat a) (fbits w.typ.toNat b) (fbits w.typ.toNat c)) ∧
  FpGives .fdiv 0x48 (·.typ.toNat) (fun w a b _ =>
    fpDiv (fmtOfType w.typ.toNat) (fbits w.typ.toNat a) (fbits w.typ.toNat b)) ∧
  FpGives .fsqrt 0x49 (·.typ.toNat) (fun w a _ _ => fpSqrt (fmtOfType w.typ.toNat) (fbits w.typ.toNat a)) ∧
  FpGives .frcpSeed 0x4A (fun _ => 4) (fun _ a _ _ => fpRcpSeed (fbits 4 a)) ∧
  FpGives .frsqrtSeed 0x4B (fun _ => 4) (fun _ a _ _ => fpRsqrtSeed (fbits 4 a)) ∧
  FpGives .fex2 0x4C (fun _ => 4) (fun _ a _ _ => fpEx2 (fbits 4 a)) ∧
  FpGives .flg2 0x4D (fun _ => 4) (fun _ a _ _ => fpLg2 (fbits 4 a))

/-- The selecting, comparing and converting nodes, and the sign operations, which change the sign bit alone and raise
nothing (R209, R213 to R218). -/
def Sys2Proof.Claim.FloatSelectAndConvert : Prop :=
  FpGives .fmin 0x44 (·.typ.toNat) (fun w a b _ =>
    fpMinMax (fmtOfType w.typ.toNat) false (fbits w.typ.toNat a) (fbits w.typ.toNat b)) ∧
  FpGives .fmax 0x45 (·.typ.toNat) (fun w a b _ =>
    fpMinMax (fmtOfType w.typ.toNat) true (fbits w.typ.toNat a) (fbits w.typ.toNat b)) ∧
  CuGives .fabs 0x46 (fun w a _ _ =>
    deliver w.typ.toNat (fbits w.typ.toNat a % (fmtOfType w.typ.toNat).signBit)) ∧
  CuGives .fneg 0x47 (fun w a _ _ => deliver w.typ.toNat
    ((fbits w.typ.toNat a + (fmtOfType w.typ.toNat).signBit) % 2 ^ (fmtOfType w.typ.toNat).width)) ∧
  FpGives .fcmp 0x4E (fun _ => 7) (fun w a b _ =>
    let r := fpCmp (fmtOfType w.typ.toNat) w.mod.toNat (fbits w.typ.toNat a) (fbits w.typ.toNat b)
    (if r.1 then 1 else 0, r.2)) ∧
  CuGives .fclass 0x4F (fun w a _ _ => deliver 1 (2 ^ fpClass (fmtOfType w.typ.toNat) (fbits w.typ.toNat a))) ∧
  FpGives .fcvt 0x50 (·.typ.toNat) (fun w a _ _ =>
    fpCvt (fmtOfType w.typ.toNat) (fmtOfType w.mod.toNat) (fbits w.mod.toNat a)) ∧
  FpGives .fcvti 0x51 (·.typ.toNat) (fun w a _ _ =>
    let src := srcType true w.mod.toNat
    let r := fpToInt (fmtOfType src) (w.mod.toNat / 4) (intRange w.typ.toNat).1 (intRange w.typ.toNat).2 (fbits src a)
    ((r.1 % 2 ^ tWidth w.typ.toNat).toNat, r.2)) ∧
  FpGives .icvtf 0x52 (·.typ.toNat) (fun w a _ _ => fpOfInt (fmtOfType w.typ.toNat) (ival w.mod.toNat a)) ∧
  FpGives .fround 0x53 (·.typ.toNat) (fun w a _ _ =>
    fpRound (fmtOfType w.typ.toNat) w.mod.toNat (fbits w.typ.toNat a)) ∧
  CuGives .fcopysign 0x54 (fun w a b _ => deliver w.typ.toNat
    (fbits w.typ.toNat a % (fmtOfType w.typ.toNat).signBit
      + fbits w.typ.toNat b / (fmtOfType w.typ.toNat).signBit * (fmtOfType w.typ.toNat).signBit))

/-- Rounding to nearest: no finite datum of the format is nearer to an exact value than the datum rne gives, wherever
that datum is finite (R125). A datum (−1)^s m 2^e and the value are compared as integers over 2^lo. -/
def Obligations.RoundingIsNearest : Prop :=
  ∀ (t : Nat) (neg : Bool) (m : Nat) (e : Int) (y : Nat), t ∈ tFlt →
    let f := fmtOfType t
    ∀ (sr : Bool) (mr : Nat) (er : Int) (sy : Bool) (my : Nat) (ey : Int),
      exact f (rne f (.fin neg m e)).1 = .fin sr mr er → y < 2 ^ f.width → exact f y = .fin sy my ey →
      ∀ lo : Int, lo ≤ e → lo ≤ er → lo ≤ ey →
        (XR.mantAt sr mr er lo - XR.mantAt neg m e lo).natAbs ≤ (XR.mantAt sy my ey lo - XR.mantAt neg m e lo).natAbs

/-- An operation on a NaN gives the canonical quiet NaN; +∞ − ∞, 0 × ∞, 0 / 0, ∞ / ∞ and the root of a negative number
raise NV; a finite number other than 0 over 0 raises DZ and gives an infinity (R125, R126, R208, R210). -/
def Sys2Proof.Claim.InvalidOperations : Prop :=
  ∀ (t a b : Nat), t ∈ tFlt → let f := fmtOfType t; a < 2 ^ f.width → b < 2 ^ f.width →
    (isNanBits f a = true ∨ isNanBits f b = true → (fpAdd f a b).1 = f.nan ∧ (fpSub f a b).1 = f.nan ∧
      (fpMul f a b).1 = f.nan ∧ (fpDiv f a b).1 = f.nan) ∧
    (fpSub f f.infBits f.infBits = (f.nan, flagNV)) ∧
    (fpMul f 0 f.infBits = (f.nan, flagNV)) ∧
    (fpDiv f 0 0 = (f.nan, flagNV)) ∧ (fpDiv f f.infBits f.infBits = (f.nan, flagNV)) ∧
    (0 < a → a < f.infBits → fpDiv f a 0 = (f.infBits, flagDZ) ∧ fpSqrt f (a + f.signBit) = (f.nan, flagNV))

/-- Where a floating-point node raises an exception that is enabled to trap, and the pass is no reverse replay, its
token is poison with the flags raised: class NAR for NR, else FP_TRAP, and no flag is noted (R131, R279, R281). -/
def Sys2Proof.Claim.FloatTraps : Prop :=
  ∀ (opc : Nat) (mk : CU → Instr) (w : CU) (s : State) (e : Env) (a b c : Word) (g : CU → Word → Word → Word → FRes),
    (opc, mk, g) ∈ ([
      (0x40, .fadd, fun w a b _ => fpAdd (fmtOfType w.typ.toNat) (fbits w.typ.toNat a) (fbits w.typ.toNat b)),
      (0x41, .fsub, fun w a b _ => fpSub (fmtOfType w.typ.toNat) (fbits w.typ.toNat a) (fbits w.typ.toNat b)),
      (0x42, .fmul, fun w a b _ => fpMul (fmtOfType w.typ.toNat) (fbits w.typ.toNat a) (fbits w.typ.toNat b)),
      (0x48, .fdiv, fun w a b _ => fpDiv (fmtOfType w.typ.toNat) (fbits w.typ.toNat a) (fbits w.typ.toNat b)),
      (0x49, .fsqrt, fun w a _ _ => fpSqrt (fmtOfType w.typ.toNat) (fbits w.typ.toNat a))] :
        List (Nat × (CU → Instr) × (CU → Word → Word → Word → FRes))) →
    Ready s (cuWord opc w) e a b c → e.pass.rev = false →
    let tr := (g w a b c).2 &&& (s.dev.core e.core).regs.fptrap.truncate 6
    tr ≠ 0 →
    exec (mk w) s = .next (s.gaveToken s.dev e (.poison
      ⟨e.pass.block, e.node, if tr.getLsbD 5 then 0x0013 else 0x0012, 0, (g w a b c).2⟩))

/-- An atom node that finds its Legend delivers the encoding of the exact elements and raises the exceptions of R147;
pa.dec writes the elements into live slots at commit; the scalar nodes deliver one rounded binary32
(R219 to R225). d is the device after the Legend's read, lg the Legend. -/
def Sys2Proof.Claim.AtomNodes : Prop :=
  ∀ (w : CU) (s : State) (e : Env) (a b c : Word) (d : Device) (lg : Legend),
    let f := AFmt.ofType w.typ.toNat
    let gives (mk : CU → Instr) (opc t : Nat) (r : FRes) : Prop :=
      (mk w).wf = true → Ready s (cuWord opc w) e a b c → legendFor s.dev e f c = (.ok lg, d) →
        (e.pass.rev = true ∨ r.2 &&& (d.core e.core).regs.fptrap.truncate 6 = 0) →
        exec (mk w) s = .next (s.gave d e (cuWord opc w) (deliver t r.1) ⟨if e.pass.rev then 0 else r.2, [], []⟩)
    let x := abits f a
    let y := abits f b
    gives .paEnc 0x60 w.typ.toNat (atomEnc f lg (slotElems e.t (w.a.toNat - 0x40) f.n)) ∧
    gives .paAdd 0x62 w.typ.toNat (atomOp2 XR.add f lg x y) ∧
    gives .paSub 0x63 w.typ.toNat (atomOp2 XR.sub f lg x y) ∧
    gives .paMul 0x64 w.typ.toNat (atomOp2 XR.mul f lg x y) ∧
    gives .paScale 0x65 w.typ.toNat (atomScale f lg x (b.toNat % 2 ^ 32)) ∧
    gives .paRelu 0x66 w.typ.toNat (atomRelu f lg x) ∧
    gives .paMask 0x67 w.typ.toNat (atomMask f lg x (b.toNat % 256)) ∧
    (¬(f = .pa8 ∧ (x = 0 ∨ y = 0)) → gives .paDot 0x68 4 (atomDot f lg x y)) ∧
    (¬(f = .pa8 ∧ x = 0) →
      gives .paNrm 0x69 4 (atomNrm f lg x) ∧ gives .paSum 0x6A 4 (atomSum f lg x) ∧
      gives .paMax 0x6B 4 (atomMax f lg x) ∧ (b.toNat < f.n → gives .paGet 0x6C 4 (atomGet f lg x b.toNat))) ∧
    (f ≠ .pa8 → gives .paGain 0x6E 4 (atomGain f lg x)) ∧
    ((Instr.paDec w).wf = true → Ready s (cuWord 0x61 w) e a b c → legendFor s.dev e f c = (.ok lg, d) →
      (e.pass.rev = true ∨ (atomDec f lg x).2 &&& (d.core e.core).regs.fptrap.truncate 6 = 0) →
      exec (.paDec w) s = .next (s.gave d e (cuWord 0x61 w) 0
        ⟨if e.pass.rev then 0 else (atomDec f lg x).2, slotWrites w.dest.toNat (atomDec f lg x).1, []⟩)) ∧
    (∀ (d' : Device) (lg' : Legend),
      let g := AFmt.ofType w.mod.toNat
      let r := atomCvt f lg g lg' x
      (Instr.paCvt w).wf = true → Ready s (cuWord 0x6D w) e a b c → legendFor s.dev e f c = (.ok lg, d) →
      legendFor d e g b = (.ok lg', d') →
      (e.pass.rev = true ∨ r.2 &&& (d'.core e.core).regs.fptrap.truncate 6 = 0) →
      exec (.paCvt w) s = .next (s.gave d' e (cuWord 0x6D w) (deliver w.mod.toNat r.1)
        ⟨if e.pass.rev then 0 else r.2, [], []⟩))

/-- The scalar nodes read no Legend for a PA8 canonical zero, and pa.gain none for any PA8 atom: they complete without
one (R225). -/
def Sys2Proof.Claim.ZeroAtomsNeedNoLegend : Prop :=
  ∀ (w : CU) (s : State) (e : Env) (a b c : Word), w.typ = 9 →
    let gives (mk : CU → Instr) (opc : Nat) (r : FRes) : Prop :=
      (mk w).wf = true → Ready s (cuWord opc w) e a b c →
        (e.pass.rev = true ∨ r.2 &&& (s.dev.core e.core).regs.fptrap.truncate 6 = 0) →
        exec (mk w) s = .next (s.gave s.dev e (cuWord opc w) (deliver 4 r.1) ⟨if e.pass.rev then 0 else r.2, [], []⟩)
    let x := abits .pa8 a
    let y := abits .pa8 b
    (x = 0 ∨ y = 0 → gives .paDot 0x68
      (if isNaR .pa8 Legend.pa8Default x || isNaR .pa8 Legend.pa8Default y then (f32.nan, flagNR) else (0, 0))) ∧
    (x = 0 → gives .paNrm 0x69 (0, 0) ∧ gives .paSum 0x6A (0, 0) ∧ gives .paMax 0x6B (0, 0) ∧
      (b.toNat < 8 → gives .paGet 0x6C (0, 0))) ∧
    gives .paGain 0x6E (atomGain .pa8 Legend.pa8Default x)

/-- A Legend that cannot be read or has a defect makes the node poison with the class of the fault and the Legend's
address; an element number that the atom does not have is BOUNDS (R220, R225). -/
def Sys2Proof.Claim.AtomFaults : Prop :=
  ∀ (w : CU) (s : State) (e : Env) (a b c : Word) (d : Device) (cls : Nat),
    let f := AFmt.ofType w.typ.toNat
    let bad (addr : Word) : Token := .poison ⟨e.pass.block, e.node, cls, addr, 0⟩
    (∀ p ∈ ([(0x60, Instr.paEnc), (0x61, .paDec), (0x62, .paAdd), (0x63, .paSub), (0x64, .paMul), (0x65, .paScale),
        (0x66, .paRelu), (0x67, .paMask), (0x6D, .paCvt)] : List (Nat × (CU → Instr))),
      Ready s (cuWord p.1 w) e a b c → legendFor s.dev e f c = (.error cls, d) →
      exec (p.2 w) s = .next (s.gaveToken d e (bad c))) ∧
    (Ready s (cuWord 0x6C w) e a b c → f.n ≤ b.toNat →
      exec (.paGet w) s = .next (s.gaveToken s.dev e (.poison ⟨e.pass.block, e.node, 0x0005, b, 0⟩)))

/-! ## What every node shares (06_core_execution, 12_core_faults) -/

/-- Every node but merge hands on poison and cancel: poison on an operand gives the poison of the lowest origin node
and cancel gives cancel, whatever the node would do (R166, R181, R279). -/
def Sys2Proof.Claim.PoisonAndCancelPass : Prop :=
  ∀ (i : Instr) (s : State) (e : Env) (w : NodeWord),
    ((∃ o x, wordOf i = .cu o x ∧ w = cuWord o x ∧ o ≠ 0x05) ∨ (∃ o x, wordOf i = .mu o x ∧ w = muWord o x)) →
    Fires s w e →
    (∀ p, argsOf s.dev e w = .poison p → exec i s = .next (s.gaveToken s.dev e (.poison p))) ∧
    (argsOf s.dev e w = .cancel → exec i s = .next (s.gaveToken s.dev e .cancel))

/-- Of the poisons on a node's operands it hands on the one whose origin has the lowest node number (R279). -/
def Sys2Proof.Claim.LowestOriginPasses : Prop :=
  ∀ x y z : Token, x.isPoison = true ∨ y.isPoison = true ∨ z.isPoison = true →
    ∃ o, combine (some x) (some y) (some z) = .poison o ∧ (.poison o = x ∨ .poison o = y ∨ .poison o = z) ∧
      ∀ t ∈ [x, y, z], ∀ o', t = .poison o' → o.node ≤ o'.node

/-- An irrevocable node that has performed in an earlier run of the block does not perform again: it delivers the value
it delivered then, whatever its operands hold (R283, R284). -/
def Sys2Proof.Claim.PerformedNodesReplay : Prop :=
  ∀ (i : Instr) (s : State) (e : Env) (o : Nat) (x : MU), wordOf i = .mu o x → (muWord o x).fmt.irrev = true →
    envOf s.dev s.clock s.focus = some e → mayFire e (muWord o x) = true →
    e.l.done.getLsbD (irrevIndex e.words e.node) = true →
    exec i s = .next (s.gave s.dev e (muWord o x) (e.l.replay.getD (irrevIndex e.words e.node) 0) Fx.none)

/-- What a node that delivers leaves: its token; its exceptions, live-slot writes and deferred stores, which wait for
commit; for an irrevocable node its done bit and its replay value; and nothing else anywhere (R130, R165, R167,
R283). -/
def Sys2Proof.Claim.DeliveryEffect : Prop :=
  ∀ (s : State) (e : Env) (w : NodeWord) (v : Word) (fx : Fx),
    envOf s.dev s.clock s.focus = some e → s.focus.core < s.dev.cores.length →
    let d := (s.gave s.dev e w v fx).dev
    (∃ l, laneAt d e.core e.lane = some l ∧ l.tid = e.l.tid ∧ l.held = e.l.held.del e.node ∧ l.pend = e.l.pend ∧
      l.tokens.find e.node = some (.value v) ∧ (∀ n, n ≠ e.node → l.tokens.find n = e.l.tokens.find n) ∧
      l.flags = e.l.flags ||| fx.flags ∧ l.stores = e.l.stores ++ fx.stores ∧
      l.writes = e.l.writes ++ fx.writes ++ (if w.fmt.result && w.dest != 0xFF then [(w.dest.toNat, v)] else []) ∧
      (w.fmt.irrev = false → l.done = e.l.done ∧ l.replay = e.l.replay) ∧
      (w.fmt.irrev = true → irrevIndex e.words e.node < 4 → e.l.replay.length = 4 →
        l.done.getLsbD (irrevIndex e.words e.node) = true ∧ l.replay.getD (irrevIndex e.words e.node) 0 = v)) ∧
    (∀ j, j ≠ e.lane → laneAt d e.core j = laneAt s.dev e.core j) ∧
    (∀ c, c ≠ e.core → d.core c = s.dev.core c) ∧
    d.core e.core = { s.dev.core e.core with pass := (d.core e.core).pass } ∧
    d = { s.dev with cores := d.cores }

/-- The frame of the integer and floating-point compute nodes: they change the firing thread's lane and nothing else.
All of memory, every scratchpad and every register keeps its value; in the lane, tokens of other nodes, deferred
stores, done bits and replay values stay, and the only live-slot write is the one to DEST (R167, R181). -/
def Sys2Proof.Claim.ComputeNodeFrame : Prop :=
  ∀ (i : Instr) (s t : State) (o : Nat) (w : CU), wordOf i = .cu o w → o < 0x60 → exec i s = .next t →
    (t = s ∨ ∃ f : Lane → Lane, t = { s with dev := modLane s.dev s.focus.core s.focus.lane f } ∧
      ∀ l, (f l).tid = l.tid ∧ (f l).stores = l.stores ∧ (f l).done = l.done ∧ (f l).replay = l.replay ∧
        (∀ n, n ≠ s.focus.node → (f l).tokens.find n = l.tokens.find n) ∧
        ((f l).writes = l.writes ∨ (w.dest ≠ 0xFF ∧ ∃ v, (f l).writes = l.writes ++ [(w.dest.toNat, v)]))) ∧
    (∀ a, homeByte t.dev a = homeByte s.dev a) ∧
    (∀ c a, (t.dev.core c).scratch.get a = (s.dev.core c).scratch.get a) ∧
    (∀ c, (t.dev.core c).regs = (s.dev.core c).regs ∧ (t.dev.core c).threads = (s.dev.core c).threads)

/-- The frame of the atom nodes, which read a Legend: no byte of memory and no register changes, and no lane but the
firing thread's; the core may cache the translation, and the thread has read what it has read (R45, R51, R220). -/
def Sys2Proof.Claim.AtomNodeFrame : Prop :=
  ∀ (i : Instr) (s t : State) (o : Nat) (w : CU), wordOf i = .cu o w → 0x60 ≤ o → exec i s = .next t →
    (∀ a, homeByte t.dev a = homeByte s.dev a) ∧
    (∀ c a, (t.dev.core c).scratch.get a = (s.dev.core c).scratch.get a) ∧
    (∀ c, (t.dev.core c).regs = (s.dev.core c).regs) ∧
    (∀ c, c ≠ s.focus.core → t.dev.core c = s.dev.core c) ∧
    (∀ j, j ≠ s.focus.lane → laneAt t.dev s.focus.core j = laneAt s.dev s.focus.core j)

/-! ## Memory nodes (09_core_memory, 02_memory_model) -/

/-- The place an access of a space names in this device: a home key after translation, or a scratchpad byte. -/
def Sys2Proof.Claim.laneEa (e : Env) (w : MU) (a : Word) (size : Nat) : Nat := (effAddr e w.ag a w.off size).1

/-- The access keeps its generator's bounds, its space's range and its alignment (R33, R34, R97). -/
def Sys2Proof.Claim.AddrGood (e : Env) (w : MU) (a : Word) (size : Nat) : Prop :=
  addrFault (effAddr e w.ag a w.off size).2 w.space.toNat (laneEa e w a size) size = none

/-- The node's stream reaches global memory at va: no walk for it stands in flight, and its translation gives the place
x and permits the access, which leaves the device d (R44, R45, R485). -/
def Sys2Proof.Claim.Reaches (s : Device) (e : Env) (va : Nat) (write : Bool) (x : Xlated) (d : Device) : Prop :=
  walkPending s e.core e.node va = false ∧ accessVia s e.core (.node e.node) va e.bound.priv write = (.ok x, d)

/-- ld delivers the bytes of its space, little-endian, in TYPE: of the core's scratchpad; of another scratchpad of the
cluster bound to the same launch, the core's own unpublished bytes first; and of global memory as loadAt reads it at
the translated address, in space k at the launch's parameter block (R36, R58, R232). -/
def Sys2Proof.Claim.LoadsDeliver : Prop :=
  ∀ (w : MU) (s : State) (e : Env) (a b c : Word),
    let n := sizeOfType w.typ.toNat
    let ea := laneEa e w a n
    let t := w.typ.toNat
    (Instr.ld w).wf = true → Ready s (muWord 0x01 w) e a b c →
    (w.space = 1 → AddrGood e w a n → scratchBadAt s.dev e.core ea n = false →
      exec (.ld w) s = .next (s.gave s.dev e (muWord 0x01 w)
        (deliver t (ofBytes ((s.dev.core e.core).scratch.read ea n))) Fx.none)) ∧
    (∀ target, w.space = 2 → AddrGood e w a n → cxTarget s.dev e ea = some target →
      scratchBadAt s.dev target (ea % 2 ^ 21) n = false →
      exec (.ld w) s = .next (s.gave s.dev e (muWord 0x01 w)
        (deliver t (ofBytes (remoteRead s.dev e.core target (ea % 2 ^ 21) n))) Fx.none)) ∧
    (∀ x d, w.space = 0 → AddrGood e w a n → (e.pass.rev = true → revKind e.bound w ea ≠ .bad) →
      Reaches s.dev e ea false x d → badAt d x.key n = false → inSpillRings d e.bound.ctx ea n = false →
      exec (.ld w) s = .next (s.gave (loadAt d e.core e.l.tid x.key n).2 e (muWord 0x01 w)
        (deliver t (ofBytes (loadAt d e.core e.l.tid x.key n).1)) Fx.none)) ∧
    (∀ x d, w.space = 3 → AddrGood e w a n → (e.bound.param + ea) % n = 0 →
      Reaches s.dev e (e.bound.param + ea) false x d → badAt d x.key n = false →
      inSpillRings d e.bound.ctx (e.bound.param + ea) n = false →
      exec (.ld w) s = .next (s.gave (loadAt d e.core e.l.tid x.key n).2 e (muWord 0x01 w)
        (deliver t (ofBytes (loadAt d e.core e.l.tid x.key n).1)) Fx.none))

/-- A core's later loads see its own committed stores: bytes made core-visible are what it reads there (R48, R50). -/
def Sys2Proof.Claim.CoreReadsItsStores : Prop :=
  ∀ (d : Device) (core a : Nat) (bs : List Byte) (seen : Tbl Nat), core < d.cores.length →
    (coreRead (coreWrite d core a bs) core seen a bs.length).1 = bs

/-- Without a write to the bytes that the core need not have seen, a load is exact: it reads what the cluster's point
or home holds (R50, R56). -/
def Sys2Proof.Claim.SettledLoadsAreExact : Prop :=
  ∀ (d : Device) (core a n : Nat) (seen : Tbl Nat), (d.core core).cache.dirty = [] → (d.core core).cache.tape = [] →
    (d.core core).cache.pub = none → (∀ es ∈ d.mem.log, ∀ x ∈ es, ¬(a ≤ x.addr ∧ x.addr < a + n)) →
    (coreRead d core seen a n).1 = (span a n).map (pointByte d (clusterOf core)) ∧ (coreRead d core seen a n).2.2 = d

/-- lea delivers the effective address, and pref delivers token 0 and changes nothing else (R235, R236). -/
def Sys2Proof.Claim.AddressesAndPrefetch : Prop :=
  ∀ (w : MU) (s : State) (e : Env) (a b c : Word),
    (AddrGood e w a 1 → Ready s (muWord 0x03 w) e a b c → exec (.lea w) s =
      .next (s.gave s.dev e (muWord 0x03 w) (BitVec.ofNat 64 (laneEa e w a 1)) Fx.none)) ∧
    (Ready s (muWord 0x04 w) e a b c → exec (.pref w) s = .next (s.gave s.dev e (muWord 0x04 w) 0 Fx.none))

/-- An access beyond its generator's bounds or its space's range is BOUNDS, but outside the 56-bit space of global
memory TRANSLATION, and then a misaligned one is ALIGN; any other passes these checks. The node's token is poison with
the address, which for a constant load is that in global memory (R33, R34, R97, R237, R279). -/
def Obligations.AccessFaults : Prop :=
  ∀ (w : MU) (s : State) (e : Env) (a b c : Word),
    let n := sizeOfType w.typ.toNat
    let ea := laneEa e w a n
    let kept := (effAddr e w.ag a w.off n).2
    let fault := addrFault kept w.space.toNat ea n
    let inside := (w.space = 0 → ea < 2 ^ 56) ∧ (w.space = 1 → ea < 0x180000) ∧
      (w.space = 2 → ea < 0x1000000 ∧ ea % 2 ^ 21 < 0x180000) ∧ (w.space = 3 → ea < 0x10000)
    (kept = false → fault = some 0x0005) ∧
    (kept = true →
      (w.space = 0 → 2 ^ 56 ≤ ea → fault = some 0x0002) ∧ (w.space = 1 → 0x180000 ≤ ea → fault = some 0x0005) ∧
      (w.space = 2 → (0x1000000 ≤ ea ∨ 0x180000 ≤ ea % 2 ^ 21) → fault = some 0x0005) ∧
      (w.space = 3 → 0x10000 ≤ ea → fault = some 0x0005) ∧
      (inside → ea % n ≠ 0 → fault = some 0x0004) ∧ (inside → ea % n = 0 → fault = none)) ∧
    ∀ cls, fault = some cls →
      let bad : Token := .poison ⟨e.pass.block, e.node, cls, BitVec.ofNat 64 ea, 0⟩
      (Ready s (muWord 0x01 w) e a b c → exec (.ld w) s = .next (s.gaveToken s.dev e
        (if w.space = 3 then .poison ⟨e.pass.block, e.node, cls, BitVec.ofNat 64 (e.bound.param + ea), 0⟩ else bad))) ∧
      (Ready s (muWord 0x02 w) e a b c → exec (.st w) s = .next (s.gaveToken s.dev e bad)) ∧
      (∀ p ∈ ([(0x08, Instr.rmwAdd), (0x0A, .rmwMin), (0x0B, .rmwMax), (0x0C, .rmwAnd), (0x0D, .rmwOr), (0x0E, .rmwXor),
          (0x0F, .rmwXchg), (0x10, .rmwCas), (0x11, .rmwLd), (0x12, .rmwSt), (0x09, .rmwFadd)] :
            List (Nat × (MU → Instr))),
        Ready s (muWord p.1 w) e a b c → e.pass.rev = false →
        exec (p.2 w) s = .next (s.gaveToken s.dev e bad))

/-- st delivers token 0 and defers its store to commit: the low bytes of B at the scratchpad address, or at the
translated global address; no byte of memory changes when it fires (R48, R167, R233). -/
def Sys2Proof.Claim.StoresAreDeferred : Prop :=
  ∀ (w : MU) (s : State) (e : Env) (a b c : Word),
    let n := sizeOfType w.typ.toNat
    let ea := laneEa e w a n
    (Instr.st w).wf = true → Ready s (muWord 0x02 w) e a b c → AddrGood e w a n → e.pass.rev = false →
    (w.space = 1 → exec (.st w) s = .next (s.gave s.dev e (muWord 0x02 w) 0
      ⟨0, [], [⟨e.node, .scratch ea, ea, n, b.toNat, false, .none⟩]⟩)) ∧
    (∀ x d, w.space = 0 → Reaches s.dev e ea true x d →
      exec (.st w) s = .next (s.gave d e (muWord 0x02 w) 0
        ⟨0, [], [⟨e.node, .home x.key, ea, n, b.toNat, true, nodePage d e ea⟩]⟩) ∧
      ∀ k, homeByte d k = homeByte s.dev k) ∧
    (∀ target, w.space = 2 → cxTarget s.dev e ea = some target → target ≠ e.core →
      exec (.st w) s = .next (s.gave s.dev e (muWord 0x02 w) 0
        ⟨0, [], [⟨e.node, .remote target (ea % 2 ^ 21), ea, n, b.toNat, false, .none⟩]⟩))

/-- A committed store reads back, and no other byte of the scratchpad changes (R35, R48). -/
def Sys2Proof.Claim.ScratchpadReadsBack : Prop :=
  ∀ (d : Device) (core a : Nat) (bs : List Byte), core < d.cores.length → (d.core core).scratch.wf = true →
    scratchRead (scratchWrite d core a bs) core a bs.length = bs ∧
    (∀ x, (x < a ∨ a + bs.length ≤ x) →
      ((scratchWrite d core a bs).core core).scratch.get x = (d.core core).scratch.get x) ∧
    (∀ k, k ≠ core → (scratchWrite d core a bs).core k = d.core k)

/-- What each rmw leaves, of the old datum and its operands B and C; none for one that writes nothing (R238). -/
def Sys2Proof.Claim.rmwRows : List (Nat × (MU → Instr) × (Nat → Nat → Word → Word → Option Nat)) := [
  (0x08, .rmwAdd, fun _ old b _ => some (old + b.toNat)),
  (0x09, .rmwFadd, fun t old b _ => some (fpAdd (fmtOfType t) old (b.toNat % 2 ^ (fmtOfType t).width)).1),
  (0x0A, .rmwMin, fun t old b _ =>
    some (if ival t (BitVec.ofNat 64 old) ≤ ival t b then old else b.toNat)),
  (0x0B, .rmwMax, fun t old b _ =>
    some (if ival t b ≤ ival t (BitVec.ofNat 64 old) then old else b.toNat)),
  (0x0C, .rmwAnd, fun _ old b _ => some (old &&& b.toNat)),
  (0x0D, .rmwOr, fun _ old b _ => some (old ||| b.toNat)),
  (0x0E, .rmwXor, fun _ old b _ => some (old ^^^ b.toNat)),
  (0x0F, .rmwXchg, fun _ _ b _ => some b.toNat),
  (0x10, .rmwCas, fun t old b c => some (if old = c.toNat % 2 ^ bitsOfType t then b.toNat else old)),
  (0x11, .rmwLd, fun _ _ _ _ => none),
  (0x12, .rmwSt, fun _ _ b _ => some b.toNat)]

/-- An rmw on a scratchpad, the core's own or another of its cluster that is bound to the launch, reads its datum,
writes what its row says, and delivers the old datum (rmw.st: token 0); no other byte and no other core changes; the
core's own bytes for the place that it had not published yet are replaced (R58, R59, R238, R246). -/
def Sys2Proof.Claim.AtomicsOnScratch : Prop :=
  ∀ (opc : Nat) (mk : MU → Instr) (new : Nat → Nat → Word → Word → Option Nat) (w : MU) (s : State) (e : Env)
    (a b c : Word) (target off : Nat), (opc, mk, new) ∈ rmwRows →
    let n := sizeOfType w.typ.toNat
    let ea := laneEa e w a n
    let old := ofBytes ((s.dev.core target).scratch.read off n)
    (mk w).wf = true → Ready s (muWord opc w) e a b c → AddrGood e w a n → e.pass.rev = false →
    (w.space = 1 ∧ target = e.core ∧ off = ea) ∨ (w.space = 2 ∧ cxTarget s.dev e ea = some target ∧ off = ea % 2 ^ 21) →
    scratchBadAt s.dev target off n = false →
    exec (mk w) s = .next (s.gave
      (match new w.typ.toNat old b c with
        | some v => scratchWrite (dropRemote s.dev e.core target off n) target off (toBytes n v)
        | none => s.dev)
      e (muWord opc w) (if opc = 0x12 then 0 else deliver w.typ.toNat old) Fx.none)

/-- An rmw of core scope on global memory acts on the core's own view: it delivers what the core reads there, and what
it writes is core-visible and nowhere else. One of cluster scope acts at the cluster's point: it delivers what the
point holds, and leaves the new datum there, seen by no other cluster and not at home, with no unpublished bytes of the
core's own over it (R53, R57, R238). -/
def Sys2Proof.Claim.AtomicsInTheCluster : Prop :=
  ∀ (opc : Nat) (mk : MU → Instr) (new : Nat → Nat → Word → Word → Option Nat) (w : MU) (s : State) (e : Env)
    (a b c : Word) (x : Xlated) (d : Device), (opc, mk, new) ∈ rmwRows →
    let n := sizeOfType w.typ.toNat
    let ea := laneEa e w a n
    let t := w.typ.toNat
    let cl := e.core / 8
    let gives (d' : Device) (old : Nat) : Prop := exec (mk w) s =
      .next (s.gave d' e (muWord opc w) (if opc = 0x12 then 0 else deliver t old) Fx.none)
    (mk w).wf = true → Ready s (muWord opc w) e a b c → w.space = 0 → AddrGood e w a n → e.pass.rev = false →
    e.core < s.dev.cores.length → cl < s.dev.clusters.length → Reaches s.dev e ea true x d → x.host = false →
    badAt d x.key n = false →
    (w.scope = 1 →
      let old := ofBytes (coreRead d e.core (threadOf d e.core e.l.tid).seen x.key n).1
      ∃ d', gives d' old ∧ d'.mem = s.dev.mem ∧ d'.clusters = s.dev.clusters ∧
        (∀ k, k ≠ e.core → d'.core k = s.dev.core k) ∧
        ∀ v, new t old b c = some v → ∀ i, i < n → (d'.core e.core).cache.own (x.key + i) = (toBytes n v)[i]?) ∧
    (w.scope = 2 →
      let old := ofBytes ((span x.key n).map (pointByte s.dev cl))
      ∃ d', gives d' old ∧ (∀ k, homeByte d' k = homeByte s.dev k) ∧
        (∀ m, m ≠ cl → (d'.cluster m).point = (s.dev.cluster m).point) ∧
        (∀ k, k < x.key ∨ x.key + n ≤ k → pointByte d' cl k = pointByte s.dev cl k) ∧
        (∀ k, k ≠ e.core → d'.core k = s.dev.core k) ∧
        (new t old b c = none → (span x.key n).map (pointByte d' cl) = (span x.key n).map (pointByte s.dev cl)) ∧
        ∀ v, new t old b c = some v → (span x.key n).map (pointByte d' cl) = toBytes n v ∧
          ∀ i, i < n → (d'.core e.core).cache.own (x.key + i) = none)

/-- A device-scope or system-scope rmw acts on the bytes at home as one access: it delivers the old datum, leaves the
new one there, and changes no other byte and no register (R57, R238). -/
def Sys2Proof.Claim.AtomicsAtHome : Prop :=
  ∀ (opc : Nat) (mk : MU → Instr) (new : Nat → Nat → Word → Word → Option Nat) (w : MU) (s : State) (e : Env)
    (a b c : Word) (x : Xlated) (d : Device), (opc, mk, new) ∈ rmwRows →
    let n := sizeOfType w.typ.toNat
    let ea := laneEa e w a n
    (mk w).wf = true → Ready s (muWord opc w) e a b c → w.space = 0 → 3 ≤ w.scope.toNat → AddrGood e w a n →
    e.pass.rev = false → s.dev.mem.wf = true → Reaches s.dev e ea true x d →
    x.host = false → badAt d x.key n = false →
    let old := ofBytes (homeRead s.dev x.key n)
    ∃ d', exec (mk w) s =
        .next (s.gave d' e (muWord opc w) (if opc = 0x12 then 0 else deliver w.typ.toNat old) Fx.none) ∧
      (∀ v, new w.typ.toNat old b c = some v → homeRead d' x.key n = toBytes n v) ∧
      (new w.typ.toNat old b c = none → homeRead d' x.key n = homeRead s.dev x.key n) ∧
      (∀ k, k < x.key ∨ x.key + n ≤ k → homeByte d' k = homeByte s.dev k) ∧
      (∀ k, (d'.core k).regs = (s.dev.core k).regs ∧ (d'.core k).scratch = (s.dev.core k).scratch)

/-- chs appends B to the downstream partner's FIFO of the channel, or to the sender's spill ring while the FIFO is
full; chr takes the head of its own FIFO, which the upstream ring refills, and does not fire while it is empty
(R175, R176, R240). -/
def Sys2Proof.Claim.Channels : Prop :=
  ∀ (w : MU) (s : State) (e : Env) (a b c : Word),
    let n := channelOf w a
    n < 16 → e.pass.rev = false →
    (∀ p, Ready s (muWord 0x18 w) e a b c → e.bound.cidx + stageCores e.bound < e.bound.ncores →
      coreOfRun s.dev e.bound.run (e.bound.cidx + stageCores e.bound) = some p →
      let fifo := ((s.dev.core p).fifos.find n).getD []
      let ring := ((s.dev.core e.core).rings.find n).getD []
      (fifo.length < 64 → ring = [] → exec (.chs w) s = .next (s.gave
        (s.dev.modCore p fun k => { k with fifos := k.fifos.put n (fifo ++ [b]) }) e (muWord 0x18 w) 0 Fx.none)) ∧
      (64 ≤ fifo.length ∨ ring ≠ [] → ring.length < 4096 → exec (.chs w) s = .next (s.gave
        (s.dev.modCore e.core fun k => { k with rings := k.rings.put n (ring ++ [b]) }) e (muWord 0x18 w) 0
          Fx.none))) ∧
    (Ready s (muWord 0x19 w) e a b c → stageCores e.bound ≤ e.bound.cidx →
      (((s.dev.core e.core).fifos.find n).getD [] = [] → exec (.chr w) s = .next s) ∧
      (∀ v rest, ((s.dev.core e.core).fifos.find n).getD [] = v :: rest → ∃ d',
        exec (.chr w) s = .next (s.gave d' e (muWord 0x19 w) v Fx.none) ∧
        (∀ u, coreOfRun s.dev e.bound.run (e.bound.cidx - stageCores e.bound) = some u → u ≠ e.core →
          u < s.dev.cores.length → e.core < s.dev.cores.length →
          ((d'.core e.core).fifos.find n).getD [] ++ ((d'.core u).rings.find n).getD [] =
            rest ++ ((s.dev.core u).rings.find n).getD [])))

/-- The adjoint nodes act on the cell that the region maps the primal address to: adj.ld delivers it; adj.st and
adj.rc defer a store of B, or of 0, to commit; adj.acc adds B by the type's own sum at once
(R63, R241, R242). -/
def Obligations.AdjointCells : Prop :=
  ∀ (w : MU) (s : State) (e : Env) (a b c : Word) (r : Region) (x : Xlated) (d : Device),
    let n := sizeOfType w.typ.toNat
    let t := w.typ.toNat
    let ea := (effAddr e 15 a w.off n).1
    let cell := if r.priv then r.adj + e.bound.cidx * r.size + (ea - r.base) else r.adj + (ea - r.base)
    e.bound.regions.find? (fun r => decide (r.base ≤ ea ∧ ea < r.base + r.size)) = some r → r.typ = t → ea % n = 0 →
    badAt d x.key n = false → inSpillRings d e.bound.ctx cell n = false →
    (Ready s (muWord 0x20 w) e a b c → Reaches s.dev e cell false x d →
      exec (.adjLd w) s = .next (s.gave (loadAt d e.core e.l.tid x.key n).2 e (muWord 0x20 w)
        (deliver t (ofBytes (loadAt d e.core e.l.tid x.key n).1)) Fx.none)) ∧
    (Reaches s.dev e cell true x d →
      (Ready s (muWord 0x21 w) e a b c → exec (.adjSt w) s = .next (s.gave d e (muWord 0x21 w) 0
        ⟨0, [], [⟨e.node, .home x.key, cell, n, b.toNat, false, nodePage d e cell⟩]⟩)) ∧
      (Ready s (muWord 0x23 w) e a b c → exec (.adjRc w) s = .next (s.gave (loadAt d e.core e.l.tid x.key n).2 e
        (muWord 0x23 w) (deliver t (ofBytes (loadAt d e.core e.l.tid x.key n).1))
        ⟨0, [], [⟨e.node, .home x.key, cell, n, 0, false,
          nodePage (loadAt d e.core e.l.tid x.key n).2 e cell⟩]⟩)) ∧
      (t < 8 → Ready s (muWord 0x22 w) e a b c → r.priv = false → s.dev.mem.wf = true →
        ∃ d', exec (.adjAcc w) s = .next (s.gave d' e (muWord 0x22 w) 0 Fx.none) ∧
          homeRead d' x.key n =
            toBytes n (fpAdd (fmtOfType t) (ofBytes (homeRead s.dev x.key n)) (b.toNat % 2 ^ (8 * n))).1 ∧
          ∀ k, k < x.key ∨ x.key + n ≤ k → homeByte d' k = homeByte s.dev k))

/-- On a deque whose header is good, with TOP t and BOTTOM b: push writes the entry and BOTTOM + 1, or answers FULL;
pop takes the entry below BOTTOM and steal the one at TOP, or they answer EMPTY (R243, R244). en is the home key of
the entry each of them touches, q the device once the header has been read. -/
def Sys2Proof.Claim.Deques : Prop :=
  ∀ (w : MU) (s : State) (e : Env) (a v c : Word) (t b lg base : Nat) (x y : Xlated) (d d' : Device),
    let q := (dqRead d e x.key 64).2
    let h := (effAddr e 15 a w.off 8).1
    let cap := 2 ^ lg
    let entry (i : Nat) : Nat := base + 8 * (i % cap)
    e.pass.rev = false → h < 2 ^ 56 → h % 64 = 0 → Reaches s.dev e h true x d →
    x.host = false → badAt d x.key 64 = false →
    wordsOf 8 (homeRead d x.key 64) =
      [BitVec.ofNat 64 t, BitVec.ofNat 64 b, BitVec.ofNat 64 lg, BitVec.ofNat 64 base, 0, 0, 0, 0] →
    t ≤ b → b ≤ t + cap → b < 2 ^ 64 - 1 → 1 ≤ lg → lg ≤ 24 → base < 2 ^ 56 → base % 8 = 0 →
    y.host = false → badAt d' y.key 8 = false →
    (Ready s (muWord 0x28 w) e a v c → v.getLsbD 63 = false → b < t + cap →
      Reaches q e (entry b) true y d' →
      exec (.dqPush w) s = .next (s.gave (dqWrite (dqWrite d' e.core y.key v.toNat) e.core (x.key + 8) (b + 1))
        e (muWord 0x28 w) 0 Fx.none)) ∧
    (Ready s (muWord 0x28 w) e a v c → v.getLsbD 63 = false → b = t + cap →
      exec (.dqPush w) s = .next (s.gave q e (muWord 0x28 w) 0x8000000000000001 Fx.none)) ∧
    (Ready s (muWord 0x29 w) e a v c → t < b → Reaches q e (entry (b - 1)) true y d' →
      exec (.dqPop w) s = .next (s.gave (dqWrite (dqRead d' e y.key 8).2 e.core (x.key + 8) (b - 1)) e (muWord 0x29 w)
        (homeWord d' y.key) Fx.none)) ∧
    (Ready s (muWord 0x2A w) e a v c → t < b → Reaches q e (entry t) true y d' →
      exec (.dqSteal w) s = .next (s.gave (dqWrite (dqRead d' e y.key 8).2 e.core x.key (t + 1)) e (muWord 0x2A w)
        (homeWord d' y.key) Fx.none)) ∧
    (t = b → (Ready s (muWord 0x29 w) e a v c →
        exec (.dqPop w) s = .next (s.gave q e (muWord 0x29 w) 0x8000000000000000 Fx.none)) ∧
      (Ready s (muWord 0x2A w) e a v c →
        exec (.dqSteal w) s = .next (s.gave q e (muWord 0x2A w) 0x8000000000000000 Fx.none)))

/-- pub and refresh complete with token 0 once the set is published, which words of it may have been before, or the
refresh points of the scope and of every narrower one have moved to now (R53, R54, R245). -/
def Sys2Proof.Claim.PublishAndRefresh : Prop :=
  ∀ (w : MU) (s : State) (e : Env) (a b c : Word),
    (Ready s (muWord 0xC0 w) e a b c →
      exec (.pub w) s =
        .next (s.gave (completePub s.dev e.core e.lane e.node w.scope.toNat) e (muWord 0xC0 w) 0 Fx.none) ∧
      ((s.dev.core e.core).cache.pub = none →
        exec (.pub w) s = .next (s.gave (publish s.dev e.core w.scope.toNat) e (muWord 0xC0 w) 0 Fx.none)) ∧
      (∀ p k, (s.dev.core e.core).cache.pub = some p → p.lane = e.lane → p.node = e.node →
        k = modCache s.dev e.core (fun c => { c with pub := none }) →
        exec (.pub w) s = .next (s.gave (publishWords k e.core p.scope p.words) e (muWord 0xC0 w) 0 Fx.none))) ∧
    (Ready s (muWord 0xC1 w) e a b c → e.core < s.dev.cores.length → ∃ d',
      exec (.refresh w) s = .next (s.gave d' e (muWord 0xC1 w) 0 Fx.none) ∧
      let k := (s.dev.core e.core).cache
      let k' := (d'.core e.core).cache
      k'.refreshCl = (if 2 ≤ w.scope.toNat then s.dev.mem.log.length else k.refreshCl) ∧
      k'.refreshDev = (if 3 ≤ w.scope.toNat then s.dev.mem.log.length else k.refreshDev) ∧
      k'.refreshSys = (if 4 ≤ w.scope.toNat then s.dev.mem.log.length else k.refreshSys) ∧ d'.mem = s.dev.mem)

/-- Device-scope publication takes every core-visible byte of device memory home, and leaves none unpublished but
those of host-mapped pages (R40, R53). -/
def Sys2Proof.Claim.PublicationReachesHome : Prop :=
  ∀ (d : Device) (core : Nat), core < d.cores.length → d.mem.wf = true →
    ((d.core core).cache.dirty.map (·.1)).Pairwise (· < ·) → (d.core core).cache.remote = [] →
    (d.core core).cache.pub = none →
    (∀ a b, (d.core core).cache.dirty.find a = some b → isHostKey a = false →
      homeByte (publish d core 3) a = b ∧ ((publish d core 3).core core).cache.dirty.find a = none) ∧
    (∀ a, (d.core core).cache.dirty.find a = none → (d.core core).cache.sent.find a = none →
      homeByte (publish d core 3) a = homeByte d a)

/-! ## System registers, invalidation and thread control (02_memory_model, 09_core_memory, 12_core_faults) -/

/-- rdsr delivers the register that its number names, and reading changes nothing (R249; the registers' tables). -/
def Sys2Proof.Claim.RegistersRead : Prop :=
  ∀ (w : MU) (s : State) (e : Env) (a b c : Word), Ready s (muWord 0xC3 w) e a b c →
    let r := (s.dev.core e.core).regs
    let cl := s.dev.cluster (e.core / 8)
    ∃ v, exec (.rdsr w) s = .next (s.gave s.dev e (muWord 0xC3 w) v Fx.none) ∧
      ∀ p ∈ ([(0x010, r.fpflags), (0x011, r.fptrap), (0x020, r.agelimit), (0x030, r.tapebase), (0x031, r.tapelimit),
          (0x032, r.tapehead), (0x033, r.dmode), (0x040, r.xlroot), (0x041, r.xlasid), (0x042, 0), (0x050, r.faultbase),
          (0x051, r.xltimeout), (0x052, r.faultctl), (0x060, s.dev.xrimg), (0x070, r.mxtest), (0x071, r.mxstat),
          (0x080, s.dev.mcswin), (0x081, BitVec.ofNat 64 s.dev.mcsResult), (0x090, cl.fillLr), (0x091, cl.fillBuf),
          (0x0A1, s.dev.dist.pool), (0x0A2, s.dev.dist.count), (0x0A3, r.launch), (0x0B0, s.dev.devid),
          (0x0B1, s.dev.ringTimeout), (0x0C0, s.dev.host.feat), (0x0C1, s.dev.host.featx),
          (0x0C2, s.dev.host.featack), (0x0C3, s.dev.host.featackx), (0x092, fillStat cl),
          (0x061, BitVec.ofNat 64 (s.dev.xrResult * 2 ^ 32 + xrLoaded s.dev)),
          (0x0A0, BitVec.ofNat 64 (s.clock / 1750)),
          (0x0B2, BitVec.ofNat 64 (s.dev.replays * 2 ^ 32 + s.dev.portsUp))] : List (Nat × Word)),
        w.imm.toNat = p.1 → v = p.2

/-- A permitted wrsr of a plain register writes it with operand A, and of SYS_TAPEBASE also sets HEAD to A + 64;
every other register of the core keeps its value and every other core is left alone (R249, R259). -/
def Sys2Proof.Claim.RegistersWrite : Prop :=
  ∀ (w : MU) (s : State) (e : Env) (v b c : Word), Ready s (muWord 0xC4 w) e v b c → e.pass.rev = false →
    (w.imm ≠ 0x010 → e.bound.priv = true) → zeroIn v (regReserved w.imm.toNat) = true →
    regForbids s.dev e.core w.imm.toNat v = false →
    let r := (s.dev.core e.core).regs
    let sets (i : Instr) (num : BitVec 16) (r' : CoreRegs) : Prop := w.imm = num → exec i s = .next (s.gave
      (s.dev.modCore e.core fun k => { k with regs := r' }) e (muWord 0xC4 w) 0 Fx.none)
    e.core < s.dev.cores.length →
    sets (.wrsr w) 0x010 { r with fpflags := v } ∧ sets (.wrsr w) 0x011 { r with fptrap := v } ∧
    sets (.wrsr w) 0x020 { r with agelimit := v } ∧ sets (.wrsr w) 0x040 { r with xlroot := v } ∧
    sets (.wrsr w) 0x041 { r with xlasid := v } ∧ sets (.wrsr w) 0x050 { r with faultbase := v } ∧
    sets (.wrsr w) 0x051 { r with xltimeout := v } ∧ sets (.wrsr w) 0x052 { r with faultctl := v } ∧
    sets (.wrsr w) 0x070 { r with mxtest := v } ∧
    sets (.tapebaseWrite w) 0x030 { r with tapebase := v, tapehead := v + 64 } ∧
    sets (.tapelimitWrite w) 0x031 { r with tapelimit := v } ∧
    (w.imm = 0x0B1 → exec (.wrsr w) s = .next (s.gave { s.dev with ringTimeout := v } e (muWord 0xC4 w) 0 Fx.none)) ∧
    (w.imm = 0x090 → exec (.wrsr w) s = .next (s.gave
      (s.dev.modCluster (e.core / 8) fun k => { k with fillLr := v }) e (muWord 0xC4 w) 0 Fx.none)) ∧
    (w.imm = 0x091 → exec (.wrsr w) s = .next (s.gave
      (s.dev.modCluster (e.core / 8) fun k => { k with fillBuf := v }) e (muWord 0xC4 w) 0 Fx.none))

/-- A write without the right to it is poison of class PERMISSION, and a reserved or forbidden value poison of class
BOUNDS, both without an address; the device is left unchanged (R46, R249, R413). -/
def Sys2Proof.Claim.RegisterWriteRefused : Prop :=
  ∀ (i : Instr) (w : MU) (s : State) (e : Env) (v b c : Word),
    i ∈ [.wrsr w, .xlinvPage w, .xlinvAsid w, .xlinvAll w, .tapebaseWrite w, .tapelimitWrite w, .mcswinLoad w,
      .xrimgLoad w] →
    Ready s (muWord 0xC4 w) e v b c → e.pass.rev = false →
    let bad (cls : Nat) : Host.Outcome State Fault Refusal :=
      .next (s.gaveToken s.dev e (.poison ⟨e.pass.block, e.node, cls, 0, 0⟩))
    (w.imm ≠ 0x010 → e.bound.priv = false → exec i s = bad 0x0003) ∧
    (w.imm ∈ ([0x032, 0x033, 0x061, 0x071, 0x081, 0x092, 0x0A0, 0x0A1, 0x0A2, 0x0A3, 0x0B0, 0x0B2] :
        List (BitVec 16)) → exec i s = bad 0x0003) ∧
    ∀ p ∈ ([(0x010, maskOf 63 6, false), (0x011, maskOf 63 6, false), (0x020, maskOf 63 8, v == 0),
        (0x030, maskOf 63 56 + maskOf 5 0, fld (s.dev.core e.core).regs.dmode 1 0 != 0),
        (0x031, maskOf 63 56 + maskOf 2 0, decide (v.toNat < (s.dev.core e.core).regs.tapehead.toNat)),
        (0x040, maskOf 63 48 + maskOf 10 0, false), (0x041, maskOf 63 16, false),
        (0x042, maskOf 63 56 + maskOf 11 4, decide (2 < fld v 3 0)), (0x050, maskOf 63 56 + maskOf 5 0, false),
        (0x051, maskOf 63 32, v == 0), (0x052, maskOf 63 1, false), (0x060, maskOf 63 56 + maskOf 2 0, false),
        (0x070, maskOf 63 16, false), (0x080, maskOf 63 56 + maskOf 2 0, false),
        (0x090, maskOf 63 32 + maskOf 30 25, decide (256 < fld v 24 16)
          || (bit v 31 && (fld v 24 16 == 0 || (s.dev.cluster (e.core / 8)).fillBuf == 0))),
        (0x091, maskOf 63 56 + maskOf 5 0, v == 0 && bit (s.dev.cluster (e.core / 8)).fillLr 31),
        (0x0B1, maskOf 63 32, v == 0 || decide (40000 < v.toNat))] : List (Nat × Nat × Bool)),
      w.imm.toNat = p.1 → (p.1 ≠ 0x010 → e.bound.priv = true) → (zeroIn v p.2.1 = false ∨ p.2.2 = true) →
      exec i s = bad 0x0005

/-- A write to SYS_XLINV that no pending store or engine write stands before removes the selected translations from
every core (those of a page, of an address space, or all), wakes every held access, and touches no memory; it does
not complete while one is pending (R47, R286). -/
def Sys2Proof.Claim.Invalidation : Prop :=
  ∀ (w : MU) (s : State) (e : Env) (v b c : Word), Ready s (muWord 0xC4 w) e v b c → e.pass.rev = false →
    w.imm = 0x042 → e.bound.priv = true → zeroIn v (regReserved 0x042) = true →
    let asid := (s.dev.core e.core).regs.xlasid.toNat
    let va := fld v 55 12 * 4096
    let pending := ((s.dev.cores ++ savedCores s.dev).any fun k =>
        storePending k asid (fld v 3 0) va || compPending k asid (fld v 3 0) va)
      || (outsideComps s.dev).any fun k => k.isGlobal && k.page.hit asid (fld v 3 0) va
    ∀ p ∈ ([(0, Instr.xlinvPage w), (1, .xlinvAsid w), (2, .xlinvAll w)] : List (Nat × Instr)), fld v 3 0 = p.1 →
      (pending = true → exec p.2 s = .next s) ∧
      (pending = false → ∃ d', exec p.2 s = .next (s.gave d' e (muWord 0xC4 w) 0 Fx.none) ∧
        d'.mem = s.dev.mem ∧ d'.cores.length = s.dev.cores.length ∧
        ∀ k, k < s.dev.cores.length →
          (d'.core k).cache.xl = (s.dev.core k).cache.xl.filter (fun x =>
            !(p.1 == 2 || x.asid == asid && (p.1 == 1 || decide (x.va ≤ va ∧ va < x.va + x.size)))) ∧
          ∀ q, (d'.core k).pass = some q → ∀ l ∈ q.lanes, ∀ h ∈ l.held, h.2.woken = true)

/-- Does a signature over a body hold under one of the signer keys that the firmware carries, at most 8 (R479)? -/
def Sys2Proof.Claim.Signed (d : Device) (body sig : List Byte) : Prop :=
  ∃ key ∈ (Config.signerKeys d.host.m0).take 8, Config.signatureOk key (Config.shake256 body) sig = true

/-- The header of a control-store image for n microwords from START on (R379). -/
def Sys2Proof.Claim.StoreHeader (h : List Byte) (start n : Nat) : Prop :=
  let ws := wordsOf 4 h
  let w := ws.getD 0 0
  fld w 63 48 = 0x4D57 ∧ fld w 47 40 = 1 ∧ fld w 39 28 = 0 ∧ fld w 27 16 = start ∧ fld w 15 13 = 0 ∧ fld w 12 0 = n ∧
  1 ≤ n ∧ start + n ≤ 4096 ∧ (ws.drop 1).all (· == 0) = true

/-- The header of a routine image: its slot, range, entry and budget (R336). -/
def Sys2Proof.Claim.RoutineHeader (h : List Byte) (slot len off entry budget : Nat) : Prop :=
  let ws := wordsOf 4 h
  let w := ws.getD 0 0
  fld w 63 48 = 0x5852 ∧ fld w 47 40 = 1 ∧ fld w 39 37 = 0 ∧ fld w 36 32 = slot ∧ fld w 31 0 = 0 ∧
  fld (ws.getD 1 0) 63 32 = len ∧ fld (ws.getD 1 0) 31 0 = off ∧ fld (ws.getD 2 0) 63 32 = entry ∧
  fld (ws.getD 2 0) 31 0 = budget ∧ len % 2 = 0 ∧ len ≤ 65536 ∧ off % 256 = 0 ∧ off + len ≤ 65536 ∧ entry % 2 = 0 ∧
  (len ≠ 0 → entry < len) ∧ budget ≠ 0 ∧ ws.getD 3 0 = 0

/-- A load of the control store or of a transform routine completes with token 0, and takes effect only where the image
can be read, is well-formed and is signed under a key of the firmware: then RESULT is 0, the microwords stand in the
store, or the routine in its slot, and the measurement register is extended by the digest of the body; otherwise RESULT
says why, 3 or 4 for a read that fails, 1 for the header, 2 for the signature, 3 for a routine that overlaps another,
and nothing else changes (R336 to R338, R379, R479). In it the model's own readings count: logs 11 and 14. -/
def Obligations.SignedLoads : Prop :=
  ∀ (w : MU) (s : State) (e : Env) (v b c : Word), Ready s (muWord 0xC4 w) e v b c → e.pass.rev = false →
    e.bound.priv = true → zeroIn v (regReserved w.imm.toNat) = true →
    let rd := fetchV s.dev e.core true
    let leaves (i : Instr) (d : Device) : Prop := exec i s = .next (s.gave d e (muWord 0xC4 w) 0 Fx.none)
    (w.imm = 0x080 → (∃ d, leaves (.mcswinLoad w) d) ∧
      let fails (r : Nat) : Prop := leaves (.mcswinLoad w) { s.dev with mcswin := v, mcsResult := r }
      (rd v.toNat 32 = none → fails 3) ∧
      ∀ h, rd v.toNat 32 = some h →
        ((∀ start n, ¬StoreHeader h start n) → fails 1) ∧
        ∀ start n, StoreHeader h start n →
          let body := rd v.toNat (32 + 12 * n)
          let sig := rd (v.toNat + up8 (32 + 12 * n)) 3309
          (body = none ∨ sig = none → fails 3) ∧
          ∀ bs sg, body = some bs → sig = some sg → (¬Signed s.dev bs sg → fails 2) ∧
            (Signed s.dev bs sg → ∃ d', leaves (.mcswinLoad w) d' ∧ d'.mcswin = v ∧ d'.mcsResult = 0 ∧
              d'.host.m1 = Config.shake256 (s.dev.host.m1 ++ Config.shake256 bs) ∧
              (∀ k, k < n → microAt d' (start + k) = BitVec.ofNat 96 (ofBytes ((bs.drop (32 + 12 * k)).take 12))) ∧
              (∀ k, k < start ∨ start + n ≤ k → microAt d' k = microAt s.dev k) ∧ d'.mem = s.dev.mem ∧
              d'.cores = s.dev.cores)) ∧
    (w.imm = 0x060 → (∃ d, leaves (.xrimgLoad w) d) ∧
      let fails (r : Nat) : Prop := leaves (.xrimgLoad w) { s.dev with xrimg := v, xrResult := r }
      (rd v.toNat 32 = none → fails 4) ∧
      ∀ h, rd v.toNat 32 = some h →
        ((∀ slot len off entry budget, ¬RoutineHeader h slot len off entry budget) → fails 1) ∧
        ∀ slot len off entry budget, RoutineHeader h slot len off entry budget →
          let body := rd v.toNat (32 + len)
          let sig := rd (v.toNat + up8 (32 + len)) 3309
          let clash := ∃ x ∈ s.dev.routines, x.1 ≠ slot ∧ overlaps off len x.2.off x.2.code.length = true
          (body = none ∨ sig = none → fails 4) ∧
          ∀ bs sg, body = some bs → sig = some sg → (¬Signed s.dev bs sg → fails 2) ∧
            (Signed s.dev bs sg → clash → fails 3) ∧
            (Signed s.dev bs sg → ¬clash → ∃ d', leaves (.xrimgLoad w) d' ∧ d'.xrimg = v ∧ d'.xrResult = 0 ∧
              d'.host.m2 = Config.shake256 (s.dev.host.m2 ++ Config.shake256 bs) ∧
              d'.routines.find slot = (if bs.drop 32 = [] then none else some ⟨bs.drop 32, off, entry, budget⟩) ∧
              (∀ k, k ≠ slot → d'.routines.find k = s.dev.routines.find k) ∧ d'.mem = s.dev.mem ∧
              d'.cores = s.dev.cores))

/-- th.ctl checks the designator, the command, the target and the issuer, and queues the request with the target core,
delivering token 0; what fails a check is poison with the designator and queues nothing (R247, R248). -/
def Sys2Proof.Claim.ThreadControl : Prop :=
  ∀ (w : MU) (s : State) (e : Env) (a b c : Word), Ready s (muWord 0xC2 w) e a b c → e.pass.rev = false →
    let bad (cls : Nat) : Host.Outcome State Fault Refusal :=
      .next (s.gaveToken s.dev e (.poison ⟨e.pass.block, e.node, cls, a, 0⟩))
    ∀ i ∈ [Instr.thCtlResume w, .thCtlRestart w],
      (2 ^ 26 ≤ a.toNat ∨ fld a 15 12 ≠ 0 ∨ 2 ≤ b.toNat ∨ coreOfCode (fld a 25 16) = none → exec i s = bad 0x0005) ∧
      (∀ t k, a.toNat < 2 ^ 26 → fld a 15 12 = 0 → b.toNat < 2 → coreOfCode (fld a 25 16) = some t →
        (s.dev.core t).bound = some k → t / 8 = e.core / 8 → fld a 11 0 < k.nthreads →
        let armed := k.handler = some e.bound.record ∧ ∃ m ∈ s.dev.cores, (∃ q, m.bound = some q ∧ q.run = k.run) ∧
          (m.handling = .armed ∨ m.handling = .again)
        (e.bound.priv = false → ¬armed → exec i s = bad 0x0003) ∧
        (e.bound.priv = true ∨ armed →
          (b = 1 → (w.c = 0xFF ∨ 255 < c.toNat) → exec i s = bad 0x0005) ∧
          (b = 0 ∨ (w.c ≠ 0xFF ∧ c.toNat ≤ 255) → exec i s = .next (s.gave
            (s.dev.modCore t fun k => { k with ctls := k.ctls ++ [⟨fld a 11 0, b == 1, c.toNat⟩] })
            e (muWord 0xC2 w) 0 Fx.none))))

/-! ## Exits, faults and resumption (06_core_execution, 07_core_integer_control, 12_core_faults) -/

/-- An instruction goes on and leaves the device d; clock, agenda and focus stay. -/
def Sys2Proof.Claim.Does (i : Instr) (s : State) (d : Device) : Prop := exec i s = .next { s with dev := d }

/-- A thread's status becomes st, and what it kept for its block is discarded (R170, R283). -/
def Sys2Proof.Claim.moves (d : Device) (e : Env) (st : Status) : Device :=
  modThread d e.core e.l.tid fun t => { t with status := st, done := 0, replay := [0, 0, 0, 0] }

/-- A thread's commit at its retirement, after which none of its stores is pending (R168, R233). -/
def Sys2Proof.Claim.commits (d : Device) (e : Env) : Device := commitLane (dropStores d e) e

/-- A thread parks at an exit word x for an instance or a word (R170). -/
def Sys2Proof.Claim.parks (d : Device) (e : Env) (x : EX) (k : ParkKind) (deadline : Option Nat) : Device :=
  moves d e (.parked
    ⟨k, e.pass.block, x.t.toNat, if x.status = 0xFF then none else some x.status.toNat, deadline, false⟩)

/-- A thread faults with an origin: its record, and FAULTED (R281). -/
def Sys2Proof.Claim.faultsAt (d : Device) (e : Env) (o : Origin) : Device :=
  takeFault d e.core e.l.tid false
    { passNum := e.pass.num, node := o.node, block := e.pass.block, code := o.cls, addr := o.addr, pend := e.l.pend
      held := false, rev := e.pass.rev, exc := o.exc, done := e.l.done, replay := e.l.replay }

/-- What an exit does with a thread whose operands are values: d is the device before its commit. A wait with a timeout
of 0 is tested once, at parking (R171, R196 to R203, R263,
R269). -/
def Sys2Proof.Claim.exitOutcome : Instr → Option (EX × (Device → Env → Device))
  | .exitBr x => some (x, fun d e => moves (commits d e) e (.waiting x.t.toNat))
  | .exitCbr x => some (x, fun d e =>
      let d := commits d e
      moves d e (.waiting (if (exitVal d e x.a).getLsbD 0 then x.t.toNat else x.f.toNat)))
  | .exitInd x => some (x, fun d e =>
      let n := exitVal d e x.a
      if 255 < n.toNat then faultsAt (dropStores d e) e ⟨e.pass.block, 0x40, 0x0010, 0, 0⟩
      else match blockEntry d e.core n.toNat with
        | (.error _, d) => faultsAt (dropStores d e) e ⟨e.pass.block, 0x40, 0x0010, 0, 0⟩
        | (.ok _, d) =>
          let d := commits d e
          moves d e (.waiting (exitVal d e x.a).toNat))
  | .exitSw x => some (x, fun d e =>
      let d := commits d e
      let i := (exitVal d e x.a).toNat
      moves d e (.waiting (if i ≤ 31 then imgSwitch e.words i else x.f.toNat)))
  | .exitRetire x => some (x, fun d e =>
      modThread (commits d e) e.core e.l.tid fun t => { t with status := .retired })
  | .exitTrap x => some (x, fun d e => takeFault (commits d e) e.core e.l.tid true
      { passNum := e.pass.num, node := 0x40, block := e.pass.block, code := 0xFF00 + x.mod.toNat, addr := 0
        pend := false, held := false, rev := false, exc := 0, done := 0, replay := [0, 0, 0, 0] })
  | .exitBar x => some (x, fun d e =>
      let d := commits d e
      testAtParking (parks d e x (.bar (x.mod.toNat % 16)) (deadlineOf d e x)) e x fun d =>
        checkBar d e.core (x.mod.toNat % 16))
  | .exitWait x => some (x, fun d e =>
      let d := commits d e
      let a := exitVal d e x.a
      let v := exitVal d e x.b
      match waitPlace d e (x.mod.toNat % 16) a with
      | (.error c, d) => faultsAt d e ⟨e.pass.block, 0x40, c, a, 0⟩
      | (.ok w, d) => testAtParking (releaseWait
          (parks d e x (.wait (x.mod.toNat % 16) (x.mod.toNat / 16) w v) (deadlineOf d e x)) e.core e.l.tid) e x id)
  | .exitPhase x => some (x, fun d e =>
      let d := commits d e
      testAtParking (parks d e x (.phase (x.mod.toNat % 16)) (deadlineOf d e x)) e x fun d => checkPhase d e.core)
  | .exitDfwd x => some (x, fun d e => parks (commits d e) e x (.dfwd x.t.toNat x.f.toNat) none)
  | .exitDrev x => some (x, fun d e => parks (commits d e) e x .drev none)
  | _ => none

/-- The threads of a beat retire in order: each whose exit operands or nodes hold poison or a cancel at the exit
faults without committing; every other takes the exit's outcome (R167, R168, R194, R280). -/
def Sys2Proof.Claim.retireAll (now core : Nat) (x : EX) (f : Device → Env → Device) : List Nat → Device → Device
  | [], d => d
  | i :: t, d =>
    match envOf d now ⟨core, i, 0x40⟩ with
    | none => retireAll now core x f t d
    | some e => retireAll now core x f t (match exitOrigin d e x with
      | some o => faultsAt (dropStores d e) e o
      | none => f d e)

/-- Every exit retires the oldest beat of the focus's core, once it is complete: its threads take the exit's outcome,
and after the last beat the pass ends (R168, R194 to R203, R263, R269). The event BEAT_RETIRE does the same with the
exit word of the active image. -/
def Sys2Proof.Claim.ExitsRetireTheBeat : Prop :=
  ∀ (i : Instr) (s : State) (x : EX) (f : Device → Env → Device) (p : Pass) (pl : Plane), exitOutcome i = some (x, f) →
    let core := s.focus.core
    let beat := beatLanes p (nextBeat p)
    let after := beatDone (retireAll s.clock core x f beat s.dev) core
      (beat.filterMap fun j => (p.lanes[j]?).map (·.tid))
    (s.dev.core core).pass = some p → (s.dev.core core).active = some pl → p.rev = false →
    beatReady pl.words p = true →
    Does i s after ∧ (decodeExit (imgExit pl.words) = .ok i → Does (.beatRetire core) s after)

/-- A beat that is not complete does not retire: an exit then changes nothing (R168). -/
def Sys2Proof.Claim.IncompleteBeatsWait : Prop :=
  ∀ (i : Instr) (s : State) (x : EX) (f : Device → Env → Device) (p : Pass) (pl : Plane), exitOutcome i = some (x, f) →
    (s.dev.core s.focus.core).pass = some p → (s.dev.core s.focus.core).active = some pl →
    beatReady pl.words p = false → exec i s = .next s

/-- The byte that the stores of a list, performed in order, leave at x of a memory in which at_ places them: of the last
store that covers x. -/
def Sys2Proof.Claim.lastByte (at_ : Place → Option Nat) (x : Nat) (ss : List Store) : Option Byte :=
  (ss.reverse.find? fun s => (at_ s.place).any fun a => decide (a ≤ x ∧ x < a + s.size)).bind fun s =>
    (at_ s.place).bind fun a => (toBytes s.size s.value)[x - a]?

/-- A thread's commit, without recording, makes its stores core-visible in node order: each byte of the core's
scratchpad, of what the core itself sees of global memory, and of what it sees of another scratchpad is that of the
last store to it, and any other byte is as it was. It writes the thread's live slots and ORs its exceptions into
SYS_FPFLAGS; no other register, thread or core, no cluster's point and no home byte changes (R48, R58, R130, R168). -/
def Sys2Proof.Claim.CommitEffect : Prop :=
  ∀ (d : Device) (e : Env), e.core < d.cores.length → e.l.tid < (d.core e.core).threads.length →
    fld (d.core e.core).regs.dmode 1 0 ≠ 1 → (d.core e.core).scratch.wf = true →
    let d' := commitLane d e
    let ss := storesOf e.l
    let c := d.core e.core
    let c' := d'.core e.core
    c'.regs = { c.regs with fpflags := c.regs.fpflags ||| e.l.flags.zeroExtend 64 } ∧
    (threadOf d' e.core e.l.tid).live = e.l.writes.foldl (fun m w => m.set w.1 w.2) (threadOf d e.core e.l.tid).live ∧
    (∀ t, t ≠ e.l.tid → threadOf d' e.core t = threadOf d e.core t) ∧ (∀ k, k ≠ e.core → d'.core k = d.core k) ∧
    (∀ x, c'.scratch.get x = (lastByte (fun p => match p with
      | .scratch a => some a
      | _ => none) x ss).getD (c.scratch.get x)) ∧
    (∀ x, c'.cache.own x = (lastByte (fun p => match p with
      | .home k => some k
      | _ => none) x ss).or (c.cache.own x)) ∧
    (∀ t x, c'.cache.ownRemote t x = (lastByte (fun p => match p with
      | .remote t' a => if t' = t then some a else none
      | _ => none) x ss).or (c.cache.ownRemote t x)) ∧
    d'.mem = d.mem ∧ d'.clusters = d.clusters

/-- Deferred stores commit in node-number order, whatever order their nodes fired in, and none is lost (R168). -/
def Sys2Proof.Claim.StoresCommitInNodeOrder : Prop :=
  ∀ l : Lane, ((storesOf l).map (·.node)).Pairwise (· ≤ ·) ∧ (storesOf l).Perm l.stores

/-- The words of a fault record: pass, node, block and code in word 0, the address in word 1, and in word 2 PEND, HELD,
REV, the exceptions and DONE, then the four replay values (R281). -/
def Sys2Proof.Claim.FaultRecordLayout : Prop :=
  ∀ r : Record, r.node < 256 → r.block < 256 → r.code < 2 ^ 16 → r.replay.length = 4 →
    r.words.length = 8 ∧
    fld (r.words.getD 0 0) 63 32 = r.passNum % 2 ^ 32 ∧ fld (r.words.getD 0 0) 31 24 = r.node ∧
    fld (r.words.getD 0 0) 23 16 = r.block ∧ fld (r.words.getD 0 0) 15 0 = r.code ∧ r.words.getD 1 0 = r.addr ∧
    bit (r.words.getD 2 0) 19 = r.pend ∧ bit (r.words.getD 2 0) 18 = r.held ∧ bit (r.words.getD 2 0) 17 = r.rev ∧
    bit (r.words.getD 2 0) 16 = true ∧ fld (r.words.getD 2 0) 13 8 = r.exc.toNat ∧
    fld (r.words.getD 2 0) 3 0 = r.done.toNat ∧ (r.words.drop 3).take 4 = r.replay

/-- Taking a fault: the thread becomes FAULTED, or HALTED for a trap, at the record's block, with the record's DONE and
REPLAY; its record goes to SYS_FAULTBASE + 64 tid, and where that cannot be written the failure is noted. Live slots,
registers and every other thread keep their values (R155, R281, R282). -/
def Sys2Proof.Claim.TakingAFault : Prop :=
  ∀ (d : Device) (core tid : Nat) (halted : Bool) (r : Record), core < d.cores.length →
    tid < (d.core core).threads.length → d.mem.wf = true →
    let a := (d.core core).regs.faultbase.toNat + 64 * tid
    let d' := takeFault d core tid halted r
    let t := threadOf d' core tid
    t.status = (if halted then .halted r.block else .faulted r.block) ∧ t.done = r.done ∧ t.replay = r.replay ∧
    t.live = (threadOf d core tid).live ∧ t.reported = false ∧ (d'.core core).regs = (d.core core).regs ∧
    (∀ k, k ≠ tid → threadOf d' core k = threadOf d core k) ∧
    (∀ x d1, a % 64 = 0 → access d core a true true = (.ok x, d1) → badAt d1 x.key 64 = false →
      (∀ k, homeByte d' k = if x.key ≤ k ∧ k < x.key + 64 then
        (bytesOfWords r.words).getD (k - x.key) 0 else homeByte d k) ∧
      t.recFailed = false) ∧
    (∀ x d1, a % 64 = 0 → access d core a true true = (.ok x, d1) → badAt d1 x.key 64 = true →
      t.recFailed = true ∧ ∀ k, homeByte d' k = homeByte d k) ∧
    (∀ c d1, access d core a true true = (.error c, d1) → t.recFailed = true ∧ ∀ k, homeByte d' k = homeByte d k)

/-- Resuming a thread that no record can be read for: it waits at the block it was kept for. RESTART names the block
and clears DONE. A thread that is neither FAULTED nor HALTED is left alone (R155, R247, R248, R284). -/
def Sys2Proof.Claim.ResumingAThread : Prop :=
  ∀ (d : Device) (core tid b : Nat), core < d.cores.length → tid < (d.core core).threads.length →
    let st := (threadOf d core tid).status
    ((∀ k, st ≠ .faulted k ∧ st ≠ .halted k) → ∀ q, resumeThread d core tid q = d) ∧
    (st = .faulted b ∨ st = .halted b →
      (∀ k, (threadOf (resumeThread d core tid (some k)) core tid).status = .waiting k ∧
        (threadOf (resumeThread d core tid (some k)) core tid).done = 0) ∧
      (∀ f, (engRead d core true (recordAddr d core tid) 64).1 = .error f →
        (threadOf (resumeThread d core tid none) core tid).status = .waiting b ∧
        (threadOf (resumeThread d core tid none) core tid).done = (threadOf d core tid).done) ∧
      (∀ bs, (engRead d core true (recordAddr d core tid) 64).1 = .ok bs →
        (threadOf (resumeThread d core tid none) core tid).status = .waiting (fld ((wordsOf 8 bs).getD 0 0) 23 16) ∧
        (threadOf (resumeThread d core tid none) core tid).done.toNat = fld ((wordsOf 8 bs).getD 2 0) 3 0))

/-! ## The selector, waits, held accesses and pre-emption (06_core_execution, 11_differentiable, 12_core_faults) -/

/-- The selector chooses, of the non-empty blocks, the oldest whose age has reached SYS_AGELIMIT, else the one with
the most waiting threads; ties go to the lowest number, and where there is a non-empty block one is chosen (R160). -/
def Obligations.SelectorChoice : Prop :=
  (∀ (c : Core) (cand : List Nat), cand ≠ [] → ∃ b, chooseBlock c cand = some b) ∧
  ∀ (c : Core) (cand : List Nat) (b : Nat), cand.Pairwise (· < ·) → chooseBlock c cand = some b →
    let age (x : Nat) : Nat := (c.ages.get x).toNat
    let old := cand.filter fun x => decide (c.regs.agelimit.toNat ≤ age x)
    b ∈ cand ∧
    (old ≠ [] → b ∈ old ∧ ∀ x ∈ old, age x < age b ∨ (age x = age b ∧ b ≤ x)) ∧
    (old = [] → ∀ x ∈ cand, population c x < population c b ∨ (population c x = population c b ∧ b ≤ x))

/-- PASS_SELECT of a core that may select, with no debugger halt waiting and not recording: the chosen block's waiting
threads become STREAMING and form the pass in ascending order, $pass is the count of selections, the block's age
becomes 0 and that of every other non-empty block rises by 1; memory changes only where a thread that a pre-emption
returned takes up its record (R158 to R160, R177). -/
def Sys2Proof.Claim.PassSelection : Prop :=
  ∀ (s : State) (core b : Nat), core < s.dev.cores.length → maySelect (s.dev.core core) = true →
    (∀ t ∈ (s.dev.core core).threads, t.haltReq = false) → fld (s.dev.core core).regs.dmode 1 0 = 0 →
    chooseBlock (s.dev.core core) (candidates (s.dev.core core)) = some b → (s.dev.core core).ages.wf = true →
    let c := s.dev.core core
    ∃ d p, Does (.passSelect core) s d ∧ (d.core core).pass = some p ∧ p.block = b ∧ p.num = c.passes ∧
      p.lanes.map (·.tid) = waitSet c b ∧ p.retired = 0 ∧ p.rev = false ∧
      (∀ t, t < c.threads.length → (threadOf d core t).status =
        if (threadOf s.dev core t).status = .waiting b then .streaming else (threadOf s.dev core t).status) ∧
      (∀ x, x < 256 → ((d.core core).ages.get x).toNat =
        if x = b then 0 else if x ∈ candidates c then min ((c.ages.get x).toNat + 1) 255 else (c.ages.get x).toNat) ∧
      (∀ k, k ≠ core → d.core k = s.dev.core k) ∧
      ((∀ t ∈ waitSet c b, (threadOf s.dev core t).pend = false) → d.mem = s.dev.mem)

/-- A parked exit.wait whose condition holds is released: its thread waits at T, with 1 in its status slot; while the
condition does not hold, nothing happens (R170, R172, R201). -/
def Sys2Proof.Claim.WaitsEnd : Prop :=
  ∀ (s : State) (core tid : Nat) (p : Park) (scope cond a : Nat) (v : Word), core < s.dev.cores.length →
    tid < (s.dev.core core).threads.length → (threadOf s.dev core tid).status = .parked p → p.woken = false →
    p.kind = .wait scope cond (.scratch a) v → (s.dev.core core).preempt ≠ .saved →
      fld (s.dev.core core).regs.dmode 1 0 = 0 →
    (s.dev.core core).tapeFail = none → (threadOf s.dev core tid).live.wf = true →
    let w := scratchWord s.dev core a
    let holds := (cond = 0 ∧ w = v) ∨ (cond = 1 ∧ w ≠ v) ∨ (cond = 2 ∧ v.toNat ≤ w.toNat) ∨ (cond = 3 ∧ w &&& v ≠ 0)
    cond < 4 →
    (¬holds → exec (.waitRelease core tid) s = .next s) ∧
    (holds → ∃ d, Does (.waitRelease core tid) s d ∧ (threadOf d core tid).status = .waiting p.target ∧
      (∀ slot, p.status = some slot → (threadOf d core tid).live.get slot = 1) ∧
      (∀ k, k ≠ tid → threadOf d core k = threadOf s.dev core k))

/-- A wait on a word of a host-mapped page is tested again by HOST_PAGE_WAIT_POLL as by WAIT_RELEASE; a thread that
waits on no such word, or whose context is saved, is left alone (R201). -/
def Sys2Proof.Claim.HostPageWaits : Prop :=
  ∀ (s : State) (core tid : Nat),
    (waitsOnHost (threadOf s.dev core tid) = false ∨ (s.dev.core core).preempt = .saved →
      exec (.hostPageWaitPoll core tid) s = .next s) ∧
    (∀ (p : Park) (scope cond key : Nat) (v : Word), (threadOf s.dev core tid).status = .parked p →
      p.kind = .wait scope cond (.home key) v → hostBase ≤ key → p.woken = false →
      (s.dev.core core).preempt ≠ .saved →
      condHolds cond (waitWordOf s.dev core scope (.home key)) v = true →
      Does (.hostPageWaitPoll core tid) s
        (wakeThread (noteWaitRead s.dev core tid (.wait scope cond (.home key) v)) core tid true))

/-- A timeout that has expired ends a wait whose condition does not hold: the thread is released with status 0; before
the deadline, without one, and while the context is saved, nothing happens (R170, R171). -/
def Sys2Proof.Claim.TimeoutsEndWaits : Prop :=
  ∀ (s : State) (core tid : Nat) (p : Park), (threadOf s.dev core tid).status = .parked p →
    (p.deadline = none ∨ (s.dev.core core).preempt = .saved → exec (.parkTimeout core tid) s = .next s) ∧
    (∀ t, p.deadline = some t → s.clock < t → exec (.parkTimeout core tid) s = .next s) ∧
    (∀ t, p.deadline = some t → t ≤ s.clock → p.woken = false → inPhase (s.dev.core core) tid = false →
      waitHolds s.dev core p.kind = false → (s.dev.core core).preempt ≠ .saved →
      Does (.parkTimeout core tid) s (settle (wakeThread s.dev core tid false) core))

/-- A complete phase instance publishes once and refreshes once, at the widest scope of its arrivals, before its
threads are released with status 1; while the context is saved it waits (R55, R203). -/
def Sys2Proof.Claim.PhaseReleases : Prop :=
  ∀ (s : State) (core scope : Nat) (tids : List Nat), (s.dev.core core).phase = some (tids, scope) →
    ((s.dev.core core).preempt = .saved → exec (.phaseRelease core) s = .next s) ∧
    ((s.dev.core core).preempt ≠ .saved → Does (.phaseRelease core) s (tids.foldl (fun d t => wakeThread d core t true)
      ((refresh (completePub s.dev core phaseLane 0x40 scope) core scope).modCore core fun c =>
        { c with phase := none })))

/-- A core applies its queued th.ctl requests in order when no pass runs, and holds them during a sweep and while its
context is saved (R248, R274, R293). -/
def Sys2Proof.Claim.ThreadRequestsApply : Prop :=
  ∀ (s : State) (core : Nat),
    ((s.dev.core core).pass.isSome = true ∨ (s.dev.core core).preempt = .saved ∨
      fld (s.dev.core core).regs.dmode 1 0 = 2 → exec (.thCtlApply core) s = .next s) ∧
    ((s.dev.core core).bound.isSome = true → (s.dev.core core).pass = none → fld (s.dev.core core).regs.dmode 1 0 ≠ 2 →
      (s.dev.core core).preempt ≠ .saved →
      Does (.thCtlApply core) s (settle (applyHalts
        (((s.dev.core core).ctls.foldl (fun d q => applyCtl d core q) s.dev).modCore core fun c =>
          { c with ctls := [] }) core) core))

/-- The shadow plane takes the image of the block predicted as the pass started, and keeps nothing of one that fails to
load; a pass that waits for its block starts to stream once IMAGE_LOAD has put the block's image into the active plane
(R118, R120, R163). -/
def Sys2Proof.Claim.ConfigurationPlanes : Prop :=
  ∀ (s : State) (core : Nat) (p : Pass), core < s.dev.cores.length → (s.dev.core core).pass = some p →
    (∀ b ws d, (s.dev.core core).predicted = some b → p.loading = false → loadImage s.dev core b = (.ok ws, d) →
      Does (.shadowPredict core) s (d.modCore core fun c => { c with predicted := none, shadow := some ⟨b, ws⟩ })) ∧
    (∀ b f d, (s.dev.core core).predicted = some b → p.loading = false → loadImage s.dev core b = (.error f, d) →
      Does (.shadowPredict core) s (d.modCore core fun c => { c with predicted := none })) ∧
    ((s.dev.core core).predicted = none → exec (.shadowPredict core) s = .next s) ∧
    (∀ ws d, p.loading = true → (s.dev.core core).defects.find p.block = none →
      loadImage s.dev core p.block = (.ok ws, d) →
      d.cores.length = s.dev.cores.length → (d.core core).pass = some p →
      ∃ d', Does (.imageLoad core) s d' ∧ (d'.core core).active = some ⟨p.block, ws⟩ ∧
        ∀ q, (d'.core core).pass = some q → q.loading = false ∧ q.lanes = p.lanes)

/-- The walks in flight for a page end: each that finds a leaf refills the entry of its MEM slot. A held access that an
invalidation has woken retries its walk: where the walk succeeds its stream's entry is refilled, so that the node may
fire, and where it fails the access is held again. One that has waited SYS_XLTIMEOUT becomes poison of class
TRANSLATION. Memory stays (R45, R286).
In it the model's own readings count: logs 5 and 30. -/
def Obligations.HeldAccesses : Prop :=
  ∀ (s : State) (core lane : Nat) (l : Lane) (p : Pass), core < s.dev.cores.length → (s.dev.core core).pass = some p →
    p.lanes[lane]? = some l → (l.held.map (·.1)).Pairwise (· < ·) →
    let root := (s.dev.core core).regs.xlroot.toNat
    let refilled (d : Device) (node va : Nat) (leaf : Word) : Prop :=
      ∃ x, (d.core core).cache.slots.find node = some x ∧ x.leaf = leaf ∧ x.root = root ∧ x.va ≤ va ∧ va < x.va + x.size
    let expired (h : Held) : Prop := h.since + (s.dev.core core).regs.xltimeout.toNat ≤ s.clock
    (∀ va, (s.dev.core core).bound.isSome = true → ∃ d, exec (.translationWalkComplete core va) s =
        .next { s with dev := d } ∧ d.mem = s.dev.mem ∧
      (∀ w ∈ (d.cluster (core / 8)).walks, ¬(w.core = core ∧ w.page = va / 4096)) ∧
      ∀ w ∈ (s.dev.cluster (core / 8)).walks, w.core = core → w.page = va / 4096 → ∀ leaf,
        walk s.dev root va = some leaf → refilled d w.node va leaf) ∧
    (∃ d l', exec (.heldAccessRetry core lane) s = .next { s with dev := d } ∧ laneAt d core lane = some l' ∧
      d.mem = s.dev.mem ∧ l'.tokens = l.tokens ∧ ∀ node h, l.held.find node = some h →
        (h.woken = false → l'.held.find node = some h) ∧
        (h.woken = true → walk s.dev root h.va = none → l'.held.find node = some { h with woken := false }) ∧
        (∀ leaf, h.woken = true → walk s.dev root h.va = some leaf →
          l'.held.find node = some h ∧ refilled d node h.va leaf)) ∧
    (∃ d l', exec (.heldAccessTimeout core lane) s = .next { s with dev := d } ∧ laneAt d core lane = some l' ∧
      d.mem = s.dev.mem ∧ ∀ node h, l.held.find node = some h →
        (¬expired h → l'.held.find node = some h ∧ l'.tokens.find node = l.tokens.find node) ∧
        (expired h → l'.held.find node = none ∧
          l'.tokens.find node = some (.poison ⟨p.block, node, 0x0002, BitVec.ofNat 64 h.va, 0⟩)))

/-- The entries of a report written to a list from number n on, each at list + 8 + 8 × (n mod 4,096), where all of them
can be written: KIND, CORE and TID (R287). -/
def Sys2Proof.Claim.putEntries (core list : Nat) : Nat → List FaultEnt → Device → Option Device
  | _, [], d => some d
  | n, x :: t, d =>
    match ownWrite d core (list + 8 + 8 * (n % 4096))
        (toBytes 8 (x.kind * 2 ^ 62 + coreCode core * 2 ^ 16 + x.tid)) with
    | (.ok _, d) => putEntries core list (n + 1) t d
    | (.error _, _) => none

/-- A core with something to report appends one entry for each held access and stopped thread to its fault list, at
FLIST + 32,776 × $cidx, and adds their number to word 0. In host mode it raises vector 0; in handler mode it arms the
handler for what is not of kind 3, and raises the vector for that. A list whose count cannot be read gets nothing, and
a machine check and the vector say so. With nothing to report it does nothing. What the core writes so stands at home,
and no other byte changes (R282, R287).
In it the model's own readings count: log 18. -/
def Obligations.FaultReports : Prop :=
  (∀ (s : State) (core : Nat) (b : Bound), (s.dev.core core).bound = some b →
    let list := b.flist + 32776 * b.cidx
    let es := heldEntries (s.dev.core core) ++ boundaryEntries (s.dev.core core)
    (es = [] → exec (.faultReport core) s = .next s) ∧
    (∀ n d d1 d2 d3, es ≠ [] → engReadWord s.dev core true list = (.ok n, d) →
      putEntries core list n.toNat es d = some d1 → listCounts d1 core list = (.ok (), d2) →
      ownWrite d2 core list (toBytes 8 (n.toNat + es.length)) = (.ok (), d3) →
      let m := markReported d3 core es
      (b.handler = none → Does (.faultReport core) s (raiseVector m 0)) ∧
      (∀ h, b.handler = some h →
        ((∀ x ∈ es, x.kind ≠ 3) → Does (.faultReport core) s (armHandler m s.clock core h)) ∧
        ((∀ x ∈ es, x.kind = 3) → Does (.faultReport core) s (raiseVector m 0)) ∧
        ((∃ x ∈ es, x.kind = 3) → (∃ x ∈ es, x.kind ≠ 3) →
          Does (.faultReport core) s (armHandler (raiseVector m 0) s.clock core h)))) ∧
    (∀ f d, es ≠ [] → engReadWord s.dev core true list = (.error f, d) → ∃ cls, cls < 3 ∧
      let m := markReported d core es
      Does (.faultReport core) s (raiseVector
        (machineCheck { m with free := m.free + 1 } s.clock 7 cls core (BitVec.ofNat 64 f.2) 0) 0))) ∧
  (∀ (d d1 : Device) (core va key v : Nat), vplan d core true 2 va 8 = (.ok [(key, 8)], d1) → badAt d1 key 8 = false →
    d.mem.wf = true → ∃ d', ownWrite d core va (toBytes 8 v) = (.ok (), d') ∧ homeRead d' key 8 = toBytes 8 v ∧
      ∀ k, k < key ∨ key + 8 ≤ k → homeByte d' k = homeByte d k)

/-- A Traverse trap is answered by the command in its control header: 1 extends the limit where NEWLIM is a multiple of
8 that leaves room for NEED, and then the write that failed is made again and the wakes that waited take effect, and 2
aborts the Traverse. A core whose context is saved reads no command (R264, R268, R288). -/
def Sys2Proof.Claim.TraverseAnswers : Prop :=
  ∀ (s : State) (core : Nat),
    ((s.dev.core core).trap = none ∨ (s.dev.core core).preempt = .saved →
      exec (.traverseCmdExtend core) s = .next s ∧ exec (.traverseCmdAbort core) s = .next s) ∧
    (∀ t lim d, (s.dev.core core).trap = some t → (s.dev.core core).preempt ≠ .saved → core < s.dev.cores.length →
      traverseCmd s.dev core = ((1, lim), d) → d.cores.length = s.dev.cores.length → lim < 2 ^ 56 →
      lim % 8 ≠ 0 ∨ lim < (d.core core).regs.tapehead.toNat + t.need →
        Does (.traverseCmdExtend core) s (clearCmd d core lim)) ∧
    (∀ t lim d, (s.dev.core core).trap = some t → (s.dev.core core).preempt ≠ .saved → core < s.dev.cores.length →
      traverseCmd s.dev core = ((1, lim), d) → d.cores.length = s.dev.cores.length → lim % 8 = 0 →
      (d.core core).regs.tapehead.toNat + t.need ≤ lim →
      Does (.traverseCmdExtend core) s
        (let d' := (clearCmd d core lim).modCore core fun c =>
          { c with
            regs := { c.regs with tapelimit := BitVec.ofNat 64 lim, dmode := setFld c.regs.dmode 2 2 0 }
            trap := none, trapReported := false }
        settle (settleTape (if t.retry = [] then d' else pushWords d' core t.retry) core) core)) ∧
    (∀ t lim d, (s.dev.core core).trap = some t → (s.dev.core core).preempt ≠ .saved →
      traverseCmd s.dev core = ((2, lim), d) →
      Does (.traverseCmdAbort core) s (settle (tapeAbort d core) core))

/-- Once every live thread of a recording core has arrived at exit.drev, the reverse sweep starts: STATE becomes 2
(R269). SWEEP_RECORD then acts on the record below HEAD and lowers HEAD past it: a LIVE record's slot is restored, a
STORE record's bytes become core-visible again, a PASS record's data are popped and its block is replayed in reverse for
its threads, or, without DIFF, the cells of the popped stores and the adjoints of the live-outs are cleared, and at the
MARK record the sweep ends: STATE 0, and every live thread waits at AFTER (R270, R271). -/
def Sys2Proof.Claim.ReverseSweep : Prop :=
  ∀ (s : State) (core : Nat), core < s.dev.cores.length →
    (sweepFree (s.dev.core core) = true → fld (s.dev.core core).regs.dmode 1 0 = 1 → (s.dev.core core).wakes = [] →
      allArrived s.dev [core] isDrev = true →
      ∃ d, Does (.reverseSweepStart core) s d ∧ fld (d.core core).regs.dmode 1 0 = 2 ∧
        d.mem = s.dev.mem ∧ (d.core core).threads = (s.dev.core core).threads) ∧
    (∀ b r d, (s.dev.core core).bound = some b → sweepFree (s.dev.core core) = true →
      fld (s.dev.core core).regs.dmode 1 0 = 2 →
      recordBelow s.dev core (s.dev.core core).regs.tapehead.toNat = (.ok r, d) → (d.core core).bound = some b →
      let lowered (d : Device) : Device := d.modCore core fun c =>
        { c with regs := { c.regs with tapehead := BitVec.ofNat 64 r.start } }
      (r.kind = 4 → r.info / 2 ^ 16 < b.nthreads → Does (.sweepRecord core) s (lowered
        (modThread d core (r.info / 2 ^ 16) fun t => { t with live := t.live.set (r.info % 64) (r.words.getD 0 0) }))) ∧
      (∀ key d1, r.kind = 3 → vplan d core true 2 (r.words.getD 0 0).toNat r.info = (.ok [(key, r.info)], d1) →
        badAt d1 key r.info = false → Does (.sweepRecord core) s
          (lowered (coreWrite d1 core key (toBytes r.info (r.words.getD 1 0).toNat)))) ∧
      (∀ tids stores d1 ws, r.kind = 2 → passTids b.nthreads r = some tids →
        popData (lowered d) core ((r.words.getD 1 0).toNat / 16 + 1) (r.words.getD 1 0).toNat = (.ok stores, d1) →
        (d1.core core).defects.find (r.info / 2 ^ 32) = none → planeOf (d1.core core) (r.info / 2 ^ 32) = some ws →
        (imgDiff ws = true → ∃ d' p, Does (.sweepRecord core) s d' ∧ (d'.core core).pass = some p ∧
          p.block = r.info / 2 ^ 32 ∧ p.num = (r.words.getD 0 0).toNat ∧ p.lanes.map (·.tid) = tids ∧ p.rev = true ∧
          p.retired = 0 ∧ (d'.core core).active = some ⟨r.info / 2 ^ 32, ws⟩ ∧ d'.mem = d1.mem) ∧
        (∀ d2, imgDiff ws = false → clearCells d1 core b stores = (.ok (), d2) →
          Does (.sweepRecord core) s (clearSlots d2 core b ws tids))) ∧
      (r.kind = 1 → ∃ d', Does (.sweepRecord core) s (boundary d' core) ∧
        (d'.core core).regs = { (d.core core).regs with
          tapehead := BitVec.ofNat 64 r.start, dmode := setFld (d.core core).regs.dmode 1 0 0 } ∧ d'.mem = d.mem ∧
        ∀ t, t < (d.core core).threads.length → (threadOf d' core t).status =
          if isLive (threadOf d core t) then .waiting (fld (d.core core).regs.dmode 15 8)
          else (threadOf d core t).status))

/-- A pre-emption request that reaches a bound core stops its selector and freezes its engines, and turns every held
access into poison of class TRANSLATION, with PEND set for its thread; a request that was not sent does nothing
(R288, R292). -/
def Sys2Proof.Claim.PreemptionArrives : Prop :=
  ∀ (s : State) (core : Nat), core < s.dev.cores.length →
    ((s.dev.core core).preemptSent = false → exec (.preemptRequest core) s = .next s) ∧
    ((s.dev.core core).bound.isSome = true → (s.dev.core core).preemptSent = true → (s.dev.core core).preempt = .none →
      ∃ d, exec (.preemptRequest core) s = .next { s with dev := d } ∧ (d.core core).preempt = .requested ∧
        (d.core core).frozen = true ∧ maySelect (d.core core) = false ∧
        (∀ p, (s.dev.core core).pass = some p → ∀ lane l, p.lanes[lane]? = some l → ∃ l', laneAt d core lane = some l' ∧
          l'.held = [] ∧ l'.pend = (l.pend || !l.held.isEmpty) ∧ ∀ x ∈ l.held, ∃ va,
            l'.tokens.find x.1 = some (.poison ⟨p.block, x.1, 0x0002, va, 0⟩)) ∧
        (∀ k, k ≠ core → d.core k = s.dev.core k) ∧ d.mem = s.dev.mem)

/-- A held pass of a core that is being pre-empted returns the threads of the beats that have not retired to the
block's waiting set, with DONE, REPLAY and PEND, also in their records, and ends (R177, R283, R289). -/
def Sys2Proof.Claim.HeldPassesReturn : Prop :=
  (∀ (s : State) (core : Nat) (p : Pass), (s.dev.core core).pass = some p → (s.dev.core core).preempt = .requested →
    passHeld s.dev s.clock core = true → exec (.passReturnAtPreempt core) s = .next { s with
      dev := endPass ((p.lanes.drop (16 * p.retired)).foldl (fun d l => returnLane d core p.block l) s.dev) core }) ∧
  (∀ (d : Device) (core block : Nat) (l : Lane), core < d.cores.length → l.tid < (d.core core).threads.length →
    let a := (d.core core).regs.faultbase.toNat + 64 * l.tid
    let d' := returnLane d core block l
    let t := threadOf d' core l.tid
    t.status = .waiting block ∧ t.done = l.done ∧ t.replay = l.replay ∧ t.pend = true ∧
    (∀ k, k ≠ l.tid → threadOf d' core k = threadOf d core k) ∧
    (∀ x d1, a % 64 = 0 → access d core (a + 16) true true = (.ok x, d1) → badAt d1 x.key 40 = false →
      d.mem.wf = true → homeRead d' x.key 40 =
        bytesOfWords (BitVec.ofNat 64 (2 ^ 19 + 2 ^ 16 + l.done.toNat) ::
          (List.range 4).map fun j => l.replay.getD j 0)))

/-- A core that has drained stops its engines, publishes at system scope, writes its save area and is saved, or fails
at an address (R288, R290, R291). A core bound to a saved context is restored from it, and what the save area holds is
what it goes on with (R290 to R293).
In it the model's own readings count: logs 26 and 52. -/
def Obligations.SaveAndRestore : Prop :=
  ∀ (s : State) (core : Nat) (b : Bound), (s.dev.core core).bound = some b →
    (maySave s.dev core b = false → exec (.contextSave core) s = .next s) ∧
    (let d0 := publish (untape (stopEngines s.dev s.clock core) core) core 4
      let r := savePieces d0 s.clock core b
      let w := writeSave r.2 core (saveBase b) r.1
      maySave s.dev core b = true →
        (w.1 = none → exec (.contextSave core) s = .next { s with dev := reportSaved w.2 s.clock core b }) ∧
        (∀ a, w.1 = some a → exec (.contextSave core) s = .next { s with dev := saveFailed w.2 s.clock core b a })) ∧
    (awaitsRestore s.dev (s.dev.core core) = false → exec (.contextRestore core) s = .next s) ∧
    (awaitsRestore s.dev (s.dev.core core) = true →
      let rd := readSave (refresh s.dev core 4) core (saveBase b) fixedParts
      (∀ a d, rd = (.error a, d) →
        exec (.contextRestore core) s = .next { s with dev := saveFailed d s.clock core b a }) ∧
      (∀ parts d, rd = (.ok parts, d) →
        let head := parts.headD []
        let ag := bitsOf 64 (ofBytes ((head.drop 0x240).take 8))
        let sg := bitsOf 384 (ofBytes ((head.drop 0x248).take 48))
        let tids := (List.range b.nthreads).filter fun t =>
          ofBytes ((head.drop (0x278 + t / 8)).take 1) / 2 ^ (t % 8) % 2 == 1
        ∀ bs d', readSave d core (saveBase b) (ag.map (fun g => (0x081000 + 2048 * g, 2048))
            ++ sg.map (fun g => (0x0A1000 + 4096 * g, 4096)) ++
            tids.map fun t => (0x277000 + 8 * b.width * t, 8 * b.width))
            = (.ok bs, d') →
          let d2 := d'.modCore core fun c => restoredCore c b.width parts (ag.zip (bs.take ag.length))
            (sg.zip ((bs.drop ag.length).take sg.length)) (tids.zip (bs.drop (ag.length + sg.length)))
          exec (.contextRestore core) s = .next { s with
            dev := settleRun (settleSaves (settleSyncs (resumePending d2 core)) s.clock core) b.run })) ∧
    (∀ (c : Core) (width : Nat) (parts : List (List Byte)) (acc scr live : List (Nat × List Byte)),
      let c' := restoredCore c width parts acc scr live
      let word (o : Nat) : Nat := ofBytes (((parts.getD 0 []).drop o).take 8)
      c'.passes = word 0x10 ∧ c'.regs.fpflags = BitVec.ofNat 64 (word 0x40) ∧
      c'.regs.xlroot = BitVec.ofNat 64 (word 0x78) ∧ c'.regs.faultbase = BitVec.ofNat 64 (word 0x88) ∧
      c'.accSaved = word 0x240 ∧ c'.accDirty = 0 ∧ c'.scrDirty = 0 ∧ c'.preempt = .none ∧ c'.frozen = false ∧
      c'.threads.length = c.threads.length)

/-! ## Engine command nodes (15_copy_engine to 23_link_engine) -/

/-- The scratch address of an engine command's descriptor: its base operand plus OFF (R306, R33). -/
def Sys2Proof.Claim.descAddr (w : MU) (base : Word) : Nat := (base.toNat + (w.off.signExtend 64).toNat) % 2 ^ 64

/-- The eight words of the descriptor in the issuing core's scratchpad. -/
def Sys2Proof.Claim.descWords (s : State) (e : Env) (w : MU) (base : Word) : List Word :=
  wordsOf 8 (scratchRead s.dev e.core (descAddr w base) 64)

/-- A well-formed engine command node that is ready. In a reverse replay it is not supported (cp apart, R251). Without
a free place it does not fire. Its descriptor's address is checked, and its words are read as they stand in scratch;
without the room that the descriptor asks for it does not fire. Where the completion word passes its checks, the fork
publishes at device scope, the command is handed over by puts, and the node delivers what puts says; where it does
not, the node faults, or waits for a walk, as the check says and issues nothing (R15, R16, R18, R23, R24, R306). -/
def Sys2Proof.Claim.Issues (mk : MU → Instr) (opc : Nat) (pick : Word → Word → Word → Word)
    (free : Env → Device → Bool) (room : MU → Env → Device → List Word → Bool)
    (puts : MU → Env → Device → Word → Word → List Word → Comp → Device → Word × Device) : Prop :=
  ∀ (w : MU) (s : State) (e : Env) (a b c : Word), (mk w).wf = true → Ready s (muWord opc w) e a b c →
    let p := descAddr w (pick a b c)
    let ws := descWords s e w (pick a b c)
    let faults (cls : Nat) (addr : Word) : Host.Outcome State Fault Refusal :=
      .next (s.gaveToken s.dev e (.poison ⟨e.pass.block, e.node, cls, addr, 0⟩))
    (e.pass.rev = true → opc ≠ 0x40 → exec (mk w) s = faults clsAdj 0) ∧
    (e.pass.rev = false → free e s.dev = false → exec (mk w) s = .next s) ∧
    (e.pass.rev = false → free e s.dev = true →
      (0x17FFC0 < p → exec (mk w) s = faults clsBounds (addrWord p)) ∧
      (p ≤ 0x17FFC0 → p % 64 ≠ 0 → exec (mk w) s = faults clsAlign (addrWord p)) ∧
      (p ≤ 0x17FFC0 → p % 64 = 0 → scratchBadAt s.dev e.core p 64 = true →
        exec (mk w) s = faults clsEcc (addrWord p)) ∧
      (p ≤ 0x17FFC0 → p % 64 = 0 → scratchBadAt s.dev e.core p 64 = false →
        (room w e s.dev ws = false → exec (mk w) s = .next s) ∧
        (room w e s.dev ws = true →
          (∀ o d, compCheck s.dev e (ws.getD 6 0) (ws.getD 7 0) = (.error o, d) →
            exec (mk w) s = .next { s with dev := finishNode d e (muWord opc w) o }) ∧
          (∀ k d, compCheck s.dev e (ws.getD 6 0) (ws.getD 7 0) = (.ok k, d) →
            let r := puts w e s.dev a b ws k (publish d e.core 3)
            exec (mk w) s = .next (s.gave r.2 e (muWord opc w) r.1 Fx.none)))))

/-- Operand A. -/
def Sys2Proof.Claim.first (a _ _ : Word) : Word := a

/-- No further room is asked for. -/
def Sys2Proof.Claim.anyRoom (_ : MU) (_ : Env) (_ : Device) (_ : List Word) : Bool := true

/-- A copy command node: a slot must be free of the 96 that commands and gathers in flight hold; the command takes the
lowest slot with its descriptor and completion word, and the node delivers token 0 (R28, R304, R306). -/
def Sys2Proof.Claim.CopyIssues (mk : MU → Instr) (opc : Nat) : Prop :=
  Issues mk opc first (fun e d => decide ((d.core e.core).copy.length + flightTags (d.core e.core) < 96)) anyRoom
    fun _ e _ _ _ ws k d => (0, d.modCore e.core fun c =>
      { c with copy := c.copy.put (freshSlot c) (CopySlot.fresh opc ws k c.copyCount), copyCount := c.copyCount + 1 })

/-- Every copy command node issues its command (R306), and a cp in a reverse replay performs nothing and delivers 0
(R251).
In it the model's own readings count: log 17. -/
def Obligations.CopyCommandsIssue : Prop :=
  CopyIssues .cp 0x40 ∧ CopyIssues .cpTBox 0x41 ∧ CopyIssues .cpTWindow 0x41 ∧ CopyIssues .cpG 0x42 ∧
  CopyIssues .cpS 0x43 ∧ CopyIssues .cpQ 0x44 ∧ CopyIssues .cpZ 0x45 ∧ CopyIssues .cpX 0x46 ∧
  CopyIssues .cpCancel 0x47 ∧
  (∀ (w : MU) (s : State) (e : Env) (a b c : Word), (Instr.cp w).wf = true → Ready s (muWord 0x40 w) e a b c →
    e.pass.rev = true → exec (.cp w) s = .next (s.gave s.dev e (muWord 0x40 w) 0 Fx.none))

/-- A matrix command node: Meridian must not own the engine and one of the 8 queue entries must be free; a
corner-turn command also waits for room; the command enters the queue and the node delivers token 0
(R28, R342, R350). -/
def Sys2Proof.Claim.MatrixIssues (mk : MU → Instr) (opc : Nat) (typ : MU → Nat) (ct : MU → Bool) : Prop :=
  Issues mk opc first
    (fun e d => (d.core e.core).mer.job.isNone && decide ((d.core e.core).mx.queue.length < 8))
    (fun w e d ws => ctRoom opc (ct w) ws ((d.core e.core).mx.corner.shadowF, (d.core e.core).mx.corner.shadowD))
    fun w e _ _ _ ws k d => (0, d.modCore e.core fun c =>
      pushMx c e.now e.pass.num (MxCmd.fresh opc (typ w) (ct w) ws k e.bound.priv))

/-- acc.drain or acc.fill: it queues like the others, but executes at once, ahead of the queue, while the engine is
frozen or held by a stopped job; without system privilege it then ends with the lowest of PERMISSION and what its
descriptor breaches (R344, R362). -/
def Sys2Proof.Claim.DrainIssues (mk : MU → Instr) (opc : Nat)
    (work : Device → Nat → List Word → Nat × Device) : Prop :=
  Issues mk opc first
    (fun e d => mxBypass (d.core e.core)
      || ((d.core e.core).mer.job.isNone && decide ((d.core e.core).mx.queue.length < 8)))
    (fun _ e d ws => ctRoom opc false ws ((d.core e.core).mx.corner.shadowF, (d.core e.core).mx.corner.shadowD))
    fun _ e d₀ _ _ ws k d =>
      if mxBypass (d₀.core e.core) then
        if e.bound.priv then (0, complete (work d e.core ws).2 e.core k (work d e.core ws).1)
        else (0, complete d e.core k (lowest (clsPermission :: match rectOf (fld (ws.getD 0 0) 39 8) with
          | none => [cDescriptor]
          | some r => drainCodes opc ws r)))
      else (0, d.modCore e.core fun c =>
        pushMx c e.now e.pass.num (MxCmd.fresh opc 0 false ws k e.bound.priv))

/-- Every matrix command node issues its command (R342); acc.red keeps the $cidx of the cores that its MASK names
(R22, R355); acc.drain and acc.fill may execute at once (R362). mx.post checks
its own completion word at A + OFF with the value B, and takes a queue entry (R361).
In it the model's own readings count: logs 17 and 20. -/
def Obligations.MatrixCommandsIssue : Prop :=
  MatrixIssues .mma 0x50 (fun w => w.typ.toNat) (fun w => w.mod.getLsbD 0) ∧
  MatrixIssues .mmaSp 0x51 (fun w => w.typ.toNat) (fun _ => false) ∧
  MatrixIssues .accZero 0x52 (fun _ => 0) (fun _ => false) ∧
  MatrixIssues .accLd 0x53 (fun _ => 0) (fun _ => false) ∧
  MatrixIssues .accSt 0x54 (fun _ => 0) (fun _ => false) ∧
  (Issues .accRed 0x55 first
    (fun e d => (d.core e.core).mer.job.isNone && decide ((d.core e.core).mx.queue.length < 8))
    (fun _ e d ws => ctRoom 0x55 false ws ((d.core e.core).mx.corner.shadowF, (d.core e.core).mx.corner.shadowD))
    fun _ e _ _ _ ws k d =>
      let q := MxCmd.fresh 0x55 0 false ws k e.bound.priv
      (0, d.modCore e.core fun c => pushMx c e.now e.pass.num { q with mates := matesOf d e.core q.mask })) ∧
  MatrixIssues .ctFill 0x56 (fun _ => 0) (fun _ => false) ∧
  MatrixIssues .ctFlush 0x57 (fun _ => 0) (fun _ => false) ∧
  MatrixIssues .wupd 0x58 (fun _ => 0) (fun _ => false) ∧
  MatrixIssues .mxTestRun 0x5C (fun _ => 0) (fun _ => false) ∧
  MatrixIssues .mxTestUnfence 0x5C (fun _ => 0) (fun _ => false) ∧
  DrainIssues .accDrain 0x5A (fun d core ws => storeExec none core (accDrainOut d core ws) d) ∧
  DrainIssues .accFill 0x5B (fun d core ws => accFillExec [] d core ws (d.core core).mx.queue) ∧
  (∀ (w : MU) (s : State) (e : Env) (a v c : Word), (Instr.mxPost w).wf = true →
    Ready s (muWord 0x59 w) e a v c → e.pass.rev = false →
    let p := (a.toNat + (w.off.signExtend 64).toNat) % 2 ^ 64
    let full := (s.dev.core e.core).mer.job.isSome || decide (8 ≤ (s.dev.core e.core).mx.queue.length)
    (full = true → exec (.mxPost w) s = .next s) ∧
    (full = false → ∀ k d, compAt s.dev e w.space.toNat (addrWord p) v p = (.ok k, d) →
      exec (.mxPost w) s = .next (s.gave ((publish d e.core 3).modCore e.core fun c =>
        pushMx c e.now e.pass.num (MxCmd.fresh 0x59 0 false [] k e.bound.priv))
        e (muWord 0x59 w) 0 Fx.none)))

/-- A table-unit command node: one of the unit's 8 places must be free (R375). -/
def Sys2Proof.Claim.TableIssues (mk : MU → Instr) (opc : Nat) : Prop :=
  Issues mk opc first (fun e d => decide ((d.core e.core).mer.table.length < 8)) anyRoom
    fun _ e _ _ _ ws k d => (0, d.modCore e.core fun c =>
      { c with mer := { c.mer with table := c.mer.table ++ [⟨opc, ws, k⟩] } })

/-- A command that resumes a stopped job, or saves or loads Meridian's state, is checked, and joins those that wait for
its target's next microword boundary, where they are applied in order (R375, R399, R401). -/
def Sys2Proof.Claim.BoundaryIssues (mk : MU → Instr) (opc : Nat) (ok : List Word → Bool) : Prop :=
  Issues mk opc first (fun _ _ => true) anyRoom
    fun _ e _ _ _ ws k d => (0,
      if ok ws = false then complete d e.core k cDescriptor
      else match targetCore d e.core e.bound.run e.bound.priv (ws.getD 0 0) with
        | .error c => complete d e.core k c
        | .ok t => settleSaves (modMer d t fun m =>
            { m with saves := m.saves ++ [⟨e.bound.run, e.bound.cidx, e.bound.priv, ws, k⟩] }) e.now t)

/-- Every Meridian node issues its command (R374, R375): attn.go takes the job queue's one place with $cidx, $ncores
and $core of its issuer (R377); a table command takes one of 8 places; the resume and save forms wait for a microword
boundary of their target. In it the model's own readings count: logs 16, 17 and 21. -/
def Obligations.MeridianNodesIssue : Prop :=
  Issues .attnGo 0x60 first (fun e d => (d.core e.core).mer.queued.isNone) anyRoom
    (fun _ e _ _ _ ws k d => (0, d.modCore e.core fun c =>
      { c with mer := { c.mer with queued := some ⟨ws, k, e.bound.cidx, e.bound.ncores, coreCode e.core⟩ } })) ∧
  TableIssues .attnPlan 0x61 ∧ TableIssues .kvMap 0x62 ∧ TableIssues .kvFork 0x63 ∧ TableIssues .kvTrunc 0x64 ∧
  BoundaryIssues .attnGoResume 0x60 resumeOk ∧ BoundaryIssues .attnGoSkip 0x60 resumeOk ∧
  BoundaryIssues .attnGoAbandon 0x60 resumeOk ∧
  BoundaryIssues .attnSave 0x65 saveOk ∧ BoundaryIssues .attnSaveLoad 0x65 saveOk

/-- conf.test delivers 1 and enters the token where its confidence is at least the threshold and its exit layer lies
before the last; otherwise it delivers 0 and completes; fill.req enters the token and delivers 0; both wait for one of
the cluster's 256 queue entries. fill.sync completes at once where no request of its sequence is unresolved, and
otherwise waits for those there are (R409 to R411). -/
def Sys2Proof.Claim.InfillNodesIssue : Prop :=
  let room (e : Env) (d : Device) : Bool := decide ((d.cluster (clusterOf e.core)).fillQueue.length < 256)
  Issues .confTest 0x68 (fun _ _ c => c) room anyRoom
    (fun _ e _ m t ws k d =>
      if confPred m t ws then (1, complete (exitToken d e.core 0x68 ws).2 e.core k (exitToken d e.core 0x68 ws).1)
      else (0, complete d e.core k 0)) ∧
  Issues .fillReq 0x69 first room anyRoom
    (fun _ e _ _ _ ws k d => (0, complete (exitToken d e.core 0x69 ws).2 e.core k (exitToken d e.core 0x69 ws).1)) ∧
  Issues .fillSync 0x6A first (fun _ _ => true) anyRoom
    (fun _ e _ _ _ ws k d =>
      let a := ws.getD 1 0
      let ids := requestsOf d (d.core e.core).regs.xlroot.toNat (adOf a)
      if ws.getD 0 0 ≠ 0x6A ∨ spOf a ≠ 0 ∨ resOk a = false ∨ adOf a % 64 ≠ 0 ∨
          ((ws.drop 2).take 4).all (· == 0) = false then (0, complete d e.core k cDescriptor)
      else if ids = [] then (0, complete d e.core k 0)
      else (0, { d with syncs := d.syncs ++ [⟨e.bound.run, e.bound.cidx, k, ids⟩] }))

/-- A link command node: its core must have fewer than 256 operations in flight; the operation enters with its
command, address space and privilege, and the node delivers token 0 (R445). -/
def Sys2Proof.Claim.LinkIssues (mk : MU → Instr) (opc : Nat) : Prop :=
  Issues mk opc first (fun e d => decide ((linksOf d e.bound.run e.bound.cidx).length < 256)) anyRoom
    fun _ e _ _ _ ws k d => (0, enterLink d e opc ws k)

/-- Every link node issues (R445), and what it enters is numbered in the order of issue, with a fence of the operations
in flight for a fenced cl.bar (R452).
In it the model's own readings count: logs 17 and 35. -/
def Obligations.LinkNodesIssue : Prop :=
  LinkIssues .clPut 0x80 ∧ LinkIssues .clGet 0x81 ∧ LinkIssues .clRed 0x82 ∧ LinkIssues .clRedq 0x83 ∧
  LinkIssues .clA2a 0x84 ∧ LinkIssues .clBar 0x85 ∧ LinkIssues .clRing 0x86 ∧
  (∀ (d : Device) (e : Env) (opc : Nat) (ws : List Word) (k : Comp), opc ≠ 0x86 →
    (enterLink d e opc ws k).linkCount = d.linkCount + 1 ∧
    ∃ o, (enterLink d e opc ws k).links = d.links.put d.linkCount o ∧ o.opc = opc ∧ o.desc = ws ∧ o.comp = k ∧
      o.run = e.bound.run ∧ o.cidx = e.bound.cidx ∧ o.priv = e.bound.priv ∧ o.ended = false ∧ o.sent = false ∧
      o.fence = if opc = 0x85 ∧ bit (ws.getD 0 0) 8 = true then linksOf d e.bound.run e.bound.cidx else [])

/-- A ready node outside a reverse replay leaves out. -/
def Sys2Proof.Claim.LeavesOf (mk : MU → Instr) (opc : Nat)
    (out : MU → State → Env → Word → Word → Word → State → Prop) : Prop :=
  ∀ (w : MU) (s : State) (e : Env) (a b c : Word), (mk w).wf = true → Ready s (muWord opc w) e a b c →
    e.pass.rev = false → ∃ t, exec (mk w) s = .next t ∧ out w s e a b c t

/-- The distributor's nodes with their checks: a record that is not there is BOUNDS; one in memory that is not served is
TRANSLATION; one of another context is PERMISSION without system privilege. lr.patch writes the word of an IDLE record
at the home slice and delivers 0; lr.arm publishes and delivers what arming answers; lr.bind installs its binding, or
delivers 1 where the record is past ARMED with no binding; lr.unbind removes one; q.prio sets a queue's priority (R428
to R433, R477). -/
def Sys2Proof.Claim.DistributorNodes : Prop :=
  let there (d : Device) (i : Word) : Bool := decide (i.toNat < d.dist.count.toNat)
  let mine (d : Device) (e : Env) (i : Word) : Bool := e.bound.priv || fld (recWord d i.toNat 0) 27 16 == e.bound.ctx
  let poisons (s : State) (e : Env) (cls : Nat) (i : Word) : State :=
    s.gaveToken s.dev e (.poison ⟨e.pass.block, e.node, cls, i, 0⟩)
  LeavesOf .lrPatch 0x70 (fun w s e i v _ t =>
    let k := w.imm.toNat % 32
    let fits := decide (k ≤ 19) && zeroIn v (recReserved k)
    if there s.dev i = false ∨ fits = false then t = poisons s e clsBounds i
    else if recServed s.dev i.toNat = false then t = poisons s e clsTranslation i
    else if mine s.dev e i = false ∨ k = 0 ∨ (e.bound.priv = false ∧ k ∉ [4, 5, 6, 7, 8, 9, 10, 18, 19]) then
      t = poisons s e clsPermission i
    else if recState s.dev i.toNat ≠ 0 then t = poisons s e clsEngine i
    else t = s.gave (homeWriteWord s.dev (recKey s.dev i.toNat k) v) e (muWord 0x70 w) 0 Fx.none) ∧
  LeavesOf .lrArm 0x71 (fun w s e i _ _ t =>
    if there s.dev i = false then t = poisons s e clsBounds i
    else if recServed s.dev i.toNat = false then t = poisons s e clsTranslation i
    else if mine s.dev e i = false then t = poisons s e clsPermission i
    else
      let r := armRecord (publish s.dev e.core 3) e.now i.toNat none
      t = s.gave r.2 e (muWord 0x71 w) (BitVec.ofNat 64 r.1) Fx.none) ∧
  LeavesOf .lrBind 0x72 (fun w s e a i v t =>
    let ea := (effAddr e 15 a w.off 8).1
    if there s.dev i = false then t = poisons s e clsBounds i
    else if recServed s.dev i.toNat = false then t = poisons s e clsTranslation i
    else if mine s.dev e i = false then t = poisons s e clsPermission i
    else if ea % 8 ≠ 0 then t = poisons s e clsAlign (addrWord ea)
    else ∀ x d, access s.dev e.core ea e.bound.priv false = (.ok x, d) → x.host = false →
      d.dist.bindings.length < 4096 →
      let d := publish d e.core 3
      if d.dist.bindings.find i.toNat = none ∧ 2 ≤ recState d i.toNat then t = s.gave d e (muWord 0x72 w) 1 Fx.none
      else t = s.gave (testBinding
        { d with dist := { d.dist with bindings := d.dist.bindings.put i.toNat ⟨x.key, w.mod.toNat, v⟩ } }
        e.now i.toNat) e (muWord 0x72 w) 0 Fx.none) ∧
  LeavesOf .lrUnbind 0x73 (fun w s e i _ _ t =>
    if there s.dev i = false then t = poisons s e clsBounds i
    else if recServed s.dev i.toNat = false then t = poisons s e clsTranslation i
    else if mine s.dev e i = false then t = poisons s e clsPermission i
    else if s.dev.dist.bindings.find i.toNat = none then t = s.gave s.dev e (muWord 0x73 w) 0 Fx.none
    else t = s.gave { s.dev with dist := { s.dev.dist with bindings := s.dev.dist.bindings.del i.toNat } }
      e (muWord 0x73 w) 1 Fx.none) ∧
  LeavesOf .qPrio 0x74 (fun w s e q p _ t =>
    if 4095 < q.toNat ∨ 7 < p.toNat then t = poisons s e clsBounds q
    else t = s.gave { s.dev with dist := { s.dev.dist with prios := s.dev.dist.prios.put q.toNat p.toNat } }
      e (muWord 0x74 w) 0 Fx.none)

/-! ## What engines do (15_copy_engine, 17_matrix_engine, 18_kv, 19_meridian) -/

/-- COPY_COMPLETE of a command ends it: its slot is freed and its completion word is written, last and once; an engine
frozen for a pre-emption leaves the commands that do not name cluster scratch. A cp between two ranges of the core's
scratchpad leaves in every destination byte what its source byte held, changes no other byte of the scratchpad but
those of its completion word, and completes with the supplied value (R25, R304, R309, R317, R320).
In it the model's own readings count: log 28. -/
def Obligations.CopiesComplete : Prop :=
  (∀ (s : State) (core slot : Nat) (x : CopySlot), (s.dev.core core).copy.find slot = some x →
    ((s.dev.core core).frozen = true → namesCluster x = false → exec (.copyComplete core slot) s = .next s) ∧
    ((s.dev.core core).frozen = false ∨ namesCluster x = true →
      ∃ (d : Device) (code : Nat), exec (.copyComplete core slot) s = .next { s with
        dev := complete (d.modCore core fun c => { c with copy := c.copy.del slot }) core x.comp code })) ∧
  (∀ (s : State) (core slot : Nat) (x : CopySlot) (at_ : Nat), core < s.dev.cores.length →
    (s.dev.core core).copy.find slot = some x → (s.dev.core core).frozen = false →
    (∃ order, x = CopySlot.fresh 0x40 x.desc x.comp order) → x.comp.place = .scratch at_ → cpCodes x.desc = [] →
      x.desc.getD 0 0 = 0x40 →
    spOf (x.desc.getD 1 0) = 1 → spOf (x.desc.getD 2 0) = 1 → (s.dev.core core).scratchBad = [] →
    (s.dev.core core).scratch.wf = true →
    let src := adOf (x.desc.getD 1 0)
    let dst := adOf (x.desc.getD 2 0)
    let n := (x.desc.getD 3 0).toNat
    ∃ t, exec (.copyComplete core slot) s = .next t ∧ (t.dev.core core).copy = (s.dev.core core).copy.del slot ∧
      t.dev.mem = s.dev.mem ∧
      scratchRead t.dev core at_ 8 = toBytes 8 x.comp.value.toNat ∧
      ∀ a, a < at_ ∨ at_ + 8 ≤ a →
        (t.dev.core core).scratch.get a =
          (s.dev.core core).scratch.get (if dst ≤ a ∧ a < dst + n then src + (a - dst) else a))

/-- A matrix engine runs: it is not frozen, it is in service, and no test is due. -/
def Sys2Proof.Claim.MxHead (s : State) (core : Nat) (q : MxCmd) (rest : List MxCmd) : Prop :=
  core < s.dev.cores.length ∧ (s.dev.core core).mx.queue = q :: rest ∧ (s.dev.core core).frozen = false ∧
  (s.dev.core core).inService = true ∧ testDue (s.dev.core core) = false ∧ (s.dev.core core).mx.acc.wf = true

/-- Element (i, k) of an operand of an mma: row i starts i × ld bytes on, and holds elements one after another
(R345). -/
def Sys2Proof.Claim.mmaElem (d : Device) (core typ : Nat) (base : Word) (ld i k : Nat) : XR :=
  exact (fmtOfType typ) (ofBytes (scratchRead d core (adOf base + i * ld + k * mmaSize typ) (mmaSize typ)))

/-- mma of an IEEE type, none of its operands read ahead: cell (i, j) of its rectangle becomes the exact sum of the
cell and the K products of row i of A and column j of B, rounded once to the accumulator's format; no other cell
changes, and the command leaves the queue, counted towards the test (R343, R345, R346, R364). -/
def Sys2Proof.Claim.MatrixProduct : Prop :=
  ∀ (s : State) (core : Nat) (q : MxCmd) (rest : List MxCmd) (r : Rect), MxHead s core q rest → q.opc = 0x50 →
    q.ct = false → q.early = [] → (q.typ = 4 ∨ q.typ = 5 ∨ q.typ = 6) →
    lowestAt (mmaBreach (s.dev.core core) false q.typ q.desc none) = none →
    rectOf (fld (q.desc.getD 0 0) 39 8) = some r → (s.dev.core core).scratchBad = [] →
    (s.dev.core core).mx.bad = [] →
    ∃ t, exec (.matrixCmdExecute core) s = .next t ∧
      (∀ i j, i < 64 → j < 64 → accDatum (t.dev.core core).mx r.wide (r.cell i j) = rneBits r.fmt (XR.sum
        (exact r.fmt (accDatum (s.dev.core core).mx r.wide (r.cell i j)))
        ((List.range (mmaK q.typ)).map fun k =>
          XR.mul (mmaElem s.dev core q.typ (q.desc.getD 1 0) (fld (q.desc.getD 3 0) 15 0) i k)
            (mmaElem s.dev core q.typ (q.desc.getD 2 0) (fld (q.desc.getD 3 0) 31 16) j k)))) ∧
      (∀ x y, y < 128 → ¬(r.row0 ≤ x ∧ x < r.row0 + 64 ∧ r.col0 ≤ y ∧ y < r.col0 + r.ncol) →
        (t.dev.core core).mx.acc.get (128 * x + y) = (s.dev.core core).mx.acc.get (128 * x + y)) ∧
      (t.dev.core core).mx.queue = stampHead s.clock rest ∧
      (t.dev.core core).mx.sinceTest = (s.dev.core core).mx.sinceTest + 1

/-- The matrix engine executes the command at its head, and that leaves the queue with its completion word written, the
next one following; acc.zero writes +0 to every cell of RECT and to no other; mx.post and ct.flush complete with the
supplied value, ct.flush padding a partial fill half with zero rows (R343, R352, R353, R361). -/
def Sys2Proof.Claim.MatrixCommandsRun : Prop :=
  (∀ (s : State) (core : Nat) (q : MxCmd) (rest : List MxCmd), MxHead s core q rest → q.opc ∉ [0x55, 0x5C] →
    ∃ d code, (d.core core).mx.queue = q :: rest ∧
      exec (.matrixCmdExecute core) s = .next { s with dev := endHead d s.clock core code }) ∧
  (∀ (s : State) (core : Nat) (q : MxCmd) (rest : List MxCmd) (r : Rect), MxHead s core q rest → q.opc = 0x52 →
    fld (q.desc.getD 0 0) 7 0 = 0x52 → fld (q.desc.getD 0 0) 63 40 = 0 →
    (∀ k, 1 ≤ k → k < 6 → q.desc.getD k 0 = 0) → rectOf (fld (q.desc.getD 0 0) 39 8) = some r →
    ∃ t, exec (.matrixCmdExecute core) s = .next t ∧ (t.dev.core core).mx.queue = stampHead s.clock rest ∧
      ∀ x y, y < 128 → (t.dev.core core).mx.acc.get (128 * x + y) =
        if r.row0 ≤ x ∧ x < r.row0 + r.nrow ∧ r.col0 ≤ y ∧ y < r.col0 + r.ncol then 0
        else (s.dev.core core).mx.acc.get (128 * x + y)) ∧
  (∀ (s : State) (core : Nat) (q : MxCmd) (rest : List MxCmd), MxHead s core q rest → q.opc = 0x59 →
    exec (.matrixCmdExecute core) s = .next { s with dev := endHead s.dev s.clock core 0 }) ∧
  (∀ (s : State) (core : Nat) (q : MxCmd) (rest : List MxCmd), MxHead s core q rest → q.opc = 0x57 →
    q.desc.getD 0 0 = 0x57 → (∀ k, 1 ≤ k → k < 6 → q.desc.getD k 0 = 0) →
    exec (.matrixCmdExecute core) s = .next { s with
      dev := endHead (s.dev.modCore core fun c => c.setCorner c.mx.corner.pad) s.clock core 0 })

/-- Two cores wait with the matched command of one acc.red at their heads (R355). -/
def Sys2Proof.Claim.RedPair (s : State) (a b : Nat) (q p : MxCmd) (qs ps : List MxCmd) (r : Rect) : Prop :=
  MxHead s a q qs ∧ MxHead s b p ps ∧ a ≠ b ∧ q.opc = 0x55 ∧ p.opc = 0x55 ∧ redMembers s.dev a q = [a, b] ∧
  redMembers s.dev b p = [a, b] ∧ p.mask = q.mask ∧ p.mates = q.mates ∧ p.nth = q.nth ∧
    (redBreach s.dev a q).1 = false ∧
  (redBreach s.dev b p).1 = false ∧ redFailed s.dev a q = none ∧ rectOf (fld (q.desc.getD 0 0) 39 8) = some r

/-- acc.red of two members: once both commands are at their heads, each cell of the first one's rectangle becomes the
rounded sum of its own and the other's, the other's cells stay, and both commands leave their queues; members that name
different rectangles or stages end with no change of a cell. At its head a sound command waits, one whose descriptor is
defective ends with DESCRIPTOR, and one whose instance has failed ends as it failed, with DESCRIPTOR where it is
defective too. TMO µs after one has come to its head without the others, the instance fails: the waiting command ends,
no cell changes, and the instance is remembered for those that arrive later (R355 to R357). -/
def Sys2Proof.Claim.TreeReduction : Prop :=
  (∀ (s : State) (a b : Nat) (q p : MxCmd) (qs ps : List MxCmd) (r : Rect), RedPair s a b q p qs ps r →
    r.wide = false → redLeaves q = false → (s.dev.core a).mx.bad = [] → (s.dev.core b).mx.bad = [] →
    fld (p.desc.getD 0 0) 39 8 = fld (q.desc.getD 0 0) 39 8 → p.desc.getD 1 0 = q.desc.getD 1 0 →
    ∃ t, exec (.accRedStart a) s = .next t ∧
      (∀ x y, y < 128 → (t.dev.core a).mx.acc.get (128 * x + y) =
        if r.row0 ≤ x ∧ x < r.row0 + r.nrow ∧ r.col0 ≤ y ∧ y < r.col0 + r.ncol then
          BitVec.ofNat 32 (rneBits f32 (XR.add (exact f32 ((s.dev.core a).mx.acc.get (128 * x + y)).toNat)
            (exact f32 ((s.dev.core b).mx.acc.get (128 * x + y)).toNat)))
        else (s.dev.core a).mx.acc.get (128 * x + y)) ∧
      (t.dev.core b).mx.acc = (s.dev.core b).mx.acc ∧
      (t.dev.core a).mx.queue = stampHead s.clock qs ∧ (t.dev.core b).mx.queue = stampHead s.clock ps) ∧
  (∀ (s : State) (a b : Nat) (q p : MxCmd) (qs ps : List MxCmd) (r : Rect), RedPair s a b q p qs ps r →
    (fld (p.desc.getD 0 0) 39 8 ≠ fld (q.desc.getD 0 0) 39 8 ∨ p.desc.getD 1 0 ≠ q.desc.getD 1 0) →
    exec (.accRedStart a) s = .next { s with
      dev := endHead (endHead s.dev s.clock a cDescriptor) s.clock b cDescriptor }) ∧
  (∀ (s : State) (a : Nat) (q : MxCmd) (qs : List MxCmd), MxHead s a q qs → q.opc = 0x55 →
    let ends (d : Device) (code : Nat) : Host.Outcome State Fault Refusal :=
      .next { s with dev := endRed d s.clock a q code }
    (redFailed s.dev a q = none → (redBreach s.dev a q).1 = false → exec (.matrixCmdExecute a) s = .next s) ∧
    (redFailed s.dev a q = none → redBreach s.dev a q = (true, false) →
      exec (.matrixCmdExecute a) s = ends s.dev cDescriptor) ∧
    (redFailed s.dev a q = none → redBreach s.dev a q = (true, true) →
      exec (.matrixCmdExecute a) s = ends (failRed s.dev a q cDescriptor) cDescriptor) ∧
    (∀ code, redFailed s.dev a q = some code → exec (.matrixCmdExecute a) s =
      ends s.dev (if (redBreach s.dev a q).1 then cDescriptor else code))) ∧
  (∀ (d : Device) (now core : Nat) (q : MxCmd) (code : Nat), ∃ fs,
    endRed d now core q code = { endHead d now core code with redFailed := fs }) ∧
  (∀ (s : State) (a : Nat) (q : MxCmd) (qs : List MxCmd) (t₀ run : Nat), MxHead s a q qs → q.opc = 0x55 →
    runOf s.dev a = some run → (redBreach s.dev a q).1 = false → redFailed s.dev a q = none →
    (redMembers s.dev a q).Nodup → q.since = some t₀ → fld (q.desc.getD 2 0) 31 0 ≠ 0 →
    t₀ + 1750 * fld (q.desc.getD 2 0) 31 0 ≤ s.clock →
    (∃ m, m ∈ redMembers s.dev a q ∧ (s.dev.core m).mx.queue = []) →
    ∃ t, exec (.accRedTimeout a) s = .next t ∧ (t.dev.core a).mx.queue = stampHead s.clock qs ∧
      (t.dev.core a).mx.acc = (s.dev.core a).mx.acc ∧
      ∃ f, f ∈ t.dev.redFailed ∧ f.run = run ∧ f.mask = q.mask ∧ f.mates = q.mates ∧ f.nth = q.nth ∧
        f.code = cTimeout)

/-- The periodic test: it runs only when due. With no failing quadrant it restarts both counts and changes nothing
else. A quadrant that fails its retest while another one is unfenced is fenced, and LASTING goes up; one that passes
its retest makes TRANSIENT go up; the accumulator does not change (R364, R365). -/
def Sys2Proof.Claim.SelfTest : Prop :=
  ∀ (s : State) (core : Nat), core < s.dev.cores.length → (s.dev.core core).frozen = false →
    (s.dev.core core).inService = true →
    (testDue (s.dev.core core) = false → ∀ bad lasting, exec (.mxSelfTest core bad lasting) s = .next s) ∧
    (testDue (s.dev.core core) = true →
      (∀ lasting, exec (.mxSelfTest core 0 lasting) s = .next { s with dev := s.dev.modCore core fun c =>
        { c with mx := { c.mx with sinceTest := 0, sincePass := 0 } } }) ∧
      (∀ q, q < 4 → bit (s.dev.core core).regs.mxstat q = false →
        (∃ o, o < 4 ∧ o ≠ q ∧ bit (s.dev.core core).regs.mxstat o = false) →
        let stat := (s.dev.core core).regs.mxstat
        (∃ t, exec (.mxSelfTest core (BitVec.ofNat 4 (2 ^ q)) (BitVec.ofNat 4 (2 ^ q))) s = .next t ∧
          (t.dev.core core).regs.mxstat = setFld (setFld stat 23 16 (min 255 (fld stat 23 16 + 1))) q q 1 ∧
          (t.dev.core core).mx.acc = (s.dev.core core).mx.acc ∧ (t.dev.core core).mx.sinceTest = 0) ∧
        (∃ t, exec (.mxSelfTest core (BitVec.ofNat 4 (2 ^ q)) 0) s = .next t ∧
          (t.dev.core core).regs.mxstat = setFld stat 15 8 (min 255 (fld stat 15 8 + 1)) ∧
          (t.dev.core core).mx.acc = (s.dev.core core).mx.acc ∧ (t.dev.core core).mx.sinceTest = 0)))

/-- The table unit performs its oldest command, which leaves it and completes with the code of what it did; a KIND other
than the node's ends with DESCRIPTOR and changes nothing else; a frozen unit waits (R307, R375, R402). -/
def Sys2Proof.Claim.TableUnitRuns : Prop :=
  ∀ (s : State) (core : Nat) (c : TabCmd) (rest : List TabCmd), (s.dev.core core).mer.table = c :: rest →
    let leaves (d : Device) (code : Nat) : Host.Outcome State Fault Refusal := .next { s with
      dev := complete (d.modCore core fun x =>
        { x with mer := { x.mer with table := rest } }) core c.comp code }
    ((s.dev.core core).frozen = true → exec (.tableUnitExecute core) s = .next s) ∧
    ((s.dev.core core).frozen = false →
      (fld (c.desc.getD 0 0) 7 0 ≠ c.opc → exec (.tableUnitExecute core) s = leaves s.dev cDescriptor) ∧
      (∃ d code, exec (.tableUnitExecute core) s = leaves d code))

/-! ## Meridian (19_meridian) -/

/-- The queued job starts once the engine is handed over: M0 holds PARAM, M1 to M3 the issuer's $cidx, $ncores and
$core, the other registers and the flags 0, every tag idle, the micro-PC ENTRY; a defective descriptor ends it with
DESCRIPTOR, and a PARAM or a STOPW in scratch beyond the scratchpad with BOUNDS (R29, R308, R376, R377). -/
def Sys2Proof.Claim.JobsStart : Prop :=
  ∀ (s : State) (core : Nat) (q : JobCmd), core < s.dev.cores.length → (s.dev.core core).mer.queued = some q →
    (s.dev.core core).mer.job = none → (s.dev.core core).frozen = false → handedOver s.dev s.clock core = true →
    let ends (code : Nat) : Host.Outcome State Fault Refusal := .next { s with
      dev := complete (s.dev.modCore core fun c => { c with mer := { c.mer with queued := none } }) core q.comp code }
    let param := q.desc.getD 1 0
    let stopw := q.desc.getD 2 0
    let beyond := (spOf param = 1 ∧ scratchSize < adOf param + 1) ∨
      (stopw ≠ 0 ∧ spOf stopw = 1 ∧ scratchSize < adOf stopw + 8)
    (goOk q.desc = true → beyond → exec (.jobStart core) s = ends clsBounds) ∧
    (goOk q.desc = true → ¬beyond → ∃ t j, exec (.jobStart core) s = .next t ∧ (t.dev.core core).mer.job = some j ∧
      (t.dev.core core).mer.queued = none ∧ j.cmd = q ∧ j.upc = fld (q.desc.getD 0 0) 43 32 ∧
      j.m = [q.desc.getD 1 0, BitVec.ofNat 64 q.cidx, BitVec.ofNat 64 q.ncores, BitVec.ofNat 64 q.coord,
        0, 0, 0, 0, 0, 0, 0, 0, 0, 0, 0, 0] ∧ j.n = [0, 0, 0, 0] ∧ j.z = false ∧ j.neg = false ∧ j.t = false ∧
      j.tags.map (·.st) = [.idle, .idle, .idle, .idle] ∧ j.ecc = false ∧ j.stop = none ∧ j.posted = []) ∧
    (goOk q.desc = false → exec (.jobStart core) s = ends cDescriptor)

/-- The job j of the focus's core is at a microword boundary, on the device d once a free subset of its posted writes
has been performed: it runs, it is not frozen, and no debugger stop is taken (R382, R400, R402). -/
def Sys2Proof.Claim.AtWord (s : State) (j : Job) (d : Device) : Prop :=
  ∃ j₀, (s.dev.core s.focus.core).mer.job = some j₀ ∧ j₀.stop = none ∧ (s.dev.core s.focus.core).frozen = false ∧
    (j₀.dbgStop = false ∨ j₀.wait ≠ none) ∧ drainPosted s.focus.core j₀.posted [] s.dev = (j.posted, d) ∧
    j = { j₀ with posted := j.posted }

/-- The state in which the job of the focus's core is j, on the device d, once the attn.save and attn.go.resume
commands that wait for its Meridian have been applied, where j is at a boundary (R375). -/
def Sys2Proof.Claim.withJob (s : State) (d : Device) (j : Job) : State :=
  { s with dev := settleSaves (setJob d s.focus.core j) s.clock s.focus.core }

/-- No attn.save and no attn.go.resume waits for the Meridian of the focus's core. -/
def Sys2Proof.Claim.NoSaves (s : State) : Prop := (s.dev.core s.focus.core).mer.saves = []

/-- A microword changes the job by f and nothing else, but for what the commands do that waited for its end. -/
def Sys2Proof.Claim.MicroGives (mk : MW → Instr) (f : MW → Job → Job) : Prop :=
  ∀ (w : MW) (s : State) (j : Job) (d : Device), (mk w).wf = true → AtWord s j d →
    exec (mk w) s = .next (withJob s d (f w j))

/-- The job one microaddress on. -/
def Sys2Proof.Claim.onward (j : Job) : Job := { j with upc := j.upc + 1 }

/-- An arithmetic microword writes Md and sets Z and N from the result; operand b is Mb, or IMM60 where COND is not
0 (R380, R381). -/
def Sys2Proof.Claim.MicroArith (mk : MW → Instr) (f : Word → Word → Word) : Prop :=
  MicroGives mk fun w j =>
    let v := f (j.m.getD w.a.toNat 0) (if w.cond = 0 then j.m.getD w.b.toNat 0 else w.imm.signExtend 64)
    onward { j with m := j.m.set w.d.toNat v, z := v == 0, neg := v.msb }

/-- The register and control microwords (R381, R389). -/
def Sys2Proof.Claim.MicrowordsCompute : Prop :=
  MicroGives .mli (fun w j => onward { j with m := j.m.set w.d.toNat (w.imm.signExtend 64) }) ∧
  MicroArith .madd (· + ·) ∧ MicroArith .msub (· - ·) ∧ MicroArith .mmul (· * ·) ∧ MicroArith .mand (· &&& ·) ∧
  MicroArith .mshl (fun x y => x <<< (y.toNat % 64)) ∧ MicroArith .mshr (fun x y => x >>> (y.toNat % 64)) ∧
  MicroGives .mbr (fun w j =>
    let taken := match w.cond.toNat with
      | 0 => true
      | 1 => j.z
      | 2 => !j.z
      | 3 => j.neg
      | 4 => !j.neg
      | 5 => j.t
      | _ => !j.t
    if taken then { j with upc := w.target.toNat } else onward j) ∧
  MicroGives .mloop (fun w j =>
    let n := j.n.getD w.d.toNat 0
    let n' := if n = 0 then 0 else n - 1
    if n' = 0 then onward { j with n := j.n.set w.d.toNat n' }
    else { j with n := j.n.set w.d.toNat n', upc := w.target.toNat }) ∧
  MicroGives .mloopLd (fun w j => onward { j with n := j.n.set w.d.toNat ((j.m.getD w.a.toNat 0).setWidth 32) }) ∧
  MicroGives .mnop (fun _ j => onward j) ∧
  ∀ (d : Device) (now core : Nat), (d.core core).mer.saves = [] → settleSaves d now core = d

/-- A job is stopped with a stop word of the cause and code, kept at its microaddress; in host mode the driver's
interrupt is raised (R400). -/
def Sys2Proof.Claim.stoppedBy (s : State) (core : Nat) (j : Job) (cause code : Nat) (t : State) : Prop :=
  ∃ word : Word, (t.dev.core core).mer.job = some { j with stop := some word, wait := none, dbgStop := false } ∧
    (t.dev.core core).mer.lastStop = word ∧ fld word 63 63 = 1 ∧ fld word 62 48 = code ∧ fld word 47 44 = cause ∧
    fld word 43 32 = j.upc % 4096 ∧
    (∀ b, (s.dev.core core).bound = some b → b.handler = none → t.dev.host.intstat.getLsbD 0 = true)

/-- mtrap stops the job with cause 2 and the low 32 bits of its immediate as DETAIL, an illegal microword with cause 1,
and a debugger's request with cause 4 at the next boundary; the micro-PC stays (R389, R400). -/
def Sys2Proof.Claim.MicrowordsStop : Prop :=
  (∀ (w : MW) (s : State) (j : Job) (d : Device), (Instr.mtrap w).wf = true → AtWord s j d → NoSaves s →
    s.focus.core < s.dev.cores.length → ∃ t, exec (.mtrap w) s = .next t ∧ stoppedBy s s.focus.core j 2 0 t ∧
      fld (t.dev.core s.focus.core).mer.lastStop 31 0 = w.imm.toNat % 2 ^ 32) ∧
  (∀ (v : BitVec 96) (s : State) (j : Job) (d : Device), AtWord s j d → NoSaves s → s.focus.core < s.dev.cores.length →
    ∃ t, exec (.illegalMicroword v) s = .next t ∧ stoppedBy s s.focus.core j 1 0 t) ∧
  (∀ (w : MW) (s : State) (j : Job), (s.dev.core s.focus.core).mer.job = some j → j.stop = none → j.posted = [] →
    (s.dev.core s.focus.core).frozen = false → j.dbgStop = true → j.wait = none → s.focus.core < s.dev.cores.length →
    ∃ t, exec (.mnop w) s = .next t ∧ stoppedBy s s.focus.core j 4 0 t)

/-- mld reads a word of scratch into Md with Z and N; mst posts its store; mpost performs every posted store and then
its own. A misaligned address stops the job with ALIGN, and one outside spaces 0 and 1 with DESCRIPTOR (R380, R382,
R403). -/
def Sys2Proof.Claim.MicrowordMemory : Prop :=
  (∀ (w : MW) (s : State) (j : Job) (d : Device), (Instr.mld w).wf = true → AtWord s j d → NoSaves s →
    let a := j.m.getD w.a.toNat 0 + w.imm.signExtend 64
    (spOf a = 1 → resOk a = true → adOf a % 8 = 0 → adOf a + 8 ≤ scratchSize →
      (d.core s.focus.core).scratchBad = [] →
      let v := BitVec.ofNat 64 (ofBytes (scratchRead d s.focus.core (adOf a) 8))
      exec (.mld w) s = .next (withJob s d (onward { j with m := j.m.set w.d.toNat v, z := v == 0, neg := v.msb }))) ∧
    (spOf a ≤ 1 → resOk a = true → adOf a % 8 ≠ 0 → s.focus.core < s.dev.cores.length →
      ∃ t, exec (.mld w) s = .next t ∧ stoppedBy s s.focus.core j 0 clsAlign t) ∧
    (1 < spOf a → s.focus.core < s.dev.cores.length →
      ∃ t, exec (.mld w) s = .next t ∧ stoppedBy s s.focus.core j 0 cDescriptor t)) ∧
  (∀ (w : MW) (s : State) (j : Job) (d : Device), (Instr.mst w).wf = true → AtWord s j d →
    let a := j.m.getD w.d.toNat 0 + w.imm.signExtend 64
    spOf a = 1 → resOk a = true → adOf a % 8 = 0 → adOf a + 8 ≤ scratchSize →
    exec (.mst w) s = .next (withJob s d (onward { j with
      posted := j.posted ++ [(Place.scratch (adOf a), Mapped.none, toBytes 8 (j.m.getD w.a.toNat 0).toNat)] }))) ∧
  (∀ (w : MW) (s : State) (j : Job) (d : Device), (Instr.mpost w).wf = true → AtWord s j d → NoSaves s →
    s.focus.core < d.cores.length → (d.core s.focus.core).scratch.wf = true →
    let a := j.m.getD w.d.toNat 0
    spOf a = 1 → resOk a = true → adOf a % 8 = 0 → adOf a + 8 ≤ scratchSize →
    ∃ t, exec (.mpost w) s = .next t ∧ (t.dev.core s.focus.core).mer.job = some (onward { j with posted := [] }) ∧
      scratchRead t.dev s.focus.core (adOf a) 8 = toBytes 8 (j.m.getD w.a.toNat 0).toNat)

/-- mwait with a condition tests its word: where the condition holds against Ma the job goes on with T clear, where not
it parks, and a word that cannot be read stops it. MWAIT_RELEASE lets a parked job go on with T clear where the word
satisfies the condition, and MWAIT_TIMEOUT, once its µs have passed, 0 meaning never, with T set where it does not
(R172, R382). -/
def Sys2Proof.Claim.MicrowordWaits : Prop :=
  (∀ (w : MW) (s : State) (j : Job) (d : Device), (Instr.mwaitCond w).wf = true → AtWord s j d →
    let a := j.m.getD w.d.toNat 0
    (j.wait ≠ none → exec (.mwaitCond w) s = .next (withJob s d j)) ∧
    (j.wait = none → spOf a ≤ 1 → resOk a = true → adOf a % 8 = 0 → (spOf a = 1 → adOf a + 8 ≤ scratchSize) →
      adOf a + 8 ≤ 2 ^ 56 →
      (∀ d', mwaitHolds d s.focus.core j w = (.ok true, d') →
        exec (.mwaitCond w) s = .next (withJob s d' (onward { j with t := false }))) ∧
      (∀ d', mwaitHolds d s.focus.core j w = (.ok false, d') →
        exec (.mwaitCond w) s = .next (withJob s d' { j with wait := some s.clock })) ∧
      (∀ c x d', mwaitHolds d s.focus.core j w = (.error (c, x), d') → c < 2 ^ 15 → NoSaves s →
        s.focus.core < s.dev.cores.length →
        ∃ t, exec (.mwaitCond w) s = .next t ∧ stoppedBy s s.focus.core j 0 c t))) ∧
  (∀ (s : State) (core : Nat) (j : Job) (w : MW) (t₀ : Nat), parkedJob s.dev core = some (j, w, t₀) →
    let goes (t : Bool) : Host.Outcome State Fault Refusal := .next { s with
      dev := settleSaves (setJob s.dev core (onward { j with t := t, wait := none })) s.clock core }
    let a := j.m.getD w.d.toNat 0
    let holds := condHolds (w.cond.toNat - 1) (BitVec.ofNat 64 (ofBytes (scratchRead s.dev core (adOf a) 8)))
      (j.m.getD w.a.toNat 0)
    spOf a = 1 → resOk a = true → adOf a + 8 ≤ scratchSize → (s.dev.core core).scratchBad = [] →
    exec (.mwaitRelease core) s = (if holds then goes false else .next s) ∧
    exec (.mwaitTimeout core) s =
      (if w.imm ≠ 0 ∧ t₀ + 1750 * w.imm.toNat ≤ s.clock then goes (!holds) else .next s))

/-- mgat starts a gather in an idle tag that takes a slot of the copy engine, and waits where none is free;
GATHER_COMPLETE takes up its positions, up to one that waits for a host page, and ends it done with its skip count and
its rows at its destination, or failed; one that reads the state words of a gather started before it waits for that
one; mwait on a tag waits for it, reads the count and makes the tag idle, 0 for an idle one. kvx reads a page-table
entry into Md, and a key beyond its fields stops the job with KV (R383 to R385). -/
def Sys2Proof.Claim.Gathers : Prop :=
  (∀ (w : MW) (s : State) (j : Job) (d : Device), (Instr.mgat w).wf = true → AtWord s j d →
    let imm := BitVec.ofNat 64 w.imm.toNat
    let n := fld imm 54 53
    ∀ u d', (j.tags.getD n default).st = .idle →
      gatherCheck d s.focus.core (gatherOf (j.m.getD w.d.toNat 0) (j.m.getD w.a.toNat 0) imm) = (.ok u, d') →
      exec (.mgat w) s = .next (withJob s d'
        (if (d'.core s.focus.core).copy.length + flightTags (d'.core s.focus.core) < 96 then
          onward { j with
            tags := j.tags.set n (Tag.started (j.m.getD w.d.toNat 0) (j.m.getD w.a.toNat 0) imm j.gathers)
            gathers := j.gathers + 1 }
        else j))) ∧
  (∀ (s : State) (core n : Nat) (j : Job) (x : Tag), (s.dev.core core).mer.job = some j →
    (s.dev.core core).frozen = false → j.tags[n]? = some x → x.st = .flight →
    let leaves (d : Device) (y : Tag) : Host.Outcome State Fault Refusal :=
      .next { s with dev := setJob d core { j with tags := j.tags.set n y } }
    let got := gather s.dev s.clock core x.rows x.wait x.gather
    (gatherBehind s.dev core j x = true → exec (.gatherComplete core n) s = .next s) ∧
    (gatherBehind s.dev core j x = false →
      (∀ q rows, got.1 = .ok (q, rows, none) → exec (.gatherComplete core n) s =
        leaves (putGather got.2 core x.gather.dst (gatherBytes x.gather q rows))
          { x with st := .done (skipCount rows), rows := [], wait := none }) ∧
      (∀ q rows t₀, got.1 = .ok (q, rows, some t₀) →
        exec (.gatherComplete core n) s = leaves got.2 { x with rows := rows, wait := some t₀ }) ∧
      (∀ c a, got.1 = .error (c, a) → ∃ d, exec (.gatherComplete core n) s =
        leaves d { x with st := .failed c a, rows := [], wait := none }))) ∧
  (∀ (w : MW) (s : State) (j : Job) (d : Device), (Instr.mwait w).wf = true → AtWord s j d →
    let n := w.imm.toNat % 4
    let x := j.tags.getD n default
    (x.st = .flight → exec (.mwait w) s = .next (withJob s d j)) ∧
    (x.st = .idle → exec (.mwait w) s = .next (withJob s d (onward { j with m := j.m.set w.d.toNat 0 }))) ∧
    (∀ k, x.st = .done k → exec (.mwait w) s = .next (withJob s d (onward { j with
      m := j.m.set w.d.toNat (BitVec.ofNat 64 k), tags := j.tags.set n { x with st := .idle } }))) ∧
    (∀ c a, x.st = .failed c a → c < 2 ^ 15 → NoSaves s → s.focus.core < s.dev.cores.length →
      ∃ t, exec (.mwait w) s = .next t ∧
        stoppedBy s s.focus.core { j with tags := j.tags.set n { x with waited := true } } 0 c t)) ∧
  (∀ (w : MW) (s : State) (j : Job) (d : Device), (Instr.kvx w).wf = true → AtWord s j d →
    let key := j.m.getD w.b.toNat 0
    (fld key 63 48 ≠ 0 → NoSaves s → s.focus.core < s.dev.cores.length →
      ∃ t, exec (.kvx w) s = .next t ∧ stoppedBy s s.focus.core j 3 cKv t) ∧
    (∀ v d', fld key 63 48 = 0 →
      kvLookup d (coreRd s.focus.core) (j.m.getD w.a.toNat 0) (fld key 47 32) (fld key 31 0) = (.ok v, d') →
      exec (.kvx w) s = .next (withJob s d' (onward { j with m := j.m.set w.d.toNat v }))))

/-- mmma waits for the commands that the engine holds and for a test that is due; otherwise it computes as mma on the
descriptor at Md, and counts towards the test; uncorrectable data is a sticky ECC of the job (R386). -/
def Sys2Proof.Claim.MicrowordMatrix : Prop :=
  ∀ (w : MW) (s : State) (j : Job) (d : Device), (Instr.mmma w).wf = true → AtWord s j d →
    let core := s.focus.core
    let a := (j.m.getD w.d.toNat 0).toNat
    let typ := w.cond.toNat
    let ct := w.imm.getLsbD 0
    let sp := w.imm.getLsbD 1
    a % 64 = 0 → a + 64 ≤ scratchSize → (d.core core).scratchBad = [] →
    ((d.core core).mx.queue ≠ [] ∨ testDue (d.core core) = true → exec (.mmma w) s = .next (withJob s d j)) ∧
    ((d.core core).mx.queue = [] → testDue (d.core core) = false → (d.core core).inService = true →
      ¬(ct = true ∧ sp = true) → (sp = true → 8 ≤ typ ∧ typ ≤ 10) → (ct = true → typ = 4 ∨ typ = 6) →
      let ws := wordsOf 8 (scratchRead d core a 64)
      ws.getD 6 0 = 0 →
      let r := mmaExec [] (d.modCore core fun c => c.stepShadow 0x50 typ ct ws) core (privOf d core) sp ct typ ws
      let d' := r.2.modCore core fun c =>
        { c with mx := { c.mx with sinceTest := c.mx.sinceTest + 1, sincePass := c.mx.sincePass + 1 } }
      (r.1.1 = 0 → exec (.mmma w) s = .next (withJob s d' (onward j))) ∧
      (r.1.1 = clsEcc → exec (.mmma w) s = .next (withJob s d' (onward { j with ecc := true }))))

/-- A row-state microword on a good rectangle r of at most lim columns, with good row records and good cells, run by the
job j on d while no attn.save waits: the conditions of R387 and R388. -/
def Sys2Proof.Claim.RowsReady (s : State) (j : Job) (d : Device) (w : MW) (lim : Nat) (r : Rect) : Prop :=
  AtWord s j d ∧ NoSaves s ∧ microRect d s.focus.core (j.m.getD w.d.toNat 0) (j.m.getD w.a.toNat 0) lim = .ok r ∧
  s.focus.core < d.cores.length ∧ (d.core s.focus.core).mx.bad = [] ∧ (d.core s.focus.core).scratchBad = [] ∧
  (d.core s.focus.core).scratch.wf = true ∧ (d.core s.focus.core).mx.acc.wf = true

/-- The cell of a rectangle, as binary32 bits. -/
def Sys2Proof.Claim.cellAt (d : Device) (core : Nat) (r : Rect) (i k : Nat) : Nat :=
  ((d.core core).mx.acc.get (128 * (r.row0 + i) + r.col0 + k)).toNat

/-- The exponent unit's microwords, where no cell they read is bad. mexu.max leaves in each row record the new maximum
and the factor α; mexu.exp writes 64 elements of P a row, 2 to (s × cell − mnew), 0 beyond the mask and where mnew is
−∞; mexu.sum leaves mnew as m and the rounded α × l + ΣP as l (for both, where P does not meet the records); mexu.scale
multiplies each cell by its row's α, once the commands that the engine held are done. Each goes on to the next
microword (R30, R387). -/
def Sys2Proof.Claim.ExponentUnit : Prop :=
  (∀ (w : MW) (s : State) (j : Job) (d : Device) (r : Rect), (Instr.mexuMax w).wf = true → RowsReady s j d w 64 r →
    let core := s.focus.core
    let ma := j.m.getD w.a.toNat 0
    let sc := fld (j.m.getD w.b.toNat 0) 31 0
    maskCheck d core w r.ncol = none →
    ∃ t, exec (.mexuMax w) s = .next t ∧ (t.dev.core core).mer.job = some (onward j) ∧
      (t.dev.core core).mx.acc = (d.core core).mx.acc ∧
      ∀ i, i < r.nrow →
        let xs := (maskCols d core w r.ncol).map fun k =>
          rneBits f32 (XR.mul (exact f32 sc) (exact f32 (cellAt d core r i k)))
        let top := match xs with
          | [] => 0xFF80_0000
          | x :: l => l.foldl fmax32 x
        let old := rowField d core ma i 0
        rowField t.dev core ma i 2 = fmax32 old top % 2 ^ 32 ∧
        rowField t.dev core ma i 3 = alphaOf old (fmax32 old top) % 2 ^ 32 ∧
        rowField t.dev core ma i 0 = old ∧ rowField t.dev core ma i 1 = rowField d core ma i 1) ∧
  (∀ (w : MW) (s : State) (j : Job) (d : Device) (r : Rect), (Instr.mexuExp w).wf = true → RowsReady s j d w 64 r →
    let core := s.focus.core
    let ma := j.m.getD w.a.toNat 0
    let sc := fld (j.m.getD w.b.toNat 0) 31 0
    let p := nfld w.imm.toNat 42 22
    let sz := if w.imm.getLsbD 43 then 2 else 4
    let f := if w.imm.getLsbD 43 then bf16 else f32
    p % sz = 0 → p + r.nrow * 64 * sz ≤ scratchSize →
    overlaps p (r.nrow * 64 * sz) ma.toNat (16 * r.nrow) = false → maskCheck d core w r.ncol = none →
    ∃ t, exec (.mexuExp w) s = .next t ∧ (t.dev.core core).mer.job = some (onward j) ∧
      ∀ i k, i < r.nrow → k < 64 →
        let mn := rowField d core ma i 2
        ofBytes (scratchRead t.dev core (p + (64 * i + k) * sz) sz) =
          if k ∈ maskCols d core w r.ncol ∧ mn ≠ 0xFF80_0000 then
            (rneExp2 f (exact f32 (rneBits f32 (XR.sub (exact f32 (rneBits f32
              (XR.mul (exact f32 sc) (exact f32 (cellAt d core r i k))))) (exact f32 mn))))).1 % 2 ^ (8 * sz)
          else 0) ∧
  (∀ (w : MW) (s : State) (j : Job) (d : Device) (r : Rect), (Instr.mexuSum w).wf = true → RowsReady s j d w 64 r →
    let core := s.focus.core
    let ma := j.m.getD w.a.toNat 0
    let p := nfld w.imm.toNat 42 22
    let sz := if w.imm.getLsbD 43 then 2 else 4
    let f := if w.imm.getLsbD 43 then bf16 else f32
    p % sz = 0 → p + r.nrow * 64 * sz ≤ scratchSize →
    overlaps p (r.nrow * 64 * sz) ma.toNat (16 * r.nrow) = false →
    ∃ t, exec (.mexuSum w) s = .next t ∧ (t.dev.core core).mer.job = some (onward j) ∧
      ∀ i, i < r.nrow →
        rowField t.dev core ma i 0 = rowField d core ma i 2 ∧
        rowField t.dev core ma i 1 = rneBits f32 (XR.sum
          (XR.mul (exact f32 (rowField d core ma i 3)) (exact f32 (rowField d core ma i 1)))
          ((List.range r.ncol).map fun k =>
            exact f (ofBytes (scratchRead d core (p + i * 64 * sz + k * sz) sz)))) % 2 ^ 32) ∧
  (∀ (w : MW) (s : State) (j : Job) (d : Device) (r : Rect), (Instr.mexuScale w).wf = true →
    RowsReady s j d w 128 r →
    let core := s.focus.core
    ((d.core core).mx.queue ≠ [] → exec (.mexuScale w) s = .next (withJob s d j)) ∧
    ((d.core core).mx.queue = [] → ∃ t, exec (.mexuScale w) s = .next t ∧ (t.dev.core core).mer.job = some (onward j) ∧
      (t.dev.core core).scratch = (d.core core).scratch ∧
      ∀ i k, i < r.nrow → k < r.ncol → cellAt t.dev core r i k = rneBits f32 (XR.mul
        (exact f32 (rowField d core (j.m.getD w.a.toNat 0) i 3)) (exact f32 (cellAt d core r i k))) % 2 ^ 32))

/-- The partial-result microwords on scratch, where no cell they read is bad. macc.export posts each row's m and l and
then its cells; macc.final posts cell / l, 0 where l is 0; macc.merge leaves the larger maximum, and l and every cell
as the rounded α × own + β × other, once the commands that the engine held are done (R30, R388). -/
def Sys2Proof.Claim.PartialResults : Prop :=
  (∀ (w : MW) (s : State) (j : Job) (d : Device) (r : Rect), (Instr.maccExport w).wf = true →
    RowsReady s j d w 128 r →
    let core := s.focus.core
    let ma := (j.m.getD w.a.toNat 0).toNat
    let mb := j.m.getD w.b.toNat 0
    spOf mb = 1 → resOk mb = true → adOf mb % 64 = 0 → adOf mb + 512 + 4 * r.ncol * r.nrow ≤ scratchSize →
    exec (.maccExport w) s = .next (withJob s d (onward { j with
      posted := j.posted ++ wordWrites [(.scratch (adOf mb), .none, 8 * r.nrow)]
        ((List.range r.nrow).flatMap fun i => scratchRead d core (ma + 16 * i) 8) ++
      wordWrites [(.scratch (adOf mb + 512), .none, 4 * r.ncol * r.nrow)]
        ((List.range r.nrow).flatMap fun i => (List.range r.ncol).flatMap fun k =>
          toBytes 4 (cellAt d core r i k)) }))) ∧
  (∀ (w : MW) (s : State) (j : Job) (d : Device) (r : Rect), (Instr.maccFinal w).wf = true →
    RowsReady s j d w 128 r →
    let core := s.focus.core
    let mb := j.m.getD w.b.toNat 0
    let sz := if w.imm.getLsbD 0 then 2 else 4
    let f := if w.imm.getLsbD 0 then bf16 else f32
    spOf mb = 1 → resOk mb = true → adOf mb % 64 = 0 → adOf mb + r.ncol * sz * r.nrow ≤ scratchSize →
    exec (.maccFinal w) s = .next (withJob s d (onward { j with
      posted := j.posted ++ wordWrites [(.scratch (adOf mb), .none, r.ncol * sz * r.nrow)]
        ((List.range r.nrow).flatMap fun i => (List.range r.ncol).flatMap fun k =>
          let l := exact f32 (rowField d core (j.m.getD w.a.toNat 0) i 1)
          toBytes sz (if l.isZero then 0 else (rneDiv f (exact f32 (cellAt d core r i k)) l).1)) }))) ∧
  (∀ (w : MW) (s : State) (j : Job) (d : Device) (r : Rect), (Instr.maccMerge w).wf = true →
    RowsReady s j d w 128 r →
    let core := s.focus.core
    let ma := j.m.getD w.a.toNat 0
    let mb := j.m.getD w.b.toNat 0
    spOf mb = 1 → resOk mb = true → adOf mb % 64 = 0 → adOf mb + 512 + 4 * r.ncol * r.nrow ≤ scratchSize →
    ((d.core core).mx.queue ≠ [] → exec (.maccMerge w) s = .next (withJob s d j)) ∧
    ((d.core core).mx.queue = [] → ∃ t, exec (.maccMerge w) s = .next t ∧ (t.dev.core core).mer.job = some (onward j) ∧
      ∀ i, i < r.nrow →
        let part (a : Nat) : Nat := ofBytes (scratchRead d core a 4)
        let m := rowField d core ma i 0
        let m' := part (adOf mb + 8 * i)
        let mn := fmax32 m m'
        let mix (x y : Nat) : Nat := rneBits f32 (XR.add (XR.mul (exact f32 (alphaOf m mn)) (exact f32 x))
          (XR.mul (exact f32 (alphaOf m' mn)) (exact f32 y))) % 2 ^ 32
        rowField t.dev core ma i 0 = mn % 2 ^ 32 ∧
        rowField t.dev core ma i 1 = mix (rowField d core ma i 1) (part (adOf mb + 8 * i + 4)) ∧
        ∀ k, k < r.ncol → cellAt t.dev core r i k =
          mix (cellAt d core r i k) (part (adOf mb + 512 + 4 * (r.ncol * i + k)))))

/-- mhalt waits for a gather in flight. Otherwise every posted write is performed and the job ends, completing with the
lowest code of its failed tags that were never waited on, else ECC where that is sticky, else the supplied value
(R389). -/
def Sys2Proof.Claim.JobsEnd : Prop :=
  ∀ (w : MW) (s : State) (j : Job) (d : Device), (Instr.mhalt w).wf = true → AtWord s j d →
    let core := s.focus.core
    let failed (c : Nat) : Prop := ∃ x a, x ∈ j.tags ∧ x.st = .failed c a ∧ x.waited = false
    ((∃ x, x ∈ j.tags ∧ x.st = .flight) → exec (.mhalt w) s = .next (withJob s d j)) ∧
    ((∀ x, x ∈ j.tags → x.st ≠ .flight) → core < d.cores.length → NoSaves s → ∀ code,
      ((∀ c, ¬failed c) → code = if j.ecc then clsEcc else 0) →
      ((∃ c, failed c) → failed code ∧ ∀ c, failed c → 0 < c ∧ code ≤ c) →
      ∃ d', (d'.core core).mer.job = none ∧
        exec (.mhalt w) s = .next { s with dev := complete d' core j.cmd.comp code } ∧
        ∃ f : Meridian → Meridian, d' = (flushPosted d core j).modCore core fun c => { c with mer := f c.mer })

/-! ### What the table unit's commands do (R391 to R397) -/

/-- The command c of kind opc is at the head of a core's table unit, and its KIND is the node's. -/
def Sys2Proof.Claim.TableHead (s : State) (core : Nat) (c : TabCmd) (rest : List TabCmd) (opc : Nat) : Prop :=
  (s.dev.core core).mer.table = c :: rest ∧ (s.dev.core core).frozen = false ∧ c.opc = opc ∧
  fld (c.desc.getD 0 0) 7 0 = opc

/-- That command leaves the unit and completes with a code, on the device d that it has come to. -/
def Sys2Proof.Claim.TableEnds (s : State) (core : Nat) (c : TabCmd) (rest : List TabCmd) (code : Nat) (d : Device) :
    Prop :=
  exec (.tableUnitExecute core) s = .next { s with
    dev := complete (d.modCore core fun x => { x with mer := { x.mer with table := rest } }) core c.comp code }

/-- The table unit's writes, and the entries it replaces: bytes within a page go to the home slice at one key; an entry
of a root's table is a word of BASE, and one of an overlay its sorted entry, with OVLCOUNT (R390, R391, R393). -/
def Sys2Proof.Claim.TableWrites : Prop :=
  (∀ (d d' : Device) (core a : Nat) (bs : List Byte), 0 < bs.length → a % 4096 + bs.length ≤ 4096 →
    kvWrite d core a bs = (.ok (), d') → ∃ d₁ key, d₁.mem = d.mem ∧ d' = engWrite d₁ key bs) ∧
  (∀ (d : Device) (core : Nat) (q : Seq) (layer g : Nat) (v : Word), q.depth = 0 →
    setKvEntry d core q layer g v = kvPut d core (q.base + 8 * (layer * q.npage + g)) v) ∧
  (∀ (d d₁ d₂ : Device) (core : Nat) (q h : Seq) (layer g : Nat) (v : Word) (es : List (Nat × Word)), q.depth ≠ 0 →
    seqAt d (coreRd core) (addrWord q.addr) = (.ok h, d₁) → overlay d₁ (coreRd core) h = (.ok es, d₂) →
    let key := layer * 2 ^ 32 + g
    ∃ es' : List (Nat × Word), (es'.map (·.1)).Pairwise (· < ·) ∧
      (∀ x, x ∈ es' ↔ (x ∈ es ∧ x.1 ≠ key) ∨ (v ≠ 0 ∧ x = (key, v))) ∧
      ∀ d₃ d₄, kvWrite d₂ core h.ovl (bytesOfWords (es'.flatMap fun x => [BitVec.ofNat 64 x.1, x.2])) = (.ok (), d₃) →
        kvPut d₃ core (h.addr + 40) (BitVec.ofNat 64 (h.cap * 2 ^ 32 + es'.length)) = (.ok (), d₄) →
        setKvEntry d core q layer g v = (.ok (), d₄)) ∧
  (∀ (d d₁ d₂ : Device) (core page : Nat) (up : Bool) (v : Word), kvWord d (coreRd core) page = (.ok v, d₁) →
    let n := (fld v 31 0 + if up then 1 else 2 ^ 32 - 1) % 2 ^ 32
    kvPut d₁ core page (setFld v 31 0 n) = (.ok (), d₂) → addRefc core up page d = (.ok n, d₂))

/-- kv.map: a defect is DESCRIPTOR, a layer or page beyond the sequence and a full overlay BOUNDS, an entry that is
there KV, before anything is written; else the page's header and position headers are written, and after them the
entry, into BASE or sorted into the overlay with OVLCOUNT one more (R391, R393, R394). -/
def Sys2Proof.Claim.KvMaps : Prop :=
  ∀ (s : State) (core : Nat) (c : TabCmd) (rest : List TabCmd), TableHead s core c rest 0x62 →
    let g (k : Nat) : Word := c.desc.getD k 0
    let layer := fld (g 2) 47 32
    let i := fld (g 2) 23 0
    let e := g 3
    let page := fld e 55 6 * 64
    let bad := fld (g 0) 63 8 ≠ 0 ∨ fld (g 2) 63 48 ≠ 0 ∨ fld (g 2) 31 24 ≠ 0 ∨ bit e 62 = true ∨ fld e 61 56 ≠ 0 ∨
      fld e 5 0 ≠ 0 ∨ fld e 55 6 = 0 ∨ g 4 ≠ 0 ∨ g 5 ≠ 0
    let ends := TableEnds s core c rest
    (bad → ends cDescriptor s.dev) ∧
    (¬bad → ∀ cc a d₁, seqAt s.dev (coreRd core) (g 1) = (.error (cc, a), d₁) → ends cc d₁) ∧
    (¬bad → ∀ q d₁, seqAt s.dev (coreRd core) (g 1) = (.ok q, d₁) →
      let header := bytesOfWords ([1, BitVec.ofNat 64 layer, BitVec.ofNat 64 (i * 2 ^ q.log), 0, 0, 0, 0, 0] ++
        (List.replicate (2 ^ q.log) ([0, 0xFFFF] : List Word)).flatten)
      (q.nlayer ≤ layer ∨ q.depth = 0 ∧ q.npage ≤ i → ends clsBounds d₁) ∧
      (layer < q.nlayer → q.depth = 0 → i < q.npage →
        let slot := q.base + 8 * (layer * q.npage + i)
        ∀ old d₂, kvWord d₁ (coreRd core) slot = (.ok old, d₂) →
          (old ≠ 0 → ends cKv d₂) ∧
          (old = 0 → ∀ d₃ d₄, kvWrite d₂ core page header = (.ok (), d₃) → kvPut d₃ core slot e = (.ok (), d₄) →
            ends 0 d₄)) ∧
      (layer < q.nlayer → 0 < q.depth → ∀ es d₂, overlay d₁ (coreRd core) q = (.ok es, d₂) →
        let key := layer * 2 ^ 32 + i
        ((∃ x ∈ es, x.1 = key ∧ x.2 ≠ 0) → ends cKv d₂) ∧
        ((∀ x ∈ es, x.1 ≠ key) →
          (q.cap ≤ es.length → ends clsBounds d₂) ∧
          (es.length < q.cap → ∃ es' : List (Nat × Word), (es'.map (·.1)).Pairwise (· < ·) ∧
            es'.length = es.length + 1 ∧ (∀ x, x ∈ es' ↔ x ∈ es ∨ x = (key, e)) ∧
            ∀ d₃ d₄ d₅, kvWrite d₂ core page header = (.ok (), d₃) →
              kvWrite d₃ core q.ovl (bytesOfWords (es'.flatMap fun x => [BitVec.ofNat 64 x.1, x.2])) = (.ok (), d₄) →
              kvPut d₄ core (q.addr + 40) (BitVec.ofNat 64 (q.cap * 2 ^ 32 + es'.length)) = (.ok (), d₅) →
              ends 0 d₅))))

/-- kv.fork: FL above the parent's LEN is BOUNDS and a parent of depth 4 KV; else REFC of each distinct page that the
parent's first FL positions resolve to goes up by 1, and the child's descriptor is written (OVL, OVLCAP, POOL kept)
 (R392, R393, R395). -/
def Sys2Proof.Claim.KvForks : Prop :=
  ∀ (s : State) (core : Nat) (c : TabCmd) (rest : List TabCmd), TableHead s core c rest 0x63 →
    let g (k : Nat) : Word := c.desc.getD k 0
    let fl := fld (g 3) 31 0
    let child := adOf (g 2)
    let bad := fld (g 0) 63 8 ≠ 0 ∨ spOf (g 2) ≠ 0 ∨ resOk (g 2) = false ∨ child % 64 ≠ 0 ∨ fld (g 3) 63 32 ≠ 0 ∨
      g 4 ≠ 0 ∨ g 5 ≠ 0
    let ends := TableEnds s core c rest
    (bad → ends cDescriptor s.dev) ∧
    (¬bad → ∀ p d₁ cb d₂, seqAt s.dev (coreRd core) (g 1) = (.ok p, d₁) →
      engRead d₁ core (privOf d₁ core) child 64 = (.ok cb, d₂) →
      let w (k : Nat) : Word := (wordsOf 8 cb).getD k 0
      (fld (w 4) 63 56 ≠ 0 ∨ adOf (w 4) % 16 ≠ 0 ∨ fld (w 7) 63 56 ≠ 0 → ends cDescriptor d₂) ∧
      (fld (w 4) 63 56 = 0 → adOf (w 4) % 16 = 0 → fld (w 7) 63 56 = 0 →
        (p.len < fl → ends clsBounds d₂) ∧ (fl ≤ p.len → p.depth = 4 → ends cKv d₂) ∧
        (fl ≤ p.len → p.depth ≠ 4 →
          (∀ cc a d₃, forkPages d₂ core p fl = (.error (cc, a), d₃) → ends cc d₃) ∧
          ∀ pages d₃, forkPages d₂ core p fl = (.ok pages, d₃) →
            pages.Nodup ∧
            (∀ layer i, layer < p.nlayer → i * 2 ^ p.log < fl → ∃ r d' d'',
              resolve (coreRd core) layer (i * 2 ^ p.log) 5 p d' = (.ok r, d'') ∧
              ∀ e h, r = some (e, h) → adOf e ≠ 0 → bit e 63 = false ∧ fld e 55 6 * 64 ∈ pages) ∧
            ∀ ns d₄ d₅, forEach (addRefc core true) pages d₃ = (.ok ns, d₄) →
              kvWrite d₄ core child (bytesOfWords [addrWord p.addr,
                BitVec.ofNat 64 (fl * 2 ^ 32 + (p.depth + 1) * 2 ^ 28 + p.log * 2 ^ 24 + p.policy * 2 ^ 22 + p.waitus),
                0, p.w3, w 4, setFld (w 5) 31 0 0, BitVec.ofNat 64 (fl * 2 ^ 32), w 7]) = (.ok (), d₅) →
              ends 0 d₅)))

/-- kv.trunc: a CUT above LEN is BOUNDS; else LEN becomes CUT, then each entry of the sequence's own table from CUT's
page on is treated, then the parent's pages that the fork gives up, and FORKLEN becomes CUT; it ends with BOUNDS where
the pool was full for a page. A page that straddles CUT has its state words emptied where it is the sequence's own; a
page beyond it loses a holder, and is freed where that was the last, else retained; a demoted page is freed. A freed
entry leaves its table and is pushed onto the pool, D with it; where the pool is full it is put back, retained, with
REFC 0 (R243, R244, R393, R396). -/
def Sys2Proof.Claim.KvTruncates : Prop :=
  (∀ (s : State) (core : Nat) (c : TabCmd) (rest : List TabCmd), TableHead s core c rest 0x64 →
    let g (k : Nat) : Word := c.desc.getD k 0
    let cut := fld (g 2) 31 0
    let bad := fld (g 0) 63 8 ≠ 0 ∨ fld (g 2) 63 32 ≠ 0 ∨ ∃ k, 3 ≤ k ∧ k < 6 ∧ g k ≠ 0
    let ends := TableEnds s core c rest
    (bad → ends cDescriptor s.dev) ∧
    (¬bad → ∀ q d₁, seqAt s.dev (coreRd core) (g 1) = (.ok q, d₁) →
      (q.len < cut → ends clsBounds d₁) ∧
      (cut ≤ q.len → ∀ v d₂ d₃ es d₄ full d₅, kvWord d₁ (coreRd core) (q.addr + 8) = (.ok v, d₂) →
        kvPut d₂ core (q.addr + 8) (setFld v 63 32 cut) = (.ok (), d₃) →
        ownEntries d₃ core q (cut / 2 ^ q.log) = (.ok es, d₄) → forEach (truncOwn core q cut) es d₄ = (.ok full, d₅) →
        (q.depth = 0 ∨ q.forklen ≤ cut → ends (if true ∈ full then clsBounds else 0) d₅) ∧
        (0 < q.depth → cut < q.forklen → ∀ par d₆ more d₇ d₈,
          seqAt d₅ (coreRd core) (addrWord q.parent) = (.ok par, d₆) →
          forEach (truncParent core q par) ((List.range q.nlayer).flatMap fun l =>
            ((List.range ((q.forklen + 2 ^ q.log - 1) / 2 ^ q.log)).filter fun i => cut ≤ i * 2 ^ q.log).map
              fun i => (l, i)) d₆ = (.ok more, d₇) →
          kvPut d₇ core (q.addr + 48) (BitVec.ofNat 64 (cut * 2 ^ 32)) = (.ok (), d₈) →
          ends (if true ∈ full ++ more then clsBounds else 0) d₈)))) ∧
  (∀ (d : Device) (core : Nat) (q : Seq) (cut layer i : Nat) (e : Word),
    let page := fld e 55 6 * 64
    let start := i * 2 ^ q.log
    let own := truncOwn core q cut (layer, i, e) d
    let emptied (d : Device) : Got Bool :=
      (forEach (fun pos d => kvPut d core (page + 64 + 16 * (pos - start)) 0)
        ((List.range (min q.len (start + 2 ^ q.log) - cut)).map (cut + ·)) d).andThen fun _ d => (.ok false, d)
    (start < cut →
      (bit e 62 = true → own = (.ok false, d)) ∧
      (bit e 62 = false → bit e 63 = true → own = emptied d) ∧
      (bit e 62 = false → bit e 63 = false → ∀ v d₁, kvWord d (coreRd core) page = (.ok v, d₁) →
        own = if fld v 31 0 = 1 then emptied d₁ else (.ok false, d₁))) ∧
    (cut ≤ start →
      (bit e 62 = true → ∀ v d₁, kvWord d (coreRd core) page = (.ok v, d₁) →
        own = if fld v 31 0 = 0 then freeEntry d₁ core q.pool q layer i e else (.ok false, d₁)) ∧
      (bit e 62 = false → bit e 63 = true → own = freeEntry d core q.pool q layer i e) ∧
      (bit e 62 = false → bit e 63 = false → ∀ n d₁, addRefc core false page d = (.ok n, d₁) →
        (n = 0 → own = freeEntry d₁ core q.pool q layer i e) ∧
        (n ≠ 0 → ∀ d₂, setKvEntry d₁ core q layer i (setFld e 62 62 1) = (.ok (), d₂) → own = (.ok false, d₂))))) ∧
  (∀ (d : Device) (core : Nat) (q par : Seq) (layer i : Nat) (r : Option (Word × Seq)) (d₁ : Device),
    resolve (coreRd core) layer (i * 2 ^ q.log) 5 par d = (.ok r, d₁) →
    let gives := truncParent core q par (layer, i) d
    (r = none → gives = (.ok false, d₁)) ∧
    (∀ e h n d₂, r = some (e, h) → adOf e ≠ 0 → fld e 61 56 = 0 → fld e 5 0 = 0 →
      addRefc core false (fld e 55 6 * 64) d₁ = (.ok n, d₂) →
      gives = if n = 0 then freeEntry d₂ core q.pool h layer i e else (.ok false, d₂))) ∧
  (∀ (d d₁ d₂ : Device) (core pool : Nat) (q : Seq) (layer i : Nat) (e : Word) (ok : Bool),
    setKvEntry d core q layer i 0 = (.ok (), d₁) →
    poolPush d₁ core pool (BitVec.ofNat 64 (fld e 55 6 * 64 + if bit e 63 then 2 ^ 63 else 0)) = (.ok ok, d₂) →
    (ok = true → freeEntry d core pool q layer i e = (.ok false, d₂)) ∧
    (ok = false → ∀ d₃ d₄, setKvEntry d₂ core q layer i (setFld e 62 62 1) = (.ok (), d₃) →
      kvPut d₃ core (fld e 55 6 * 64) 0 = (.ok (), d₄) → freeEntry d core pool q layer i e = (.ok true, d₄))) ∧
  (∀ (d d₁ d₂ : Device) (core pool : Nat) (v : Word) (x : Xlated) (bs : List Byte), pool % 64 = 0 →
    access d core pool (privOf d core) true = (.ok x, d₁) → x.host = false →
    engRead d₁ core (privOf d₁ core) pool 64 = (.ok bs, d₂) → bs.length = 64 →
    let h (k : Nat) : Word := (wordsOf 8 bs).getD k 0
    let cap := 2 ^ fld (h 2) 4 0
    let used := (h 1 - h 0).toNat
    fld (h 2) 63 5 = 0 → 1 ≤ fld (h 2) 4 0 → fld (h 2) 4 0 ≤ 24 → used ≤ cap → (∀ k, 4 ≤ k → k < 8 → h k = 0) →
    fld (h 3) 2 0 = 0 → fld (h 3) 63 56 = 0 →
    let slot := adOf (h 3) + 8 * ((h 1).toNat % cap)
    (used = cap → poolPush d core pool v = (.ok false, d₂)) ∧
    (used < cap → ∀ y d₃ d₄ d₅, access d₂ core slot (privOf d₂ core) true = (.ok y, d₃) → y.host = false →
      kvPut d₃ core slot v = (.ok (), d₄) → kvPut d₄ core (pool + 8) (h 1 + 1) = (.ok (), d₅) →
      poolPush d core pool v = (.ok true, d₅)))

/-- attn.plan deals the pages of the sequences to the holders in order, each its share, and writes the table of each
core's segments and the segments; a plan that does not fit is BOUNDS, with nothing written (R397). -/
def Sys2Proof.Claim.PlansAreWritten : Prop :=
  (∀ (s : State) (core : Nat) (c : TabCmd) (rest : List TabCmd), TableHead s core c rest 0x61 →
    let g (k : Nat) : Word := c.desc.getD k 0
    let b := fld (g 2) 31 0
    let n := fld (g 2) 47 32
    let glob (a : Word) : Prop := spOf a = 0 ∧ resOk a = true
    let good := fld (g 0) 63 8 = 0 ∧ glob (g 1) ∧ 1 ≤ b ∧ b ≤ 2 ^ 20 ∧ 1 ≤ n ∧ n ≤ 4096 ∧ fld (g 2) 63 48 = 0 ∧
      glob (g 3) ∧ adOf (g 3) % 64 = 0 ∧ fld (g 4) 63 32 = 0 ∧ g 5 = 0
    let ends := TableEnds s core c rest
    (¬good → ends cDescriptor s.dev) ∧
    (good → ∀ bs d₁ seqs d₂, engRead s.dev core (privOf s.dev core) (adOf (g 1)) (8 * b) = (.ok bs, d₁) →
      forEach (fun a d => seqAt d (coreRd core) a) (wordsOf b bs) d₁ = (.ok seqs, d₂) →
      let segs := planSegs (seqs.map fun q => (q.len + 2 ^ q.log - 1) / 2 ^ q.log) n
      let off := 64 * ((8 * n + 63) / 64)
      let size := if segs = [] then 8 * n else off + 32 * segs.length
      (fld (g 4) 31 0 < size → ends clsBounds d₂) ∧
      (size ≤ fld (g 4) 31 0 → ∀ d₃ d₄ d₅ d₆, kvReach d₂ core (adOf (g 3)) (8 * n) = (.ok (), d₃) →
        kvReach d₃ core (adOf (g 3) + off) (32 * segs.length) = (.ok (), d₄) →
        kvWrite d₄ core (adOf (g 3)) (planTable segs n) = (.ok (), d₅) →
        kvWrite d₅ core (adOf (g 3) + off) ((List.range segs.length).flatMap (segBytes seqs segs)) = (.ok (), d₆) →
        ends 0 d₆))) ∧
  (∀ (ns : List Nat) (n : Nat),
    let base (b : Nat) : Nat := (ns.take b).sum
    (planSegs ns n).Pairwise (fun x y => x.holder < y.holder ∨ (x.holder = y.holder ∧ x.b < y.b)) ∧
    ∀ x, x ∈ planSegs ns n ↔ x.holder < n ∧ x.b < ns.length ∧
      let from_ := max (x.holder * ns.sum / n) (base x.b)
      let upto := min ((x.holder + 1) * ns.sum / n) (base x.b + ns.getD x.b 0)
      from_ < upto ∧ x.first = from_ - base x.b ∧ x.pages = upto - from_) ∧
  (∀ (segs : List Seg) (n i : Nat), i < n → segs.length < 2 ^ 32 →
    let word := (wordsOf n (planTable segs n)).getD i 0
    fld word 63 32 = (segs.filter fun x => x.holder = i).length ∧
    fld word 31 0 = (segs.filter fun x => x.holder < i).length) ∧
  (∀ (seqs : List Seq) (segs : List Seg) (k : Nat) (x : Seg) (q : Seq), segs[k]? = some x → seqs[x.b]? = some q →
    x.b < 2 ^ 32 → x.first + x.pages < 2 ^ 23 → q.log ≤ 8 → q.len < 2 ^ 32 → x.first * 2 ^ q.log ≤ q.len →
    x.holder < 2 ^ 16 →
    let ws := wordsOf 4 (segBytes seqs segs k)
    let w (k : Nat) : Word := ws.getD k 0
    fld (w 0) 31 0 = x.b ∧ fld (w 0) 63 48 = (segs.filter fun y => y.b = x.b).length % 2 ^ 16 ∧
    fld (w 0) 47 32 = ((segs.take k).filter fun y => y.b = x.b).length % 2 ^ 16 ∧
    fld (w 1) 63 32 = x.pages ∧ fld (w 1) 31 0 = x.first ∧
    fld (w 2) 31 0 = x.first * 2 ^ q.log ∧
    fld (w 2) 63 32 = min q.len ((x.first + x.pages) * 2 ^ q.log) - x.first * 2 ^ q.log ∧
    fld (w 3) 15 0 = x.holder ∧
    ∀ y, segs.find? (fun y => y.b = x.b) = some y → y.holder < 2 ^ 16 → fld (w 3) 31 16 = y.holder ∧
      fld (w 3) 63 32 = 0)

/-! ## Batches and launches (21_infill, 22_launch_scheduling) -/

/-- FILL_BATCH_FORM takes up to MAX queued requests with the exit layer and LAST of the oldest; the batch is then armed
on the fill record, or all its requests end failed. Without a queued request, with filling disabled or while a batch is
armed it does nothing (R413, R414). FILL_BATCH_RESOLVE acts once the fill launch has ended: the batch is gone, the
requests of a launch that ended in error count as failed, and no fill.sync waits for them any more (R411, R415). -/
def Sys2Proof.Claim.InfillBatches : Prop :=
  (∀ (s : State) (cl : Nat), cl < s.dev.clusters.length →
    let c := s.dev.cluster cl
    ((c.fillQueue = [] ∨ bit c.fillLr 31 = false ∨ c.fillArmed ≠ none) → exec (.fillBatchForm cl) s = .next s) ∧
    (∀ r₀ rest, c.fillQueue = r₀ :: rest → bit c.fillLr 31 = true → c.fillArmed = none →
      let rs := (c.fillQueue.filter fun r => r.exitL == r₀.exitL && r.last == r₀.last).take (fld c.fillLr 24 16)
      ∃ d, Does (.fillBatchForm cl) s d ∧ (d.cluster cl).fillQueue = c.fillQueue.filter (fun r => !rs.contains r) ∧
        (d.cluster cl).fillBatches = c.fillBatches + 1 ∧
        ((∃ e, (e = none ∨ e = some false) ∧
            (d.cluster cl).fillArmed = some ⟨fld c.fillLr 15 0, fld c.fillBuf 55 6 * 64, rs, e⟩) ∨
          ((d.cluster cl).fillArmed = none ∧ (d.cluster cl).fillFailed = (c.fillFailed + rs.length) % 2 ^ 16)))) ∧
  (∀ (s : State) (cl : Nat) (b : FillBatch), cl < s.dev.clusters.length → (s.dev.cluster cl).fillArmed = some b →
    (b.ended = none → exec (.fillBatchResolve cl) s = .next s) ∧
    (∀ ok, b.ended = some ok → ∃ d, Does (.fillBatchResolve cl) s d ∧ (d.cluster cl).fillArmed = none ∧
      (ok = false → (d.cluster cl).fillFailed = ((s.dev.cluster cl).fillFailed + b.reqs.length) % 2 ^ 16) ∧
      ∀ x ∈ d.syncs, ∀ r ∈ b.reqs, r.id ∉ x.ids))

/-- A trigger fires only for an IDLE record whose condition holds, where its word and the record are served, and then
its binding is removed and the record is armed (R431, R477). Arming an IDLE record makes it ARMED, or READY or refused
where DEPS is 0; any other is BUSY, an index beyond the pool is no record, and a record that is not served stays (R422,
R430, R477). -/
def Sys2Proof.Claim.TriggersFire : Prop :=
  (∀ (s : State) (i : Nat),
    (s.dev.dist.bindings.find i = none → exec (.triggerTest i) s = .next s) ∧
    (∀ b, s.dev.dist.bindings.find i = some b →
      (served s.dev b.key = false ∨ recServed s.dev i = false ∨
        condHolds b.cond (homeWord s.dev b.key) b.value = false ∨ recState s.dev i ≠ 0 →
        exec (.triggerTest i) s = .next s) ∧
      (i < s.dev.dist.count.toNat → served s.dev b.key = true → recServed s.dev i = true →
        condHolds b.cond (homeWord s.dev b.key) b.value = true → recState s.dev i = 0 →
        exec (.triggerTest i) s = .next { s with
          dev := (armRecord { s.dev with dist := { s.dev.dist with bindings := s.dev.dist.bindings.del i } }
            s.clock i none).2 }))) ∧
  (∀ (d : Device) (now i : Nat) (only : Option Nat), d.mem.wf = true →
    (d.dist.count.toNat ≤ i → armRecord d now i only = (2, d)) ∧
    (i < d.dist.count.toNat → recServed d i = false → armRecord d now i only = (3, d)) ∧
    (i < d.dist.count.toNat → recServed d i = true → recState d i ≠ 0 → armRecord d now i only = (1, d)) ∧
    (i < d.dist.count.toNat → recServed d i = true → recState d i = 0 →
      (armRecord d now i only).1 = 0 ∧ (armRecord d now i only).2.dist.armed = true ∧
      (recDeps d i ≠ 0 → recState (armRecord d now i only).2 i = 1)))

/-- The heads that SELECT_HEAD chooses among: those of mapped queues that are not selected and that no selected head
keeps out (R434). -/
def Sys2Proof.Claim.candidateHeads (d : Device) (now : Nat) : List Head :=
  (heads d).filter fun h => !isSelected d h.record && !d.dist.selected.any (blockedBy d now h)

/-- SELECT_HEAD selects, of the heads there are, one of the highest level, and below level 8 the one whose queue
follows rr soonest; among promoted heads the earliest DEADLINE (R433, R434). HEAD_PROMOTE raises a selected head that
has reached its point to level 8, and selects one that is best; a head that has not reached it, or whose queue is not
mapped, is left alone (R433, R437). -/
def Sys2Proof.Claim.HeadSelection : Prop :=
  (∀ (s : State), candidateHeads s.dev s.clock = [] → exec .selectHead s = .next s) ∧
  (∀ (s : State) (h : Head), nextHead s.dev s.clock = some h → ∃ d, Does .selectHead s d ∧
    isSelected d h.record = true ∧
    d.mem = s.dev.mem ∧ h ∈ candidateHeads s.dev s.clock ∧
    ∀ x ∈ candidateHeads s.dev s.clock,
      let lx := levelOf s.dev s.clock x.queue x.launch
      let lh := levelOf s.dev s.clock h.queue h.launch
      let after (q : Nat) : Nat := (q + 4095 - s.dev.dist.rr.getD lh 4095) % 4096
      lx < lh ∨ (lx = lh ∧ (lh < 8 → after h.queue ≤ after x.queue) ∧
        (lh = 8 → h.launch.deadline ≤ x.launch.deadline))) ∧
  (∀ (s : State) (q : Nat), headOf s.dev q = none → exec (.headPromote q) s = .next s) ∧
  (∀ (s : State) (q : Nat) (h : Head), headOf s.dev q = some h →
    let due := h.launch.deadline ≠ 0 ∧ h.launch.deadline ≤ s.clock / 1750 + fld (h.launch.word 7) 63 32
    (¬due ∨ isMapped s.dev.dist q = false → exec (.headPromote q) s = .next s) ∧
    (due → isMapped s.dev.dist q = true → isSelected s.dev h.record = true →
      ∃ d, Does (.headPromote q) s d ∧ ∀ x ∈ d.dist.selected, x.1 = h.record → x.2 = 8) ∧
    (due → isMapped s.dev.dist q = true → isSelected s.dev h.record = false →
      (nextHead s.dev s.clock).map (·.record) = some h.record → exec (.headPromote q) s = exec .selectHead s))

/-- LAUNCH_BIND binds the first selected head for which enough allowed cores are free: $cidx follows the order in which
the cores are picked, each core starts with the launch's threads WAITING at block 0 with empty slots and the registers
loaded, the record is RUNNING and no longer selected, and rr of its level names its queue; no other core is bound
(R154, R422, R434, R435). Without such a head, or once the
distributor binds nothing more, nothing happens (R477).
In it the model's own readings count: log 32. -/
def Obligations.LaunchBinding : Prop :=
  (∀ (s : State), (s.dev.dist.closed = true ∨
      ∀ x ∈ s.dev.dist.selected, ∀ l, launchOf s.dev x.1 = some l → pickCores s.dev l = none) →
    exec .launchBind s = .next s) ∧
  (∀ (s : State) (i level : Nat) (rest : List (Nat × Nat)) (l : Launch) (cs : List Nat),
    s.dev.dist.selected = (i, level) :: rest → launchOf s.dev i = some l → pickCores s.dev l = some cs →
    l.state = .ready → s.dev.dist.closed = false → s.dev.cores.length = 384 → cs.Nodup → (∀ k ∈ cs, k < 384) →
    s.dev.mem.wf = true →
    level < s.dev.dist.rr.length →
    ∃ d, Does .launchBind s d ∧ recState d i = 3 ∧ isSelected d i = false ∧ d.dist.rr.getD level 0 = l.queue ∧
      (∃ l', launchOf d i = some l' ∧ l'.state = .running ∧ l'.cores = cs ∧ l'.run = s.dev.dist.runs) ∧
      d.dist.runs = s.dev.dist.runs + 1 ∧
      (∀ k, k ∉ cs → (d.core k).bound = (s.dev.core k).bound) ∧
      (∀ n k, cs[n]? = some k → ∃ b, (d.core k).bound = some b ∧ b.cidx = n ∧ b.record = i ∧ b.run = s.dev.dist.runs ∧
        b.ncores = l.ncores ∧ b.priv = l.priv ∧ b.param = (l.word 4).toNat ∧
        (d.core k).threads = List.replicate (fld (l.word 2) 63 48) Thread.fresh ∧ (d.core k).passes = 0 ∧
        (d.core k).scratch = [] ∧ (d.core k).regs.fpflags = 0 ∧ (d.core k).regs.dmode = 0 ∧
        (d.core k).regs.fptrap = BitVec.ofNat 64 (fld (l.word 14) 37 32) ∧
        (d.core k).regs.launch = BitVec.ofNat 64 (level * 2 ^ 16 + i)))

/-- QUEUE_SLOT_EVICT gives the slot of the queue that has been mapped longest, for 100 µs at least, and none of whose
records is selected to the first queue that waits, and puts the evicted queue at the end of the list; without a queue
that waits or one that may be evicted it does nothing (R436). -/
def Sys2Proof.Claim.QueueSlots : Prop :=
  ∀ (s : State),
    ((s.dev.dist.unmapped = [] ∨ (∀ x, some x ∈ s.dev.dist.slots → evictable s.dev s.clock x = false)) →
      exec .queueSlotEvict s = .next s) ∧
    (∀ u us, s.dev.dist.unmapped = u :: us → (∃ x, some x ∈ s.dev.dist.slots ∧ evictable s.dev s.clock x = true) →
      ∃ n q t₀, s.dev.dist.slots[n]? = some (some (q, t₀)) ∧ evictable s.dev s.clock (q, t₀) = true ∧
        t₀ + 175000 ≤ s.clock ∧ (∀ x, some x ∈ s.dev.dist.slots → evictable s.dev s.clock x = true → t₀ ≤ x.2) ∧
        Does .queueSlotEvict s { s.dev with dist := { s.dev.dist with
          slots := s.dev.dist.slots.set n (some (u, s.clock)), unmapped := us ++ [q] } })

/-- A core's share of its launch ends once no thread is live, its engines are idle and its stopped threads have been
handled: the core's tape records are settled, the core publishes at system scope and holds no launch any more, and the
launch counts its share and keeps the core's spill rings for their receiver; until then nothing happens (R156, R178,
R426). A launch whose shares have all ended completes: with no condition, no successors and no trigger, its record is
IDLE again and the distributor forgets it; DEPS of a successor falls by 1 (R425, R426). In it the model's own readings
count: logs 19, 45 and 51. -/
def Obligations.LaunchesEnd : Prop :=
  (∀ (s : State) (core : Nat) (b : Bound), core < s.dev.cores.length → (s.dev.core core).bound = some b →
    (shareEnded s.dev (s.dev.core core) b = false → exec (.coreShareEnd core) s = .next s) ∧
    (∀ l, shareEnded s.dev (s.dev.core core) b = true → launchOf s.dev b.record = some l → l.saved = [] →
      l.drop = false → (s.dev.core core).mer.saves = [] →
      let pub := publish (untape s.dev core) core 4
      let ill := (s.dev.core core).threads.any fun t => isStopped t || t.revFault
      ∃ d, Does (.coreShareEnd core) s d ∧ (d.core core).bound = none ∧ (d.core core).threads = [] ∧
        (d.core core).cache = (pub.core core).cache ∧ d.mem = pub.mem ∧
        launchOf d b.record = some { l with
          ended := l.ended ++ [b.cidx], partly := l.partly || ill
          rings := l.rings.put b.cidx (s.dev.core core).rings })) ∧
  (∀ (s : State) (i : Nat), (∀ l, launchOf s.dev i = some l → l.state ≠ .running ∨ l.ended.length ≠ l.ncores) →
    exec (.launchComplete i) s = .next s) ∧
  (∀ (s : State) (i : Nat) (l : Launch), launchOf s.dev i = some l → l.state = .running → l.drop = false →
    l.ended.length = l.ncores → fld (l.word 0) 3 2 = 0 → (∀ f, f < 4 → successor l.words f = none) →
    s.dev.dist.bindings.find i = none → s.dev.mem.wf = true →
    (∀ c ∈ s.dev.cores, ∀ b, c.bound = some b → b.handler ≠ some i) →
    ∃ d, Does (.launchComplete i) s d ∧ recState d i = 0 ∧ launchOf d i = none) ∧
  (∀ (d : Device) (now i : Nat), d.mem.wf = true → recServed d i = true → 2 ≤ recDeps d i →
    recDeps (decDeps d now i) i = recDeps d i - 1 ∧ recState (decDeps d now i) i = recState d i)

/-! ## The link engine (23_link_engine) -/

/-- The device once a packet has come from a peer: it is reached (R440). -/
def Sys2Proof.Claim.reached (d : Device) (peer : Nat) : Device := { d with unreachable := d.unreachable.del peer }

/-- A packet of a peer is performed once, and the peer is then reached. A write, a read and a signal for a JOB of this
device act on its memory and are answered; a misaligned signal is answered with DESCRIPTOR; a part of a collective or
of a ring waits in the inbox, and so does the abort of a ring that has not started here, from which they are discarded
only after SYS_RINGTIMEOUT; an answer goes to the command it names, where a peer may give that answer (R26, R440, R443,
R444). -/
def Sys2Proof.Claim.PacketsArrive : Prop :=
  (∀ (s : State) (job a peer tag : Nat) (bytes : Wire), Does (.linkPacketReceive (.write job a bytes peer tag)) s
    (let r := peerWrite (reached s.dev peer) job a (ofWire bytes)
     { r.2 with outbox := (peer, .reply tag r.1 []) :: r.2.outbox })) ∧
  (∀ (s : State) (job a n peer tag : Nat), Does (.linkPacketReceive (.readReq job a n peer tag)) s
    { reached s.dev peer with
      outbox := (peer, .reply tag (peerRead s.dev job a n).1 (toWire (peerRead s.dev job a n).2)) :: s.dev.outbox }) ∧
  (∀ (s : State) (job a peer tag : Nat) (v : Word),
    (a % 8 ≠ 0 → Does (.linkPacketReceive (.signal job a v peer tag)) s
      { reached s.dev peer with outbox := (peer, .reply tag 0x0001 []) :: s.dev.outbox }) ∧
    (a % 8 = 0 → Does (.linkPacketReceive (.signal job a v peer tag)) s
      (let r := peerWrite (reached s.dev peer) job a (goods (toBytes 8 v.toNat))
       { r.2 with outbox := (peer, .reply tag r.1 []) :: r.2.outbox }))) ∧
  (∀ (s : State) (p : Packet), (packetKey p).isSome = true → (∀ j g q, p ≠ .ringAbort j g q) →
    Does (.linkPacketReceive p) s { s.dev with
      inbox := s.dev.inbox ++ [(p, s.clock)]
      unreachable := match senderOf s.dev p with
        | some peer => s.dev.unreachable.del peer
        | none => s.dev.unreachable }) ∧
  (∀ (s : State) (job gen seq : Nat), (∀ x ∈ s.dev.links, x.2.key ≠ some (job, gen, seq)) →
    Does (.linkPacketReceive (.ringAbort job gen seq)) s
      { s.dev with inbox := s.dev.inbox ++ [(.ringAbort job gen seq, s.clock)] }) ∧
  (∀ (s : State) (k code : Nat) (bytes : Wire) (o : LinkOp), s.dev.links.find k = some o → isCollective o.opc = false →
    o.sent = true →
    (answers o code bytes = true → Does (.linkPacketReceive (.reply k code bytes)) s { reached s.dev (o.dev o.peer) with
      links := s.dev.links.put k { o with parts := o.parts.put o.steps ([BitVec.ofNat 64 code], bytes) } }) ∧
    (code ∉ [0, 0x0001, 0x0002, 0x0003, 0x000A] →
      Does (.linkPacketReceive (.reply k code bytes)) s (reached s.dev (o.dev o.peer)))) ∧
  (∀ (s : State) (i : Nat),
    ((∀ x, s.dev.inbox[i]? = some x → s.clock < x.2 + 1750 * s.dev.ringTimeout.toNat ∨ awaited s.dev x.1 = true) →
      exec (.linkPacketDiscard i) s = .next s) ∧
    (∀ x, s.dev.inbox[i]? = some x → x.2 + 1750 * s.dev.ringTimeout.toNat ≤ s.clock → awaited s.dev x.1 = false →
      Does (.linkPacketDiscard i) s { s.dev with inbox := s.dev.inbox.eraseIdx i }))

/-- A flit that fails its CRC is sent again and counted, up to 65,535; after 16 replays its port goes down. A peer that
no port reaches is remembered from that clock on; once the SYS_RINGTIMEOUT of an operation's fork has passed it is
unreachable for that, and a started put, get or collective other than a ring that needs it fails with LINK at the
lowest code (R440, R441, R444). -/
def Sys2Proof.Claim.PortsAndPeers : Prop :=
  (∀ (s : State) (n : Nat),
    (n < 16 → Does (.flitCrcReplay n) s { s.dev with replays := min 65535 (s.dev.replays + 1) }) ∧
    (16 ≤ n → Does (.flitCrcReplay n) s { s.dev with portsUp := s.dev.portsUp - 1 })) ∧
  (∀ (s : State) (dev : Nat),
    let t₀ := (s.dev.unreachable.find dev).getD s.clock
    (∀ x ∈ s.dev.links, s.clock < t₀ + 1750 * x.2.timeout) →
      Does (.peerUnreachable dev) s { s.dev with unreachable := s.dev.unreachable.put dev t₀ }) ∧
  (∀ (s : State) (dev k : Nat) (o : LinkOp), isUnreachable s.dev s.clock o.timeout dev = true →
    s.dev.links.find k = some o →
    (k, o) ∈ s.dev.links → o.group ≠ none → o.opc ≠ 0x86 → dev ∈ o.needs → o.ended = false →
    ∃ d o', Does (.peerUnreachable dev) s d ∧ isUnreachable d s.clock o.timeout dev = true ∧
      d.links.find k = some o' ∧ o'.failed = true ∧
      o'.code ≠ 0 ∧ o'.code ≤ 0x000A ∧ o'.desc = o.desc ∧ d.mem = s.dev.mem)

/-- A cl.red of a sum, minimum or maximum, once the parts of all its members are there and agree: element i of DST is
the fold of the members' elements in ring order from the member after the element's chunk, and the operation ends
(R444, R448, R456). Members whose fields disagree end with DESCRIPTOR, and those that have had no part of this one are
told, so that they end so too; an operation that has failed ends with the code it has noted (R444). -/
def Sys2Proof.Claim.ReductionsComplete : Prop :=
  (∀ (s : State) (k core key : Nat) (o : LinkOp) (bytes : Nat → List Byte), s.dev.links.find k = some o →
    o.opc = 0x82 → o.failed = false → o.group ≠ none → o.ended = false → o.code = 0 → s.dev.inbox = [] →
    core < s.dev.cores.length → o.owner s.dev = some core → (s.dev.core core).scratch.wf = true →
    (∀ x ∈ o.parts, x.2.1 = o.agree) →
    (∀ m, m < o.p → o.parts.find m = some (o.agree, (bytes m).map some) ∧ (bytes m).length = o.elem * o.count) →
    spOf (o.word 3) = 1 → adOf (o.word 3) + o.elem * o.count ≤ scratchSize → 0 < o.elem * o.count →
    o.comp.place = .home key →
    ∃ d, Does (.linkOpComplete k) s d ∧ d.links = s.dev.links.del k ∧
      d.mem = (homeWrite s.dev key (toBytes 8 o.comp.value.toNat)).mem ∧
      ∀ i, i < o.count → ofBytes (scratchRead d core (adOf (o.word 3) + o.elem * i) o.elem) =
        foldFirst (redOp (o.fld 4 63 56) (o.fld 4 55 48)) ((ringOrder (chunkOf i o.count o.p) o.p).map fun m =>
          ofBytes (((bytes m).drop (o.elem * i)).take o.elem)) % 2 ^ (8 * o.elem)) ∧
  (∀ (s : State) (k : Nat) (o : LinkOp), s.dev.links.find k = some o →
    (o.failed = true → Does (.linkOpComplete k) s (endLink s.dev k o 0)) ∧
    (o.failed = false → o.group ≠ none → o.ended = false → isCollective o.opc = true → o.opc ≠ 0x85 →
      s.dev.inbox = [] → o.mismatch = true →
      ∃ out, Does (.linkOpComplete k) s (endLink { s.dev with outbox := out } k o 0x0001) ∧
        (∀ x ∈ s.dev.outbox, x ∈ out) ∧
        (o.sent = false → ∀ m ∈ o.grp.members, m ≠ s.dev.devid.toNat →
          (m, Packet.part o.grp.job o.grp.gen o.seq o.grp.rank [] []) ∈ out))) ∧
  (∀ (s : State) (k : Nat), s.dev.links.find k = none → exec (.linkOpComplete k) s = .next s)

/-- A cl.put or cl.get whose peer is its own device is done when it starts: the bytes stand at the destination, the
signal after them where one is asked for, and the completion word is written (R442, R447). -/
def Sys2Proof.Claim.TransfersWithinTheDevice : Prop :=
  ∀ (s : State) (k : Nat) (o : LinkOp) (g : Group), s.dev.links.find k = some o → o.failed = false → o.group = none →
    o.fieldsOk = true → groupAt s.dev o = .ok g → g.rank = o.peer → o.peer < g.members.length →
    s.dev.unreachable = [] →
    let o' := { o with group := some g }
    o'.codes g.members.length = [] →
    let d := { s.dev with links := s.dev.links.put k o' }
    (o.opc = 0x80 → bit (o.word 0) 8 = false → ∀ es d', localRead d o' (o.word 2) o.len = (es, none) →
      hasBad es = false → peerWrite d g.job (adOf (o.word 3)) es = (0, d') →
      Does (.linkOpComplete k) s (endLink d' k o' 0)) ∧
    (o.opc = 0x80 → bit (o.word 0) 8 = true → ∀ es d' d'', localRead d o' (o.word 2) o.len = (es, none) →
      hasBad es = false → peerWrite d g.job (adOf (o.word 3)) es = (0, d') →
      peerWrite d' g.job (adOf (o.word 5)) (goods (toBytes 8 (o.word 7).toNat)) = (0, d'') →
      Does (.linkOpComplete k) s (endLink d'' k o' 0)) ∧
    (o.opc = 0x81 → ∀ es d', peerRead d g.job (adOf (o.word 2)) o.len = (0, es) → hasBad es = false →
      localWrite d o' (o.word 3) es = (none, d') → Does (.linkOpComplete k) s (endLink d' k o' 0))

/-- A cl.bar that has waited TMO µs from its fork completes with TIMEOUT, and an arrival that it has not made yet is
kept; without a TMO, or before it has passed, nothing happens (R452). -/
def Sys2Proof.Claim.BarriersTimeOut : Prop :=
  ∀ (s : State) (k : Nat) (o : LinkOp), s.dev.links.find k = some o → o.opc = 0x85 → o.ended = false →
    o.failed = false → o.fieldsOk = true →
    let tmo := fld (o.desc.getD 2 0) 31 0
    (tmo = 0 ∨ s.clock < o.since + 1750 * tmo → exec (.clBarTimeout k) s = .next s) ∧
    (tmo ≠ 0 → o.since + 1750 * tmo ≤ s.clock →
      (o.sent = true → Does (.clBarTimeout k) s (endLink s.dev k o 0x000C)) ∧
      (o.sent = false → ∃ d, Does (.clBarTimeout k) s d ∧ d.links.find k = some { o with ended := true } ∧
        d.mem = (endLink s.dev k o 0x000C).mem))

/-- A ring fails where one of its members is unreachable, or where it has made no progress for the failure-detection
time while its own GATE lets the next step in: aborts leave for the other members, FAILSTEP takes the steps completed,
HOLDS the rank of the block that the named buffer holds, and the operation ends with RING; the receipt of an abort does
the same without sending; before the failure-detection time has passed from the fork the engine otherwise only notes
since when the ring has not waited on its GATE, and after it a member's reset may be found, so that the ring fails too
(R441, R454). -/
def Sys2Proof.Claim.RingsFail : Prop :=
  ∀ (s : State) (k core : Nat) (o : LinkOp) (g : Group), s.dev.links.find k = some o → o.opc = 0x86 →
    o.group = some g → o.failed = false → core < s.dev.cores.length → o.owner s.dev = some core →
    spOf (o.word 3) = 1 → spOf (o.word 2) = 0 → adOf (o.word 3) + 32 ≤ scratchSize →
    (s.dev.core core).scratch.wf = true → (∃ key, o.comp.place = .home key) →
    let fails (d : Device) : Prop := d.links = s.dev.links.del k ∧
      ofBytes (scratchRead d core (adOf (o.word 3) + 8) 8) = o.steps % 2 ^ 64 ∧
      ofBytes (scratchRead d core (adOf (o.word 3) + 16) 8) =
        (g.rank + (o.steps / g.members.length + 1) * g.members.length - o.steps) % g.members.length % 2 ^ 64
    let w := ringWatch s.dev s.clock k o
    let stalled := ringStalled w s.clock ((w.links.find k).getD o)
    let aborts (d : Device) : Prop := ∀ m, m < g.members.length → m ≠ g.rank →
      (g.members.getD m 8192, Packet.ringAbort g.job g.gen (fld (o.word 0) 63 32)) ∈ d.outbox
    (stalled = false → s.clock < o.since + 1750 * o.timeout →
      exec (.ringFailureDetect k) s = .next { s with dev := w }) ∧
    (stalled = false → o.since + 1750 * o.timeout ≤ s.clock →
      exec (.ringFailureDetect k) s = .next { s with dev := w.draw.2 } ∨
        ∃ d, Does (.ringFailureDetect k) s d ∧ fails d ∧ aborts d) ∧
    (stalled = true → ∃ d, Does (.ringFailureDetect k) s d ∧ fails d ∧ aborts d) ∧
    (∃ d, Does (.ringAbortReceive k) s d ∧ fails d ∧ d.outbox = s.dev.outbox)

/-! ## The host's window, bring-up, the debugger and errors (25_host_system) -/

/-- A host read of memory returns its 64-byte line of published data, poisoned where the line is uncorrectable; of
memory that the device does not serve it returns poison; it changes nothing else. A host write is performed at the home
slice while service is on, below 2^48 and in the stacks that are served, or within the host's own memory; any other has
no effect (R39, R41, R471, R477). -/
def Sys2Proof.Claim.HostMemory : Prop :=
  ∀ (s : State) (key : Nat) (bs : List Byte),
    let line := key / 64 * 64
    let reads (bs : List Byte) (poison : Bool) : Host.Outcome State Fault Refusal :=
      .next { s with dev := { s.dev with host := { s.dev.host with rdata := bs, rpoison := poison } } }
    (hostMay s.dev line 64 = true →
      exec (.hostCxlMemAccess key none) s = reads (homeRead s.dev line 64) (badAt s.dev line 64)) ∧
    (hostMay s.dev line 64 = false → exec (.hostCxlMemAccess key none) s = reads [] true) ∧
    (isHostKey key = true → key + bs.length ≤ 2 * hostBase →
      Does (.hostCxlMemAccess key (some bs)) s (engWrite s.dev key bs)) ∧
    (isHostKey key = false → (s.dev.host.phase = 2 ∨ s.dev.host.phase = 3) → key + bs.length ≤ hostBase →
      (s.dev.host.phase = 2 → ∀ a, key ≤ a → a < key + bs.length → Config.stackOf (a / 64) ≤ 2) →
      Does (.hostCxlMemAccess key (some bs)) s (engWrite s.dev key bs)) ∧
    (isHostKey key = false → (s.dev.host.phase ≠ 2 ∧ s.dev.host.phase ≠ 3 ∨ hostBase < key + bs.length) →
      exec (.hostCxlMemAccess key (some bs)) s = .next s) ∧
    (s.dev.mem.wf = true → homeRead (engWrite s.dev key bs) key bs.length = bs) ∧
    (s.dev.mem.wf = true → ∀ a, a < key ∨ key + bs.length ≤ a →
      homeByte (engWrite s.dev key bs) a = homeByte s.dev a)

/-- Writes to the window in a phase other than ROM: an unaligned one is dropped; the registers that a first arm locks
keep their values afterwards, and a value that breaks a register's fields is ignored; DBGDATA takes any value; a write
to INTSTAT clears the bits that are 1; PCAP takes 1,000 to 3,400 W; FEATACK keeps only bits that FEAT sets, while PHASE
is 2 or 3 and nothing has been armed; ARM does as lr.arm does while service is on, and answers 2 otherwise; the answer
for a record that is not served is free (log 38). In ROM the window does not answer (R473 to R476, R478, R482, R484).
-/
def Sys2Proof.Claim.HostRegisters : Prop :=
  ∀ (s : State) (off : Nat) (v : Word),
    let d := s.dev
    let sets (f : HostRegs → HostRegs) : Device := { d with host := f d.host }
    (d.host.phase = 0 → exec (.hostRegWrite off v) s = .next s ∧ exec (.hostArm v) s = .next s ∧
      exec (.intstatClear v) s = .next s ∧ exec (.pcapWrite v) s = .next s ∧ exec (.attestRequest v) s = .next s ∧
      exec (.islandWrite off v) s = .next s ∧ exec (.dbgcmdHalt v) s = .next s) ∧
    (off % 8 ≠ 0 → exec (.hostRegWrite off v) s = .next s) ∧
    (d.dist.armed = true → (∀ o ∈ [8 * 0x0A1, 8 * 0x0A2, 8 * 0x0B0, 0x8018], exec (.hostRegWrite o v) s = .next s) ∧
      ∀ hi, exec (.featackWrite hi v) s = .next s) ∧
    (d.host.phase ≠ 0 → d.dist.armed = false →
      (fld v 63 56 = 0 → fld v 7 0 = 0 →
        Does (.hostRegWrite (8 * 0x0A1) v) s { d with dist := { d.dist with pool := v } }) ∧
      (Does (.hostRegWrite (8 * 0x0A2) v) s (if 1 ≤ v.toNat ∧ v.toNat ≤ 65536 then
        { d with dist := { d.dist with count := v } } else d)) ∧
      (Does (.hostRegWrite (8 * 0x0B0) v) s (if v.toNat ≤ 8191 then { d with devid := v } else d)) ∧
      (fld v 63 56 = 0 → fld v 11 0 = 0 → Does (.hostRegWrite 0x8018 v) s (sets fun h => { h with ctxtab := v }))) ∧
    (d.host.phase ≠ 0 →
      Does (.hostRegWrite (8 * 0x0B1) v) s
        (if 1 ≤ v.toNat ∧ v.toNat ≤ 40000 then { d with ringTimeout := v } else d) ∧
      Does (.hostRegWrite 0x8048 v) s (sets fun h => { h with dbgdata := v }) ∧
      Does (.intstatClear v) s (sets fun h => { h with intstat := h.intstat &&& ~~~(v.setWidth 4) }) ∧
      Does (.pcapWrite v) s
        (if 1000 ≤ v.toNat ∧ v.toNat ≤ 3400 then sets fun h => { h with pcap := v.setWidth 12 } else d)) ∧
    ((d.host.phase = 2 ∨ d.host.phase = 3) → d.dist.armed = false →
      Does (.featackWrite false v) s (sets fun h => { h with featack := v &&& h.feat }) ∧
      Does (.featackWrite true v) s (sets fun h => { h with featackx := v &&& h.featx })) ∧
    (d.host.phase ≠ 0 → d.host.phase ≠ 2 → d.host.phase ≠ 3 →
      Does (.hostArm v) s (sets fun h => { h with armstat := 2 })) ∧
    ((d.host.phase = 2 ∨ d.host.phase = 3) →
      let r := armRecord d s.clock (fld v 15 0) none
      (r.1 ≤ 2 → Does (.hostArm v) s { r.2 with host := { r.2.host with armstat := r.1 } }) ∧
      (r.1 = 3 → ∃ n, n ≤ 2 ∧ Does (.hostArm v) s { d with free := d.free + 1, host := { d.host with armstat := n } }))

/-- A write to ATTEST writes the report behind the 64-byte request area, with the nonce and the three measurements, and
raises vector 3; one that names no aligned area is ignored, and so is one whose area is not served (R477, R479). -/
def Sys2Proof.Claim.Attestation : Prop :=
  ∀ (s : State) (v : Word), s.dev.host.phase ≠ 0 →
    (fld v 63 56 ≠ 0 ∨ fld v 5 0 ≠ 0 → exec (.attestRequest v) s = .next s) ∧
    (fld v 63 56 = 0 → fld v 5 0 = 0 → ∃ bs,
      ((∀ a, v.toNat ≤ a → a < v.toNat + 64 + bs.length → served s.dev a = true) →
        Does (.attestRequest v) s (raiseVector (homeWrite s.dev (v.toNat + 64) bs) 3)) ∧
      ((∃ a, v.toNat ≤ a ∧ a < v.toNat + 64 + bs.length ∧ served s.dev a = false) →
        exec (.attestRequest v) s = .next s) ∧
      (bs.drop 8).take 32 = homeRead s.dev v.toNat 32 ∧
      (s.dev.host.m0.length = 64 → s.dev.host.m1.length = 64 → s.dev.host.m2.length = 64 →
        (bs.drop 40).take 192 = s.dev.host.m0 ++ s.dev.host.m1 ++ s.dev.host.m2))

/-- CTXCMD queues a resume or a restart for the core and TID it names, where the core holds a launch with that TID, and
discards a record that is READY, which is then IDLE; an OP that is another form's, a TID of no thread, or a command
outside service is ignored (R476, R480, R481). -/
def Sys2Proof.Claim.ContextCommands : Prop :=
  (∀ (s : State) (v : Word), serving s.dev = false → exec (.ctxcmdResume v) s = .next s ∧
    exec (.ctxcmdRestart v) s = .next s ∧ exec (.ctxcmdDiscard v) s = .next s) ∧
  (∀ (s : State) (v : Word) (k : Nat) (b : Bound), serving s.dev = true → coreOfCode (fld v 25 16) = some k →
    (s.dev.core k).bound = some b →
    let queues (op : Bool) : Device :=
      s.dev.modCore k fun c => { c with ctls := c.ctls ++ [⟨fld v 11 0, op, fld v 39 32⟩] }
    (b.nthreads ≤ fld v 11 0 → exec (.ctxcmdResume v) s = .next s ∧ exec (.ctxcmdRestart v) s = .next s) ∧
    (fld v 11 0 < b.nthreads → fld v 63 60 = 0 → Does (.ctxcmdResume v) s (queues false)) ∧
    (fld v 11 0 < b.nthreads → fld v 63 60 = 1 → Does (.ctxcmdRestart v) s (queues true))) ∧
  (∀ (s : State) (v : Word) (l : Launch), serving s.dev = true → fld v 63 60 = 2 → s.dev.mem.wf = true →
    let i := fld v 15 0
    (s.dev.dist.count.toNat ≤ i ∨ recServed s.dev i = false → exec (.ctxcmdDiscard v) s = .next s) ∧
    (launchOf s.dev i = none → recState s.dev i ≠ 1 → exec (.ctxcmdDiscard v) s = .next s) ∧
    (i < s.dev.dist.count.toNat → recServed s.dev i = true → launchOf s.dev i = some l → l.state = .ready →
      l.saved = [] →
      s.dev.dist.bindings.find i = none →
      (∀ c ∈ s.dev.cores, ∀ b, c.bound = some b → b.handler ≠ some i ∧ b.run ≠ l.run) →
      ∃ d, Does (.ctxcmdDiscard v) s d ∧ launchOf d i = none ∧ recState d i = 0 ∧ isSelected d i = false))

/-- The debug window acts only while its feature is acknowledged, on a core that holds a launch and a TID of it, on
slots below the live width. Requests wait for the running pass's end in the order written; at a boundary a WAITING
thread is halted, a slot is written from DBGDATA or read into it, and a running Meridian job is asked to stop, which it
does at its next microword boundary (R294 to R296, R400, R481). -/
def Sys2Proof.Claim.DebugCommands : Prop :=
  (∀ (s : State) (v : Word), serving s.dev = false ∨ bit s.dev.host.featack 5 = false →
    exec (.dbgcmdHalt v) s = .next s ∧ exec (.dbgcmdWriteSlot v) s = .next s ∧ exec (.dbgcmdReadSlot v) s = .next s ∧
    exec (.dbgcmdStopJob v) s = .next s) ∧
  (∀ (s : State) (v : Word) (k : Nat) (b : Bound), serving s.dev = true → bit s.dev.host.featack 5 = true →
    coreOfCode (fld v 25 16) = some k → (s.dev.core k).bound = some b → fld v 11 0 < b.nthreads →
    k < s.dev.cores.length →
    let tid := fld v 11 0
    let slot := fld v 38 32
    let queues (r : Dbg) : Device := s.dev.modCore k fun c => { c with dbgs := c.dbgs ++ [r] }
    let runs := passRuns (s.dev.core k) = true
    (fld v 63 60 = 0 → runs → Does (.dbgcmdHalt v) s (queues (.halt tid))) ∧
    (fld v 63 60 = 0 → ¬runs → (s.dev.core k).preempt ≠ .saved →
      Does (.dbgcmdHalt v) s (settle (boundary (queues (.halt tid)) k) k)) ∧
    (b.width ≤ slot → exec (.dbgcmdWriteSlot v) s = .next s ∧ exec (.dbgcmdReadSlot v) s = .next s) ∧
    (slot < b.width → fld v 63 60 = 1 →
      (runs → Does (.dbgcmdWriteSlot v) s (queues (.write tid slot s.dev.host.dbgdata))) ∧
      (¬runs → (s.dev.core k).preempt ≠ .saved →
        Does (.dbgcmdWriteSlot v) s (settle (boundary (queues (.write tid slot s.dev.host.dbgdata)) k) k))) ∧
    (slot < b.width → fld v 63 60 = 2 →
      (runs → Does (.dbgcmdReadSlot v) s (queues (.read tid slot))) ∧
      (¬runs → (s.dev.core k).preempt ≠ .saved →
        Does (.dbgcmdReadSlot v) s (settle (boundary (queues (.read tid slot)) k) k))) ∧
    (fld v 63 60 = 3 → runs → Does (.dbgcmdStopJob v) s (queues .stopJob)) ∧
    (fld v 63 60 = 3 → ¬runs → (s.dev.core k).preempt ≠ .saved →
      Does (.dbgcmdStopJob v) s (settle (boundary (queues .stopJob) k) k))) ∧
  (∀ (d : Device) (core tid slot : Nat) (v : Word), core < d.cores.length → tid < (d.core core).threads.length →
    (∀ b, (threadOf d core tid).status = .waiting b → applyDbg d core (.halt tid) = haltThread d core tid ∧
      (threadOf (haltThread d core tid) core tid).status = .halted b) ∧
    ((threadOf d core tid).status ≠ .retired → (threadOf d core tid).live.wf = true →
      (threadOf (applyDbg d core (.write tid slot v)) core tid).live.get slot = v) ∧
    (applyDbg d core (.read tid slot)).host.dbgdata = (threadOf d core tid).live.get slot ∧
    (∀ j, (d.core core).mer.job = some j → j.stop = none →
      ((applyDbg d core .stopJob).core core).mer.job = some { j with dbgStop := true }))

/-- DEVICE_RESET leaves the machine as after reset but for the host's memory and the count of free values, at clock 0:
in FIRMWARE with M0 extended by the image's digest where its signature verifies, else in FAILED with cause 1. REDUCED
passes to READY once no launch runs, with every core at 1,750 MHz or the host's limit, and until then the distributor
binds nothing more; every phase may end in FAILED, for the causes 2 to 4; a UCIe module that fails is left down (R471,
R476, R477, R479, R484).
In it the model's own readings count: logs 11 and 39. -/
def Obligations.BringUp : Prop :=
  (∀ (s : State) (image sig : List Byte), ∃ t, exec (.deviceReset image sig) s = .next t ∧ t.clock = 0 ∧
    t.dev.cores = Device.reset.cores ∧ t.dev.clusters = Device.reset.clusters ∧ t.dev.dist = Dist.reset ∧
    t.dev.cstore = [] ∧ t.dev.links = [] ∧
    (∀ a, isHostKey a = true → s.dev.mem.wf = true → homeByte t.dev a = homeByte s.dev a) ∧
    (∀ a, isHostKey a = false → homeByte t.dev a = 0) ∧
    (Config.signatureOk Config.romKey (Config.shake256 image) sig = true → t.dev.host.phase = 1 ∧
      t.dev.host.m0 = Config.shake256 (List.replicate 64 0 ++ Config.shake256 image)) ∧
    (Config.signatureOk Config.romKey (Config.shake256 image) sig = false → t.dev.host.phase = 7 ∧
      t.dev.host.cause = 1 ∧
      t.dev.host.m0 = List.replicate 64 0)) ∧
  (∀ (s : State), s.dev.host.phase ≠ 2 → exec .reducedToReady s = .next s) ∧
  (∀ (s : State), s.dev.host.phase = 2 → (∃ x ∈ s.dev.dist.launches, x.2.state = .running) →
    Does .reducedToReady s { s.dev with dist := { s.dev.dist with closed := true } }) ∧
  (∀ (s : State), s.dev.host.phase = 2 → (∀ x ∈ s.dev.dist.launches, x.2.state ≠ .running) →
    ∃ t, exec .reducedToReady s = .next t ∧ t.dev.host.phase = 3 ∧ t.dev.mem = s.dev.mem ∧ t.dev.cores = s.dev.cores ∧
      t.dev.dist.closed = false ∧ ∀ k x, k < 384 → s.dev.host.islands[k]? = some x → x.throt = false →
        (t.dev.host.islands[k]?).map (·.mhz) = some (if x.maxMhz = 0 ∨ 1750 < x.maxMhz then 1750 else x.maxMhz)) ∧
  (∀ (s : State) (cause : BitVec 8),
    (s.dev.host.phase ≤ 3 → 2 ≤ cause.toNat → cause.toNat ≤ 4 → Does (.bringupFailed cause) s
      { s.dev with host := { s.dev.host with phase := 7, cause := cause } }) ∧
    (3 < s.dev.host.phase ∨ cause.toNat < 2 ∨ 4 < cause.toNat → exec (.bringupFailed cause) s = .next s)) ∧
  (∀ (s : State) (m : Nat), m < 8 → ∃ t, exec (.ucieModuleFail m) s = .next t ∧
    (∀ k, k < 8 → t.dev.host.modules.getLsbD k = (s.dev.host.modules.getLsbD k && k != m)) ∧
    t.dev.mem = s.dev.mem ∧ t.dev.cores = s.dev.cores)

/-- A corrected error is recorded and changes no data; an uncorrectable one also leaves its line or cell bad, where its
record's UNIT and ADDR say; one of an array of a core that holds neither lines nor cells is recorded only. The record
carries the error's SOURCE, CLASS, UNIT, ADDR and the time; without a ring, or with one that is not served, only vector
1 is raised. A quadrant that fails is retested, and fenced where it fails again (R39, R340, R364, R477, R483). An event
that is no error of the device does nothing. -/
def Sys2Proof.Claim.ErrorsAreRecorded : Prop :=
  (∀ (s : State) (x : EccError), eccOk x = false → exec (.eccError x) s = .next s) ∧
  (∀ (s : State) (x : EccError), eccOk x = true → x.source = 4 →
    let r := quadFails s.dev s.clock x.unit.toNat (x.addr.toNat % 4) (x.cls == 2)
    Does (.eccError x) s (if r.1 then matrixOut r.2 s.clock x.unit.toNat else r.2)) ∧
  (∀ (x : EccError), x.source = 3 → x.cls.toNat ≤ 2 → x.unit.toNat < 384 → x.line = none → x.scratch = none →
    x.cell = none → eccOk x = true) ∧
  ∀ (s : State) (x : EccError), eccOk x = true → x.source ≠ 4 → s.dev.mem.wf = true →
    let base := fld s.dev.host.mclog 55 12 * 4096
    let head := homeWord s.dev base
    let at_ := base + 64 + 32 * (head.toNat % 2 ^ (fld s.dev.host.mclog 3 0 + 6))
    (x.cls = 0 → x.line = none ∧ x.scratch = none ∧ x.cell = none) ∧
    (x.line = none → x.scratch = none → x.cell = none → Does (.eccError x) s
      (machineCheck s.dev s.clock x.source.toNat x.cls.toNat x.unit.toNat x.addr 0)) ∧
    (∀ a, x.line = some a → a / 64 = x.addr.toNat / 64) ∧
    (∀ k a, x.scratch = some (k, a) → k = x.unit.toNat ∧ a / 64 = x.addr.toNat / 64) ∧
    (∀ k c, x.cell = some (k, c) → k = x.unit.toNat ∧ c = x.addr.toNat) ∧
    ∃ t, exec (.eccError x) s = .next t ∧ t.dev.host.intstat.getLsbD 1 = true ∧
      (∀ a, x.line = some a → a / 64 * 64 ∈ t.dev.mem.bad) ∧
      (∀ k a, x.scratch = some (k, a) → k < s.dev.cores.length →
        a / 64 * 64 ∈ (t.dev.core k).scratchBad) ∧
      (∀ k c, x.cell = some (k, c) → k < s.dev.cores.length → c ∈ (t.dev.core k).mx.bad) ∧
      (s.dev.host.mclog ≠ 0 → served s.dev base = true → served s.dev at_ = true → homeWord t.dev base = head + 1 ∧
        homeWord t.dev at_ = BitVec.ofNat 64 (x.source.toNat * 2 ^ 56 + x.cls.toNat * 2 ^ 48 + x.unit.toNat) ∧
        homeWord t.dev (at_ + 8) = x.addr ∧ homeWord t.dev (at_ + 16) = BitVec.ofNat 64 (s.clock / 1750) ∧
        homeWord t.dev (at_ + 24) = 0) ∧
      (s.dev.host.mclog = 0 ∨ served s.dev base = false ∨ served s.dev at_ = false → t.dev.mem.home = s.dev.mem.home)

/-- The island of a number. -/
def Sys2Proof.Claim.islandOf (d : Device) (i : Nat) : Island := d.host.islands.getD i default

/-- ISLAND takes its limit and GATE; a reserved bit makes the write be ignored, and one that sets GATE on an island that
holds a bound launch is refused whole. The device lowers core and cluster islands to hold PCAP, and an island throttled
stays below its limit until the limit is no higher or the device raises it again, where it has cooled; at 105 °C it
throttles an island; none of this has any other effect. At 115 °C it gates the island with a lasting machine check, and
a core without a launch leaves service; a core with one loses it, and the launch is to be discarded (R439, R477, R483,
R484). -/
def Sys2Proof.Claim.PowerAndHeat : Prop :=
  ∀ (s : State) (i : Nat) (v : Word), i < s.dev.host.islands.length →
    let x := islandOf s.dev i
    let sets (y : Island) : Device := { s.dev with host := { s.dev.host with islands := s.dev.host.islands.set i y } }
    let full := if s.dev.host.phase = 2 ∧ i < 96 then 900 else 1750
    let rated (limit : Nat) : Nat := if limit = 0 ∨ full < limit then full else limit
    let runs (mhz temp : Nat) : Island := { x with
      mhz := min mhz (rated x.maxMhz), throt := decide (mhz < rated x.maxMhz), temp := temp }
    let gates := bit v 1 = true ∧ i < 384 ∧ (s.dev.core i).bound.isSome = true
    (fld v 23 2 ≠ 0 ∨ gates → exec (.islandWrite i v) s = .next s) ∧
    (s.dev.host.phase ≠ 0 → fld v 23 2 = 0 → ¬gates → Does (.islandWrite i v) s (sets { x with
      maxMhz := fld v 47 32
      mhz := if x.throt then min x.mhz (rated (fld v 47 32)) else rated (fld v 47 32)
      throt := x.throt && decide (x.mhz < rated (fld v 47 32))
      gate := bit v 1 })) ∧
    (∀ mhz,
      (mhz < x.mhz → Does (.powerCapAdjust i mhz) s (if i < 432 then sets (runs mhz x.temp) else s.dev)) ∧
      (x.mhz ≤ mhz → x.temp < 105 → Does (.powerCapAdjust i mhz) s (sets (runs mhz x.temp))) ∧
      (x.mhz ≤ mhz → 105 ≤ x.temp → ∃ temp, temp < 105 ∧
        Does (.powerCapAdjust i mhz) s { sets (runs mhz temp) with free := s.dev.free + 1 })) ∧
    (∃ mhz, mhz ≤ x.mhz ∧ (0 < x.mhz → mhz < x.mhz) ∧
      Does (.thermalThrottle i) s { sets (runs mhz 105) with free := s.dev.free + 1 }) ∧
    ∃ t, exec (.thermalGate i) s = .next t ∧ (islandOf t.dev i).gate = true ∧ t.dev.host.intstat.getLsbD 1 = true ∧
      (i < s.dev.cores.length → i < 384 → (t.dev.core i).inService = false ∧ (t.dev.core i).bound = none) ∧
      (let base := fld s.dev.host.mclog 55 12 * 4096
        let head := homeWord s.dev base
        let at_ := base + 64 + 32 * (head.toNat % 2 ^ (fld s.dev.host.mclog 3 0 + 6))
        let word := homeWord t.dev at_
        s.dev.host.mclog ≠ 0 → served s.dev base = true → served s.dev at_ = true → s.dev.mem.wf = true →
        (i < 384 → (s.dev.core i).bound = none) →
        homeWord t.dev base = head + 1 ∧ fld word 55 48 = 2 ∧ fld word 47 0 = i % 2 ^ 16) ∧
      ∀ b l, i < 384 → (s.dev.core i).bound = some b → launchOf s.dev b.record = some l →
        l.saved.find b.cidx = none → s.dev.dist.bindings.find b.record = none →
        launchOf t.dev b.record = none ∨
          ∃ l', launchOf t.dev b.record = some l' ∧ l'.drop = true ∧ b.cidx ∈ l'.ended

/-! ## Encoding (04_encoding) -/

/-- Words written out from the encodings of spec/04_encoding and the examples of the instructions' own files decode to
the instructions they stand for. -/
def Obligations.SpecWordsDecode : Prop :=
  decode .cu 0x040002F0FFFF0064 = .ok (.steer ⟨0, 0, 0x02, 0xF0, 0xFF, 0xFF, 0x0064⟩) ∧
  decode .cu 0x223000C0FFFF0000 = .ok (.ixor ⟨3, 0, 0x00, 0xC0, 0xFF, 0xFF, 0⟩) ∧
  decode .cu 0x2A0000F0FFFF0804 = .ok (.bfx ⟨0, 0, 0x00, 0xF0, 0xFF, 0xFF, 0x0804⟩) ∧
  decode .mu 0x40004400FF0910F00000000000400000 =
    .ok (.cp ⟨0, 0, 0x44, 0x00, 0xFF, 0x09, 1, 0, 15, 0, 0x40, 0⟩) ∧
  decode .mu 0x6000EBFFFF0510F00000000004000000 =
    .ok (.attnGo ⟨0, 0, 0xEB, 0xFF, 0xFF, 0x05, 1, 0, 15, 0, 0x400, 0⟩) ∧
  decode .exit 0x094243FF04000923 = .ok (.exitWait ⟨0x42, 0x43, 0xFF, 0x04, 0x00, 0x09, 0x23⟩)

/-- Decoding the word of a well-formed instruction gives the instruction back, or the first of the rows that share its
word; the word fits its slot (R98, R100, R106, R112).
In it the model's own readings count: log 8. -/
def Obligations.DecodeEncodes : Prop :=
  ∀ (i : Instr) (sl : Slot) (w : Nat), i.wf = true → encode i = some (sl, w) →
    decode sl w = .ok i.canonical ∧ w < 2 ^ (8 * sl.bytes)

/-- What decodes is well formed, and is the word's only meaning: its own word is the word it was read from
(R98, R100, R106, R112, R114). -/
def Sys2Proof.Claim.EncodeDecodes : Prop :=
  ∀ (sl : Slot) (w : Nat) (i : Instr), w < 2 ^ (8 * sl.bytes) → decode sl w = .ok i →
    i.wf = true ∧ i.canonical = i ∧ encode i = some (sl, w)

/-- Opcodes and exit kinds outside the tables are refused, a slot of zeros is a hole and a hole with other bits set is
refused; a micro-opcode outside the table is an illegal microword, at which Meridian stops (R98, R100, R106, R114). -/
def Sys2Proof.Claim.ReservedWordsRefused : Prop :=
  (∀ w, let o := w / 2 ^ 56 % 256
    (6 ≤ o ∧ o < 0x10 ∨ 0x1C ≤ o ∧ o < 0x20 ∨ 0x2D ≤ o ∧ o < 0x40 ∨ 0x55 ≤ o ∧ o < 0x60 ∨ 0x6F ≤ o) →
    ∃ r, decode .cu w = .error r) ∧
  (∀ w, let o := w / 2 ^ 120 % 256
    (5 ≤ o ∧ o < 8 ∨ 0x13 ≤ o ∧ o < 0x18 ∨ 0x1A ≤ o ∧ o < 0x20 ∨ 0x24 ≤ o ∧ o < 0x28 ∨ 0x2B ≤ o ∧ o < 0x40 ∨
      0x48 ≤ o ∧ o < 0x50 ∨ 0x5D ≤ o ∧ o < 0x60 ∨ 0x66 ≤ o ∧ o < 0x68 ∨ 0x6B ≤ o ∧ o < 0x70 ∨
      0x75 ≤ o ∧ o < 0x80 ∨ 0x87 ≤ o ∧ o < 0xC0 ∨ 0xC5 ≤ o) → ∃ r, decode .mu w = .error r) ∧
  (∀ w, let k := w / 2 ^ 56 % 256
    (k = 0 ∨ k = 7 ∨ k = 0x0B ∨ 0x0E ≤ k) → ∃ r, decode .exit w = .error r) ∧
  decode .cu 0 = .error .hole ∧ decode .mu 0 = .error .hole ∧
  (∀ w, 0 < w → w < 2 ^ 56 → decode .cu w = .error .holeBits) ∧
  (∀ w, 0 < w → w < 2 ^ 120 → decode .mu w = .error .holeBits) ∧
  (∀ w, ∃ i, decode .micro w = .ok i) ∧
  (∀ w, w < 2 ^ 96 → mwMake (w / 2 ^ 88) (mwFields w) = none →
    decode .micro w = .ok (.illegalMicroword (BitVec.ofNat 96 w)))

/-! ## A step (06_core_execution; the agenda is the model's own, log 1) -/

/-- A step takes the first turn of the agenda. A node that fires is decoded from the active image at its number, for
the next lane in order, as the row its word stands for there; an exit from the image's exit word; a microword from the
control store at the job's micro-PC; an event is itself; outside service only the host, bring-up and the device's
errors and islands act; between instructions the memory walker starts a walk, words of a publication spread, and the
engines access memory one word at a time; the host reads; clocks pass on a tick; a turn of no core is a fault. What is
added around exec: the turn leaves the agenda, and the focus names the core, lane and node. In it the model's own
readings count: logs 1, 8, 9, 28, 30 and 39. -/
def Obligations.StepRunsDecoded : Prop :=
  ∀ (s : State) (ts : List Turn),
    let at_ (core lane node : Nat) : State := { s with agenda := ts, focus := ⟨core, lane, node⟩ }
    (∀ core node lane i p pl sl, serving s.dev = true → s.agenda = .fire core node :: ts → core < 384 →
      (s.dev.core core).pass = some p →
      (s.dev.core core).active = some pl → nextLane p node = some lane → (imgSlots pl.words)[node]? = some sl →
      decode sl.1 (slotWord pl.words sl) = .ok i →
      step s = match envOf s.dev s.clock ⟨core, lane, node⟩ with
        | some e => exec (rowOf s.dev e i) (at_ core lane node)
        | none => exec i (at_ core lane node)) ∧
    (∀ core i pl, serving s.dev = true → s.agenda = .exit core :: ts → core < 384 → (s.dev.core core).active = some pl →
      decode .exit (imgExit pl.words) = .ok i → step s = exec i (at_ core 0 0x40)) ∧
    (∀ core i j, serving s.dev = true → s.agenda = .micro core :: ts → core < 384 →
      (s.dev.core core).mer.job = some j → j.stop = none →
      j.wait = none → j.upc ≤ 4095 → decode .micro (microAt s.dev j.upc).toNat = .ok i →
      step s = exec i (at_ core 0 0)) ∧
    (∀ core j, serving s.dev = true → s.agenda = .micro core :: ts → core < 384 → (s.dev.core core).mer.job = some j →
      j.stop = none →
      j.wait = none → 4095 < j.upc → step s = exec (.illegalMicroword 0) (at_ core 0 0)) ∧
    (∀ i, s.agenda = .event i :: ts → wordOf i = .event →
      step s = if serving s.dev || outsideService i then exec i { s with agenda := ts }
        else .next { s with agenda := ts }) ∧
    (∀ t core, s.agenda = t :: ts → turnCore t = some core → core < 384 → serving s.dev = false →
      step s = .next { s with agenda := ts }) ∧
    (∀ core, serving s.dev = true → core < 384 →
      (∀ node va, s.agenda = .walk core node va :: ts →
        step s = .next { s with agenda := ts, dev := startWalk s.dev core node va }) ∧
      (∀ lane node word, s.agenda = .spread core lane node word :: ts →
        step s = .next { s with agenda := ts, dev := spreadTurn s.dev s.clock core lane node word }) ∧
      (∀ slot off write, s.agenda = .copy core slot off write :: ts →
        step s = .next { s with agenda := ts, dev := copyAccess s.dev core slot off write }) ∧
      (∀ slot part a, s.agenda = .copyAhead core slot part a :: ts →
        step s = .next { s with agenda := ts, dev := copyAhead s.dev core slot part a }) ∧
      (∀ a write, s.agenda = .matrix core a write :: ts →
        step s = .next { s with agenda := ts, dev := matrixAhead s.dev core a write })) ∧
    (∀ off, s.agenda = .hostRead off :: ts →
      step s = .next { s with agenda := ts, dev := hostRead s.dev s.clock off }) ∧
    (s.agenda = .boot :: ts → step s = .next { s with agenda := ts, dev := enterReduced s.dev }) ∧
    (∀ n, s.agenda = .tick n :: ts → step s = .next { s with agenda := ts, clock := s.clock + n }) ∧
    (∀ core node, 384 ≤ core → s.agenda = .fire core node :: ts → step s = .fault (.noSuchCore core))

/-- Nothing of an instruction ends a run: every instruction answers a next state in which only the device has changed,
but for a reset of the device, which also starts the clock anew; a step faults only at a turn of a core that the part
does not have, and refuses nothing (R7).
In it the model's own readings count: logs 1 and 39. -/
def Obligations.EveryStepGoesOn : Prop :=
  (∀ (i : Instr) (s : State), ∃ d, exec i s = .next { s with dev := d } ∨
    ∃ image sig, i = .deviceReset image sig ∧ exec i s = .next { s with clock := 0, dev := d }) ∧
  (∀ s : State, s.agenda ≠ [] → agendaOk s = true → Goes s) ∧
  (∀ s : State, (∃ t, step s = .next t) ∨ ∃ k, step s = .fault (.noSuchCore k) ∧ 384 ≤ k)

/-- What the spec says the machine is after reset: 384 cores in 48 clusters, none of which holds a launch or runs a
pass; bring-up in ROM with measurement registers of 64 zero bytes; the control store all mhalt; rr of every level
4,095; a self-test interval of 4,096 commands, a failure-detection time of 40,000 µs (R7, R114, R363, R434, R441,
R476, R479).
In it the model's own readings count: log 7. -/
def Obligations.ResetState : Prop :=
  State.reset.clock = 0 ∧ State.reset.dev.cores.length = 384 ∧ State.reset.dev.clusters.length = 48 ∧
  (∀ k, (State.reset.dev.core k).bound = none ∧ (State.reset.dev.core k).pass = none ∧
    (State.reset.dev.core k).regs.mxtest = 4096 ∧ (State.reset.dev.core k).mer.job = none) ∧
  State.reset.dev.host.phase = 0 ∧ State.reset.dev.host.m0 = List.replicate 64 0 ∧
  State.reset.dev.host.m1 = List.replicate 64 0 ∧ State.reset.dev.host.m2 = List.replicate 64 0 ∧
  (∀ u, u < 4096 → ∃ w, decodeMicro (microAt State.reset.dev u).toNat = .mhalt w) ∧
  (∀ l, l < 9 → State.reset.dev.dist.rr.getD l 0 = 4095) ∧ State.reset.dev.ringTimeout = 40000 ∧
  Device.sound State.reset.dev = true

/-- Every step keeps the shape of the part and the canonical form of every store: global memory, each core's
scratchpad, block ages, accumulators and live slots, and those of the contexts that suspended launches keep. -/
def Obligations.StepsKeepStoresCanonical : Prop :=
  ∀ s t : State, Device.sound s.dev = true → step s = .next t → Device.sound t.dev = true

/-! ## Statements of several parts -/

/-- mov and cvt deliver their operand in TYPE, sel chooses, and steer and merge route values and cancels. -/
def Obligations.SteeringNodes : Prop :=
  Sys2Proof.Claim.MovesAndSteering ∧ Sys2Proof.Claim.MergeRoutes

/-- The integer nodes compute, divide and compare on the W bits of TYPE. -/
def Obligations.IntegerNodes : Prop :=
  Sys2Proof.Claim.IntegerArithmetic ∧ Sys2Proof.Claim.DivisionAndRemainder ∧ Sys2Proof.Claim.IntegerCompare

/-- The logic, shift and bit nodes work on the W bits of TYPE, and rng delivers its draw. -/
def Obligations.LogicNodes : Prop :=
  Sys2Proof.Claim.LogicAndShifts ∧ Sys2Proof.Claim.BitsAndFields ∧ Sys2Proof.Claim.CounterDraw

/-- The floating-point nodes deliver their rounded, chosen or converted datum with its exceptions.
In it the model's own readings count: log 10. -/
def Obligations.FloatNodes : Prop :=
  Sys2Proof.Claim.FloatArithmetic ∧ Sys2Proof.Claim.FloatSelectAndConvert

/-- Invalid operations and division by zero (R125, R126), and exceptions that trap (R131). -/
def Obligations.FloatExceptions : Prop :=
  Sys2Proof.Claim.InvalidOperations ∧ Sys2Proof.Claim.FloatTraps

/-- The atom nodes, those that need no Legend, and their faults.
In it the model's own readings count: log 48. -/
def Obligations.PulseAtomNodes : Prop :=
  Sys2Proof.Claim.AtomNodes ∧ Sys2Proof.Claim.ZeroAtomsNeedNoLegend ∧ Sys2Proof.Claim.AtomFaults

/-- Poison and cancel pass through a node, the origin with the lowest node number first; a node that has performed
delivers its recorded value; what a delivery leaves with its lane (R166, R279, R283, R284). -/
def Obligations.NodesFire : Prop :=
  Sys2Proof.Claim.PoisonAndCancelPass ∧
  Sys2Proof.Claim.LowestOriginPasses ∧
  Sys2Proof.Claim.PerformedNodesReplay ∧
  Sys2Proof.Claim.DeliveryEffect

/-- What the firing of a compute node, and of an atom node, leaves unchanged. -/
def Obligations.NodeFrames : Prop :=
  Sys2Proof.Claim.ComputeNodeFrame ∧ Sys2Proof.Claim.AtomNodeFrame

/-- Loads deliver, lea and pref answer, and stores are deferred to the commit (R48, R232 to R236).
In it the model's own readings count: log 4. -/
def Obligations.LoadsAndStores : Prop :=
  Sys2Proof.Claim.LoadsDeliver ∧ Sys2Proof.Claim.AddressesAndPrefetch ∧ Sys2Proof.Claim.StoresAreDeferred

/-- A core reads its own stores, a settled location is read exactly, and a scratchpad reads back what was
written.
In it the model's own readings count: log 4. -/
def Obligations.LoadsReadStores : Prop :=
  Sys2Proof.Claim.CoreReadsItsStores ∧ Sys2Proof.Claim.SettledLoadsAreExact ∧ Sys2Proof.Claim.ScratchpadReadsBack

/-- The rmw nodes on scratch and at the home slice; channels keep the order of their sends, and the deques of a core
push, pop and steal. In it the model's own readings count: logs 4 and 48. -/
def Obligations.AtomicsAndQueues : Prop :=
  Sys2Proof.Claim.AtomicsOnScratch ∧
  Sys2Proof.Claim.AtomicsInTheCluster ∧
  Sys2Proof.Claim.AtomicsAtHome ∧
  Sys2Proof.Claim.Channels ∧
  Sys2Proof.Claim.Deques

/-- Publishing and refreshing, and what a publication at device scope makes of memory at home.
In it the model's own readings count: log 4. -/
def Obligations.Publication : Prop :=
  Sys2Proof.Claim.PublishAndRefresh ∧ Sys2Proof.Claim.PublicationReachesHome

/-- System registers read and written, writes refused, and invalidation of translations.
In it the model's own readings count: log 14. -/
def Obligations.SystemRegisters : Prop :=
  Sys2Proof.Claim.RegistersRead ∧ Sys2Proof.Claim.RegistersWrite ∧ Sys2Proof.Claim.RegisterWriteRefused

/-- An invalidation removes translation entries once the accesses it names are settled. th.ctl queues its request, and
the core applies it when no pass runs. In it the model's own readings count: logs 5, 18, 26 and 30. -/
def Obligations.InvalidationAndThreads : Prop :=
  Sys2Proof.Claim.Invalidation ∧ Sys2Proof.Claim.ThreadControl ∧ Sys2Proof.Claim.ThreadRequestsApply

/-- Each exit retires the oldest complete beat with its own outcome; an incomplete beat waits.
In it the model's own readings count: logs 24, 44 and 48. -/
def Obligations.Exits : Prop :=
  Sys2Proof.Claim.ExitsRetireTheBeat ∧ Sys2Proof.Claim.IncompleteBeatsWait

/-- What the commit of a thread changes, and the order of its stores.
In it the model's own readings count: log 16. -/
def Obligations.Commits : Prop :=
  Sys2Proof.Claim.CommitEffect ∧ Sys2Proof.Claim.StoresCommitInNodeOrder

/-- The fault record, taking a fault and resuming from one.
In it the model's own readings count: log 6. -/
def Obligations.FaultsAndReturns : Prop :=
  Sys2Proof.Claim.FaultRecordLayout ∧ Sys2Proof.Claim.TakingAFault ∧ Sys2Proof.Claim.ResumingAThread

/-- PASS_SELECT forms a pass; SHADOW_PREDICT and IMAGE_LOAD fill the planes.
In it the model's own readings count: logs 27 and 50. -/
def Obligations.PassesStart : Prop :=
  Sys2Proof.Claim.PassSelection ∧ Sys2Proof.Claim.ConfigurationPlanes

/-- Waits end by their condition, by the host's page or by their timeout, and phases release their threads.
In it the model's own readings count: logs 9, 26 and 49. -/
def Obligations.WaitsAndPhases : Prop :=
  Sys2Proof.Claim.WaitsEnd ∧
  Sys2Proof.Claim.HostPageWaits ∧
  Sys2Proof.Claim.TimeoutsEndWaits ∧
  Sys2Proof.Claim.PhaseReleases

/-- The Traverse commands and the reverse sweep.
In it the model's own readings count: log 15. -/
def Obligations.TraverseAndSweep : Prop :=
  Sys2Proof.Claim.TraverseAnswers ∧ Sys2Proof.Claim.ReverseSweep

/-- A pre-emption arrives at a core, and a pass of held threads runs again.
In it the model's own readings count: log 6. -/
def Obligations.Preemption : Prop :=
  Sys2Proof.Claim.PreemptionArrives ∧ Sys2Proof.Claim.HeldPassesReturn

/-- The matrix engine's product, and the order in which it runs and completes its commands.
In it the model's own readings count: log 20. -/
def Obligations.MatrixExecution : Prop :=
  Sys2Proof.Claim.MatrixProduct ∧ Sys2Proof.Claim.MatrixCommandsRun

/-- The tree reduction and the periodic self-test of the matrix engine.
In it the model's own readings count: logs 17 and 20. -/
def Obligations.ReductionAndTest : Prop :=
  Sys2Proof.Claim.TreeReduction ∧ Sys2Proof.Claim.SelfTest

/-- The table unit's commands, and what each does to descriptors, overlays, pages, the pool and the plan.
In it the model's own readings count: logs 17, 21 and 53. -/
def Obligations.TableCommands : Prop :=
  Sys2Proof.Claim.TableUnitRuns ∧
  Sys2Proof.Claim.TableWrites ∧
  Sys2Proof.Claim.KvMaps ∧
  Sys2Proof.Claim.KvForks ∧
  Sys2Proof.Claim.KvTruncates ∧
  Sys2Proof.Claim.PlansAreWritten

/-- The start and the end of a Meridian job, and its register, control and stopping microwords.
In it the model's own readings count: logs 16, 17, 21 and 34. -/
def Obligations.JobsAndMicrowords : Prop :=
  Sys2Proof.Claim.JobsStart ∧
  Sys2Proof.Claim.JobsEnd ∧
  Sys2Proof.Claim.MicrowordsCompute ∧
  Sys2Proof.Claim.MicrowordsStop

/-- The microwords that read, write and wait.
In it the model's own readings count: log 16. -/
def Obligations.MicrowordMemoryAndWaits : Prop :=
  Sys2Proof.Claim.MicrowordMemory ∧ Sys2Proof.Claim.MicrowordWaits

/-- Gathers, table lookups and the matrix microword.
In it the model's own readings count: logs 20 and 21. -/
def Obligations.MicrowordEngines : Prop :=
  Sys2Proof.Claim.Gathers ∧ Sys2Proof.Claim.MicrowordMatrix

/-- The exponent unit and the partial results.
In it the model's own readings count: logs 10 and 21. -/
def Obligations.AttentionRows : Prop :=
  Sys2Proof.Claim.ExponentUnit ∧ Sys2Proof.Claim.PartialResults

/-- conf.test, fill.req and fill.sync, and the batches of an Infill engine.
In it the model's own readings count: logs 22 and 31. -/
def Obligations.Infill : Prop :=
  Sys2Proof.Claim.InfillNodesIssue ∧ Sys2Proof.Claim.InfillBatches

/-- The distributor's nodes, triggers and arming.
In it the model's own readings count: logs 23 and 33. -/
def Obligations.DistributorActions : Prop :=
  Sys2Proof.Claim.DistributorNodes ∧ Sys2Proof.Claim.TriggersFire

/-- SELECT_HEAD and HEAD_PROMOTE, and the eviction of a queue from its slot.
In it the model's own readings count: log 32. -/
def Obligations.SelectionAndSlots : Prop :=
  Sys2Proof.Claim.HeadSelection ∧ Sys2Proof.Claim.QueueSlots

/-- Packets that arrive, and the state of ports and peers.
In it the model's own readings count: logs 35, 36 and 37. -/
def Obligations.LinkPackets : Prop :=
  Sys2Proof.Claim.PacketsArrive ∧ Sys2Proof.Claim.PortsAndPeers

/-- A reduction whose parts are there completes, and so does a transfer within the device.
In it the model's own readings count: log 35. -/
def Obligations.LinkOperations : Prop :=
  Sys2Proof.Claim.ReductionsComplete ∧ Sys2Proof.Claim.TransfersWithinTheDevice

/-- Barriers that time out, and rings that fail.
In it the model's own readings count: logs 35 and 36. -/
def Obligations.LinkFailures : Prop :=
  Sys2Proof.Claim.BarriersTimeOut ∧ Sys2Proof.Claim.RingsFail

/-- Memory, the registers and the attestation that the host reaches.
In it the model's own readings count: logs 11, 13, 14, 38 and 39. -/
def Obligations.HostWindow : Prop :=
  Sys2Proof.Claim.HostMemory ∧ Sys2Proof.Claim.HostRegisters ∧ Sys2Proof.Claim.Attestation

/-- The host's context commands and the debugger's.
In it the model's own readings count: logs 31 and 41. -/
def Obligations.HostCommands : Prop :=
  Sys2Proof.Claim.ContextCommands ∧ Sys2Proof.Claim.DebugCommands

/-- Hardware errors are recorded; frequency, capping and gating of islands.
In it the model's own readings count: logs 14, 19 and 40. -/
def Obligations.ErrorsAndPower : Prop :=
  Sys2Proof.Claim.ErrorsAreRecorded ∧ Sys2Proof.Claim.PowerAndHeat

/-- A word that decodes is the word of what it decodes to; words outside the tables are refused.
In it the model's own readings count: log 8. -/
def Obligations.DecodingIsInjective : Prop :=
  Sys2Proof.Claim.EncodeDecodes ∧ Sys2Proof.Claim.ReservedWordsRefused
end

