-- ==== Sys2Proof/Laws/Stores.lean ====
section
/-! SUPPORT. Laws of the sparse stores, the tables and the changed lists of Machine/Bits.lean: what is read back, what
is left alone, and that the canonical form is kept. -/

namespace Sys2Proof.Machine

/-! ## Cells -/

theorem Cells.wfFrom_mono {w : Nat} {m : Cells w} : ∀ {lo hi : Nat}, lo ≤ hi → Cells.wfFrom hi m = true →
    Cells.wfFrom lo m = true := by
  intro lo hi hle h
  cases m with
  | nil => rfl
  | cons e t =>
    simp only [Cells.wfFrom, Bool.and_eq_true, decide_eq_true_eq] at h ⊢
    exact ⟨⟨Nat.le_trans hle h.1.1, h.1.2⟩, h.2⟩

/-- Below its first key a canonical store reads 0. -/
theorem Cells.get_of_lt {w : Nat} : ∀ {m : Cells w} {lo a : Nat}, Cells.wfFrom lo m = true → a < lo →
    m.get a = 0 := by
  intro m
  induction m with
  | nil => intros; rfl
  | cons e t ih =>
    intro lo a h ha
    simp only [Cells.wfFrom, Bool.and_eq_true, decide_eq_true_eq] at h
    have : a < e.1 := Nat.lt_of_lt_of_le ha h.1.1
    simp [Cells.get, this]

/-- A write reads back. -/
theorem Cells.get_set_same {w : Nat} (m : Cells w) (a : Nat) (v : BitVec w) : ∀ lo, Cells.wfFrom lo m = true →
    (m.set a v).get a = v := by
  induction m with
  | nil =>
    intro lo _
    simp only [Cells.set]
    split
    · rename_i hv; exact hv.symm
    · simp [Cells.get]
  | cons e t ih =>
    intro lo h
    simp only [Cells.wfFrom, Bool.and_eq_true, decide_eq_true_eq] at h
    simp only [Cells.set]
    split
    · split <;> rename_i hlt hv
      · simp [Cells.get, hlt, hv]
      · simp [Cells.get]
    · split
      · rename_i _ heq
        subst heq
        split <;> rename_i hv
        · rw [hv]; exact Cells.get_of_lt h.2 (Nat.lt_succ_self _)
        · simp [Cells.get]
      · rename_i h1 h2
        simp only [Cells.get, h1, h2, if_false]
        exact ih _ h.2

/-- A write leaves every other cell alone. -/
theorem Cells.get_set_other {w : Nat} (m : Cells w) (a b : Nat) (v : BitVec w) (hab : b ≠ a) :
    ∀ lo, Cells.wfFrom lo m = true → (m.set a v).get b = m.get b := by
  induction m with
  | nil =>
    intro lo _
    simp only [Cells.set]
    split
    · rfl
    · simp [Cells.get, hab]
  | cons e t ih =>
    intro lo h
    simp only [Cells.wfFrom, Bool.and_eq_true, decide_eq_true_eq] at h
    simp only [Cells.set]
    split
    · split
      · rfl
      · rename_i hlt _
        by_cases hb : b < a
        · have : b < e.1 := Nat.lt_trans hb hlt
          simp [Cells.get, hb, this]
        · simp [Cells.get, hb, hab]
    · split
      · rename_i _ heq
        subst heq
        split
        · by_cases hb : b < e.1
          · rw [Cells.get_of_lt h.2 (Nat.lt_succ_of_lt hb)]; simp [Cells.get, hb]
          · simp [Cells.get, hb, hab]
        · simp [Cells.get, hab]
      · simp only [Cells.get]
        split
        · rfl
        · split
          · rfl
          · exact ih _ h.2

/-- A write keeps the canonical form. -/
theorem Cells.wfFrom_set {w : Nat} (m : Cells w) (a : Nat) (v : BitVec w) : ∀ lo, lo ≤ a →
    Cells.wfFrom lo m = true → Cells.wfFrom lo (m.set a v) = true := by
  induction m with
  | nil =>
    intro lo ha _
    simp only [Cells.set]
    split
    · rfl
    · rename_i hv
      simp only [Cells.wfFrom, Bool.and_eq_true, decide_eq_true_eq]
      exact ⟨⟨ha, hv⟩, trivial⟩
  | cons e t ih =>
    intro lo ha h
    have h' := h
    simp only [Cells.wfFrom, Bool.and_eq_true, decide_eq_true_eq] at h
    simp only [Cells.set]
    split
    · rename_i hlt
      split
      · exact h'
      · rename_i hv
        simp only [Cells.wfFrom, Bool.and_eq_true, decide_eq_true_eq]
        exact ⟨⟨ha, hv⟩, ⟨Nat.succ_le_of_lt hlt, h.1.2⟩, h.2⟩
    · rename_i hge
      split
      · rename_i heq
        split
        · exact Cells.wfFrom_mono (by omega) h.2
        · rename_i hv
          simp only [Cells.wfFrom, Bool.and_eq_true, decide_eq_true_eq]
          exact ⟨⟨ha, hv⟩, heq ▸ h.2⟩
      · rename_i hne
        simp only [Cells.wfFrom, Bool.and_eq_true, decide_eq_true_eq]
        exact ⟨h.1, ih _ (by omega) h.2⟩

theorem Cells.wf_set {w : Nat} {m : Cells w} (a : Nat) (v : BitVec w) (h : m.wf = true) : (m.set a v).wf = true :=
  Cells.wfFrom_set m a v 0 (Nat.zero_le _) h

theorem Cells.wf_write {w : Nat} (vs : List (BitVec w)) : ∀ {m : Cells w} (a : Nat), m.wf = true →
    (m.write a vs).wf = true := by
  induction vs with
  | nil => intro m a h; exact h
  | cons v vs ih => intro m a h; exact ih (a + 1) (Cells.wf_set a v h)

/-- Taking entries away keeps the canonical form. -/
theorem Cells.wfFrom_filter {w : Nat} (m : Cells w) (p : Nat × BitVec w → Bool) : ∀ lo,
    Cells.wfFrom lo m = true → Cells.wfFrom lo (m.filter p) = true := by
  induction m with
  | nil => intro lo h; exact h
  | cons e t ih =>
    intro lo h
    simp only [Cells.wfFrom, Bool.and_eq_true, decide_eq_true_eq] at h
    simp only [List.filter]
    split
    · simp only [Cells.wfFrom, Bool.and_eq_true, decide_eq_true_eq]
      exact ⟨h.1, ih _ h.2⟩
    · exact Cells.wfFrom_mono (by omega) (ih _ h.2)

theorem Cells.wf_clear {w : Nat} {m : Cells w} (lo n : Nat) (h : m.wf = true) : (m.clear lo n).wf = true :=
  Cells.wfFrom_filter m _ 0 h

theorem Cells.wf_filter {w : Nat} {m : Cells w} (p : Nat × BitVec w → Bool) (h : m.wf = true) :
    Cells.wf (m.filter p) = true :=
  Cells.wfFrom_filter m p 0 h

/-- A list of cells written at a leaves every cell outside it alone. -/
theorem Cells.get_write_other {w : Nat} (vs : List (BitVec w)) : ∀ {m : Cells w} (a b : Nat), m.wf = true →
    (b < a ∨ a + vs.length ≤ b) → (m.write a vs).get b = m.get b := by
  induction vs with
  | nil => intros; rfl
  | cons v vs ih =>
    intro m a b h hb
    have hb' : b < a ∨ a + (vs.length + 1) ≤ b := hb
    have h1 : b < a + 1 ∨ a + 1 + vs.length ≤ b := by omega
    rw [Cells.write, ih (a + 1) b (Cells.wf_set a v h) h1]
    exact Cells.get_set_other m a b v (by omega) 0 h

/-- A list of cells written at a reads back. -/
theorem Cells.read_write {w : Nat} (vs : List (BitVec w)) : ∀ {m : Cells w} (a : Nat), m.wf = true →
    (m.write a vs).read a vs.length = vs := by
  induction vs with
  | nil => intros; rfl
  | cons v vs ih =>
    intro m a h
    have hw := Cells.wf_set a v h
    have h0 : (Cells.write (m.set a v) (a + 1) vs).get a = v := by
      rw [Cells.get_write_other vs (a + 1) a hw (by omega)]
      exact Cells.get_set_same m a v 0 h
    have := ih (a + 1) hw
    simp only [Cells.read, Cells.write, List.length_cons, List.range_succ_eq_map, List.map_cons, List.map_map] at this ⊢
    refine List.cons_eq_cons.mpr ⟨by simpa using h0, ?_⟩
    refine Eq.trans (List.map_congr_left fun i _ => ?_) this
    rw [Nat.add_right_comm a 1 i]
    rfl

/-! ## Tables -/

@[simp] theorem Tbl.find_put_same {α : Type} (m : Tbl α) (a : Nat) (v : α) : (m.put a v).find a = some v := by
  induction m with
  | nil => simp [Tbl.put, Tbl.find]
  | cons e t ih =>
    simp only [Tbl.put]
    split
    · simp [Tbl.find]
    · split
      · simp [Tbl.find]
      · rename_i h1 h2
        have : ¬ e.1 = a := fun h => h2 h.symm
        simp [Tbl.find, this, ih]

theorem Tbl.find_put_other {α : Type} (m : Tbl α) (a b : Nat) (v : α) (h : b ≠ a) :
    (m.put a v).find b = m.find b := by
  induction m with
  | nil => simp [Tbl.put, Tbl.find, Ne.symm h]
  | cons e t ih =>
    simp only [Tbl.put]
    split
    · simp [Tbl.find, Ne.symm h]
    · split
      · rename_i _ heq
        have : ¬ e.1 = b := fun h' => h (h'.symm.trans heq.symm)
        simp [Tbl.find, Ne.symm h, this]
      · simp only [Tbl.find, ih]

@[simp] theorem Tbl.find_del_same {α : Type} (m : Tbl α) (a : Nat) : (m.del a).find a = none := by
  induction m with
  | nil => rfl
  | cons e t ih =>
    simp only [Tbl.del, List.filter] at ih ⊢
    split
    · rename_i hne
      have : ¬ e.1 = a := by simpa using hne
      simp only [Tbl.find, this, if_false]
      exact ih
    · exact ih

theorem Tbl.find_del_other {α : Type} (m : Tbl α) (a b : Nat) (h : b ≠ a) : (m.del a).find b = m.find b := by
  induction m with
  | nil => rfl
  | cons e t ih =>
    simp only [Tbl.del, List.filter] at ih ⊢
    split
    · simp only [Tbl.find, ih]
    · rename_i heq
      have : e.1 = a := by simpa using heq
      have hb : ¬ e.1 = b := fun h' => h (h'.symm.trans this)
      simp only [Tbl.find, hb, if_false]
      exact ih

/-! ## Changed lists -/

@[simp] theorem length_updAt {α : Type} (l : List α) : ∀ (n : Nat) (f : α → α), (updAt l n f).length = l.length := by
  induction l with
  | nil => intros; rfl
  | cons x t ih => intro n f; cases n <;> simp [updAt, ih]

theorem getElem?_updAt_same {α : Type} (l : List α) : ∀ (n : Nat) (f : α → α), (updAt l n f)[n]? = l[n]?.map f := by
  induction l with
  | nil => intros; simp [updAt]
  | cons x t ih => intro n f; cases n <;> simp [updAt, ih]

theorem getElem?_updAt_other {α : Type} (l : List α) : ∀ (n m : Nat) (f : α → α), m ≠ n →
    (updAt l n f)[m]? = l[m]? := by
  induction l with
  | nil => intros; simp [updAt]
  | cons x t ih =>
    intro n m f h
    cases n with
    | zero =>
      cases m with
      | zero => exact absurd rfl h
      | succ m => simp [updAt]
    | succ n =>
      cases m with
      | zero => simp [updAt]
      | succ m => simp [updAt, ih n m f (by omega)]

theorem getD_updAt_same {α : Type} (l : List α) (n : Nat) (f : α → α) (x : α) (h : n < l.length) :
    (updAt l n f).getD n x = f (l.getD n x) := by
  simp [List.getD, getElem?_updAt_same, List.getElem?_eq_getElem h]

theorem getD_updAt_other {α : Type} (l : List α) (n m : Nat) (f : α → α) (x : α) (h : m ≠ n) :
    (updAt l n f).getD m x = l.getD m x := by
  simp [List.getD, getElem?_updAt_other l n m f h]

/-! ## Bytes -/

@[simp] theorem length_toBytes : ∀ (n v : Nat), (toBytes n v).length = n
  | 0, _ => rfl
  | n + 1, v => by simp [toBytes, length_toBytes n]

/-- A number below 256^n is the one its n bytes make. -/
theorem ofBytes_toBytes : ∀ (n v : Nat), v < 256 ^ n → ofBytes (toBytes n v) = v
  | 0, v, h => by simp at h; simp [toBytes, ofBytes, h]
  | n + 1, v, h => by
    have hv : v / 256 < 256 ^ n := Nat.div_lt_of_lt_mul (by rw [Nat.pow_succ, Nat.mul_comm] at h; exact h)
    simp only [toBytes, ofBytes, ofBytes_toBytes n _ hv, BitVec.toNat_ofNat]
    omega

end Sys2Proof.Machine
end

