-- ==== Sys2Proof/Laws/State.lean ====
section
/-! SUPPORT. The updates of the state, field by field (Machine/State.lean, Machine/Memory.lean, Machine/Ops.lean). -/

namespace Sys2Proof.Machine

variable (d : Device) (n : Nat)

/-! ## Changing a core -/

@[simp] theorem modCore_cores (f : Core → Core) : (d.modCore n f).cores = updAt d.cores n f := rfl
@[simp] theorem modCore_mem (f : Core → Core) : (d.modCore n f).mem = d.mem := rfl
@[simp] theorem modCore_clusters (f : Core → Core) : (d.modCore n f).clusters = d.clusters := rfl
@[simp] theorem modCore_free (f : Core → Core) : (d.modCore n f).free = d.free := rfl
@[simp] theorem modCore_dist (f : Core → Core) : (d.modCore n f).dist = d.dist := rfl
@[simp] theorem modCore_host (f : Core → Core) : (d.modCore n f).host = d.host := rfl
@[simp] theorem modCore_mcswin (f : Core → Core) : (d.modCore n f).mcswin = d.mcswin := rfl
@[simp] theorem modCore_mcsResult (f : Core → Core) : (d.modCore n f).mcsResult = d.mcsResult := rfl
@[simp] theorem modCore_cstore (f : Core → Core) : (d.modCore n f).cstore = d.cstore := rfl
@[simp] theorem modCore_xrimg (f : Core → Core) : (d.modCore n f).xrimg = d.xrimg := rfl
@[simp] theorem modCore_xrResult (f : Core → Core) : (d.modCore n f).xrResult = d.xrResult := rfl
@[simp] theorem modCore_routines (f : Core → Core) : (d.modCore n f).routines = d.routines := rfl
@[simp] theorem modCore_generations (f : Core → Core) : (d.modCore n f).generations = d.generations := rfl
@[simp] theorem modCore_devid (f : Core → Core) : (d.modCore n f).devid = d.devid := rfl
@[simp] theorem modCore_ringTimeout (f : Core → Core) : (d.modCore n f).ringTimeout = d.ringTimeout := rfl
@[simp] theorem modCore_replays (f : Core → Core) : (d.modCore n f).replays = d.replays := rfl
@[simp] theorem modCore_portsUp (f : Core → Core) : (d.modCore n f).portsUp = d.portsUp := rfl
@[simp] theorem modCore_links (f : Core → Core) : (d.modCore n f).links = d.links := rfl
@[simp] theorem modCore_linkCount (f : Core → Core) : (d.modCore n f).linkCount = d.linkCount := rfl
@[simp] theorem modCore_inbox (f : Core → Core) : (d.modCore n f).inbox = d.inbox := rfl
@[simp] theorem modCore_outbox (f : Core → Core) : (d.modCore n f).outbox = d.outbox := rfl
@[simp] theorem modCore_unreachable (f : Core → Core) : (d.modCore n f).unreachable = d.unreachable := rfl
@[simp] theorem modCore_fillCount (f : Core → Core) : (d.modCore n f).fillCount = d.fillCount := rfl
@[simp] theorem modCore_syncs (f : Core → Core) : (d.modCore n f).syncs = d.syncs := rfl
@[simp] theorem modCore_redFailed (f : Core → Core) : (d.modCore n f).redFailed = d.redFailed := rfl

theorem core_modCore_same (f : Core → Core) (h : n < d.cores.length) : (d.modCore n f).core n = f (d.core n) :=
  getD_updAt_same d.cores n f Core.reset h

theorem core_modCore_other (m : Nat) (f : Core → Core) (h : m ≠ n) : (d.modCore n f).core m = d.core m :=
  getD_updAt_other d.cores n m f Core.reset h

@[simp] theorem cluster_modCore (f : Core → Core) (c : Nat) : (d.modCore n f).cluster c = d.cluster c := rfl

/-! ## Changing a cluster -/

@[simp] theorem modCluster_clusters (f : Cluster → Cluster) :
    (d.modCluster n f).clusters = updAt d.clusters n f := rfl
@[simp] theorem modCluster_mem (f : Cluster → Cluster) : (d.modCluster n f).mem = d.mem := rfl
@[simp] theorem modCluster_cores (f : Cluster → Cluster) : (d.modCluster n f).cores = d.cores := rfl
@[simp] theorem modCluster_free (f : Cluster → Cluster) : (d.modCluster n f).free = d.free := rfl
@[simp] theorem modCluster_dist (f : Cluster → Cluster) : (d.modCluster n f).dist = d.dist := rfl
@[simp] theorem modCluster_host (f : Cluster → Cluster) : (d.modCluster n f).host = d.host := rfl
@[simp] theorem modCluster_mcswin (f : Cluster → Cluster) : (d.modCluster n f).mcswin = d.mcswin := rfl
@[simp] theorem modCluster_mcsResult (f : Cluster → Cluster) : (d.modCluster n f).mcsResult = d.mcsResult := rfl
@[simp] theorem modCluster_cstore (f : Cluster → Cluster) : (d.modCluster n f).cstore = d.cstore := rfl
@[simp] theorem modCluster_xrimg (f : Cluster → Cluster) : (d.modCluster n f).xrimg = d.xrimg := rfl
@[simp] theorem modCluster_xrResult (f : Cluster → Cluster) : (d.modCluster n f).xrResult = d.xrResult := rfl
@[simp] theorem modCluster_routines (f : Cluster → Cluster) : (d.modCluster n f).routines = d.routines := rfl
@[simp] theorem modCluster_generations (f : Cluster → Cluster) : (d.modCluster n f).generations = d.generations := rfl
@[simp] theorem modCluster_devid (f : Cluster → Cluster) : (d.modCluster n f).devid = d.devid := rfl
@[simp] theorem modCluster_ringTimeout (f : Cluster → Cluster) : (d.modCluster n f).ringTimeout = d.ringTimeout := rfl
@[simp] theorem modCluster_replays (f : Cluster → Cluster) : (d.modCluster n f).replays = d.replays := rfl
@[simp] theorem modCluster_portsUp (f : Cluster → Cluster) : (d.modCluster n f).portsUp = d.portsUp := rfl
@[simp] theorem modCluster_links (f : Cluster → Cluster) : (d.modCluster n f).links = d.links := rfl
@[simp] theorem modCluster_linkCount (f : Cluster → Cluster) : (d.modCluster n f).linkCount = d.linkCount := rfl
@[simp] theorem modCluster_inbox (f : Cluster → Cluster) : (d.modCluster n f).inbox = d.inbox := rfl
@[simp] theorem modCluster_outbox (f : Cluster → Cluster) : (d.modCluster n f).outbox = d.outbox := rfl
@[simp] theorem modCluster_unreachable (f : Cluster → Cluster) : (d.modCluster n f).unreachable = d.unreachable := rfl
@[simp] theorem modCluster_fillCount (f : Cluster → Cluster) : (d.modCluster n f).fillCount = d.fillCount := rfl
@[simp] theorem modCluster_syncs (f : Cluster → Cluster) : (d.modCluster n f).syncs = d.syncs := rfl
@[simp] theorem modCluster_redFailed (f : Cluster → Cluster) : (d.modCluster n f).redFailed = d.redFailed := rfl

theorem cluster_modCluster_same (f : Cluster → Cluster) (h : n < d.clusters.length) :
    (d.modCluster n f).cluster n = f (d.cluster n) :=
  getD_updAt_same d.clusters n f Cluster.reset h

theorem cluster_modCluster_other (m : Nat) (f : Cluster → Cluster) (h : m ≠ n) :
    (d.modCluster n f).cluster m = d.cluster m :=
  getD_updAt_other d.clusters n m f Cluster.reset h

@[simp] theorem core_modCluster (f : Cluster → Cluster) (c : Nat) : (d.modCluster n f).core c = d.core c := rfl

/-! ## Drawing a free value -/

@[simp] theorem draw_value : d.draw.1 = Config.freeNat d.free := rfl
@[simp] theorem draw_free : d.draw.2.free = d.free + 1 := rfl
@[simp] theorem draw_mem : d.draw.2.mem = d.mem := rfl
@[simp] theorem draw_cores : d.draw.2.cores = d.cores := rfl
@[simp] theorem draw_clusters : d.draw.2.clusters = d.clusters := rfl
@[simp] theorem draw_dist : d.draw.2.dist = d.dist := rfl
@[simp] theorem draw_host : d.draw.2.host = d.host := rfl
@[simp] theorem draw_mcswin : d.draw.2.mcswin = d.mcswin := rfl
@[simp] theorem draw_mcsResult : d.draw.2.mcsResult = d.mcsResult := rfl
@[simp] theorem draw_cstore : d.draw.2.cstore = d.cstore := rfl
@[simp] theorem draw_xrimg : d.draw.2.xrimg = d.xrimg := rfl
@[simp] theorem draw_xrResult : d.draw.2.xrResult = d.xrResult := rfl
@[simp] theorem draw_routines : d.draw.2.routines = d.routines := rfl
@[simp] theorem draw_generations : d.draw.2.generations = d.generations := rfl
@[simp] theorem draw_devid : d.draw.2.devid = d.devid := rfl
@[simp] theorem draw_ringTimeout : d.draw.2.ringTimeout = d.ringTimeout := rfl
@[simp] theorem draw_replays : d.draw.2.replays = d.replays := rfl
@[simp] theorem draw_portsUp : d.draw.2.portsUp = d.portsUp := rfl
@[simp] theorem draw_links : d.draw.2.links = d.links := rfl
@[simp] theorem draw_linkCount : d.draw.2.linkCount = d.linkCount := rfl
@[simp] theorem draw_inbox : d.draw.2.inbox = d.inbox := rfl
@[simp] theorem draw_outbox : d.draw.2.outbox = d.outbox := rfl
@[simp] theorem draw_unreachable : d.draw.2.unreachable = d.unreachable := rfl
@[simp] theorem draw_fillCount : d.draw.2.fillCount = d.fillCount := rfl
@[simp] theorem draw_syncs : d.draw.2.syncs = d.syncs := rfl
@[simp] theorem draw_redFailed : d.draw.2.redFailed = d.redFailed := rfl

/-! ## Changing a thread or a lane -/

variable (t : Nat)

theorem core_modThread_same (f : Thread → Thread) (h : n < d.cores.length) :
    (modThread d n t f).core n = { d.core n with threads := updAt (d.core n).threads t f } :=
  core_modCore_same d n _ h

theorem core_modThread_other (m : Nat) (f : Thread → Thread) (h : m ≠ n) : (modThread d n t f).core m = d.core m :=
  core_modCore_other d n m _ h

theorem threadOf_modThread_same (f : Thread → Thread) (h : n < d.cores.length)
    (ht : t < (d.core n).threads.length) : threadOf (modThread d n t f) n t = f (threadOf d n t) := by
  simp only [threadOf, core_modThread_same d n t f h]
  exact getD_updAt_same _ t f _ ht

theorem core_modLane_same (f : Lane → Lane) (h : n < d.cores.length) :
    (modLane d n t f).core n =
      { d.core n with pass := (d.core n).pass.map fun p => { p with lanes := updAt p.lanes t f } } :=
  core_modCore_same d n _ h

theorem core_modLane_other (m : Nat) (f : Lane → Lane) (h : m ≠ n) : (modLane d n t f).core m = d.core m :=
  core_modCore_other d n m _ h

@[simp] theorem modThread_mem (f : Thread → Thread) : (modThread d n t f).mem = d.mem := rfl
@[simp] theorem modThread_clusters (f : Thread → Thread) : (modThread d n t f).clusters = d.clusters := rfl
@[simp] theorem modThread_free (f : Thread → Thread) : (modThread d n t f).free = d.free := rfl
@[simp] theorem modThread_dist (f : Thread → Thread) : (modThread d n t f).dist = d.dist := rfl
@[simp] theorem modThread_host (f : Thread → Thread) : (modThread d n t f).host = d.host := rfl
@[simp] theorem modThread_mcswin (f : Thread → Thread) : (modThread d n t f).mcswin = d.mcswin := rfl
@[simp] theorem modThread_mcsResult (f : Thread → Thread) : (modThread d n t f).mcsResult = d.mcsResult := rfl
@[simp] theorem modThread_cstore (f : Thread → Thread) : (modThread d n t f).cstore = d.cstore := rfl
@[simp] theorem modThread_xrimg (f : Thread → Thread) : (modThread d n t f).xrimg = d.xrimg := rfl
@[simp] theorem modThread_xrResult (f : Thread → Thread) : (modThread d n t f).xrResult = d.xrResult := rfl
@[simp] theorem modThread_routines (f : Thread → Thread) : (modThread d n t f).routines = d.routines := rfl
@[simp] theorem modThread_generations (f : Thread → Thread) : (modThread d n t f).generations = d.generations := rfl
@[simp] theorem modThread_devid (f : Thread → Thread) : (modThread d n t f).devid = d.devid := rfl
@[simp] theorem modThread_ringTimeout (f : Thread → Thread) : (modThread d n t f).ringTimeout = d.ringTimeout := rfl
@[simp] theorem modThread_replays (f : Thread → Thread) : (modThread d n t f).replays = d.replays := rfl
@[simp] theorem modThread_portsUp (f : Thread → Thread) : (modThread d n t f).portsUp = d.portsUp := rfl
@[simp] theorem modThread_links (f : Thread → Thread) : (modThread d n t f).links = d.links := rfl
@[simp] theorem modThread_linkCount (f : Thread → Thread) : (modThread d n t f).linkCount = d.linkCount := rfl
@[simp] theorem modThread_inbox (f : Thread → Thread) : (modThread d n t f).inbox = d.inbox := rfl
@[simp] theorem modThread_outbox (f : Thread → Thread) : (modThread d n t f).outbox = d.outbox := rfl
@[simp] theorem modThread_unreachable (f : Thread → Thread) : (modThread d n t f).unreachable = d.unreachable := rfl
@[simp] theorem modThread_fillCount (f : Thread → Thread) : (modThread d n t f).fillCount = d.fillCount := rfl
@[simp] theorem modThread_syncs (f : Thread → Thread) : (modThread d n t f).syncs = d.syncs := rfl
@[simp] theorem modThread_redFailed (f : Thread → Thread) : (modThread d n t f).redFailed = d.redFailed := rfl
@[simp] theorem modThread_cores_length (f : Thread → Thread) : (modThread d n t f).cores.length = d.cores.length :=
  length_updAt _ _ _

@[simp] theorem modLane_mem (f : Lane → Lane) : (modLane d n t f).mem = d.mem := rfl
@[simp] theorem modLane_clusters (f : Lane → Lane) : (modLane d n t f).clusters = d.clusters := rfl
@[simp] theorem modLane_free (f : Lane → Lane) : (modLane d n t f).free = d.free := rfl
@[simp] theorem modLane_dist (f : Lane → Lane) : (modLane d n t f).dist = d.dist := rfl
@[simp] theorem modLane_host (f : Lane → Lane) : (modLane d n t f).host = d.host := rfl
@[simp] theorem modLane_mcswin (f : Lane → Lane) : (modLane d n t f).mcswin = d.mcswin := rfl
@[simp] theorem modLane_mcsResult (f : Lane → Lane) : (modLane d n t f).mcsResult = d.mcsResult := rfl
@[simp] theorem modLane_cstore (f : Lane → Lane) : (modLane d n t f).cstore = d.cstore := rfl
@[simp] theorem modLane_xrimg (f : Lane → Lane) : (modLane d n t f).xrimg = d.xrimg := rfl
@[simp] theorem modLane_xrResult (f : Lane → Lane) : (modLane d n t f).xrResult = d.xrResult := rfl
@[simp] theorem modLane_routines (f : Lane → Lane) : (modLane d n t f).routines = d.routines := rfl
@[simp] theorem modLane_generations (f : Lane → Lane) : (modLane d n t f).generations = d.generations := rfl
@[simp] theorem modLane_devid (f : Lane → Lane) : (modLane d n t f).devid = d.devid := rfl
@[simp] theorem modLane_ringTimeout (f : Lane → Lane) : (modLane d n t f).ringTimeout = d.ringTimeout := rfl
@[simp] theorem modLane_replays (f : Lane → Lane) : (modLane d n t f).replays = d.replays := rfl
@[simp] theorem modLane_portsUp (f : Lane → Lane) : (modLane d n t f).portsUp = d.portsUp := rfl
@[simp] theorem modLane_links (f : Lane → Lane) : (modLane d n t f).links = d.links := rfl
@[simp] theorem modLane_linkCount (f : Lane → Lane) : (modLane d n t f).linkCount = d.linkCount := rfl
@[simp] theorem modLane_inbox (f : Lane → Lane) : (modLane d n t f).inbox = d.inbox := rfl
@[simp] theorem modLane_outbox (f : Lane → Lane) : (modLane d n t f).outbox = d.outbox := rfl
@[simp] theorem modLane_unreachable (f : Lane → Lane) : (modLane d n t f).unreachable = d.unreachable := rfl
@[simp] theorem modLane_fillCount (f : Lane → Lane) : (modLane d n t f).fillCount = d.fillCount := rfl
@[simp] theorem modLane_syncs (f : Lane → Lane) : (modLane d n t f).syncs = d.syncs := rfl
@[simp] theorem modLane_redFailed (f : Lane → Lane) : (modLane d n t f).redFailed = d.redFailed := rfl
@[simp] theorem modLane_cores_length (f : Lane → Lane) : (modLane d n t f).cores.length = d.cores.length :=
  length_updAt _ _ _

/-! ## A lane's own updates -/

variable (l : Lane)

@[simp] theorem Lane.emit_tid (k : Nat) (x : Token) : (l.emit k x).tid = l.tid := rfl
@[simp] theorem Lane.emit_flags (k : Nat) (x : Token) : (l.emit k x).flags = l.flags := rfl
@[simp] theorem Lane.emit_writes (k : Nat) (x : Token) : (l.emit k x).writes = l.writes := rfl
@[simp] theorem Lane.emit_stores (k : Nat) (x : Token) : (l.emit k x).stores = l.stores := rfl
@[simp] theorem Lane.emit_done (k : Nat) (x : Token) : (l.emit k x).done = l.done := rfl
@[simp] theorem Lane.emit_replay (k : Nat) (x : Token) : (l.emit k x).replay = l.replay := rfl
@[simp] theorem Lane.emit_pend (k : Nat) (x : Token) : (l.emit k x).pend = l.pend := rfl
@[simp] theorem Lane.emit_tokens (k : Nat) (x : Token) : (l.emit k x).tokens = l.tokens.put k x := rfl
@[simp] theorem Lane.emit_held (k : Nat) (x : Token) : (l.emit k x).held = l.held.del k := rfl
@[simp] theorem Lane.perform_tid (j : Nat) (v : Word) : (l.perform j v).tid = l.tid := rfl
@[simp] theorem Lane.perform_tokens (j : Nat) (v : Word) : (l.perform j v).tokens = l.tokens := rfl
@[simp] theorem Lane.perform_flags (j : Nat) (v : Word) : (l.perform j v).flags = l.flags := rfl
@[simp] theorem Lane.perform_writes (j : Nat) (v : Word) : (l.perform j v).writes = l.writes := rfl
@[simp] theorem Lane.perform_stores (j : Nat) (v : Word) : (l.perform j v).stores = l.stores := rfl
@[simp] theorem Lane.perform_held (j : Nat) (v : Word) : (l.perform j v).held = l.held := rfl
@[simp] theorem Lane.perform_pend (j : Nat) (v : Word) : (l.perform j v).pend = l.pend := rfl
@[simp] theorem Lane.deliver_tokens (e : Env) (w : NodeWord) (v : Word) (fx : Fx) :
    (l.deliver e w v fx).tokens = l.tokens.put e.node (.value v) := by
  simp only [Lane.deliver]; split <;> rfl
@[simp] theorem Lane.deliver_flags (e : Env) (w : NodeWord) (v : Word) (fx : Fx) :
    (l.deliver e w v fx).flags = l.flags ||| fx.flags := by
  simp only [Lane.deliver]; split <;> rfl
@[simp] theorem Lane.deliver_stores (e : Env) (w : NodeWord) (v : Word) (fx : Fx) :
    (l.deliver e w v fx).stores = l.stores ++ fx.stores := by
  simp only [Lane.deliver]; split <;> rfl
@[simp] theorem Lane.deliver_tid (e : Env) (w : NodeWord) (v : Word) (fx : Fx) :
    (l.deliver e w v fx).tid = l.tid := by
  simp only [Lane.deliver]; split <;> rfl
@[simp] theorem Lane.deliver_pend (e : Env) (w : NodeWord) (v : Word) (fx : Fx) :
    (l.deliver e w v fx).pend = l.pend := by
  simp only [Lane.deliver]; split <;> rfl
@[simp] theorem Lane.deliver_held (e : Env) (w : NodeWord) (v : Word) (fx : Fx) :
    (l.deliver e w v fx).held = l.held.del e.node := by
  simp only [Lane.deliver]; split <;> rfl
@[simp] theorem Lane.deliver_writes (e : Env) (w : NodeWord) (v : Word) (fx : Fx) :
    (l.deliver e w v fx).writes =
      l.writes ++ fx.writes ++ (if w.fmt.result && w.dest != 0xFF then [(w.dest.toNat, v)] else []) := by
  simp only [Lane.deliver]; split <;> rfl

/-! ## The focus -/

variable (s : State) (c k : Nat)

@[simp] theorem at_dev : (s.at_ c t k).dev = s.dev := rfl
@[simp] theorem at_clock : (s.at_ c t k).clock = s.clock := rfl
@[simp] theorem at_agenda : (s.at_ c t k).agenda = s.agenda := rfl
@[simp] theorem at_focus : (s.at_ c t k).focus = ⟨c, t, k⟩ := rfl

end Sys2Proof.Machine
end

