-- ==== Sys2Proof/Laws/Ops.lean ====
section
/-! SUPPORT. What the shared operations of Machine/Ops.lean do, said once. -/

namespace Sys2Proof.Machine

/-- Every instruction goes on and changes nothing of the machine but the device; a reset of the device also starts
its clock anew. -/
theorem exec_next (i : Instr) (s : State) : ∃ c d, exec i s = .next { s with clock := c, dev := d } := by
  cases i <;> exact ⟨_, _, rfl⟩

/-- Every memory, engine or system node fires as a node of its word. -/
theorem exec_of_mu {i : Instr} {o : Nat} {w : MU} (h : wordOf i = .mu o w) (s : State) :
    ∃ fn, exec i s = nodeStep s (muWord o w) fn := by
  cases i <;> simp only [wordOf, reduceCtorEq, WordOf.mu.injEq] at h <;> obtain ⟨rfl, rfl⟩ := h <;> exact ⟨_, rfl⟩

/-- Every compute node but merge fires as a node of its word. -/
theorem exec_of_cu {i : Instr} {o : Nat} {w : CU} (h : wordOf i = .cu o w) (ho : o ≠ 0x05) (s : State) :
    ∃ fn, exec i s = nodeStep s (cuWord o w) fn := by
  cases i <;> simp only [wordOf, reduceCtorEq, WordOf.cu.injEq] at h <;> obtain ⟨rfl, rfl⟩ := h <;>
    first | exact absurd rfl ho | exact ⟨_, rfl⟩

/-- A node that is ready does its own work, and what that comes to is finished. -/
theorem nodeStep_ready {s : State} {w : NodeWord} {e : Env} {a b c : Word} (h : Ready s w e a b c) (fn : NodeFn) :
    nodeStep s w fn = .next { s with dev := finishNode (fn e a b c s.dev).2 e w (fn e a b c s.dev).1 } := by
  obtain ⟨⟨he, hm, hd⟩, ha, hr⟩ := h
  have hr' : (e.pass.rev && (readsFadd e w.fmt.a w.a || readsFadd e w.fmt.b w.b || readsFadd e w.fmt.c w.c)) = false :=
    hr
  simp only [nodeStep, fireNode, he, fireEnv, hm, hd, ha, hr', Bool.not_true, Bool.false_eq_true, if_false]

/-- A node whose work answers a value without exceptions delivers it. -/
theorem nodeStep_val {s : State} {w : NodeWord} {e : Env} {a b c : Word} (h : Ready s w e a b c) {fn : NodeFn}
    {v : Word} {fx : Fx} (hfn : (fn e a b c s.dev).1 = .val v fx) (hfl : fx.flags = 0) :
    nodeStep s w fn = .next (s.gave (fn e a b c s.dev).2 e w v fx) := by
  have htr : trapsOf (fn e a b c s.dev).2 e fx.flags = 0 := by
    unfold trapsOf
    split
    · rfl
    · rw [hfl]; simp
  have hfx : (if e.pass.rev then { fx with flags := 0 } else fx) = fx := by
    split
    · cases fx; simp_all
    · rfl
  rw [nodeStep_ready h, hfn]
  simp only [finishNode, htr, hfx, deliverNode, State.gave, bne_self_eq_false, Bool.false_eq_true, if_false]

/-- A node that only computes delivers its value. -/
theorem nodeStep_pure {s : State} {w : NodeWord} {e : Env} {a b c : Word} (h : Ready s w e a b c)
    (g : Word → Word → Word → Word) :
    nodeStep s w (pureFn g) = .next (s.gave s.dev e w (g a b c) Fx.none) :=
  nodeStep_val h (fn := pureFn g) rfl rfl

/-- A node that computes and raises exceptions delivers its value with them, unless one is enabled to trap; in a
reverse replay it raises none (R131, R270). -/
theorem nodeStep_float {s : State} {w : NodeWord} {e : Env} {a b c : Word} (h : Ready s w e a b c)
    (g : Word → Word → Word → Word × Flags) (htr : trapsOf s.dev e (g a b c).2 = 0) :
    nodeStep s w (floatFn g) =
      .next (s.gave s.dev e w (g a b c).1 ⟨if e.pass.rev then 0 else (g a b c).2, [], []⟩) := by
  rw [nodeStep_ready h]
  simp only [floatFn, finishNode, htr, deliverNode, State.gave]
  cases e.pass.rev <;> simp

/-- A node whose work comes to poison emits it with itself as origin (R166, R279). -/
theorem nodeStep_bad {s : State} {w : NodeWord} {e : Env} {a b c : Word} (h : Ready s w e a b c) {fn : NodeFn}
    {cls : Nat} {addr : Word} (hfn : (fn e a b c s.dev).1 = .poison cls addr) :
    nodeStep s w fn =
      .next (s.gaveToken (fn e a b c s.dev).2 e (.poison ⟨e.pass.block, e.node, cls, addr, 0⟩)) := by
  rw [nodeStep_ready h, hfn]; rfl

/-- Poison on an operand passes through a node (R166). -/
theorem nodeStep_poison {s : State} {w : NodeWord} {e : Env} {o : Origin} (h : Fires s w e)
    (ha : argsOf s.dev e w = .poison o) (fn : NodeFn) :
    nodeStep s w fn = .next (s.gaveToken s.dev e (.poison o)) := by
  obtain ⟨he, hm, hd⟩ := h
  simp [nodeStep, fireNode, he, fireEnv, hm, hd, ha, emit, State.gaveToken]

/-- A cancel on an operand passes through a node (R166). -/
theorem nodeStep_cancel {s : State} {w : NodeWord} {e : Env} (h : Fires s w e)
    (ha : argsOf s.dev e w = .cancel) (fn : NodeFn) :
    nodeStep s w fn = .next (s.gaveToken s.dev e .cancel) := by
  obtain ⟨he, hm, hd⟩ := h
  simp [nodeStep, fireNode, he, fireEnv, hm, hd, ha, emit, State.gaveToken]

/-- A node without a streaming pass at the focus does nothing. -/
theorem nodeStep_idle {s : State} (h : envOf s.dev s.clock s.focus = none) (w : NodeWord) (fn : NodeFn) :
    nodeStep s w fn = .next s := by
  simp [nodeStep, fireNode, h]

/-- What an environment at a focus says of the device. -/
theorem envOf_some {d : Device} {now : Nat} {fo : Focus} {e : Env} (h : envOf d now fo = some e) :
    e.core = fo.core ∧ e.lane = fo.lane ∧ e.node = fo.node ∧ e.now = now ∧ (d.core fo.core).pass = some e.pass ∧
      (d.core fo.core).bound = some e.bound ∧ e.pass.lanes[e.lane]? = some e.l ∧ e.pass.loading = false ∧
      e.t = threadOf d e.core e.l.tid := by
  simp only [envOf] at h
  split at h
  · rename_i b p pl hb hp _
    by_cases hl : p.loading = true
    · simp [hl] at h
    · simp only [hl] at h
      cases hlane : p.lanes[fo.lane]? with
      | none => simp [hlane] at h
      | some l =>
        simp only [hlane, Bool.false_eq_true, if_false, Option.some.injEq] at h
        subst h
        exact ⟨rfl, rfl, rfl, rfl, hp, hb, hlane, by simpa using hl, rfl⟩
  · exact absurd h (by simp)

end Sys2Proof.Machine
end

