-- ==== Sys2Proof/Laws/Engine.lean ====
section
/-! SUPPORT. What the issue of an engine command can come to, said once (engFn, descAt). -/

namespace Sys2Proof.Machine

/-- In a reverse replay an engine command node is not supported (R251). -/
theorem engFn_rev {w : MU} {base : Word} {e : Env} {d : Device} {free : Bool} {room : List Word → Bool}
    {put : List Word → Comp → Device → Word × Device} (h : e.pass.rev = true) :
    engFn w base e d free room put = (.poison clsAdj 0, d) := by simp only [engFn, h, if_true]

/-- Without a free place the node waits. -/
theorem engFn_full {w : MU} {base : Word} {e : Env} {d : Device} {free : Bool} {room : List Word → Bool}
    {put : List Word → Comp → Device → Word × Device} (h : e.pass.rev = false) (hf : free = false) :
    engFn w base e d free room put = (.wait, d) := by
  simp only [engFn, h, hf, if_false, Bool.not_false, if_true, Bool.false_eq_true]

/-- A descriptor that cannot be read gives the node its fault (R306). -/
theorem engFn_desc {w : MU} {base : Word} {e : Env} {d d' : Device} {free : Bool} {room : List Word → Bool}
    {put : List Word → Comp → Device → Word × Device} {o : Out} (h : e.pass.rev = false) (hf : free = true)
    (hd : descAt d e w base = (.error o, d')) : engFn w base e d free room put = (o, d') := by
  simp only [engFn, h, hf, hd, if_false, Bool.not_true, Bool.false_eq_true]

/-- Without the room that its descriptor asks for the node waits. -/
theorem engFn_room {w : MU} {base : Word} {e : Env} {d d' : Device} {free : Bool} {room : List Word → Bool}
    {put : List Word → Comp → Device → Word × Device} {ws : List Word} (h : e.pass.rev = false) (hf : free = true)
    (hd : descAt d e w base = (.ok ws, d')) (hr : room ws = false) :
    engFn w base e d free room put = (.wait, d') := by
  simp only [engFn, h, hf, hd, hr, if_false, Bool.not_true, Bool.not_false, if_true, Bool.false_eq_true]

/-- A completion word that fails its checks gives the node its fault (R23, R24). -/
theorem engFn_comp {w : MU} {base : Word} {e : Env} {d d' d'' : Device} {free : Bool} {room : List Word → Bool}
    {put : List Word → Comp → Device → Word × Device} {ws : List Word} {o : Out} (h : e.pass.rev = false)
    (hf : free = true) (hd : descAt d e w base = (.ok ws, d')) (hr : room ws = true)
    (hc : compCheck d' e (ws.getD 6 0) (ws.getD 7 0) = (.error o, d'')) :
    engFn w base e d free room put = (o, d'') := by
  simp only [engFn, h, hf, hd, hr, hc, if_false, Bool.not_true, Bool.false_eq_true]

/-- Otherwise the fork publishes at device scope and the command is handed over (R15, R306). -/
theorem engFn_ok {w : MU} {base : Word} {e : Env} {d d' d'' : Device} {free : Bool} {room : List Word → Bool}
    {put : List Word → Comp → Device → Word × Device} {ws : List Word} {k : Comp} (h : e.pass.rev = false)
    (hf : free = true) (hd : descAt d e w base = (.ok ws, d')) (hr : room ws = true)
    (hc : compCheck d' e (ws.getD 6 0) (ws.getD 7 0) = (.ok k, d'')) :
    engFn w base e d free room put =
      (.val (put ws k (publish d'' e.core 3)).1 Fx.none, (put ws k (publish d'' e.core 3)).2) := by
  simp only [engFn, h, hf, hd, hr, hc, if_false, Bool.not_true, Bool.false_eq_true]

/-- A descriptor at a good address is read as it stands in the scratchpad, and the device does not change. -/
theorem descAt_ok {d : Device} {e : Env} {w : MU} {base : Word}
    (hr : (base.toNat + (w.off.signExtend 64).toNat) % 2 ^ 64 ≤ 0x17FFC0)
    (ha : (base.toNat + (w.off.signExtend 64).toNat) % 2 ^ 64 % 64 = 0)
    (hb : scratchBadAt d e.core ((base.toNat + (w.off.signExtend 64).toNat) % 2 ^ 64) 64 = false) :
    descAt d e w base =
      (.ok (wordsOf 8 (scratchRead d e.core ((base.toNat + (w.off.signExtend 64).toNat) % 2 ^ 64) 64)), d) := by
  simp only [descAt, Nat.not_lt.mpr hr, ha, hb, if_false, ne_eq, not_true_eq_false, Bool.false_eq_true]

/-- A descriptor outside the scratchpad is BOUNDS. -/
theorem descAt_bounds {d : Device} {e : Env} {w : MU} {base : Word}
    (h : 0x17FFC0 < (base.toNat + (w.off.signExtend 64).toNat) % 2 ^ 64) :
    descAt d e w base = (.error (.poison clsBounds
      (addrWord ((base.toNat + (w.off.signExtend 64).toNat) % 2 ^ 64))), d) := by simp only [descAt, if_pos h]

/-- A misaligned descriptor is ALIGN. -/
theorem descAt_align {d : Device} {e : Env} {w : MU} {base : Word}
    (h : (base.toNat + (w.off.signExtend 64).toNat) % 2 ^ 64 ≤ 0x17FFC0)
    (ha : (base.toNat + (w.off.signExtend 64).toNat) % 2 ^ 64 % 64 ≠ 0) :
    descAt d e w base = (.error (.poison clsAlign
      (addrWord ((base.toNat + (w.off.signExtend 64).toNat) % 2 ^ 64))), d) := by
  simp only [descAt, if_neg (Nat.not_lt.mpr h), if_pos ha]

/-- A descriptor on a line with uncorrectable data is ECC. -/
theorem descAt_ecc {d : Device} {e : Env} {w : MU} {base : Word}
    (h : (base.toNat + (w.off.signExtend 64).toNat) % 2 ^ 64 ≤ 0x17FFC0)
    (ha : (base.toNat + (w.off.signExtend 64).toNat) % 2 ^ 64 % 64 = 0)
    (hb : scratchBadAt d e.core ((base.toNat + (w.off.signExtend 64).toNat) % 2 ^ 64) 64 = true) :
    descAt d e w base = (.error (.poison clsEcc
      (addrWord ((base.toNat + (w.off.signExtend 64).toNat) % 2 ^ 64))), d) := by
  simp only [descAt, if_neg (Nat.not_lt.mpr h), ha, if_pos hb, ne_eq, not_true_eq_false, if_false]

end Sys2Proof.Machine
end

