-- ==== Sys2Proof/Laws/Memory.lean ====
section
/-! SUPPORT. The operations on memory: each keeps every store in its canonical form (Device.sound), and what reads as
what after a write (Machine/Memory.lean). -/

namespace Sys2Proof.Machine

/-! ## Lists that are changed at one place -/

theorem all_updAt {α : Type} {p : α → Bool} {f : α → α} (hf : ∀ x, p x = true → p (f x) = true) :
    ∀ (l : List α) (n : Nat), l.all p = true → (updAt l n f).all p = true
  | [], _, h => h
  | x :: t, 0, h => by
    simp only [List.all_cons, Bool.and_eq_true] at h
    simp only [updAt, List.all_cons, Bool.and_eq_true]
    exact ⟨hf x h.1, h.2⟩
  | x :: t, n + 1, h => by
    simp only [List.all_cons, Bool.and_eq_true] at h
    simp only [updAt, List.all_cons, Bool.and_eq_true]
    exact ⟨h.1, all_updAt hf t n h.2⟩

/-- What each step of a fold keeps, the fold keeps. -/
theorem foldl_keeps {α β : Type} {p : β → Prop} {f : β → α → β} (hf : ∀ b a, p b → p (f b a)) :
    ∀ (l : List α) (b : β), p b → p (l.foldl f b)
  | [], _, h => h
  | a :: t, b, h => foldl_keeps hf t (f b a) (hf b a h)

/-! ## What a sound device is made of -/

theorem sound_iff (d : Device) : d.sound = true ↔ d.cores.length = 384 ∧ d.clusters.length = 48 ∧ d.mem.wf = true ∧
    d.cores.all Core.wf = true ∧ (d.dist.launches.all fun l => l.2.saved.all fun x => x.2.wf) = true := by
  simp only [Device.sound, Bool.and_eq_true, beq_iff_eq, and_assoc]

theorem sound_mem {d : Device} (h : d.sound = true) : d.mem.wf = true := ((sound_iff d).mp h).2.2.1

theorem sound_cores {d : Device} (h : d.sound = true) : d.cores.length = 384 := ((sound_iff d).mp h).1

theorem coreReset_wf : Core.wf Core.reset = true := rfl

/-- Every core of a sound device is sound, one that the part does not have among them. -/
theorem sound_core {d : Device} (h : d.sound = true) (n : Nat) : (d.core n).wf = true := by
  unfold Device.core
  rw [List.getD_eq_getElem?_getD]
  cases hc : d.cores[n]? with
  | none => exact coreReset_wf
  | some c => exact List.all_eq_true.mp ((sound_iff d).mp h).2.2.2.1 c (List.mem_of_getElem? hc)

theorem coreWf_iff (c : Core) : c.wf = true ↔ c.scratch.wf = true ∧ c.ages.wf = true ∧ c.mx.acc.wf = true ∧
    (c.threads.all fun t => t.live.wf) = true := by simp only [Core.wf, Bool.and_eq_true, and_assoc]

/-- A core stays sound where only fields change that hold no store. -/
theorem coreWf_of {c c' : Core} (h : c.wf = true) (hs : c'.scratch = c.scratch) (ha : c'.ages = c.ages)
    (hm : c'.mx.acc = c.mx.acc) (ht : c'.threads = c.threads) : c'.wf = true := by
  rw [coreWf_iff, hs, ha, hm, ht]
  exact (coreWf_iff c).mp h

/-- A sound device stays so where only fields change that hold no store. -/
theorem sound_of {d d' : Device} (h : d.sound = true) (hm : d'.mem.home = d.mem.home) (hc : d'.cores = d.cores)
    (hk : d'.clusters.length = d.clusters.length) (hl : d'.dist.launches = d.dist.launches) : d'.sound = true := by
  have h' := (sound_iff d).mp h
  refine (sound_iff d').mpr ⟨hc ▸ h'.1, hk ▸ h'.2.1, ?_, hc ▸ h'.2.2.2.1, hl ▸ h'.2.2.2.2⟩
  unfold Mem.wf
  rw [hm]
  exact h'.2.2.1

/-- Changing a core by a function that keeps its stores canonical. -/
theorem sound_modCore {d : Device} {f : Core → Core} (h : d.sound = true) (n : Nat)
    (hf : ∀ c, c.wf = true → (f c).wf = true) : (d.modCore n f).sound = true := by
  have h' := (sound_iff d).mp h
  refine (sound_iff _).mpr ⟨?_, h'.2.1, h'.2.2.1, all_updAt hf d.cores n h'.2.2.2.1, h'.2.2.2.2⟩
  simpa using h'.1

theorem sound_modCluster {d : Device} {f : Cluster → Cluster} (h : d.sound = true) (n : Nat) :
    (d.modCluster n f).sound = true := sound_of h rfl rfl (by simp) rfl

theorem sound_draw {d : Device} (h : d.sound = true) : d.draw.2.sound = true := sound_of h rfl rfl rfl rfl

/-! ## Writes at home -/

theorem Cells.wf_puts {w : Nat} {α : Type} (ps : List (Nat × BitVec w × α)) : ∀ {m : Cells w}, m.wf = true →
    Cells.wf (ps.foldl (fun m p => m.set p.1 p.2.1) m) = true := by
  induction ps with
  | nil => intro m h; exact h
  | cons p ps ih => intro m h; exact ih (Cells.wf_set p.1 p.2.1 h)

theorem sound_homePut {d : Device} (h : d.sound = true) (cl : Nat) (ps : List (Nat × Byte × Option Nat)) :
    (homePut d cl ps).sound = true := by
  have h' := (sound_iff d).mp h
  refine (sound_iff _).mpr ⟨h'.1, ?_, Cells.wf_puts ps h'.2.2.1, h'.2.2.2⟩
  simpa [homePut, dropPoints] using h'.2.1

theorem sound_homeWrite (bs : List Byte) {d : Device} (a : Nat) (h : d.sound = true) :
    (homeWrite d a bs).sound = true := sound_homePut h 0 _

theorem sound_homeWriteWord {d : Device} (h : d.sound = true) (a : Nat) (v : Word) :
    (homeWriteWord d a v).sound = true := sound_homeWrite _ a h

theorem sound_engWrite {d : Device} (h : d.sound = true) (a : Nat) (bs : List Byte) : (engWrite d a bs).sound = true :=
  sound_of (sound_homeWrite bs a h) rfl rfl rfl rfl

theorem sound_writePieces (ps : List (Nat × Nat)) : ∀ {d : Device} (bs : List Byte), d.sound = true →
    (writePieces d ps bs).sound = true := by
  induction ps with
  | nil => intro d bs h; exact h
  | cons p ps ih => intro d bs h; exact ih (bs.drop p.2) (sound_engWrite h p.1 (bs.take p.2))

theorem sound_rootWrite {d d' : Device} (h : d.sound = true) {root : Nat} {priv : Bool} {va : Nat} {bs : List Byte}
    (hw : rootWrite d root priv va bs = .ok d') : d'.sound = true := by
  unfold rootWrite at hw
  split at hw
  · cases hw
  · cases hw; exact sound_writePieces _ bs h

/-! ## Writes at a cluster's point and in a core's cache -/

theorem sound_pointPut {d : Device} (h : d.sound = true) (cl : Nat) (ps : List (Nat × Byte)) :
    (pointPut d cl ps).sound = true := sound_modCluster (sound_of h rfl rfl rfl rfl) cl

/-- Changing a core's cache changes no store. -/
theorem sound_modCache {d : Device} (h : d.sound = true) (core : Nat) (f : Cache → Cache) :
    (modCache d core f).sound = true := sound_modCore h core fun _ hc => coreWf_of hc rfl rfl rfl rfl

theorem sound_coreWrite {d : Device} (h : d.sound = true) (core a : Nat) (bs : List Byte) :
    (coreWrite d core a bs).sound = true := sound_modCache h core _

theorem sound_raiseFloors {d : Device} (h : d.sound = true) (core : Nat) (as : List Nat) :
    (raiseFloors d core as).sound = true := sound_modCache h core _

theorem sound_dropOwn {d : Device} (h : d.sound = true) (core a n : Nat) : (dropOwn d core a n).sound = true :=
  sound_modCache h core _

theorem sound_refresh {d : Device} (h : d.sound = true) (core scope : Nat) : (refresh d core scope).sound = true :=
  sound_modCache h core _

/-! ## Writes into scratchpads -/

theorem sound_scratchWrite {d : Device} (h : d.sound = true) (core a : Nat) (bs : List Byte) :
    (scratchWrite d core a bs).sound = true :=
  sound_modCore h core fun c hc => by
    rw [coreWf_iff] at hc ⊢
    exact ⟨Cells.wf_write bs a hc.1, hc.2⟩

theorem sound_engScratchWrite {d : Device} (h : d.sound = true) (core a : Nat) (bs : List Byte) :
    (engScratchWrite d core a bs).sound = true := sound_modCore (sound_scratchWrite h core a bs) core fun _ hc => coreWf_of hc rfl rfl rfl rfl

/-! ## Publication -/

theorem sound_publishWord {d : Device} (h : d.sound = true) (core scope : Nat) (w : PubWord) :
    (publishWord d core scope w).sound = true := by
  unfold publishWord
  split
  · split
    · exact sound_raiseFloors (sound_modCache (sound_pointPut h _ _) core _) core _
    · exact sound_raiseFloors (sound_homePut h _ _) core _
  · exact foldl_keeps (p := fun d : Device => d.sound = true) (fun d e hd => sound_scratchWrite hd _ e.1 [e.2]) _ d h

theorem sound_publishWords {d : Device} (h : d.sound = true) (core scope : Nat) (ws : List PubWord) :
    (publishWords d core scope ws).sound = true :=
  foldl_keeps (p := fun d : Device => d.sound = true) (fun _ w hd => sound_publishWord hd core scope w) ws d h

theorem sound_finishPub {d : Device} (h : d.sound = true) (core : Nat) : (finishPub d core).sound = true := by
  unfold finishPub
  split
  · exact h
  · exact sound_publishWords (sound_modCache h core _) core _ _

theorem sound_publish {d : Device} (h : d.sound = true) (core scope : Nat) : (publish d core scope).sound = true := by
  unfold publish
  split
  · exact sound_publishWords (sound_modCache (sound_finishPub h core) core _) core scope _
  · exact h

theorem sound_completePub {d : Device} (h : d.sound = true) (core lane node scope : Nat) :
    (completePub d core lane node scope).sound = true := by
  unfold completePub
  split
  · split
    · exact sound_finishPub h core
    · exact sound_publish h core scope
  · exact sound_publish h core scope

/-! ## What a core reads and writes -/

theorem sound_coreRead {d : Device} (h : d.sound = true) (core : Nat) (seen : Tbl Nat) (a n : Nat) :
    (coreRead d core seen a n).2.2.sound = true := by
  unfold coreRead
  simp only
  split
  · exact sound_draw h
  · exact h

theorem sound_atomicRead {d : Device} (h : d.sound = true) (core scope : Nat) (seen : Tbl Nat) (a n : Nat) :
    (atomicRead d core scope seen a n).2.2.sound = true := by
  unfold atomicRead
  split
  · exact sound_coreRead h core seen a n
  · exact sound_raiseFloors h core _
  · exact sound_raiseFloors h core _

theorem sound_atomicWrite {d : Device} (h : d.sound = true) (core scope a : Nat) (bs : List Byte) :
    (atomicWrite d core scope a bs).sound = true := by
  unfold atomicWrite
  split
  · exact sound_coreWrite h core a bs
  · exact sound_publishWord (sound_dropOwn h core a _) core 2 _
  · exact sound_raiseFloors (sound_homeWrite bs a (sound_dropOwn h core a _)) core _

/-! ## Translation -/

theorem sound_setEntry {d : Device} (h : d.sound = true) (core : Nat) (via : Via) (x : Xl) :
    (setEntry d core via x).sound = true := by
  unfold setEntry
  split
  · exact h
  · exact sound_modCache h core _
  · exact sound_modCore h core fun _ hc => coreWf_of hc rfl rfl rfl rfl

theorem sound_useEntry {d : Device} (h : d.sound = true) (w : Option Word) (x : Xl) : (useEntry d w x).2.sound = true := by
  unfold useEntry
  split
  · exact h
  · exact sound_draw h

theorem sound_cacheXl {d : Device} (h : d.sound = true) (core : Nat) (x : Xl) : (cacheXl d core x).sound = true := by
  unfold cacheXl
  dsimp only
  split
  · exact sound_modCache h core _
  · exact sound_modCache (sound_draw h) core _

theorem sound_keepWalk {d : Device} (h : d.sound = true) (core : Nat) (via : Via) (root asid va : Nat) (w : Option Word) :
    (keepWalk d core via root asid va w).sound = true := by
  unfold keepWalk
  split
  · exact h
  · exact sound_setEntry (sound_cacheXl h core _) core via _

theorem sound_xlateCached {d : Device} (h : d.sound = true) (core : Nat) (via : Via) (root asid va : Nat)
    (w : Option Word) : (xlateCached d core via root asid va w).2.sound = true := by
  unfold xlateCached
  split
  · exact sound_keepWalk h core via root asid va w
  · rename_i x _
    have hu := sound_useEntry h w x
    split
    · rename_i he; rw [he] at hu; exact sound_setEntry hu core via x
    · rename_i he; rw [he] at hu; exact sound_keepWalk hu core via root asid va w

theorem sound_xlate {d : Device} (h : d.sound = true) (core : Nat) (via : Via) (va : Nat) :
    (xlate d core via va).2.sound = true := by
  unfold xlate
  dsimp only
  split
  · exact sound_xlateCached h core via _ _ _ _
  · rename_i x _
    have hu := sound_useEntry h (walk d (d.core core).regs.xlroot.toNat va) x
    split
    · rename_i he; rw [he] at hu; exact hu
    · rename_i he; rw [he] at hu; exact sound_xlateCached hu core via _ _ _ _

theorem sound_accessVia {d : Device} (h : d.sound = true) (core : Nat) (via : Via) (va : Nat) (priv write : Bool) :
    (accessVia d core via va priv write).2.sound = true := by
  have hx := sound_xlate h core via va
  unfold accessVia
  split
  · exact h
  · split
    · rename_i hd; rw [hd] at hx; exact hx
    · rename_i hd; rw [hd] at hx; exact hx

theorem sound_access {d : Device} (h : d.sound = true) (core va : Nat) (priv write : Bool) :
    (access d core va priv write).2.sound = true := sound_accessVia h core .none va priv write

theorem sound_reachVia {d : Device} (h : d.sound = true) (core : Nat) (via : Via) (va n : Nat) (priv write : Bool) :
    (reachVia d core via va n priv write).2.sound = true := by
  have ha := sound_accessVia h core via va priv write
  unfold reachVia
  split
  · rename_i hd; rw [hd] at ha; exact ha
  · rename_i hd
    rw [hd] at ha
    split <;> exact ha

theorem sound_vread (fuel : Nat) : ∀ {d : Device} (core : Nat) (via : Via) (priv : Bool) (va n : Nat), d.sound = true →
    (vread d core via priv fuel va n).2.sound = true := by
  induction fuel with
  | zero => intro d core via priv va n h; exact h
  | succ k ih =>
    intro d core via priv va n h
    unfold vread
    simp only
    split
    · exact h
    · have ha := sound_reachVia h core via va (min n (4096 - va % 4096)) priv false
      split
      · rename_i hd; rw [hd] at ha; exact ha
      · rename_i x d' hd
        rw [hd] at ha
        split
        · exact ha
        · have hv := ih core via priv (va + min n (4096 - va % 4096)) (n - min n (4096 - va % 4096)) ha
          split
          · rename_i he; rw [he] at hv; exact hv
          · rename_i he; rw [he] at hv; exact hv

theorem sound_engReadVia {d : Device} (h : d.sound = true) (core : Nat) (via : Via) (priv : Bool) (va n : Nat) :
    (engReadVia d core via priv va n).2.sound = true := sound_vread _ core via priv va n h

theorem sound_engRead {d : Device} (h : d.sound = true) (core : Nat) (priv : Bool) (va n : Nat) :
    (engRead d core priv va n).2.sound = true := sound_engReadVia h core .none priv va n

theorem sound_vplanVia (fuel : Nat) : ∀ {d : Device} (core : Nat) (via : Via) (priv : Bool) (va n : Nat),
    d.sound = true → (vplanVia d core via priv fuel va n).2.sound = true := by
  induction fuel with
  | zero => intro d core via priv va n h; exact h
  | succ k ih =>
    intro d core via priv va n h
    unfold vplanVia
    simp only
    split
    · exact h
    · have ha := sound_reachVia h core via va (min n (4096 - va % 4096)) priv true
      split
      · rename_i hd; rw [hd] at ha; exact ha
      · rename_i x d' hd
        rw [hd] at ha
        have hv := ih core via priv (va + min n (4096 - va % 4096)) (n - min n (4096 - va % 4096)) ha
        split
        · rename_i he; rw [he] at hv; exact hv
        · rename_i he; rw [he] at hv; exact hv

theorem sound_engWriteV {d : Device} (h : d.sound = true) (core : Nat) (priv : Bool) (va : Nat) (bs : List Byte) :
    (engWriteV d core priv va bs).2.sound = true := by
  have hp := sound_vplanVia (bs.length / 4096 + 2) core .none priv va bs.length h
  unfold engWriteV vplan
  split
  · rename_i he; rw [he] at hp; exact hp
  · rename_i he; rw [he] at hp; exact sound_writePieces _ bs hp

/-! ## Reset -/

/-- The memory of the machine right after reset is canonical. -/
theorem reset_memory_wf : Memory.wf State.reset = true := by decide +kernel

/-! ## Reads after writes -/

/-- A list of cells written one by one is a list written at its first address. -/
theorem Cells.puts_span {w : Nat} (bs : List (BitVec w)) : ∀ (m : Cells w) (a : Nat),
    ((span a bs.length).zip bs).foldl (fun m p => m.set p.1 p.2) m = m.write a bs := by
  induction bs with
  | nil => intros; rfl
  | cons b bs ih =>
    intro m a
    have hs : span a (b :: bs).length = a :: span (a + 1) bs.length := by
      simp [span, List.range_succ_eq_map, Nat.add_right_comm, Function.comp_def, Nat.add_assoc]
    rw [hs]
    exact ih (m.set a b) (a + 1)

@[simp] theorem homeWrite_home (d : Device) (a : Nat) (bs : List Byte) :
    (homeWrite d a bs).mem.home = d.mem.home.write a bs := by
  simp only [homeWrite, homePut, newBytes, List.foldl_map]
  exact Cells.puts_span bs d.mem.home a

/-- A write at home reads back. -/
theorem homeRead_homeWrite (bs : List Byte) (d : Device) (a : Nat) (h : d.mem.wf = true) :
    homeRead (homeWrite d a bs) a bs.length = bs := by
  unfold homeRead
  rw [homeWrite_home]
  exact Cells.read_write bs a h

/-- A write at home leaves every byte outside it alone. -/
theorem homeByte_homeWrite (bs : List Byte) (d : Device) (a b : Nat) (h : d.mem.wf = true)
    (hb : b < a ∨ a + bs.length ≤ b) : homeByte (homeWrite d a bs) b = homeByte d b := by
  unfold homeByte
  rw [homeWrite_home]
  exact Cells.get_write_other bs a b h hb

/-- A write into a core's scratchpad reads back. -/
theorem scratchRead_scratchWrite (d : Device) (core a : Nat) (bs : List Byte) (hc : core < d.cores.length)
    (h : (d.core core).scratch.wf = true) : scratchRead (scratchWrite d core a bs) core a bs.length = bs := by
  unfold scratchRead scratchWrite
  rw [core_modCore_same d core _ hc]
  exact Cells.read_write bs a h

/-- A write into a core's scratchpad leaves the other bytes of it alone, and every other core. -/
theorem scratch_scratchWrite (d : Device) (core a b : Nat) (bs : List Byte) (hc : core < d.cores.length)
    (h : (d.core core).scratch.wf = true) (hb : b < a ∨ a + bs.length ≤ b) :
    ((scratchWrite d core a bs).core core).scratch.get b = (d.core core).scratch.get b := by
  unfold scratchWrite
  rw [core_modCore_same d core _ hc]
  exact Cells.get_write_other bs a b h hb

theorem core_scratchWrite_other (d : Device) (core m a : Nat) (bs : List Byte) (h : m ≠ core) :
    (scratchWrite d core a bs).core m = d.core m := core_modCore_other d core m _ h

end Sys2Proof.Machine
end

