-- ==== Sys2Proof/Laws/Turns.lean ====
section
/-! SUPPORT. What a turn, an exit and a microword come to, said once (Machine/Turns.lean, Exits.lean, Meridian.lean,
Ops.lean). -/

namespace Sys2Proof.Machine

/-! ## Turns -/

/-- A step takes the first turn of the agenda. -/
theorem step_cons {s : State} {t : Turn} {ts : List Turn} (h : s.agenda = t :: ts) :
    step s = runTurn t { s with agenda := ts } := by
  simp [step, nextTurn, h]

/-- In service a turn of a core of the part is taken by the core. -/
theorem runTurn_core {t : Turn} {c : Nat} (ht : turnCore t = some c) (hc : c < 384) {s : State}
    (hs : serving s.dev = true) : runTurn t s = coreTurn t s := by
  cases t <;> simp only [turnCore, reduceCtorEq, Option.some.injEq] at ht <;> subst ht <;>
    simp only [runTurn, turnCore, hs, Nat.not_le.mpr hc, if_true, if_false]

/-- Out of service a core takes no turn (R476). -/
theorem runTurn_failed {t : Turn} {c : Nat} (ht : turnCore t = some c) (hc : c < 384) {s : State}
    (hs : serving s.dev = false) : runTurn t s = .next s := by
  cases t <;> simp only [turnCore, reduceCtorEq, Option.some.injEq] at ht <;> subst ht <;>
    simp only [runTurn, turnCore, hs, Nat.not_le.mpr hc, Bool.false_eq_true, if_false]

/-- A turn that names no core of the part stops. -/
theorem runTurn_noCore {t : Turn} {c : Nat} (ht : turnCore t = some c) (hc : 384 ≤ c) (s : State) :
    runTurn t s = .fault (.noSuchCore c) := by
  cases t <;> simp_all [runTurn, turnCore]

/-- In service the turn of an event is the execution of the event, and that of one of the host's or of bring-up is so
at any time. -/
theorem runTurn_event {i : Instr} (h : wordOf i = .event) {s : State} (hs : serving s.dev = true ∨ outsideService i = true) :
    runTurn (.event i) s = exec i s := by
  rcases hs with hs | hs <;> simp [runTurn, isEvent, h, hs]

/-- An instruction that has a word is no event. -/
theorem runTurn_noEvent {i : Instr} (h : wordOf i ≠ .event) (s : State) : runTurn (.event i) s = .next s := by
  have : (wordOf i == WordOf.event) = false := by simpa using h
  simp [runTurn, isEvent, this]

/-- A core without a pass, or without an active plane, fires nothing. -/
theorem coreTurn_fire_idle {s : State} {core node : Nat} (h : nodeTurn s.dev core node = none) :
    coreTurn (.fire core node) s = .next s := by
  simp [coreTurn, h]

/-- The node that a turn fires is executed at its core, lane and node, as the row it stands for. -/
theorem coreTurn_fire {s : State} {core node lane : Nat} {i : Instr} (h : nodeTurn s.dev core node = some (lane, i)) :
    coreTurn (.fire core node) s = runNode i core lane node s := by
  simp [coreTurn, h]

/-! ## Exits -/

/-- The oldest complete beat of a forward pass retires lane by lane, and then the pass goes on or ends. -/
theorem retireBeat_ready {d : Device} {core : Nat} {p : Pass} {pl : Plane} (hp : (d.core core).pass = some p)
    (ha : (d.core core).active = some pl) (hr : p.rev = false) (hb : beatReady pl.words p = true) (now : Nat) (x : EX)
    (k : Action) :
    retireBeat d now core x k =
      beatDone (retireLanes d now core x k (beatLanes p (nextBeat p))) core
        ((beatLanes p (nextBeat p)).filterMap fun i => (p.lanes[i]?).map (·.tid)) := by
  simp [retireBeat, hp, ha, hr, hb]

/-- A beat that is not complete does not retire. -/
theorem retireBeat_waits {d : Device} {core : Nat} {p : Pass} {pl : Plane} (hp : (d.core core).pass = some p)
    (ha : (d.core core).active = some pl) (hb : beatReady pl.words p = false) (now : Nat) (x : EX) (k : Action) :
    retireBeat d now core x k = d := by
  simp [retireBeat, hp, ha, hb]

/-! ## Taking a fault and resuming -/

/-- The thread that a fault is taken for: its status names the record's block, and DONE and REPLAY are the record's;
everything else of it is as writing the record left it. -/
theorem takeFault_eq (d : Device) (core tid : Nat) (halted : Bool) (r : Record) :
    takeFault d core tid halted r = modThread (writeRecord d core tid r) core tid fun t =>
      { t with status := if halted then .halted r.block else .faulted r.block, done := r.done, replay := r.replay
               pend := r.pend, reported := false } := rfl

/-- A thread that is neither FAULTED nor HALTED is not resumed. -/
theorem resumeThread_other {d : Device} {core tid : Nat}
    (h : ∀ b, (threadOf d core tid).status ≠ .faulted b ∧ (threadOf d core tid).status ≠ .halted b)
    (r : Option Nat) : resumeThread d core tid r = d := by
  cases hs : (threadOf d core tid).status with
  | faulted b => exact absurd hs (h b).1
  | halted b => exact absurd hs (h b).2
  | _ => simp [resumeThread, hs]

/-! ## Microwords -/

/-- A job at its boundary, with its posted writes drained, executes the microword: what it answers is done with the
job. -/
theorem microRun_at {d : Device} {core : Nat} {j : Job} (hj : (d.core core).mer.job = some j) (hs : j.stop = none)
    (hf : (d.core core).frozen = false) (hd : j.dbgStop = false ∨ j.wait ≠ none) (now : Nat) (fn : MicroFn) :
    microRun d now core fn =
      (let p := drainPosted core j.posted [] d
       settleSaves (match fn core now { j with posted := p.1 } p.2 with
       | (.next j, d) => setJob d core { j with upc := j.upc + 1 }
       | (.goto j u, d) => setJob d core { j with upc := u }
       | (.stay j, d) => setJob d core j
       | (.stop j cause code detail, d) => stopJob d core j cause code detail
       | (.halt j code, d) => endJob d now core j code) now core) := by
  have : (j.dbgStop && j.wait.isNone) = false := by
    rcases hd with h | h
    · simp [h]
    · cases hw : j.wait <;> simp_all
  simp only [microRun, hj, hs, hf, this, Option.isSome_none, Bool.or_self, Bool.false_eq_true, if_false]
    <;> rfl

/-- Without a job that runs, a microword changes nothing. -/
theorem microRun_idle {d : Device} {core : Nat} (h : (d.core core).mer.job = none ∨ (d.core core).frozen = true ∨
    ∃ j, (d.core core).mer.job = some j ∧ j.stop ≠ none) (now : Nat) (fn : MicroFn) : microRun d now core fn = d := by
  cases hj : (d.core core).mer.job with
  | none => simp [microRun, hj]
  | some j =>
    rcases h with h | h | ⟨k, hk, hs⟩
    · simp_all
    · simp [microRun, hj, h]
    · have : k = j := by simp_all
      subst this
      cases hq : k.stop <;> simp_all [microRun]

end Sys2Proof.Machine
end

