-- ==== Sys2Proof/Tests/Slice0.lean ====
section
/-! SUPPORT. The model's own tests: words decoded, ill-formed terms refused, results from the spec's rules and
examples, and, for the statements of Certificates/Slice0, a state and operands that meet the hypotheses together
(test_hyps_…). -/

namespace Sys2Proof.Tests

open Sys2Proof Sys2Proof.Machine Sys2Proof.Claim

set_option Elab.async false

/-! ## Small states -/

/-- The state with core 0 replaced by f of it. -/
def withCore (s : State) (f : Core → Core) : State := { s with dev := s.dev.modCore 0 f }

/-- One instruction placed for the next step, with three live slots of its thread set. -/
def placed (nbits w : Nat) (x y z : Word) : State :=
  let s := State.reset.withFetchWord nbits w
  { s with dev := modThread s.dev 0 0 fun t => { t with live := ((t.live.set 0 x).set 1 y).set 2 z } }

/-- Tables from 0x1000 on that map the first 1 GiB onto itself for reading and writing (R42, R43). -/
def tables : Cells 8 := [(0x1000, 0x01), (0x1001, 0x20), (0x2000, 0x01), (0x2001, 0x30), (0x3000, 0xC7)]

/-- The bytes of a list of words from an address on. -/
def cellsOf (a : Nat) (ws : List Word) : Cells 8 :=
  ((bytesOfWords ws).zipIdx a).filterMap fun x => if x.1 = 0 then none else some (x.2, x.1)

/-- The state with those tables, further bytes of memory behind them, and core 0 translating by them. -/
def mapped (more : Cells 8) (s : State) : State :=
  let s := withCore s fun c => { c with regs := { c.regs with xlroot := 0x1000 } }
  { s with dev := { s.dev with mem := { s.dev.mem with home := tables ++ more } } }

/-- A memory, engine or system node word placed, under the tables. -/
def muAt (opc : Nat) (w : MU) (more : Cells 8) (x y z : Word) : State := mapped more (placed 128 (packMU opc w) x y z)

/-- May the node at the focus fire on operand values, and do these meet p (Ready, as a Bool)? -/
def onReady (s : State) (w : NodeWord) (p : Env → Word → Word → Word → Bool) : Bool :=
  match envOf s.dev s.clock s.focus with
  | none => false
  | some e => mayFire e w && !hasDone e w && !rereadsFadd e w &&
    (match argsOf s.dev e w with
      | .values a b c => p e a b c
      | _ => false)

/-- onReady says Ready. -/
theorem ready_of_onReady {s : State} {w : NodeWord} {p : Env → Word → Word → Word → Bool} (h : onReady s w p = true) :
    ∃ e a b c, Ready s w e a b c ∧ p e a b c = true := by
  unfold onReady at h
  split at h
  · cases h
  · rename_i e he
    simp only [Bool.and_eq_true, Bool.not_eq_true'] at h
    obtain ⟨⟨⟨h1, h2⟩, h3⟩, h4⟩ := h
    split at h4
    · rename_i a b c hv
      exact ⟨e, a, b, c, ⟨⟨he, h1, h2⟩, hv, h3⟩, h4⟩
    · cases h4

/-- May the node at the focus fire (Fires, as a Bool), and does the environment meet p? -/
def onFires (s : State) (w : NodeWord) (p : Env → Bool) : Bool :=
  match envOf s.dev s.clock s.focus with
  | none => false
  | some e => mayFire e w && !hasDone e w && p e

/-- onFires says Fires. -/
theorem fires_of_onFires {s : State} {w : NodeWord} {p : Env → Bool} (h : onFires s w p = true) :
    ∃ e, Fires s w e ∧ p e = true := by
  unfold onFires at h
  split at h
  · cases h
  · rename_i e he
    simp only [Bool.and_eq_true, Bool.not_eq_true'] at h
    exact ⟨e, ⟨he, h.1.1, h.1.2⟩, h.2⟩

/-- Does a check of the answer hold, where the first part of the result is one? -/
def onOk {α β γ : Type} (r : Except α β × γ) (p : β → γ → Bool) : Bool :=
  match r with
  | (.ok x, d) => p x d
  | _ => false

/-- onOk says that the answer is there. -/
theorem ok_of_onOk {α β γ : Type} {r : Except α β × γ} {p : β → γ → Bool} (h : onOk r p = true) :
    ∃ x d, r = (.ok x, d) ∧ p x d = true := by
  obtain ⟨x | x, d⟩ := r
  · cases h
  · exact ⟨x, d, rfl, h⟩

/-- What the device after a step meets, where it goes on. -/
def afterStep (o : Host.Outcome State Fault Refusal) (p : Device → Bool) : Bool :=
  match o with
  | .next t => p t.dev
  | _ => false

/-- The token of node 0 for thread 0 of core 0 after the step of a placed word. -/
def tokenOf (s : State) : Option Token :=
  match step s with
  | .next t => (laneAt t.dev 0 0).bind fun l => l.tokens.find 0
  | _ => none

/-! ## Words of the spec, decoded (04_encoding, and the examples of the instructions' own files) -/

/-- 04_encoding: steer of the worked block. -/
theorem test_decode_steer : decode .cu 0x040002F0FFFF0064 = .ok (.steer ⟨0, 0, 0x02, 0xF0, 0xFF, 0xFF, 0x0064⟩) := rfl

/-- R98, R186. -/
theorem test_decode_merge : decode .cu 0x05000305FF020000 = .ok (.merge ⟨0, 0, 0x03, 0x05, 0xFF, 0x02, 0⟩) := rfl

theorem test_decode_not_pred : decode .cu 0x237002FFFFFF0000 = .ok (.inot ⟨7, 0, 0x02, 0xFF, 0xFF, 0xFF, 0⟩) := rfl

/-- R191. -/
theorem test_decode_bfx : decode .cu 0x2A0000F0FFFF0804 = .ok (.bfx ⟨0, 0, 0x00, 0xF0, 0xFF, 0xFF, 0x0804⟩) := rfl

theorem test_decode_xor : decode .cu 0x223000C0FFFF0000 = .ok (.ixor ⟨3, 0, 0x00, 0xC0, 0xFF, 0xFF, 0⟩) := rfl

theorem test_decode_and : decode .cu 0x203002F0FFFF0003 = .ok (.iand ⟨3, 0, 0x02, 0xF0, 0xFF, 0xFF, 3⟩) := rfl

/-- 13_prog_normalize: nodes 3 and 4 of norm. -/
theorem test_decode_norm : decode .cu 0x4B4002FFFFFF0000 = .ok (.frsqrtSeed ⟨4, 0, 0x02, 0xFF, 0xFF, 0xFF, 0⟩) ∧
    decode .cu 0x424002F0FFFFBF00 = .ok (.fmul ⟨4, 0, 0x02, 0xF0, 0xFF, 0xFF, 0xBF00⟩) := ⟨rfl, rfl⟩

/-- 04_encoding: node 0 of the worked image. -/
theorem test_decode_ld : decode .mu 0x0130FFFFFFFF10000000000000000000 =
    .ok (.ld ⟨3, 0, 0xFF, 0xFF, 0xFF, 0xFF, 1, 0, 0, 0, 0, 0⟩) := rfl

/-- 15_copy_engine. -/
theorem test_decode_cp : decode .mu 0x40004400FF0910F00000000000400000 =
    .ok (.cp ⟨0, 0, 0x44, 0x00, 0xFF, 0x09, 1, 0, 15, 0, 0x40, 0⟩) := rfl

/-- 17_matrix_engine. -/
theorem test_decode_mma : decode .mu 0x50614400FF0910F00000000000400000 =
    .ok (.mma ⟨6, 1, 0x44, 0x00, 0xFF, 0x09, 1, 0, 15, 0, 0x40, 0⟩) := rfl

theorem test_decode_mx_post : decode .mu 0x590043F0FFFF10F00000000000000007 =
    .ok (.mxPost ⟨0, 0, 0x43, 0xF0, 0xFF, 0xFF, 1, 0, 15, 0, 0, 7⟩) := rfl

/-- 19_meridian. -/
theorem test_decode_attn_go : decode .mu 0x6000EBFFFF0510F00000000004000000 =
    .ok (.attnGo ⟨0, 0, 0xEB, 0xFF, 0xFF, 0x05, 1, 0, 15, 0, 0x400, 0⟩) := rfl

theorem test_decode_resume : decode .mu 0x6001EBFFFF0510F00000000004000000 =
    .ok (.attnGoResume ⟨0, 1, 0xEB, 0xFF, 0xFF, 0x05, 1, 0, 15, 0, 0x400, 0⟩) := rfl

/-- 21_infill. -/
theorem test_decode_conf_test : decode .mu 0x687003C0EB0410F00000000002000000 =
    .ok (.confTest ⟨7, 0, 0x03, 0xC0, 0xEB, 0x04, 1, 0, 15, 0, 0x200, 0⟩) := rfl

theorem test_decode_fill_req : decode .mu 0x6900EBFFFFFF10F00000000002400000 =
    .ok (.fillReq ⟨0, 0, 0xEB, 0xFF, 0xFF, 0xFF, 1, 0, 15, 0, 0x240, 0⟩) := rfl

/-- 22_launch_scheduling. -/
theorem test_decode_lr_patch : decode .mu 0x70004345FF0700F00000000000000004 =
    .ok (.lrPatch ⟨0, 0, 0x43, 0x45, 0xFF, 0x07, 0, 0, 15, 0, 0, 4⟩) := rfl

theorem test_decode_lr_bind : decode .mu 0x7202444345FF00F00000000000100000 =
    .ok (.lrBind ⟨0, 2, 0x44, 0x43, 0x45, 0xFF, 0, 0, 15, 0, 0x10, 0⟩) := rfl

/-- 23_link_engine. -/
theorem test_decode_cl_red : decode .mu 0x8200EBFFFFFF10F00000000002000000 =
    .ok (.clRed ⟨0, 0, 0xEB, 0xFF, 0xFF, 0xFF, 1, 0, 15, 0, 0x200, 0⟩) := rfl

theorem test_decode_cl_ring : decode .mu 0x86004600FF0910F00000000000400000 =
    .ok (.clRing ⟨0, 0, 0x46, 0x00, 0xFF, 0x09, 1, 0, 15, 0, 0x40, 0⟩) := rfl

/-- 03_assembly_language. -/
theorem test_decode_exit_wait : decode .exit 0x094243FF04000923 =
    .ok (.exitWait ⟨0x42, 0x43, 0xFF, 0x04, 0x00, 0x09, 0x23⟩) := rfl

/-- 11_differentiable. -/
theorem test_decode_exit_ad : decode .exit 0x0CFFFFFF0102FF00 = .ok (.exitDfwd ⟨0xFF, 0xFF, 0xFF, 1, 2, 0xFF, 0⟩) ∧
    decode .exit 0x0DFFFFFF0000FF00 = .ok (.exitDrev ⟨0xFF, 0xFF, 0xFF, 0, 0, 0xFF, 0⟩) := ⟨rfl, rfl⟩

theorem test_decode_exit_sw : decode .exit 0x0403FFFF0009FF00 =
    .ok (.exitSw ⟨0x03, 0xFF, 0xFF, 0x00, 0x09, 0xFF, 0⟩) := rfl

/-- 03_assembly_language (R88) and 19_meridian: the three 32-bit words of a microword, the first the lowest. -/
theorem test_decode_microwords : decode .micro (0x40 + 2 ^ 64 * 0x01300000) = .ok (.mli ⟨3, 0, 0, 0, 0, 0x40⟩) ∧
    decode .micro (2 ^ 64 * 0x0C523000) = .ok (.kvx ⟨5, 2, 3, 0, 0, 0⟩) := ⟨rfl, rfl⟩

/-- A slot of zeros is a hole (R94), and opcode 0x06 no instruction (R109). -/
theorem test_decode_refused : decode .cu 0 = .error .hole ∧ decode .cu (0x06 * 2 ^ 56) = .error .opcode ∧
    decode .exit (0x07 * 2 ^ 56) = .error .exitKind := ⟨rfl, rfl, rfl⟩

/-! ## Ill-formed terms, one for each check -/

/-- The compute checks (R98 to R104, R109, R110): type, modifier, operands, destination, immediate. -/
theorem test_illformed_cu : (Instr.add ⟨4, 0, 0x40, 0x41, 0xFF, 0xFF, 0⟩).defect = some .type ∧
    (Instr.cmp ⟨0, 6, 0x40, 0x41, 0xFF, 0xFF, 0⟩).defect = some .modifier ∧
    (Instr.add ⟨0, 0, 0xFF, 0x41, 0xFF, 0xFF, 0⟩).defect = some .operandA ∧
    (Instr.add ⟨0, 0, 0x40, 0xEF, 0xFF, 0xFF, 0⟩).defect = some .operandB ∧
    (Instr.add ⟨0, 0, 0x40, 0x41, 0x42, 0xFF, 0⟩).defect = some .operandC ∧
    (Instr.add ⟨0, 0, 0x40, 0x41, 0xFF, 0x80, 0⟩).defect = some .dest ∧
    (Instr.add ⟨0, 0, 0x40, 0x41, 0xFF, 0xFF, 1⟩).defect = some .imm := by decide +kernel

/-- The checks of memory, engine and system nodes (R100 to R104, R111). -/
theorem test_illformed_mu : (Instr.ld ⟨3, 0, 0x40, 0xFF, 0xFF, 0xFF, 5, 0, 15, 0, 0, 0⟩).defect = some .space ∧
    (Instr.pub ⟨3, 0, 0x40, 0xFF, 0xFF, 0xFF, 0, 0, 15, 0, 0, 0⟩).defect = some .scope ∧
    (Instr.ld ⟨3, 0, 0x40, 0xFF, 0xFF, 0xFF, 0, 0, 15, 8, 0, 0⟩).defect = some .flags ∧
    (Instr.rdsr ⟨3, 0, 0x40, 0xFF, 0xFF, 0xFF, 0, 0, 0, 0, 0, 0x10⟩).defect = some .ag ∧
    (Instr.rdsr ⟨3, 0, 0x40, 0xFF, 0xFF, 0xFF, 0, 0, 15, 0, 1, 0x10⟩).defect = some .off ∧
    (Instr.rdsr ⟨3, 0, 0x40, 0xFF, 0xFF, 0xFF, 0, 0, 15, 0, 0, 0x12⟩).defect = some .imm := by decide +kernel

/-- The checks of exit words (R106, R107): fields that the kind does not use, status slot, scope, condition. -/
theorem test_illformed_exit : (Instr.exitBr ⟨0xFF, 0xFF, 0xFF, 1, 1, 0xFF, 0⟩).defect = some .exitField ∧
    (Instr.exitBr ⟨0xFF, 0xFF, 0xFF, 1, 0, 5, 0⟩).defect = some .status ∧
    (Instr.exitBr ⟨0xFF, 0xFF, 0xFF, 1, 0, 0xFF, 1⟩).defect = some .modifier ∧
    (Instr.exitWait ⟨0x42, 0x43, 0xFF, 4, 0, 9, 0x20⟩).defect = some .scope ∧
    (Instr.exitWait ⟨0xFF, 0x43, 0xFF, 4, 0, 9, 0x23⟩).defect = some .operandA := by decide +kernel

/-- An unused field, or a condition beyond the table's, makes a microword illegal (R112, R114). -/
theorem test_illformed_micro : (Instr.mli ⟨3, 1, 0, 0, 0, 0⟩).wf = false ∧
    (Instr.mbr ⟨0, 0, 0, 7, 0, 0⟩).wf = false ∧ (Instr.mtrap ⟨0, 0, 0, 0, 0, 2 ^ 32⟩).wf = false ∧
    (Instr.illegalMicroword (BitVec.ofNat 96 (0x13 * 2 ^ 88))).wf = false := by decide +kernel

/-! ## Results from the spec's rules and examples -/

/-- R187: div.i32 of −7 by 2 gives −3 and rem.i32 gives −1; div by 0 gives all ones. -/
theorem test_div_rem : tokenOf (placed 64 0x15004041FFFF0000 (-7) 2 0) = some (.value (-3)) ∧
    tokenOf (placed 64 0x16004041FFFF0000 (-7) 2 0) = some (.value (-1)) ∧
    tokenOf (placed 64 0x15104041FFFF0000 7 0 0) = some (.value 0xFFFFFFFF) := by decide +kernel

/-- R187: mulhi.u32 and mulhi.i32 of 0xFFFF_FFFF by itself. -/
theorem test_mulhi : tokenOf (placed 64 0x13104041FFFF0000 0xFFFFFFFF 0xFFFFFFFF 0) = some (.value 0xFFFFFFFE) ∧
    tokenOf (placed 64 0x13004041FFFF0000 0xFFFFFFFF 0xFFFFFFFF 0) = some (.value 0) := by decide +kernel

/-- R187: abs and neg of the least i32 give it. -/
theorem test_abs_neg_min : tokenOf (placed 64 0x170040FFFFFF0000 (-0x80000000) 0 0) = some (.value (-0x80000000)) ∧
    tokenOf (placed 64 0x180040FFFFFF0000 (-0x80000000) 0 0) = some (.value (-0x80000000)) := by decide +kernel

/-- R183: cvt.i64.i32 and cvt.i64.u32 of 0xFFFF_FFFF. -/
theorem test_cvt : tokenOf (placed 64 0x022040FFFFFF0000 0xFFFFFFFF 0 0) = some (.value (-1)) ∧
    tokenOf (placed 64 0x022140FFFFFF0000 0xFFFFFFFF 0 0) = some (.value 0xFFFFFFFF) := by decide +kernel

/-- R185: steer of a 0 predicate cancels. -/
theorem test_steer_cancels : tokenOf (placed 64 0x04004041FFFF0000 0 7 0) = some .cancel ∧
    tokenOf (placed 64 0x04004041FFFF0000 1 7 0) = some (.value 7) := by decide +kernel

/-- R189: shr.i32 of 0x8000_0000 by 1, and sar.u32 of it by 40. -/
theorem test_shifts : tokenOf (placed 64 0x25004041FFFF0000 0x80000000 1 0) = some (.value 0x40000000) ∧
    tokenOf (placed 64 0x26104041FFFF0000 0x80000000 40 0) = some (.value 0xFFFFFFFF) ∧
    tokenOf (placed 64 0x24104041FFFF0000 1 32 0) = some (.value 0) := by decide +kernel

/-- R191: a field of 8 bits from bit 4 on, sign-extended for i32. -/
theorem test_bfx : tokenOf (placed 64 0x2A0040F0FFFF0804 0xA50 0 0) = some (.value (-91)) := by decide +kernel

/-- R152, R192: the draw of seed 1, stream 0 and counter 0. -/
theorem test_rng : tokenOf (placed 64 0x2C10404142FF0000 1 0 0) = some (.value 0xED345605) := by decide +kernel

/-- R133: frsqrt.seed of 3.0, and of 25 (0.19998931884765625 is 104,852 · 2^−19). -/
theorem test_frsqrt_seed : tokenOf (placed 64 0x4B4040FFFFFF0000 0x40400000 0 0) = some (.value 0x3F13CA00) ∧
    tokenOf (placed 64 0x4B4040FFFFFF0000 0x41C80000 0 0) = some (.value 0x3E4CCA00) := by decide +kernel

/-- R214: fclass.bf16 of 0x0001. -/
theorem test_fclass : tokenOf (placed 64 0x4F6040FFFFFF0000 1 0 0) = some (.value 0x80) := by decide +kernel

/-- R125: 1 + 2^−24 rounds to the even 1; 0 / 0 is the canonical NaN. -/
theorem test_fadd_fdiv : tokenOf (placed 64 0x40404041FFFF0000 0x3F800000 0x33800000 0) = some (.value 0x3F800000) ∧
    tokenOf (placed 64 0x48404041FFFF0000 0 0 0) = some (.value 0x7FC00000) := by decide +kernel

/-- R249: SYS_MXTEST after reset, and a write of SYS_AGELIMIT with system privilege. -/
theorem test_rdsr_wrsr : tokenOf (placed 128 0xC330FFFFFFFF00F00000000000000070 0 0 0) = some (.value 4096) ∧
    afterStep (step (placed 128 0xC43040FFFFFF00F00000000000000020 9 0 0))
      (fun d => (d.core 0).regs.agelimit == 9) = true := by decide +kernel

/-- R232: a load of the scratchpad is little-endian. -/
theorem test_ld_scratch : tokenOf (withCore (placed 128 0x013040FFFFFF10F00000000000000000 0x100 0 0) fun c =>
    { c with scratch := [(0x100, 0x2A), (0x107, 0x80)] }) = some (.value 0x800000000000002A) := by decide +kernel

/-- R238: rmw.add on the scratchpad delivers the old datum and leaves the sum. -/
theorem test_rmw_add : (let s := withCore (placed 128 0x08304041FFFF11F00000000000000000 0x100 5 0) fun c =>
      { c with scratch := [(0x100, 0x03)] }
    tokenOf s = some (.value 3) ∧ afterStep (step s) (fun d => (d.core 0).scratch == [(0x100, 0x08)]) = true) := by
  decide +kernel

/-- R196: exit.retire of a thread in a beat without nodes. -/
theorem test_exit_retire : afterStep (exec (.exitRetire ⟨0xFF, 0xFF, 0xFF, 0, 0, 0xFF, 0⟩)
    (State.reset.withFetchWord 256 (2 ^ 56 + 2 ^ 128 * 0x05FFFFFF0000FF00)))
    (fun d => (threadOf d 0 0).status == .retired) = true := by decide +kernel

/-- R381: madd of M1 (0 here) and an immediate sets N. -/
theorem test_madd : afterStep (step (State.reset.withFetchWord 96 (0x02 * 2 ^ 88 + 3 * 2 ^ 84 + 4 * 2 ^ 80 + 2 ^ 72 +
    (2 ^ 60 - 1)))) (fun d => ((d.core 0).mer.job.map fun j => (j.m.getD 3 0, j.neg, j.z, j.upc)) ==
      some (-1, true, false, 1)) = true := by decide +kernel

/-! ## Hypotheses met: nodes -/

/-- The compute word decodes to a well-formed instruction whose node is ready once placed, outside a reverse replay,
and no exception is enabled to trap. -/
def cuMeets (n : Nat) : Bool :=
  match decodeCU n with
  | .ok i => i.wf && (match wordOf i with
    | .cu opc w => onReady (placed 64 n 5 3 9) (cuWord opc w) fun e _ _ _ => !e.pass.rev
    | _ => false)
  | _ => false

/-- The memory, engine or system node word decodes to a well-formed instruction whose node is ready once placed,
outside a reverse replay; its operands are 0x1000000, 0 and 0. -/
def muMeets (n : Nat) : Bool :=
  match decodeMU n with
  | .ok i => i.wf && (match wordOf i with
    | .mu opc w => onReady (mapped [] (placed 128 n 0x1000000 0 0)) (muWord opc w) fun e _ _ _ => !e.pass.rev
    | _ => false)
  | _ => false

/-- A word of every compute opcode. -/
def cuWords : List Nat := [0x010040ffff050000, 0x020040ffff050000, 0x0300404142050000, 0x04004041ff050000,
    0x05004041ff050000, 0x10004041ff050000, 0x11004041ff050000, 0x12004041ff050000, 0x13004041ff050000,
    0x1400404142050000, 0x15004041ff050000, 0x16004041ff050000, 0x170040ffff050000, 0x180040ffff050000,
    0x19004041ff050000, 0x1a004041ff050000, 0x1b004041ff050000, 0x20004041ff050000, 0x21004041ff050000,
    0x22004041ff050000, 0x230040ffff050000, 0x24004041ff050000, 0x25004041ff050000, 0x26004041ff050000,
    0x270040ffff050000, 0x280040ffff050000, 0x290040ffff050000, 0x2a004041ff050000, 0x2b00404142050000,
    0x2c10404142050000] ++
  [0x40404041ff050000, 0x41404041ff050000, 0x42404041ff050000, 0x4340404142050000, 0x44404041ff050000,
    0x45404041ff050000, 0x464040ffff050000, 0x474040ffff050000, 0x48404041ff050000, 0x494040ffff050000,
    0x4a4040ffff050000, 0x4b4040ffff050000, 0x4c4040ffff050000, 0x4d4040ffff050000, 0x4e404041ff050000,
    0x4f4040ffff050000, 0x504540ffff050000, 0x510040ffff050000, 0x524040ffff050000, 0x534040ffff050000,
    0x54404041ff050000] ++
  [0x608040ff42050000, 0x618040ff42040000, 0x6280404142050000, 0x6380404142050000, 0x6480404142050000,
    0x6580404142050000, 0x668040ff42050000, 0x6780404142050000, 0x6880404142050000, 0x698040ff42050000,
    0x6a8040ff42050000, 0x6b8040ff42050000, 0x6c80404142050000, 0x6d9a404142050000, 0x6e8040ff42050000]

/-- The hypotheses of CuGives and FpGives, and so of SteeringNodes, IntegerNodes, LogicNodes and FloatNodes, are met for
every compute opcode; those of PoisonAndCancelPass and NodeFrames differ from them in the operands only. -/
theorem test_hyps_compute_nodes : cuWords.all cuMeets = true ∧
    (State.reset.dev.core 0).regs.fptrap.truncate 6 = (0 : Flags) := by decide +kernel

/-- A word of every memory, engine and system opcode: memory, atomics, channels, adjoint cells and deques. -/
def memWords : List Nat := [0x010040ff420510f00000000000000000, 0x0200404142ff10f00000000000000000,
    0x033040ffff0510f00000000000000000, 0x040040ffffff00f00000000000000000, 0x08004041420511f00000000000000000,
    0x09404041420511f00000000000000000, 0x0a004041420511f00000000000000000, 0x0b004041420511f00000000000000000,
    0x0c004041420511f00000000000000000, 0x0d004041420511f00000000000000000, 0x0e004041420511f00000000000000000,
    0x0f004041420511f00000000000000000, 0x10004041420511f00000000000000000, 0x110040ff420511f00000000000000000,
    0x12004041420511f00000000000000000, 0x18304041420540f00000000000000000, 0x193040ff420540f00000000000000000,
    0x204040ff420550f00000000000000000, 0x2140404142ff50f00000000000000000, 0x22404041420550f00000000000000000,
    0x234040ff420550f00000000000000000, 0x28304041420503f00000000000000000, 0x293040ff420503f00000000000000000,
    0x2a3040ff420503f00000000000000000]

/-- System nodes and the distributor's nodes. -/
def sysWords : List Nat := [0xc03040ffff0501f00000000000000000, 0xc13040ffff0501f00000000000000000,
    0xc2304041420500f00000000000000000, 0xc33040ffff0500f00000000000000020, 0xc4304041ff0500f00000000000000020,
    0x70004041420500f00000000000000004, 0x71004041420500f00000000000000000, 0x72004041420500f00000000000000000,
    0x73004041420500f00000000000000000, 0x74004041420500f00000000000000000]

/-- Engine command nodes, with the two forms of attn.go and of attn.save that MOD tells apart. -/
def engWords : List Nat := [0x40004041420510f00000000000000000, 0x41004041420510f00000000000000000,
    0x42004041420510f00000000000000000, 0x43004041420510f00000000000000000, 0x44004041420510f00000000000000000,
    0x45004041420510f00000000000000000, 0x46004041420510f00000000000000000, 0x47004041420510f00000000000000000,
    0x50404041420510f00000000000000000, 0x51804041420510f00000000000000000, 0x52004041420510f00000000000000000,
    0x53004041420510f00000000000000000, 0x54004041420510f00000000000000000, 0x55004041420510f00000000000000000,
    0x56004041420510f00000000000000000, 0x57004041420510f00000000000000000, 0x58004041420510f00000000000000000,
    0x59004041420510f00000000000000000, 0x5a004041420510f00000000000000000, 0x5b004041420510f00000000000000000,
    0x5c004041420510f00000000000000000] ++
  [0x60004041420510f00000000000000000, 0x60014041420510f00000000000000000, 0x61004041420510f00000000000000000,
    0x62004041420510f00000000000000000, 0x63004041420510f00000000000000000, 0x64004041420510f00000000000000000,
    0x65004041420510f00000000000000000, 0x68704041420510f00000000000000000, 0x69004041420510f00000000000000000,
    0x6a004041420510f00000000000000000, 0x80004041420510f00000000000000000, 0x81004041420510f00000000000000000,
    0x82004041420510f00000000000000000, 0x83004041420510f00000000000000000, 0x84004041420510f00000000000000000,
    0x85004041420510f00000000000000000, 0x86004041420510f00000000000000000]

/-- Every node of the MU map meets Ready outside a reverse replay: LeavesOf of DistributorNodes, and the hypotheses that
the statements on memory and system nodes share. -/
theorem test_hyps_memory_nodes : memWords.all muMeets = true ∧ sysWords.all muMeets = true ∧
    engWords.all muMeets = true := by decide +kernel

/-- A merge of nodes 1 and 2 whose tokens are x and y. -/
def mergeOf (x y : Token) : State :=
  withCore (placed 64 0x05000102FF050000 0 0 0) fun c =>
    { c with pass := c.pass.map fun p => { p with lanes := p.lanes.map fun l => { l with tokens := [(1, x), (2, y)] } } }

/-- The word of that merge. -/
def mergeWord : CU := ⟨0, 0, 0x01, 0x02, 0xFF, 0x05, 0⟩

/-- Two origins of poison. -/
def origin4 : Origin := ⟨0, 4, 0x0005, 0, 0⟩
def origin7 : Origin := ⟨0, 7, 0x0011, 0, 0⟩

/-- Do the operands of the merge hold the tokens, and may it fire? -/
def mergeSees (x y : Token) : Bool :=
  onFires (mergeOf x y) (cuWord 0x05 mergeWord) fun e =>
    operand (mergeOf x y).dev e .val 0 0 0 0x01 == some x && operand (mergeOf x y).dev e .val 0 0 0 0x02 == some y

/-- SteeringNodes, merge: each of its six cases. -/
theorem test_hyps_merge : (Instr.merge mergeWord).wf = true ∧ mergeSees (.value 3) (.value 9) = true ∧
    mergeSees (.value 3) .cancel = true ∧ mergeSees .cancel (.value 9) = true ∧ mergeSees .cancel .cancel = true ∧
    mergeSees (.poison origin4) .cancel = true ∧ mergeSees .cancel (.poison origin4) = true ∧
    mergeSees (.poison origin7) (.poison origin4) = true := by decide +kernel

/-- SteeringNodes, steer: a predicate of 1 and of 0. -/
theorem test_hyps_steer :
    onReady (placed 64 0x04004041FF050000 1 7 0) (cuWord 0x04 ⟨0, 0, 0x40, 0x41, 0xFF, 0x05, 0⟩)
      (fun _ p _ _ => p.getLsbD 0) = true ∧
    onReady (placed 64 0x04004041FF050000 0 7 0) (cuWord 0x04 ⟨0, 0, 0x40, 0x41, 0xFF, 0x05, 0⟩)
      (fun _ p _ _ => !p.getLsbD 0) = true := by decide +kernel

/-- RoundingIsNearest: 1/3 is no binary32 datum; the datum it rounds to and the one above are finite. -/
theorem test_hyps_rounding : exact f32 (rne f32 (.fin false 5592405 (-24))).1 = .fin false 11184810 (-25) ∧
    (exact f32 0x3EAAAAAC ≠ .nan ∧ exact f32 0x3EAAAAAC ≠ .inf false) := by decide +kernel

/-- FloatExceptions: a NaN, and a positive number below infinity. -/
theorem test_hyps_invalid : 4 ∈ tFlt ∧ 0x7FC00000 < 2 ^ f32.width ∧ isNanBits f32 0x7FC00000 = true ∧
    0 < 0x3F800000 ∧ 0x3F800000 < f32.infBits := by decide +kernel

/-- FloatExceptions: a division by 0 whose DZ is enabled to trap, and an invalid root. -/
theorem test_hyps_traps :
    (let w : CU := ⟨4, 0, 0x40, 0x41, 0xFF, 0x05, 0⟩
     let s := withCore (placed 64 (packCU 0x48 w) 0x3F800000 0 0) fun c => { c with regs := { c.regs with fptrap := 0x3F } }
     onReady s (cuWord 0x48 w) fun e a b _ => !e.pass.rev &&
       ((fpDiv f32 (fbits 4 a) (fbits 4 b)).2 &&& (s.dev.core e.core).regs.fptrap.truncate 6) != 0) = true := by
  decide +kernel

/-! ## Hypotheses met: atoms -/

/-- The bytes of a Legend record at an address: 16 codebook entries 0 to 15 (R144). -/
def legendAt (at_ : Nat) (f : AFmt) (clamp : BitVec 8) : Cells 8 :=
  [(at_, 0x47), (at_ + 1, 0x4C), (at_ + 2, 1), (at_ + 3, BitVec.ofNat 8 f.code), (at_ + 4, 16),
    (at_ + 6, BitVec.ofNat 8 f.k), (at_ + 8, clamp)] ++
  (List.range 15).map fun i => (at_ + 64 + 4 * (i + 1), BitVec.ofNat 8 (i + 1))

/-- An atom node word placed, with a PA4 Legend at 0x4000 and a PA8H Legend at 0x5000. -/
def atomAt (opc : Nat) (w : CU) (x y z : Word) : State :=
  mapped (legendAt 0x4000 .pa4 15 ++ legendAt 0x5000 .pa8h 15) (placed 64 (packCU opc w) x y z)

/-- Is the node ready, its Legend found, and p met? -/
def atomMeets (opc : Nat) (w : CU) (x y z : Word) (p : Word → Word → Bool) : Bool :=
  onReady (atomAt opc w x y z) (cuWord opc w) fun e a b c =>
    onOk (legendFor (atomAt opc w x y z).dev e (AFmt.ofType w.typ.toNat) c) fun _ _ => p a b

/-- The words of the atom nodes whose Legend is operand C, of type pa8. -/
def atomRows : List (Nat × (CU → Instr) × CU) := [
  (0x60, .paEnc, ⟨9, 0, 0x40, 0xFF, 0x42, 0x05, 0⟩), (0x61, .paDec, ⟨9, 0, 0x40, 0xFF, 0x42, 0x04, 0⟩),
  (0x62, .paAdd, ⟨9, 0, 0x40, 0x41, 0x42, 0x05, 0⟩), (0x63, .paSub, ⟨9, 0, 0x40, 0x41, 0x42, 0x05, 0⟩),
  (0x64, .paMul, ⟨9, 0, 0x40, 0x41, 0x42, 0x05, 0⟩), (0x65, .paScale, ⟨9, 0, 0x40, 0x41, 0x42, 0x05, 0⟩),
  (0x66, .paRelu, ⟨9, 0, 0x40, 0xFF, 0x42, 0x05, 0⟩), (0x67, .paMask, ⟨9, 0, 0x40, 0x41, 0x42, 0x05, 0⟩),
  (0x68, .paDot, ⟨9, 0, 0x40, 0x41, 0x42, 0x05, 0⟩), (0x69, .paNrm, ⟨9, 0, 0x40, 0xFF, 0x42, 0x05, 0⟩),
  (0x6A, .paSum, ⟨9, 0, 0x40, 0xFF, 0x42, 0x05, 0⟩), (0x6B, .paMax, ⟨9, 0, 0x40, 0xFF, 0x42, 0x05, 0⟩),
  (0x6C, .paGet, ⟨9, 0, 0x40, 0x41, 0x42, 0x05, 0⟩)]

/-- PulseAtomNodes: the atom nodes under the default Legend, on an atom other than 0 and element 3; and pa.gain under a
Legend in memory. -/
theorem test_hyps_atoms : (atomRows.all fun r => (r.2.1 r.2.2).wf &&
      atomMeets r.1 r.2.2 0x3F000000 3 0 fun a b => a != 0 && decide (b.toNat < 8)) = true ∧
    (let w : CU := ⟨8, 0, 0x40, 0xFF, 0x42, 0x05, 0⟩
    (Instr.paGain w).wf && atomMeets 0x6E w 0x054A 0 0x4000 fun _ _ => true) = true := by decide +kernel

/-- PulseAtomNodes: pa.cvt from PA8 with the default Legend to PA8H with one in memory. -/
theorem test_hyps_pa_cvt : (let w : CU := ⟨9, 10, 0x40, 0x41, 0xFF, 0x05, 0⟩
    (Instr.paCvt w).wf && onReady (atomAt 0x6D w 0x3F000000 0x5000 0) (cuWord 0x6D w) fun e _ b c =>
      onOk (legendFor (atomAt 0x6D w 0x3F000000 0x5000 0).dev e .pa8 c) fun _ d =>
        onOk (legendFor d e .pa8h b) fun _ _ => true) = true := by decide +kernel

/-- PulseAtomNodes: PA8 zeros; a Legend address that is not aligned; an element that PA4 does not have. -/
theorem test_hyps_atom_zero_and_faults :
    ([0x68, 0x69, 0x6A, 0x6B, 0x6C, 0x6E].all fun opc =>
      let w : CU := ⟨9, 0, 0x40, if opc = 0x68 ∨ opc = 0x6C then 0x41 else 0xFF, 0x42, 0x05, 0⟩
      (cuMake opc w).any Instr.wf && onReady (atomAt opc w 0 7 0x4000) (cuWord opc w) fun _ a b _ =>
        a == 0 && decide (b.toNat < 8)) = true ∧
    (atomRows.all fun r => onReady (atomAt r.1 r.2.2 0x3F000000 3 8) (cuWord r.1 r.2.2) fun e _ _ c =>
      match legendFor (atomAt r.1 r.2.2 0x3F000000 3 8).dev e .pa8 c with
      | (.error _, _) => true
      | _ => false) = true ∧
    onReady (atomAt 0x6C ⟨8, 0, 0x40, 0x41, 0x42, 0x05, 0⟩ 0x054A 4 0x4000)
      (cuWord 0x6C ⟨8, 0, 0x40, 0x41, 0x42, 0x05, 0⟩) (fun _ _ b _ => decide (4 ≤ b.toNat)) = true := by decide +kernel

/-! ## Hypotheses met: what every node shares -/

/-- NodesFire: an operand that holds poison, and one that holds cancel, with the node able to fire. -/
theorem test_hyps_pass : (let w : CU := ⟨0, 0, 0x01, 0xFF, 0xFF, 0x05, 0⟩
    let at_ (x : Token) : State := withCore (placed 64 (packCU 0x01 w) 0 0 0) fun c =>
      { c with pass := c.pass.map fun p => { p with lanes := p.lanes.map fun l => { l with tokens := [(1, x)] } } }
    onFires (at_ (.poison origin4)) (cuWord 0x01 w) (fun e =>
        argsOf (at_ (.poison origin4)).dev e (cuWord 0x01 w) == .poison origin4) &&
      onFires (at_ .cancel) (cuWord 0x01 w) (fun e => argsOf (at_ .cancel).dev e (cuWord 0x01 w) == .cancel)) = true ∧
    (Token.poison origin7).isPoison = true := by decide +kernel

/-- NodesFire: an rmw.add that has performed, and may fire. -/
theorem test_hyps_replay : (let w : MU := ⟨0, 0, 0x40, 0x41, 0xFF, 0x05, 1, 1, 15, 0, 0, 0⟩
    let s := withCore (muAt 0x08 w [] 0x100 1 0) fun c =>
      { c with pass := c.pass.map fun p => { p with lanes := p.lanes.map fun l =>
          { l with done := 1, replay := [7, 0, 0, 0] } } }
    match envOf s.dev s.clock s.focus with
    | some e => (muWord 0x08 w).fmt.irrev && mayFire e (muWord 0x08 w) &&
        e.l.done.getLsbD (irrevIndex e.words e.node) && e.l.replay.length == 4 &&
        decide (irrevIndex e.words e.node < 4) && decide (s.focus.core < s.dev.cores.length)
    | none => false) = true := by decide +kernel

/-- NodeFrames: a placed word goes on. -/
theorem test_hyps_frames : afterStep (exec (.add ⟨0, 0, 0x40, 0x41, 0xFF, 0x05, 0⟩) (placed 64 0x10004041FF050000 5 3 0))
      (fun _ => true) = true ∧
    afterStep (exec (.paRelu ⟨8, 0, 0x40, 0xFF, 0x42, 0x05, 0⟩) (atomAt 0x66 ⟨8, 0, 0x40, 0xFF, 0x42, 0x05, 0⟩
      0x054A 0 0x4000)) (fun _ => true) = true := by decide +kernel

/-! ## Hypotheses met: memory nodes -/

/-- AddrGood as a Bool. -/
def addrGoodB (e : Env) (w : MU) (a : Word) (size : Nat) : Bool :=
  addrFault (effAddr e w.ag a w.off size).2 w.space.toNat (laneEa e w a size) size == none

/-- Does the node's stream reach global memory at va, with a place and a device that meet p (Reaches, as a Bool)? -/
def reachesB (d : Device) (e : Env) (va : Nat) (write : Bool) (p : Xlated → Device → Bool) : Bool :=
  !walkPending d e.core e.node va && onOk (accessVia d e.core (.node e.node) va e.bound.priv write) p

/-- A second core of the run, so that cluster-scratch addresses and channels have a target. -/
def withPartner (s : State) : State :=
  { s with dev := (s.dev.modCore 0 fun c => { c with bound := c.bound.map fun b => { b with ncores := 2, stages := 2 } })
      |>.modCore 1 fun c => { c with bound := some { soloBound with ncores := 2, stages := 2, cidx := 1 } } }

/-- A u64 access node of a space with AG 15. -/
def u64At (space scope : BitVec 4) : MU := ⟨3, 0, 0x40, 0xFF, 0xFF, 0x05, space, scope, 15, 0, 0, 0⟩

/-- LoadsAndStores, ld: the last word of a scratchpad, another core's scratchpad, global memory, and the parameter
block. -/
theorem test_hyps_loads :
    (let s := muAt 0x01 (u64At 1 0) [] 0x17FFF8 0 0
     (Instr.ld (u64At 1 0)).wf && onReady s (muWord 0x01 (u64At 1 0)) fun e a _ _ =>
       addrGoodB e (u64At 1 0) a 8 && !scratchBadAt s.dev e.core (laneEa e (u64At 1 0) a 8) 8) = true ∧
    (let s := withPartner (muAt 0x01 (u64At 2 0) [] 0x200100 0 0)
     (Instr.ld (u64At 2 0)).wf && onReady s (muWord 0x01 (u64At 2 0)) fun e a _ _ =>
       addrGoodB e (u64At 2 0) a 8 && cxTarget s.dev e (laneEa e (u64At 2 0) a 8) == some 1 &&
       !scratchBadAt s.dev 1 0x100 8) = true ∧
    (let s := muAt 0x01 (u64At 0 0) [(0x4000, 7)] 0x4000 0 0
     (Instr.ld (u64At 0 0)).wf && onReady s (muWord 0x01 (u64At 0 0)) fun e a _ _ => addrGoodB e (u64At 0 0) a 8 &&
       !e.pass.rev && reachesB s.dev e (laneEa e (u64At 0 0) a 8) false fun x d =>
         !badAt d x.key 8 && !inSpillRings d e.bound.ctx (laneEa e (u64At 0 0) a 8) 8) = true ∧
    (let s := withCore (muAt 0x01 (u64At 3 0) [(0x4008, 7)] 8 0 0) fun c =>
       { c with bound := c.bound.map fun b => { b with param := 0x4000 } }
     (Instr.ld (u64At 3 0)).wf && onReady s (muWord 0x01 (u64At 3 0)) fun e a _ _ =>
       addrGoodB e (u64At 3 0) a 8 &&
       (e.bound.param + laneEa e (u64At 3 0) a 8) % 8 == 0 &&
       reachesB s.dev e (e.bound.param + laneEa e (u64At 3 0) a 8) false fun x d =>
         !badAt d x.key 8 && !inSpillRings d e.bound.ctx (e.bound.param + laneEa e (u64At 3 0) a 8) 8) = true := by decide +kernel

/-- LoadsReadStores: a core, a cache without unpublished bytes, a log without a write, a canonical scratchpad. -/
theorem test_hyps_own_stores : 0 < State.reset.dev.cores.length ∧ (State.reset.dev.core 0).cache.dirty = [] ∧
    (State.reset.dev.core 0).cache.tape = [] ∧ (State.reset.dev.core 0).cache.pub = none ∧
    State.reset.dev.mem.log = [] ∧ (State.reset.dev.core 0).scratch.wf = true := by decide +kernel

/-- LoadsAndStores, lea and pref: a good address. -/
theorem test_hyps_lea : (let w : MU := ⟨3, 0, 0x40, 0xFF, 0xFF, 0x05, 1, 0, 15, 0, 0, 0⟩
    onReady (muAt 0x03 w [] 0x17FFFF 0 0) (muWord 0x03 w) (fun e a _ _ => addrGoodB e w a 1) &&
      onReady (muAt 0x04 w [] 0x17FFFF 0 0) (muWord 0x04 w) fun _ _ _ _ => true) = true := by decide +kernel

/-- LoadsAndStores, st: a scratchpad, a global address, and another core's scratchpad. -/
theorem test_hyps_stores :
    ([(1, 0x17FFF8), (0, 0x4000), (2, 0x200100)].all fun p =>
      let w : MU := ⟨3, 0, 0x40, 0x41, 0xFF, 0xFF, BitVec.ofNat 4 p.1, 0, 15, 0, 0, 0⟩
      let s := withPartner (muAt 0x02 w [] (BitVec.ofNat 64 p.2) 9 0)
      (Instr.st w).wf && onReady s (muWord 0x02 w) fun e a _ _ => addrGoodB e w a 8 && !e.pass.rev &&
        (p.1 != 0 || reachesB s.dev e (laneEa e w a 8) true fun _ _ => true) &&
        (p.1 != 2 || (cxTarget s.dev e (laneEa e w a 8) == some 1 && e.core != 1))) = true := by decide +kernel

/-- AccessFaults: an access beyond each space, one misaligned, and one beyond its generator's bounds. -/
theorem test_hyps_access_faults :
    ([(1, 0x180000, 0x0005), (2, 0x1000000, 0x0005), (2, 0x380000, 0x0005), (0, 2 ^ 56, 0x0002), (1, 4, 0x0004)].all fun p =>
      let w : MU := ⟨3, 0, 0x40, 0x41, 0xFF, 0xFF, BitVec.ofNat 4 p.1, 1, 15, 0, 0, 0⟩
      [0x01, 0x02, 0x08].all fun opc => onReady (muAt opc w [] (BitVec.ofNat 64 p.2.1) 9 0) (muWord opc w)
        fun e a _ _ => addrFault (effAddr e w.ag a w.off 8).2 p.1 (laneEa e w a 8) 8 == some p.2.2 && !e.pass.rev) = true ∧
    (onReady (muAt 0x01 (u64At 3 0) [] 0x10000 0 0) (muWord 0x01 (u64At 3 0)) fun e a _ _ =>
      addrFault true 3 (laneEa e (u64At 3 0) a 8) 8 == some 0x0005) = true ∧
    addrFault false 1 0 8 = some 0x0005 := by decide +kernel

/-- Atomics: every rmw on the last word of a scratchpad, on another core's, and at core, cluster and device scope. -/
theorem test_hyps_atomics :
    (rmwRows.all fun r => [(1, 1, 0x17FFF8), (2, 2, 0x200100), (0, 1, 0x4000), (0, 2, 0x4000), (0, 3, 0x4000)].all fun p =>
      let w : MU := ⟨if r.1 = 0x09 then 4 else 0, 0, 0x40, if r.1 = 0x11 then 0xFF else 0x41,
        if r.1 = 0x10 then 0x42 else 0xFF, 0x05, BitVec.ofNat 4 p.1, BitVec.ofNat 4 p.2.1, 15, 0, 0, 0⟩
      let s := withPartner (muAt r.1 w [(0x4000, 7)] (BitVec.ofNat 64 p.2.2) 9 0)
      (r.2.1 w).wf && onReady s (muWord r.1 w) fun e a _ _ => addrGoodB e w a 4 && !e.pass.rev &&
        (if p.1 = 1 then !scratchBadAt s.dev e.core (laneEa e w a 4) 4
         else if p.1 = 2 then cxTarget s.dev e (laneEa e w a 4) == some 1 && !scratchBadAt s.dev 1 0x100 4
         else s.dev.mem.wf && decide (e.core < s.dev.cores.length) && decide (e.core / 8 < s.dev.clusters.length) &&
           reachesB s.dev e (laneEa e w a 4) true fun x d => !x.host && !badAt d x.key 4)) =
      true := by decide +kernel

/-- The channel nodes of the last channel, for core 0 of two stages. -/
def chWord : MU := ⟨3, 0, 0x40, 0x41, 0xFF, 0xFF, 4, 0, 15, 0, 0, 0⟩

/-- ChannelsAndDeques: a partner downstream with room, with a full FIFO, and behind a filled spill ring. -/
theorem test_hyps_chs : ([(0, 0), (64, 0), (63, 1)].all fun p =>
    let s := withPartner (muAt 0x18 chWord [] 15 9 0)
    let d := s.dev.modCore 1 fun c => { c with fifos := c.fifos.put 15 (List.replicate p.1 0) }
    let s : State := { s with dev := d.modCore 0 fun c => { c with rings := c.rings.put 15 (List.replicate p.2 0) } }
    onReady s (muWord 0x18 chWord) fun e a _ _ => decide (channelOf chWord a < 16) && !e.pass.rev &&
      decide (e.bound.cidx + stageCores e.bound < e.bound.ncores) &&
      coreOfRun s.dev e.bound.run (e.bound.cidx + stageCores e.bound) == some 1) = true := by decide +kernel

/-- ChannelsAndDeques: the receiving side, empty and with a value; the upstream partner is core 1. -/
theorem test_hyps_chr : ([([] : List Word), [3, 4]].all fun q =>
    let w : MU := ⟨3, 0, 0x40, 0xFF, 0xFF, 0x05, 4, 0, 15, 0, 0, 0⟩
    let s := withPartner (muAt 0x19 w [] 15 0 0)
    let b : Bound := { soloBound with ncores := 2, stages := 2 }
    let s : State := { s with dev := (s.dev.modCore 0 fun c =>
      { c with fifos := c.fifos.put 15 q, bound := some { b with cidx := 1 } }).modCore 1 fun c => { c with bound := some b } }
    onReady s (muWord 0x19 w) fun e a _ _ => decide (channelOf w a < 16) && !e.pass.rev &&
      decide (stageCores e.bound ≤ e.bound.cidx) &&
      coreOfRun s.dev e.bound.run (e.bound.cidx - stageCores e.bound) == some 1 && e.core == 0) = true := by
  decide +kernel

/-- AdjointCells: the last f32 cell of a region of device scope, and of one of the core. -/
theorem test_hyps_adjoint : ([false, true].all fun priv => [0x20, 0x21, 0x22, 0x23].all fun opc =>
    let w : MU := ⟨4, 0, 0x40, 0x41, 0xFF, 0x05, 5, 0, 15, 0, 0, 0⟩
    let r : Region := ⟨0x8000, 0x100, 0x9000, 0, priv, 4⟩
    let s := withCore (muAt opc w [] 0x80FC 0x3F800000 0) fun c =>
      { c with bound := c.bound.map fun b => { b with regions := [r] } }
    onReady s (muWord opc w) fun e a _ _ =>
      let ea := (effAddr e 15 a w.off 4).1
      e.bound.regions.find? (fun r => decide (r.base ≤ ea ∧ ea < r.base + r.size)) == some r && ea % 4 == 0 &&
      s.dev.mem.wf && reachesB s.dev e (r.adj + (ea - r.base)) (opc != 0x20) fun x d =>
        !badAt d x.key 4 && !inSpillRings d e.bound.ctx (r.adj + (ea - r.base)) 4) = true := by decide +kernel

/-- A deque header at 0x4000: TOP, BOTTOM, LOG2CAP 1 and BASE 0x5000. -/
def dequeAt (t b : BitVec 8) : Cells 8 :=
  ([(0x4000, t), (0x4008, b), (0x4010, 1), (0x4019, 0x50)] : Cells 8).filter fun x => x.2 != 0

/-- ChannelsAndDeques: a deque with room, a full one and an empty one, and the entry that each node touches. -/
theorem test_hyps_deques :
    ([(0x28, 0, 1, some 1), (0x28, 0, 2, none), (0x29, 0, 2, some 1), (0x2A, 0, 2, some 0), (0x29, 1, 1, none),
      (0x2A, 1, 1, none)].all fun p =>
      let w : MU := ⟨3, 0, 0x40, 0x41, 0xFF, 0x05, 0, 3, 15, 0, 0, 0⟩
      let t := p.2.1
      let b := p.2.2.1
      let s := muAt p.1 w (dequeAt (BitVec.ofNat 8 t) (BitVec.ofNat 8 b)) 0x4000 9 0
      onReady s (muWord p.1 w) fun e a v _ =>
        let h := (effAddr e 15 a w.off 8).1
        !e.pass.rev && h % 64 == 0 && !v.getLsbD 63 &&
        reachesB s.dev e h true fun x d => !x.host && !badAt d x.key 64 &&
          wordsOf 8 (homeRead d x.key 64) == [BitVec.ofNat 64 t, BitVec.ofNat 64 b, 1, 0x5000, 0, 0, 0, 0] &&
          (match p.2.2.2 with
            | some i => reachesB (dqRead d e x.key 64).2 e (0x5000 + 8 * (i % 2)) true fun y d' =>
                !y.host && !badAt d' y.key 8
            | none => true)) = true := by decide +kernel

/-- Publication: an unpublished byte, and a byte that the core has not written. -/
theorem test_hyps_publication :
    (let s := withCore State.reset fun c => { c with cache := { c.cache with dirty := [(0x100, 7)] } }
     decide (0 < s.dev.cores.length) && s.dev.mem.wf && decide (((s.dev.core 0).cache.dirty.map (·.1)).Pairwise (· < ·)) &&
       (s.dev.core 0).cache.remote == [] && (s.dev.core 0).cache.pub == none &&
       (s.dev.core 0).cache.dirty.find 0x100 == some 7 && !isHostKey 0x100 &&
       (s.dev.core 0).cache.dirty.find 0x101 == none && (s.dev.core 0).cache.sent.find 0x101 == none) = true := by
  decide +kernel

/-! ## Hypotheses met: system registers, invalidation, thread control -/

/-- A wrsr of a register with the value in L0. -/
def wrsrWord (num : BitVec 16) : MU := ⟨3, 0, 0x40, 0xFF, 0xFF, 0xFF, 0, 0, 15, 0, 0, num⟩

/-- The wrsr placed, in a launch with or without system privilege. -/
def wrsrAt (num : BitVec 16) (v : Word) (priv : Bool) : State :=
  withCore (muAt 0xC4 (wrsrWord num) [] v 0 0) fun c => { c with bound := c.bound.map fun b => { b with priv := priv } }

/-- SystemRegisters: a permitted value of every register that RegistersWrite names, the largest where there is a
bound. -/
theorem test_hyps_register_writes :
    ([(0x010, 0x3F), (0x011, 0x3F), (0x020, 0xFF), (0x030, 2 ^ 56 - 64), (0x031, 2 ^ 56 - 8), (0x040, 2 ^ 48 - 2048),
      (0x041, 2 ^ 16 - 1), (0x050, 2 ^ 56 - 64), (0x051, 2 ^ 32 - 1), (0x052, 1), (0x070, 2 ^ 16 - 1), (0x0B1, 40000),
      (0x090, 0), (0x091, 2 ^ 56 - 64)].all fun p =>
      onReady (wrsrAt (BitVec.ofNat 16 p.1) (BitVec.ofNat 64 p.2) true) (muWord 0xC4 (wrsrWord (BitVec.ofNat 16 p.1)))
        fun e v _ _ => !e.pass.rev && e.bound.priv && zeroIn v (regReserved p.1) &&
          !regForbids (wrsrAt (BitVec.ofNat 16 p.1) (BitVec.ofNat 64 p.2) true).dev e.core p.1 v) = true := by
  decide +kernel

/-- SystemRegisters: a write without privilege, one of a register that cannot be written, and forbidden values; and a
read. -/
theorem test_hyps_register_refusals :
    (onReady (wrsrAt 0x011 1 false) (muWord 0xC4 (wrsrWord 0x011)) (fun e _ _ _ => !e.pass.rev && !e.bound.priv) &&
     onReady (wrsrAt 0x0A0 1 true) (muWord 0xC4 (wrsrWord 0x0A0)) (fun e _ _ _ => !e.pass.rev) &&
     onReady (wrsrAt 0x041 0x10000 true) (muWord 0xC4 (wrsrWord 0x041))
       (fun e v _ _ => !e.pass.rev && e.bound.priv && decide (2 ^ 16 ≤ v.toNat)) &&
     onReady (wrsrAt 0x051 0 true) (muWord 0xC4 (wrsrWord 0x051)) (fun e v _ _ => !e.pass.rev && e.bound.priv && v == 0) &&
     onReady (placed 128 0xC330FFFFFFFF00F00000000000000070 0 0 0)
       (muWord 0xC3 ⟨3, 0, 0xFF, 0xFF, 0xFF, 0xFF, 0, 0, 15, 0, 0, 0x070⟩) fun _ _ _ _ => true) = true := by
  decide +kernel

/-- SystemRegisters: an invalidation of a page, an address space and all, with and without a store pending through the
page. -/
theorem test_hyps_invalidation : ([0x8000, 0x8001, 0x8002].all fun v =>
    [[], [(⟨0, .home 0x8000, 0x8000, 8, 0, true, ⟨0, 0x8000, 4096⟩⟩ : Store)]].all fun st =>
    let s := withCore (wrsrAt 0x042 (BitVec.ofNat 64 v) true) fun c =>
      { c with pass := c.pass.map fun p => { p with lanes := p.lanes.map fun l => { l with stores := st } } }
    onReady s (muWord 0xC4 (wrsrWord 0x042)) fun e v _ _ => !e.pass.rev && e.bound.priv &&
      zeroIn v (regReserved 0x042) && writePending s.dev (s.dev.core e.core).regs.xlasid.toNat (fld v 3 0) (fld v 55 12 * 4096) == !st.isEmpty &&
      outsideComps s.dev == []) = true := by decide +kernel

/-- The headers of a control-store image of one microword at 4, and of a routine of 4 bytes in slot 3. -/
def imageHeaders : List (BitVec 16 × List Word) :=
  [(0x080, [0x4D570100_00040001, 0, 0, 0]), (0x060, [0x5852010300000000, 0x400000100, 9, 0])]

/-- SignedLoads: the headers of a control-store image and of a routine. -/
theorem test_hyps_store_header : StoreHeader (bytesOfWords [0x4D57010000040001, 0, 0, 0]) 4 1 := by
  have h : wordsOf 4 (bytesOfWords [0x4D57010000040001, 0, 0, 0]) = [0x4D57010000040001, 0, 0, 0] := by decide +kernel
  unfold StoreHeader; rw [h]; decide +kernel

theorem test_hyps_routine_header :
    RoutineHeader (bytesOfWords [0x5852010300000000, 0x400000100, 9, 0]) 3 4 256 0 9 := by
  have h : wordsOf 4 (bytesOfWords [0x5852010300000000, 0x400000100, 9, 0]) = [0x5852010300000000, 0x400000100, 9, 0] := by
    decide +kernel
  unfold RoutineHeader; rw [h]; decide +kernel

/-- SignedLoads: an image without a header, and one with a good header; which signatures hold is a free value (log
11). -/
theorem test_hyps_signed_loads :
    (imageHeaders.all fun h => [[], cellsOf 0x4000 h.2].all fun more =>
      let s := wrsrAt h.1 0x4000 true
      let s : State := { s with dev := { s.dev with mem := { s.dev.mem with home := s.dev.mem.home ++ more } } }
      onReady s (muWord 0xC4 (wrsrWord h.1)) fun e v _ _ => !e.pass.rev && e.bound.priv &&
        zeroIn v (regReserved h.1.toNat) &&
        fetchV s.dev e.core true v.toNat 32 == some (if more = [] then List.replicate 32 0 else bytesOfWords h.2) &&
        (fetchV s.dev e.core true v.toNat 44).isSome) = true := by decide +kernel

/-- ThreadRequests: a good request, a RESTART with its block, one without rights and one that names no thread. -/
theorem test_hyps_thread_control :
    (let w : MU := ⟨3, 0, 0x40, 0x41, 0x42, 0xFF, 0, 0, 15, 0, 0, 0⟩
     let at_ (a b c : Word) (priv : Bool) : State := withCore (muAt 0xC2 w [] a b c) fun k =>
       { k with bound := k.bound.map fun b => { b with priv := priv } }
     (Instr.thCtlResume w).wf &&
     onReady (at_ 0 0 0 true) (muWord 0xC2 w) (fun e a b _ => !e.pass.rev && e.bound.priv && decide (a.toNat < 2 ^ 26) &&
       decide (b.toNat < 2) && coreOfCode (fld a 25 16) == some 0) &&
     onReady (at_ 0 1 255 true) (muWord 0xC2 w) (fun _ _ b c => b == 1 && decide (c.toNat ≤ 255)) &&
     onReady (at_ 0 1 256 true) (muWord 0xC2 w) (fun _ _ b c => b == 1 && decide (255 < c.toNat)) &&
     onReady (at_ 0 0 0 false) (muWord 0xC2 w) (fun e _ _ _ => !e.bound.priv && e.bound.handler != some e.bound.record) &&
     (let s := withCore (at_ 0 0 0 false) fun k =>
        { k with handling := .armed, bound := k.bound.map fun b => { b with handler := some b.record } }
      onReady s (muWord 0xC2 w) fun e _ _ _ => !e.bound.priv && e.bound.handler == some e.bound.record &&
        s.dev.cores.any fun m => m.handling == .armed && m.bound.any (·.run == e.bound.run)) &&
     onReady (at_ 0x1000 0 0 true) (muWord 0xC2 w) fun _ a _ _ => fld a 15 12 != 0) = true := by decide +kernel

/-! ## Hypotheses met: exits, faults and returns -/

/-- One word of each exit kind, with the exit it is. -/
def exitWords : List (Nat × Instr) := [
  (0x01FFFFFF0100FF00, .exitBr ⟨0xFF, 0xFF, 0xFF, 1, 0, 0xFF, 0⟩),
  (0x0240FFFF0102FF00, .exitCbr ⟨0x40, 0xFF, 0xFF, 1, 2, 0xFF, 0⟩),
  (0x0340FFFF0000FF00, .exitInd ⟨0x40, 0xFF, 0xFF, 0, 0, 0xFF, 0⟩),
  (0x0440FFFF0002FF00, .exitSw ⟨0x40, 0xFF, 0xFF, 0, 2, 0xFF, 0⟩),
  (0x05FFFFFF0000FF00, .exitRetire ⟨0xFF, 0xFF, 0xFF, 0, 0, 0xFF, 0⟩),
  (0x06FFFFFF0000FF05, .exitTrap ⟨0xFF, 0xFF, 0xFF, 0, 0, 0xFF, 5⟩),
  (0x08FFFF410100FF02, .exitBar ⟨0xFF, 0xFF, 0x41, 1, 0, 0xFF, 2⟩),
  (0x094041FF01000521, .exitWait ⟨0x40, 0x41, 0xFF, 1, 0, 0x05, 0x21⟩),
  (0x0AFFFF410100FF02, .exitPhase ⟨0xFF, 0xFF, 0x41, 1, 0, 0xFF, 2⟩),
  (0x0CFFFFFF0102FF00, .exitDfwd ⟨0xFF, 0xFF, 0xFF, 1, 2, 0xFF, 0⟩),
  (0x0DFFFFFF0000FF00, .exitDrev ⟨0xFF, 0xFF, 0xFF, 0, 0, 0xFF, 0⟩)]

/-- The pass of core 0, and p of it and of its image. -/
def onPass (s : State) (p : Pass → Plane → Bool) : Bool :=
  match (s.dev.core s.focus.core).pass, (s.dev.core s.focus.core).active with
  | some q, some pl => p q pl
  | _, _ => false

/-- Exits: every exit word, in a header frame, with a beat of one thread that is complete; and a beat whose node has
not fired. -/
theorem test_hyps_exits :
    (exitWords.all fun x => (exitOutcome x.2).isSome && x.2.wf &&
      onPass (placed 256 (2 ^ 56 + 2 ^ 128 * x.1) 8 5 0) fun p pl => !p.rev && beatReady pl.words p &&
        (match decodeExit (imgExit pl.words) with
          | .ok i => i == x.2
          | _ => false)) = true ∧
    (onPass (placed 64 0x10004041FF050000 8 5 0) fun p pl => !beatReady pl.words p) = true := by decide +kernel

/-- Commits: a lane with a deferred store to each kind of place, in a core that does not record. -/
theorem test_hyps_commit :
    (let ss : List Store := [⟨4, .scratch 8, 8, 8, 7, false, .none⟩, ⟨1, .home 0x4000, 0x4000, 4, 9, false, .none⟩,
      ⟨2, .remote 1 0x100, 0x200100, 2, 3, false, .none⟩]
    let s := withCore (placed 64 0x10004041FF050000 8 5 0) fun c =>
      { c with pass := c.pass.map fun p => { p with lanes := p.lanes.map fun l => { l with stores := ss } } }
    match envOf s.dev s.clock s.focus with
    | some e => decide (e.core < s.dev.cores.length) && decide (e.l.tid < (s.dev.core e.core).threads.length) &&
        fld (s.dev.core e.core).regs.dmode 1 0 != 1 && (s.dev.core e.core).scratch.wf && e.l.stores == ss &&
        (storesOf e.l).map (·.node) == [1, 2, 4]
    | none => false) = true := by decide +kernel

/-- A fault record at block 3. -/
def rec3 : Record := ⟨1, 255, 3, 0x0005, 0x17FFF8, false, false, false, 0, 1, [7, 0, 0, 0]⟩

/-- FaultsAndReturns: a record; a core whose records can be written, at the last aligned address of the mapped space,
one whose records cannot, and one whose records lie in a bad line, or beside one. -/
theorem test_hyps_fault : rec3.node < 256 ∧ rec3.block < 256 ∧ rec3.code < 2 ^ 16 ∧ rec3.replay.length = 4 ∧
    (let s := withCore (muAt 0x01 (u64At 0 0) [] 0 0 0) fun c =>
      { c with regs := { c.regs with faultbase := 2 ^ 30 - 64 } }
     s.dev.mem.wf && decide (0 < s.dev.cores.length) && decide (0 < (s.dev.core 0).threads.length) &&
       onOk (access s.dev 0 ((s.dev.core 0).regs.faultbase.toNat + 64 * 0) true true) fun _ _ => true) = true ∧
    (match access (placed 64 0 0 0 0).dev 0 0 true true with
      | (.error _, _) => true
      | _ => false) = true ∧
    (let s := muAt 0x01 (u64At 0 0) [] 0 0 0
     let d := { s.dev with mem := { s.dev.mem with bad := [0x5000] } }
     onOk (access d 0 0x5000 true true) (fun x d => badAt d x.key 64) &&
       onOk (access d 0 0x5040 true true) fun x d => !badAt d x.key 64) = true := by decide +kernel

/-- FaultsAndReturns: a FAULTED and a HALTED thread whose records can, and cannot, be read. -/
theorem test_hyps_resume : ([Status.faulted 3, .halted 3].all fun st =>
    let set (s : State) : State := withCore s fun c => { c with threads := [{ Thread.fresh with status := st }] }
    let read (s : State) : Bool := match (engRead s.dev 0 true (recordAddr s.dev 0 0) 64).1 with
      | .ok _ => true
      | _ => false
    (threadOf (set (placed 64 0 0 0 0)).dev 0 0).status == st && !read (set (placed 64 0 0 0 0)) &&
      read (set (muAt 0x01 (u64At 0 0) [] 0 0 0))) = true := by decide +kernel

/-! ## Hypotheses met: the selector, waits, held accesses -/

/-- A core that holds a launch of some threads and runs no pass. -/
def idle (ts : List Status) (s : State) : State :=
  withCore s fun c => { c with
    bound := some { soloBound with nthreads := ts.length, table := 0x4000, nblk := 1 }
    threads := ts.map fun x => { Thread.fresh with status := x } }

/-- SelectorChoice: a choice by population, and one by age. -/
theorem test_hyps_choice :
    (let c := (idle [.waiting 3, .waiting 5, .waiting 5] State.reset).dev.core 0
     candidates c == [3, 5] && chooseBlock c [3, 5] == some 5 &&
       chooseBlock { c with ages := [(3, 16)] } [3, 5] == some 3) = true := by decide +kernel

/-- PassesStart, PASS_SELECT: a core that may select. -/
theorem test_hyps_select :
    (let s := idle [.waiting 3, .waiting 255, .waiting 255] State.reset
     decide (0 < s.dev.cores.length) && maySelect (s.dev.core 0) && (s.dev.core 0).threads.all (!·.haltReq) &&
       fld (s.dev.core 0).regs.dmode 1 0 == 0 && (s.dev.core 0).ages.wf &&
       chooseBlock (s.dev.core 0) (candidates (s.dev.core 0)) == some 255) = true := by decide +kernel

/-- The image of block b at an address: one frame of holes, and exit.retire. -/
def imageAt (a : Nat) (b : BitVec 8) : Cells 8 :=
  ([(a + 4, 1), (a + 5, 4), (a + 6, b), (a + 7, 1), (a + 0x11, 0xFF), (a + 0x14, 0xFF), (a + 0x15, 0xFF),
    (a + 0x16, 0xFF), (a + 0x17, 5), (a + 0x19, 3), (a + 0x1A, 1 + b), (a + 0x1B, 7)] : Cells 8).filter fun x => x.2 != 0

/-- A block table with two entries, at 0x4000, and their images. -/
def blocks : Cells 8 := [(0x4001, 0x50), (0x4009, 0x60)] ++ imageAt 0x5000 0 ++ imageAt 0x6000 1

/-- PassesStart: the image of a predicted block loads, and that of a block beyond the table does not; the image of the
block that a pass waits for. -/
theorem test_hyps_planes :
    (let s := withCore (mapped blocks (idle [.streaming, .waiting 1] State.reset)) fun c =>
       { c with
         predicted := some 1
         bound := c.bound.map fun b => { b with nblk := 2 }
         pass := some ⟨0, 0, [soloLane], 0, true, false, false, 0, []⟩ }
     decide (0 < s.dev.cores.length) && (s.dev.core 0).predicted == some 1 && (s.dev.core 0).defects == [] &&
     onOk (loadImage s.dev 0 1) (fun _ _ => true) && !onOk (loadImage s.dev 0 2) (fun _ _ => true) &&
     onOk (loadImage s.dev 0 0) fun _ d => decide (d.cores.length = s.dev.cores.length) &&
       (d.core 0).pass == some ⟨0, 0, [soloLane], 0, true, false, false, 0, []⟩) = true := by decide +kernel

/-- A parked thread's entry. -/
def parkOf (k : ParkKind) (deadline : Option Nat) : Park := ⟨k, 0, 1, some 5, deadline, false⟩

/-- WaitsAndPhases: each condition of an exit.wait on a scratch word, holding and not. -/
theorem test_hyps_waits :
    ([(0, 7, true), (0, 8, false), (1, 8, true), (1, 7, false), (2, 7, true), (2, 8, false), (3, 1, true),
      (3, 8, false)].all fun p =>
      let s := withCore (idle [.parked (parkOf (.wait 1 p.1 (.scratch 0x17FFF8) (BitVec.ofNat 64 p.2.1)) none)] State.reset)
        fun c => { c with scratch := [(0x17FFF8, 7)] }
      decide (0 < s.dev.cores.length) && decide (0 < (s.dev.core 0).threads.length) &&
      fld (s.dev.core 0).regs.dmode 1 0 == 0 && (s.dev.core 0).tapeFail == none && (threadOf s.dev 0 0).live.wf &&
      condHolds p.1 (scratchWord s.dev 0 0x17FFF8) (BitVec.ofNat 64 p.2.1) == p.2.2) = true := by decide +kernel

/-- WaitsAndPhases: a wait on a word of a host-mapped page; a timeout at its clock, before it, and none; a phase. -/
theorem test_hyps_timeouts :
    (let s := idle [.parked (parkOf (.wait 4 0 (.home hostBase) 0) none)] State.reset
     waitsOnHost (threadOf s.dev 0 0) && condHolds 0 (waitWordOf s.dev 0 4 (.home hostBase)) 0) = true ∧
    (waitsOnHost (threadOf (idle [.waiting 0] State.reset).dev 0 0)) = false ∧
    ([some 10, some 9, none].all fun dl =>
      let s := idle [.parked (parkOf (.bar 1) dl)] { State.reset with clock := 9 }
      (threadOf s.dev 0 0).status == .parked (parkOf (.bar 1) dl) && !inPhase (s.dev.core 0) 0 &&
        !waitHolds s.dev 0 (.bar 1)) = true ∧
    ((withCore (idle [.parked (parkOf (.phase 3) none)] State.reset) fun c => { c with phase := some ([0], 3) }).dev.core
      0).phase = some ([0], 3) := by decide +kernel

/-- ThreadRequests: a core that applies its requests, and one whose pass runs. -/
theorem test_hyps_apply :
    (let s := idle [.faulted 1] State.reset
     (s.dev.core 0).bound.isSome && (s.dev.core 0).pass.isNone && fld (s.dev.core 0).regs.dmode 1 0 != 2 &&
       (s.dev.core 0).preempt != .saved && ((placed 64 0 0 0 0).dev.core 0).pass.isSome &&
       fld ((withCore s fun c => { c with regs := { c.regs with dmode := 2 } }).dev.core 0).regs.dmode 1 0 == 2) = true := by decide +kernel

/-- A state with accesses of its one lane held. -/
def heldAt (h : Tbl Held) (s : State) : State :=
  withCore s fun c => { c with pass := c.pass.map fun p => { p with lanes := [{ soloLane with held := h }] } }

/-- HeldAccesses: three held accesses, of which one waits, one is woken and its walk succeeds, and one is woken and its
walk fails; of these the first two have expired and the last has not; a walk in flight for a page. -/
theorem test_hyps_held :
    (let hs : Tbl Held := [(0, ⟨0x4000, 0, false, false⟩), (3, ⟨0x4000, 0, true, false⟩), (5, ⟨2 ^ 40, 9, true, false⟩)]
     let s := heldAt hs (muAt 0x01 (u64At 0 0) [] 0x4000 0 0)
     let s := withCore s fun c => { c with regs := { c.regs with xltimeout := 8 } }
     let s := { s with clock := 8, dev := s.dev.modCluster 0 fun c => { c with walks := [⟨0, 3, 4⟩] } }
     let root := (s.dev.core 0).regs.xlroot.toNat
     let expired (h : Held) : Bool := decide (h.since + (s.dev.core 0).regs.xltimeout.toNat ≤ s.clock)
     decide (0 < s.dev.cores.length) && (s.dev.core 0).bound.isSome && (laneAt s.dev 0 0).any (·.held == hs) &&
       decide ((hs.map (·.1)).Pairwise (· < ·)) && (s.dev.cluster 0).walks == [⟨0, 3, 4⟩] &&
       (walk s.dev root 0x4000).isSome && (walk s.dev root (2 ^ 40)).isNone &&
       hs.map (fun h => expired h.2) == [true, true, false]) = true := by decide +kernel

/-- FaultReports: nothing to report; a FAULTED thread whose entry is written, one for the driver, and a list that cannot
be read. -/
theorem test_hyps_reports :
    ([(Status.faulted 1, 0x8000, true), (.faulted 1, 2 ^ 40, false)].all
      fun p =>
        let s := withCore (mapped [] (idle [p.1] State.reset)) fun c =>
          { c with bound := c.bound.map fun b => { b with flist := p.2.1, handler := some 5 } }
        let es := heldEntries (s.dev.core 0) ++ boundaryEntries (s.dev.core 0)
        (match engReadWord s.dev 0 true p.2.1 with
          | (.ok n, d) => n == 0 && p.2.2 && (match putEntries 0 0x8000 0 es d with
              | some d => onOk (listCounts d 0 0x8000) fun _ d => onOk (ownWrite d 0 0x8000 (toBytes 8 es.length)) fun _ _ => true
              | none => false)
          | (.error _, _) => !p.2.2)) = true ∧
    ([(false, 0), (true, 3)].all fun p =>
      let s := withCore (idle [.faulted 1] State.reset) fun c =>
        { c with threads := c.threads.map fun t => { t with recFailed := p.1 } }
      (heldEntries (s.dev.core 0) ++ boundaryEntries (s.dev.core 0)).map (·.kind) == [p.2]) = true ∧
    (let c := (idle [.waiting 1] State.reset).dev.core 0
     heldEntries c ++ boundaryEntries c) = [] := by decide +kernel

/-- A core with a Traverse trap of cause 1 that needs 0x100 bytes; its control header's word 2 at 0x8010. -/
def trapped (cmd : Cells 8) : State :=
  withCore (mapped cmd (idle [.waiting 1] State.reset)) fun c => { c with
    trap := some ⟨1, 0x8040, 0x100, []⟩
    regs := { c.regs with tapebase := 0x8000, tapehead := 0x8040, tapelimit := 0x8080 } }

/-- TraverseAndSweep: no trap; a limit that leaves just room, one that does not, and an abort. -/
theorem test_hyps_traverse :
    (let c := (trapped [(0x8010, 0x40), (0x8011, 0x81), (0x8017, 1)]).dev.core 0
     c.trap.isSome && c.preempt != .saved) = true ∧
    (traverseCmd (trapped [(0x8010, 0x40), (0x8011, 0x81), (0x8017, 1)]).dev 0).1 = (1, 0x8140) ∧
    (traverseCmd (trapped [(0x8010, 0x38), (0x8011, 0x81), (0x8017, 1)]).dev 0).1 = (1, 0x8138) ∧
    (traverseCmd (trapped [(0x8017, 2)]).dev 0).1 = (2, 0) ∧
    (let d := (traverseCmd (trapped [(0x8010, 0x40), (0x8011, 0x81), (0x8017, 1)]).dev 0).2
     (d.core 0).tapeFail.isNone && (d.core 0).wakes == [] && decide (d.cores.length = 384) &&
       (d.core 0).regs.tapehead.toNat + 0x100 == 0x8140) = true ∧
    ((idle [.waiting 1] State.reset).dev.core 0).trap = none := by decide +kernel

/-- A core in a reverse sweep whose tape from 0x8040 on is words, with HEAD behind them. -/
def sweeping (words : List Word) : State :=
  withCore (mapped (cellsOf 0x8040 words) (idle [.parked (parkOf .drev none)] State.reset)) fun c => { c with
    regs := { c.regs with dmode := 2, tapebase := 0x8000, tapehead := BitVec.ofNat 64 (0x8040 + 8 * words.length) } }

/-- TraverseAndSweep: a recording core whose one live thread has arrived; in a sweep, a LIVE, a STORE, a PASS and a MARK
record below HEAD, the PASS record with a STORE record of 8 bytes as its data, of a block with and without DIFF. -/
theorem test_hyps_sweep :
    (let s := withCore (idle [.parked (parkOf .drev none)] State.reset) fun c =>
       { c with regs := { c.regs with dmode := 1 } }
     sweepFree (s.dev.core 0) && fld (s.dev.core 0).regs.dmode 1 0 == 1 && (s.dev.core 0).wakes == [] &&
       allArrived s.dev [0] isDrev) = true ∧
    ([(4, [9, 0x0400100000000005]), (3, [0x4000, 9, 0x0300180000000008]), (1, [7, 0x0100100000000000])].all
      fun (p : Nat × List Word) =>
        let s := sweeping p.2
        let head := (s.dev.core 0).regs.tapehead.toNat
        sweepFree (s.dev.core 0) && onOk (recordBelow s.dev 0 head) fun r d =>
          r.kind == p.1 && ((s.dev.core 0).bound.map (·.nthreads)) == some 1 &&
            (d.core 0).bound == (s.dev.core 0).bound && (p.1 != 3 ||
              onOk (vplan d 0 true 2 (r.words.getD 0 0).toNat r.info) fun ps _ => ps == [(0x4000, 8)])) = true ∧
    ([0, 1].all fun diff =>
      let s := withCore (sweeping [0x4000, 9, 0x0300180000000008, 5, 24, 0xFFFF_FFFF_FFFF_0000, 0x0200200000000001]) fun c =>
        { c with active := some ⟨0, [diff]⟩ }
      let head := (s.dev.core 0).regs.tapehead.toNat
      onOk (recordBelow s.dev 0 head) fun r d => r.kind == 2 && passTids 1 r == some [0] && (r.words.getD 1 0) == 24 &&
        (let d := d.modCore 0 fun c => { c with regs := { c.regs with tapehead := BitVec.ofNat 64 r.start } }
        onOk (popData d 0 2 24) fun st d => st == [(0x4000, 8)] && ((d.core 0).defects.find 0).isNone &&
          (planeOf (d.core 0) 0).any fun ws => imgDiff ws == (diff == 1) && (d.core 0).bound.any fun b =>
            onOk (clearCells d 0 b st) fun _ _ => true)) = true := by
  decide +kernel

/-- Preemption: a request that is sent to a core whose lane holds accesses, and one that is not sent. -/
theorem test_hyps_preempt :
    (let s := withCore (heldAt [(0, ⟨0x4000, 0, false, false⟩)] (placed 64 0 0 0 0)) fun c => { c with preemptSent := true }
     (s.dev.core 0).bound.isSome && (s.dev.core 0).preempt == .none && (laneAt s.dev 0 0).any (!·.held.isEmpty) &&
       !((placed 64 0 0 0 0).dev.core 0).preemptSent) = true := by decide +kernel

/-- Preemption: a pass that a chr on an empty channel holds, of a thread whose record can be updated; a core that may
save, and one that may not. -/
theorem test_hyps_drain :
    (let w : MU := ⟨3, 0, 0x40, 0xFF, 0xFF, 0x05, 4, 0, 15, 0, 0, 0⟩
     let s := withCore (mapped [] (placed 128 (packMU 0x19 w) 15 0 0)) fun c =>
       { c with preempt := .requested, bound := some { soloBound with ncores := 2, stages := 2, cidx := 1 } }
     passHeld s.dev s.clock 0 && (s.dev.core 0).pass.isSome && s.dev.mem.wf &&
       onOk (access s.dev 0 16 true true) fun x d => !badAt d x.key 40) = true ∧
    (let s := withCore (idle [.waiting 1] State.reset) fun c => { c with preempt := .requested }
     (s.dev.core 0).bound.any fun b => maySave s.dev 0 b && !maySave State.reset.dev 0 b) = true := by decide +kernel

/-- Preemption: a core that awaits its context, of one thread, which lies at 1 MiB. -/
def awaiting : State :=
  withCore (mapped [(0x100278, 1)] (idle [.waiting 1] State.reset)) fun c => { c with
    preempt := .saved
    bound := c.bound.map fun b => { b with save := 0x100000 } }

/-- Preemption: a save area whose parts can be read, and one whose parts cannot. -/
theorem test_hyps_restore :
    (awaitsRestore awaiting.dev (awaiting.dev.core 0) &&
      !onOk (readSave (refresh (idle [.waiting 1] State.reset).dev 0 4) 0 0x100000 fixedParts) (fun _ _ => true) &&
      onOk (readSave (refresh awaiting.dev 0 4) 0 0x100000 fixedParts) fun parts d =>
        ofBytes (((parts.headD []).drop 0x278).take 1) == 1 &&
          onOk (readSave d 0 0x100000 [(0x277000, 256)]) fun _ _ => true) = true := by decide +kernel
/-! ## Hypotheses met: engine command nodes -/

/-- An engine node's word placed with operands x, and a descriptor at an address of the scratchpad. -/
def engAt (n : Nat) (x : Word) (desc : Nat) (ws : List Word) : State :=
  let s := mapped [] (placed 128 n x x x)
  { s with dev := scratchWrite s.dev 0 desc (bytesOfWords ws) }

/-- Is the placed engine node ready, well formed, and p met? -/
def engMeets (n : Nat) (s : State) (p : Env → Nat → MU → Bool) : Bool :=
  match decodeMU n with
  | .ok i => i.wf && (match wordOf i with
    | .mu opc w => onReady s (muWord opc w) fun e _ _ _ => p e opc w
    | _ => false)
  | _ => false

/-- A descriptor whose completion word is the last word of the scratchpad. -/
def descOf (w0 w1 w2 w3 w4 w5 : Word) : List Word := [w0, w1, w2, w3, w4, w5, 0x4000_0000_0017_FFF8, 7]

/-- An engine node of each family; test_hyps_memory_nodes has every one. -/
def engSome : List Nat := [0x40004041420510f00000000000000000, 0x50404041420510f00000000000000000,
  0x60004041420510f00000000000000000, 0x68704041420510f00000000000000000, 0x80004041420510f00000000000000000]

/-- The Issues statements: an engine node with its descriptor at the last address, one beyond it, misaligned, and on
a line with uncorrectable data. -/
theorem test_hyps_issues_address : (engSome.all fun n =>
    engMeets n (engAt n 0x17FFC0 0x17FFC0 []) (fun e _ w => !e.pass.rev &&
      descAddr w 0x17FFC0 == 0x17FFC0 && !scratchBadAt (engAt n 0x17FFC0 0x17FFC0 []).dev e.core 0x17FFC0 64) &&
    engMeets n (engAt n 0x17FFC1 0 []) (fun _ _ w => decide (0x17FFC0 < descAddr w 0x17FFC1)) &&
    engMeets n (engAt n 0x17FFBF 0 []) (fun _ _ w => descAddr w 0x17FFBF == 0x17FFBF)) = true := by decide +kernel

theorem test_hyps_issues_bad_line : (engSome.all fun n =>
    let s := withCore (engAt n 0x40 0 []) fun c => { c with scratchBad := [0x40] }
    engMeets n s fun e _ w => scratchBadAt s.dev e.core (descAddr w 0x40) 64) = true := by decide +kernel

/-- Does the check of the completion word in the placed engine node's descriptor pass? -/
def compPasses (n : Nat) (ws : List Word) : Bool :=
  engMeets n (engAt n 0 0 ws) fun e _ w =>
    match compCheck (engAt n 0 0 ws).dev e ((descWords (engAt n 0 0 ws) e w 0).getD 6 0)
        ((descWords (engAt n 0 0 ws) e w 0).getD 7 0) with
    | (.ok _, _) => true
    | (.error _, _) => false

/-- The Issues statements: a completion word in scratch and one in global memory, and a value with bit 63. -/
theorem test_hyps_issues_comp : (engSome.all fun n => compPasses n (descOf 0x40 0 0 0 0 0) &&
    compPasses n [0, 0, 0, 0, 0, 0, 0x4000, 7] && !compPasses n [0, 0, 0, 0, 0, 0, 0x4000, 0x8000000000000000]) = true := by
  decide +kernel

/-- A copy slot that holds a cp of n bytes within the scratchpad. -/
def slotOf (src dst n : Word) : CopySlot := CopySlot.fresh 0x40 (descOf 0x40 src dst n 0 0) ⟨.scratch 0x17FFF8, 0, 7, .none⟩ 0

/-- A queued matrix command. -/
def mxCmd (opc typ : Nat) (ws : List Word) : MxCmd :=
  MxCmd.fresh opc typ false ws ⟨.scratch 0x17FFF8, 0, 7, .none⟩ false

/-- A link operation of the sole core's run. -/
def linkOp (opc : Nat) (ws : List Word) : LinkOp where
  run := 0
  cidx := 0
  opc := opc
  desc := ws
  comp := ⟨.scratch 0x17FFF8, 0, 7, .none⟩
  root := 0x1000
  priv := false
  group := none
  since := 0
  timeout := 0
  parts := []
  sent := false
  fence := []
  steps := 0
  sends := 0
  recvs := 0
  acks := 0
  advance := none
  code := 0
  failed := false
  ended := false

/-- A job that Meridian runs at microaddress 4, on M0 to M3 as given. -/
def jobOf (m : List Word) : Job :=
  ⟨⟨[], ⟨.scratch 0x17FFF0, 0, 9, .none⟩, 0, 1, 0⟩, m ++ List.replicate (16 - m.length) 0, [0, 0, 0, 0], false, false, false, 4,
    List.replicate 4 default, false, none, [], none, false, 0⟩

/-- A full request queue of an Infill engine has 256 of these. -/
def request (id : Nat) : FillReq := ⟨id, 2, 30, 0x9000, 3, 0xA000, 5, 0x1000, false⟩

/-- CopyCommandsIssue, MatrixCommandsIssue, MeridianNodesIssue, InfillNodesIssue, LinkNodesIssue: with a free place and
with none. -/
theorem test_hyps_issues_free :
    (let free (n : Nat) (f : Core → Core) (p : Env → Device → Bool) : Bool :=
      let s := engAt n 0 0 []
      let u := withCore s f
      engMeets n s (fun e _ _ => p e s.dev) && engMeets n u fun e _ _ => !p e u.dev
    ([0x40004041420510f00000000000000000, 0x47004041420510f00000000000000000].all fun n => free n (fun c => { c with copy := (List.range 96).map fun i => (i, slotOf 0 0 0) })
      fun e d => decide ((d.core e.core).copy.length + flightTags (d.core e.core) < 96)) &&
    ([0x50404041420510f00000000000000000, 0x5c004041420510f00000000000000000].all fun n => free n
      (fun c => { c with mx := { c.mx with queue := List.replicate 8 (mxCmd 0x59 0 []) } })
      fun e d => (d.core e.core).mer.job.isNone && decide ((d.core e.core).mx.queue.length < 8)) &&
    free 0x60004041420510f00000000000000000
      (fun c => { c with mer := { c.mer with queued := some ⟨[], ⟨.scratch 0, 0, 0, .none⟩, 0, 1, 0⟩ } })
      (fun e d => (d.core e.core).mer.queued.isNone) &&
    ([0x61, 0x64].all fun opc => free (opc * 2 ^ 120 + 0x4041420510f00000000000000000)
      (fun c => { c with mer := { c.mer with table := List.replicate 8 ⟨0x62, [], ⟨.scratch 0, 0, 0, .none⟩⟩ } })
      fun e d => decide ((d.core e.core).mer.table.length < 8))) = true := by decide +kernel

theorem test_hyps_issues_free_fill_link :
    (([0x68704041420510f00000000000000000, 0x69004041420510f00000000000000000].all fun n =>
      let p (s : State) (f : Nat → Bool) : Bool := engMeets n s fun e _ _ =>
        f (s.dev.cluster (clusterOf e.core)).fillQueue.length
      let s := engAt n 0 0 []
      let u : State := { s with dev := { s.dev with
        clusters := s.dev.clusters.set 0 { Cluster.reset with fillQueue := (List.range 256).map request } } }
      p s (fun k => decide (k < 256)) && p u fun k => !decide (k < 256)) &&
    ([0x80, 0x86].all fun opc =>
      let n := opc * 2 ^ 120 + 0x4041420510f00000000000000000
      let p (s : State) (f : Nat → Bool) : Bool := engMeets n s fun e _ _ =>
        f (linksOf s.dev e.bound.run e.bound.cidx).length
      let s := engAt n 0 0 []
      let u : State := { s with dev := { s.dev with links := (List.range 256).map fun i => (i, linkOp 0x85 []) } }
      p s (fun k => decide (k < 256)) && p u fun k => !decide (k < 256))) = true := by decide +kernel

/-- MatrixCommandsIssue: room for ct.fill and none, room for a corner-turn mma and none. -/
theorem test_hyps_issues_ct_room :
    (let corner (f dd : Nat) (n : Nat) : State := withCore (engAt n 0 0 (descOf 0x4056 0 0 0 0 0)) fun c =>
      c.setCorner { c.mx.corner with shadowF := f, shadowD := dd }
    [(0x56004041420510f00000000000000000, 0, 0, true), (0x56004041420510f00000000000000000, 63, 64, false),
      (0x50414041420510f00000000000000000, 0, 64, true), (0x50414041420510f00000000000000000, 0, 0, false)].all fun p =>
      engMeets p.1 (corner p.2.1 p.2.2.1 p.1) fun e opc w =>
        ctRoom opc (w.mod.getLsbD 0) (descWords (corner p.2.1 p.2.2.1 p.1) e w 0) (p.2.1, p.2.2.1) == p.2.2.2) = true := by
  decide +kernel

/-- MatrixCommandsIssue: acc.drain and acc.fill while the engine is frozen, with and without system privilege. -/
theorem test_hyps_issues_drain : ([true, false].all fun priv =>
    [0x5a004041420510f00000000000000000, 0x5b004041420510f00000000000000000].all fun n =>
      let s := withCore (engAt n 0 0 (descOf 0 0 0 0 0 0)) fun c =>
        { c with frozen := true, bound := c.bound.map fun b => { b with priv := priv } }
      engMeets n s fun e _ _ => mxBypass (s.dev.core e.core) && e.bound.priv == priv) = true := by decide +kernel

/-- MatrixCommandsIssue, mx.post: a queue with a place and a full one, and a completion word in scratch. -/
theorem test_hyps_issues_post : (let n := 0x59004041420510f00000000000000000
    let m : MU := ⟨0, 0, 0x40, 0x41, 0x42, 0x05, 1, 0, 15, 0, 0, 0⟩
    let s := placed 128 (packMU 0x59 m) 0x17FFF8 7 0
    let u := withCore s fun c => { c with mx := { c.mx with queue := List.replicate 8 (mxCmd 0x59 0 []) } }
    onReady s (muWord 0x59 m) (fun e a v _ => onOk (compAt s.dev e 1 a v a.toNat) fun _ _ =>
      !((s.dev.core e.core).mer.job.isSome || decide (8 ≤ (s.dev.core e.core).mx.queue.length))) &&
    onReady u (muWord 0x59 m) (fun e _ _ _ => decide (8 ≤ (u.dev.core e.core).mx.queue.length)) &&
    muMeets n) = true := by decide +kernel

/-- MeridianNodesIssue: a resume of the core's own job, one of another cluster, and a defective one. -/
theorem test_hyps_issues_boundary : ([(0x60, true, some 0), (0x60 + 2 ^ 19, true, none), (0x860, false, some 0)].all
    fun (x : Nat × Bool × Option Nat) =>
      let n := 0x60014041420510f00000000000000000
      let s := engAt n 0 0 (descOf (BitVec.ofNat 64 x.1) 0 0 0 0 0)
      engMeets n s fun e opc w =>
        let ws := descWords s e w 0
        opc == 0x60 && resumeOk ws == x.2.1 &&
          (match targetCore s.dev e.core e.bound.run e.bound.priv (ws.getD 0 0) with
            | .ok t => some t
            | .error _ => none) == x.2.2) = true := by decide +kernel

/-- A resume of a gather that failed takes a slot of the copy engine, and waits where there is none. -/
theorem test_resume_room : ([0, 96].all fun k =>
    let s := withCore (engAt 0x60014041420510f00000000000000000 0 0 (descOf 0x60 0 0 0 0 0)) fun c => { c with
      copy := (List.range k).map fun i => (i, slotOf 0 0 0)
      mer := { c.mer with job := some { jobOf [] with
        stop := some 0x02030004, tags := [⟨.failed 2 0x5000, 0, 0, 0, 0, [], none, false⟩, default, default, default] } } }
    let s : State := { s with dev := { s.dev with cstore := [(4, BitVec.ofNat 96 (packMW 0x0E ⟨3, 0, 0, 0, 0, 0⟩))] } }
    lacksRoom s.dev 0 ⟨0, 0, true, descOf 0x60 0 0 0 0 0, ⟨.scratch 0, 0, 0, .none⟩⟩ == (k == 96)) = true := by
  decide +kernel

/-- InfillNodesIssue: confidence met and not met; a fill.sync of a good descriptor with and without requests, and of a
bad one. -/
theorem test_hyps_issues_infill :
    confPred 0x3F800000 0x3F000000 [0x001E_0002_0000_0000] = true ∧
    confPred 0x3F000000 0x3F800000 [0x001E_0002_0000_0000] = false ∧
    (let n := 0x6a004041420510f00000000000000000
    let s (q : List FillReq) : State :=
      let s := engAt n 0 0 (descOf 0x6A 0x9000 0 0 0 0)
      { s with dev := { s.dev with clusters := s.dev.clusters.set 0 { Cluster.reset with fillQueue := q } } }
    [([], []), ([request 4], [4])].all fun x => engMeets n (s x.1) fun e _ w =>
      requestsOf (s x.1).dev 0x1000 (adOf ((descWords (s x.1) e w 0).getD 1 0)) == x.2) = true := by decide +kernel

/-- LinkNodesIssue: a cl.put and a fenced cl.bar enter after another operation. -/
theorem test_hyps_issues_enter : (0x80 ≠ 0x86) ∧ (let s := engAt 0x80004041420510f00000000000000000 0 0 []
    match envOf s.dev s.clock s.focus with
    | some e => linksOf (enterLink s.dev e 0x80 [] ⟨.scratch 0, 0, 0, .none⟩) e.bound.run e.bound.cidx == [0]
    | none => false) = true := by decide +kernel

/-! ## Hypotheses met: the distributor's nodes -/

/-- A pool of two records at 0x100000 of device memory, record 1 of the given context and state. -/
def pool (ctx st : Nat) (s : State) : State :=
  { s with dev := homeWriteWord { s.dev with
      dist := { s.dev.dist with pool := 0x100000, count := 2 } } (recKey { s.dev with
      dist := { s.dev.dist with pool := 0x100000, count := 2 } } 1 0) (BitVec.ofNat 64 (ctx * 2 ^ 16 + st)) }

/-- DistributorNodes: a record that is there and mine, one that is not there, one of another context. -/
theorem test_hyps_distributor : ([(0x70, 1, 0), (0x70, 2, 0), (0x70, 1, 9), (0x71, 1, 0), (0x71, 2, 0), (0x71, 1, 9),
      (0x72, 1, 0), (0x72, 2, 0), (0x72, 1, 9), (0x73, 1, 0), (0x73, 2, 0), (0x73, 1, 9)].all fun p =>
    let w : MU := ⟨0, 0, if p.1 = 0x72 then 0x41 else 0x40, if p.1 = 0x72 then 0x40 else if p.1 = 0x70 then 0x42 else 0xFF,
      if p.1 = 0x72 then 0x42 else 0xFF, 0x05, 0, 0, 15, 0, 0, if p.1 = 0x70 then 4 else 0⟩
    let s := pool p.2.2 0 (muAt p.1 w [] (BitVec.ofNat 64 p.2.1) 0x8000 0)
    onReady s (muWord p.1 w) fun e a b _ => !e.pass.rev &&
      (let i := if p.1 = 0x72 then b else a
       decide (i.toNat < s.dev.dist.count.toNat) == (p.2.1 == 1) &&
       (p.2.1 == 2 || (fld (recWord s.dev i.toNat 0) 27 16 == e.bound.ctx) == (p.2.2 == 0)))) = true := by
  decide +kernel

/-- DistributorNodes, lr.bind: an address that can be read, with a table that has room; q.prio at its bounds. -/
theorem test_hyps_bind : (let w : MU := ⟨0, 0, 0x41, 0x40, 0x42, 0x05, 0, 0, 15, 0, 0, 0⟩
    let s := pool 0 0 (muAt 0x72 w [] 1 0x8000 0)
    onReady s (muWord 0x72 w) fun e a _ _ => decide (s.dev.dist.bindings.length < 4096) &&
      onOk (access s.dev e.core (effAddr e 15 a w.off 8).1 e.bound.priv false) fun x _ => !x.host) = true ∧
    (let w : MU := ⟨0, 0, 0x40, 0x41, 0xFF, 0x05, 0, 0, 15, 0, 0, 0⟩
    onReady (muAt 0x74 w [] 4095 7 0) (muWord 0x74 w) fun e q p _ => !e.pass.rev && q == 4095 && p == 7) = true := by
  decide +kernel

/-! ## Hypotheses met: what engines do -/

/-- Core 0 bound to a kernel of one thread, and changed by f. -/
def run (f : Core → Core) : State := withCore (mapped [] (placed 64 0 0 0 0)) f

/-- CopiesComplete: a cp within the scratchpad between ranges that meet, and one that names cluster scratch, in an
engine that runs and in one that is frozen. -/
theorem test_hyps_copies : ([(0x4000000000000000, false), (0x8000000000000000, true)].all fun p =>
    [true, false].all fun frozen =>
      let x := slotOf p.1 0x4000000000001000 0x1000
      let s := run fun c => { c with copy := [(95, x)], frozen := frozen }
      (s.dev.core 0).copy.find 95 == some x && namesCluster x == p.2 && (s.dev.core 0).frozen == frozen) = true ∧
    (let x := slotOf 0x4000000000000000 0x4000000000001000 0x1000
    let s := run fun c => { c with copy := [(95, x)], scratch := [(0, 7), (0xFFF, 9)] }
    (s.dev.core 0).copy.find 95 == some x && cpCodes x.desc == [] && spOf (x.desc.getD 1 0) == 1 &&
      spOf (x.desc.getD 2 0) == 1 && (s.dev.core 0).scratchBad == [] && (s.dev.core 0).scratch.wf &&
      decide (0 < s.dev.cores.length)) = true := by decide +kernel

/-- MxHead as a Bool. -/
def headB (s : State) (core : Nat) (q : MxCmd) (rest : List MxCmd) : Bool :=
  decide (core < s.dev.cores.length) && (s.dev.core core).mx.queue == q :: rest && !(s.dev.core core).frozen &&
    (s.dev.core core).inService && !testDue (s.dev.core core) && (s.dev.core core).mx.acc.wf

/-- Core 0 with a matrix queue and accumulator cells. -/
def mxAt (q : List MxCmd) (acc : Cells 32) : State := run fun c => { c with mx := { c.mx with queue := q, acc := acc } }

/-- mma commands of types f32, f64 and bf16 on the last rectangle of the store. -/
def mmaCmds : List MxCmd := [(4, 0x404040C0), (5, 0x804080C0), (6, 0x404040C0)].map fun p =>
  mxCmd 0x50 p.1 (descOf (BitVec.ofNat 64 (0x50 + p.2 * 256)) 0x4000000000000000 0x4000000000010000 0x02000200 0 0)

/-- MatrixProduct: mma of each type. -/
theorem test_hyps_mma : (mmaCmds.all fun q =>
    let s := mxAt [q, mxCmd 0x59 0 []] [(128 * 192 + 64, 0x3F800000)]
    headB s 0 q [mxCmd 0x59 0 []] && q.early == [] && lowestAt (mmaBreach (s.dev.core 0) false q.typ q.desc none) == none &&
      (rectOf (fld (q.desc.getD 0 0) 39 8)).isSome && (s.dev.core 0).scratchBad == [] &&
      (s.dev.core 0).mx.bad == []) = true := by decide +kernel

/-- An acc.zero of the last 2 × 2 cells. -/
def zeroCmd : MxCmd := mxCmd 0x52 0 (descOf 0x02027EFE52 0 0 0 0 0)

/-- MatrixCommandsRun: acc.zero, mx.post, and ct.flush on a partial half. -/
theorem test_hyps_matrix_run : headB (mxAt [zeroCmd] [(128 * 254 + 126, 5)]) 0 zeroCmd [] = true ∧
    rectOf (fld (zeroCmd.desc.getD 0 0) 39 8) = some ⟨254, 126, 2, 2, false⟩ ∧
    (let q := mxCmd 0x59 0 []
    headB (mxAt [q] []) 0 q []) = true ∧
    (let q := mxCmd 0x57 0 (descOf 0x57 0 0 0 0 0)
    headB (withCore (mxAt [q] []) fun c => c.setCorner ⟨4, [List.replicate 64 0], [], 1, 0⟩) 0 q []) = true := by
  decide +kernel

/-- An acc.red of cores 0 and 1 on a rectangle of 2 × 2 cells with a stage, waiting 5 µs. -/
def redCmd (rect stage : Word) : MxCmd :=
  { mxCmd 0x55 0 (descOf (0x030000000055 + rect * 256) stage 5 0 0 0) with mates := [some 0, some 1] }

/-- Both members wait with their commands. -/
def redPair (q p : MxCmd) : State :=
  let s := withPartner (mxAt [q, mxCmd 0x59 0 []] [(0, 0x3F800000)])
  { s with dev := s.dev.modCore 1 fun c => { c with mx := { c.mx with queue := [p], acc := [(0, 0x40000000)] } } }

/-- TreeReduction: matched members, members with different rectangles or stages, and a member that does not come. -/
theorem test_hyps_red :
    (let q := redCmd 0x02020000 0x4000000000000000
    [redCmd 0x02020000 0x4000000000000000, redCmd 0x02020001 0x4000000000000000,
      redCmd 0x02020000 0x4000000000000040].all fun p =>
      let s := redPair q p
      headB s 0 q [mxCmd 0x59 0 []] && headB s 1 p [] && redMembers s.dev 0 q == [0, 1] && redMembers s.dev 1 p == [0, 1] &&
        p.mask == q.mask && p.mates == q.mates && p.nth == q.nth && !(redBreach s.dev 0 q).1 && !(redBreach s.dev 1 p).1 &&
        redFailed s.dev 0 q == none && !redLeaves q && (s.dev.core 0).mx.bad == [] && (s.dev.core 1).mx.bad == [] &&
        rectOf (fld (q.desc.getD 0 0) 39 8) == some ⟨0, 0, 2, 2, false⟩) = true ∧
    (let q := { redCmd 0x02020000 0x4000000000000000 with since := some 7 }
    let s : State := { withPartner (mxAt [q] []) with clock := 7 + 5 * 1750 }
    headB s 0 q [] && runOf s.dev 0 == some 0 && !(redBreach s.dev 0 q).1 && redFailed s.dev 0 q == none &&
      fld (q.desc.getD 2 0) 31 0 == 5 && redMembers s.dev 0 q == [0, 1] && (s.dev.core 1).mx.queue == []) = true := by
  decide +kernel

/-- TreeReduction: a defective descriptor, in a word of its own and in one that the members share; a failed instance. -/
theorem test_hyps_red_ends :
    ([(descOf 0x0300020200000055 0x4000000000000000 (2 ^ 32) 0 0 0, (true, false)),
      (descOf 0x0300020200000055 1 0 0 0 0, (true, true))].all fun x =>
      let q := { redCmd 0 0 with desc := x.1 }
      let s := withPartner (mxAt [q] [])
      headB s 0 q [] && redBreach s.dev 0 q == x.2 && redFailed s.dev 0 q == none) = true ∧
    (let q := redCmd 0x02020000 0x4000000000000000
    let s := withPartner (mxAt [q] [])
    let s : State := { s with dev := { s.dev with redFailed := [⟨0, 3, [some 0, some 1], 0, cTimeout, []⟩] } }
    headB s 0 q [] && !(redBreach s.dev 0 q).1 && redFailed s.dev 0 q == some cTimeout) = true := by decide +kernel

/-- SelfTest: a test that is due, and one that is not. -/
theorem test_hyps_self_test : ([4095, 4096].all fun n =>
    let s := run fun c => { c with mx := { c.mx with sinceTest := n } }
    testDue (s.dev.core 0) == decide (n = 4096) && (s.dev.core 0).inService && !(s.dev.core 0).frozen &&
      (List.range 4).all fun q => !bit (s.dev.core 0).regs.mxstat q) = true := by decide +kernel

/-- TableUnitRuns: a command of the unit, and one whose KIND differs. -/
theorem test_hyps_table : ([0x62, 0x63].all fun k =>
    let c : TabCmd := ⟨0x62, descOf k 0 0 0 0 0, ⟨.scratch 0x17FFF8, 0, 7, .none⟩⟩
    let s := run fun x => { x with mer := { x.mer with table := [c] } }
    (s.dev.core 0).mer.table == [c] && (fld (c.desc.getD 0 0) 7 0 == c.opc) == (k == 0x62)) = true := by decide +kernel

/-- A root of 4 positions in pages of 2 at 0x8000, whose first page, held once, is at 0xA000; its fork from position 2
on at 0x8040, whose overlay at 0xC000 gives its page 1; their pool at 0x8400, with room for two. -/
def tablesOfPages : Cells 8 :=
  cellsOf 0x8000 [0, 0x0000000401000000, 0x9000, 0x0001010140000002, 0, 0, 0, 0x8400,
    0x8000, 0x0000000411000000, 0, 0x0001010140000002, 0xC000, 0x0000000200000001, 0x0000000200000000, 0x8400] ++
  cellsOf 0x8400 [0, 0, 1, 0xD000] ++ cellsOf 0x9000 [0xA000, 0] ++ cellsOf 0xA000 [1, 0, 0, 0, 0, 0, 0, 0, 2, 0, 2] ++
  cellsOf 0xC000 [1, 0xB000]

/-- The code that a command of the table unit comes to, and the words at some addresses then. -/
def tableTo (opc : Nat) (w1 w2 w3 w4 : Word) (at_ : List Nat) : Nat × List Word :=
  let s := mapped tablesOfPages (placed 64 0 0 0 0)
  let r := tableRun s.dev 0 ⟨opc, descOf (BitVec.ofNat 64 opc) w1 w2 w3 w4 0, ⟨.scratch 0, 0, 0, .none⟩⟩
  (r.1, at_.map (homeWord r.2))

/-- KvMaps: a page mapped by a root and by a fork, an entry that is there, a page index beyond the root, and an R (R394). -/
theorem test_hyps_kv_map :
    tableTo 0x62 0x8000 1 0xE000 0 [0xE000, 0xE010, 0xE048, 0x9008] = (0, [1, 2, 0xFFFF, 0xE000]) ∧
    tableTo 0x62 0x8040 0 0xE000 0 [0x8068, 0xC000, 0xC008, 0xC010, 0xC018] =
      (0, [0x0000000200000002, 0, 0xE000, 1, 0xB000]) ∧
    (tableTo 0x62 0x8000 0 0xE000 0 []).1 = cKv ∧ (tableTo 0x62 0x8040 1 0xE000 0 []).1 = cKv ∧
    (tableTo 0x62 0x8000 2 0xE000 0 []).1 = clsBounds ∧ (tableTo 0x62 0x8000 1 0x400000000000E000 0 []).1 = cDescriptor := by
  decide +kernel

/-- KvForks: a fork of the root's first two positions; FL above LEN (R395). -/
theorem test_hyps_kv_fork :
    tableTo 0x63 0x8000 0x8080 2 0 [0xA000, 0x8080, 0x8088, 0x8098, 0x80B0] =
      (0, [2, 0x8000, 0x0000000211000000, 0x0001010140000002, 0x0000000200000000]) ∧
    (tableTo 0x63 0x8000 0x8080 5 0 []).1 = clsBounds := by decide +kernel

/-- KvTruncates: the root cut within its page and before it, and the fork at its parent's page's end and before it; CUT
above LEN (R396). -/
theorem test_hyps_kv_trunc :
    tableTo 0x64 0x8000 1 0 0 [0x8008, 0x9000, 0xA040, 0xA050] = (0, [0x0000000101000000, 0xA000, 2, 0]) ∧
    tableTo 0x64 0x8000 0 0 0 [0x8008, 0x9000, 0x8408, 0xD000] = (0, [0x0000000001000000, 0, 1, 0xA000]) ∧
    tableTo 0x64 0x8040 2 0 0 [0x8048, 0x8068] = (0, [0x0000000211000000, 0x0000000200000001]) ∧
    tableTo 0x64 0x8040 0 0 0 [0x8048, 0x8070, 0x9000, 0xD000] = (0, [0x0000000011000000, 0, 0, 0xA000]) ∧
    (tableTo 0x64 0x8000 5 0 0 []).1 = clsBounds := by decide +kernel

/-- PlansAreWritten: the example of R397, and a plan of one sequence for two holders; one that does not fit. -/
theorem test_hyps_plan :
    planSegs [3, 2] 3 = [⟨0, 0, 1, 0⟩, ⟨0, 1, 2, 1⟩, ⟨1, 0, 2, 2⟩] ∧
    (let s := mapped (tablesOfPages ++ cellsOf 0xF000 [0x8000]) (placed 64 0 0 0 0)
    let to_ (cap : Word) : Nat × List Word :=
      let r := tableRun s.dev 0 ⟨0x61, descOf 0x61 0xF000 0x0000000200000001 0x10000 cap 0, ⟨.scratch 0, 0, 0, .none⟩⟩
      (r.1, [0x10000, 0x10008, 0x10040, 0x10068, 0x10078].map (homeWord r.2))
    to_ 128 = (0, [0x0000000100000000, 0x0000000100000001, 0x0002000000000000, 0x0000000100000001, 1]) ∧
      (to_ 127).1 = clsBounds) := by decide +kernel

/-! ## Hypotheses met: Meridian -/

/-- JobsStart: a good descriptor, one whose PARAM and one whose STOPW leaves the scratchpad, and a defective one, handed
over. -/
theorem test_hyps_job_start : ([(0x0FFF00000060, 0x8000, 0, true), (0x60, 0x4000000000180000, 0, true),
      (0x60, 0x8000, 0x4000000000180000, true), (0x161, 0, 0, false)].all fun (p : Word × Word × Word × Bool) =>
    let q : JobCmd := ⟨descOf p.1 p.2.1 p.2.2.1 0 0 0, ⟨.scratch 0x17FFF8, 0, 7, .none⟩, 5, 8, 3⟩
    let s := run fun c => { c with mer := { c.mer with queued := some q } }
    goOk q.desc == p.2.2.2 && (s.dev.core 0).mer.queued == some q && (s.dev.core 0).mer.job.isNone &&
      handedOver s.dev s.clock 0) = true := by decide +kernel

/-- The state in which a microword is to run in the job, with a table of core 0's address space and more memory. -/
def microS (j : Job) (more : Cells 8) : State :=
  withCore (mapped more (State.reset.withFetchWord 96 0)) fun c => { c with mer := { c.mer with job := some j } }

/-- A job that runs is at a microword boundary, whatever its posted writes. -/
theorem atWord_microS {j : Job} {more : Cells 8} (hs : j.stop = none) (hd : j.dbgStop = false ∨ j.wait ≠ none) :
    AtWord (microS j more) { j with posted := (drainPosted 0 j.posted [] (microS j more).dev).1 }
      (drainPosted 0 j.posted [] (microS j more).dev).2 :=
  ⟨j, rfl, hs, rfl, hd, rfl, rfl⟩

/-- One word of every microword, with its opcode. -/
def microWords : List (Nat × MW) := [(0x01, ⟨3, 0, 0, 0, 0, 0x40⟩), (0x02, ⟨3, 1, 2, 0, 0, 0⟩), (0x02, ⟨3, 1, 0, 1, 0, 9⟩),
  (0x03, ⟨3, 1, 2, 0, 0, 0⟩), (0x04, ⟨3, 1, 2, 0, 0, 0⟩), (0x05, ⟨3, 1, 2, 0, 0, 0⟩), (0x06, ⟨3, 1, 2, 0, 0, 0⟩),
  (0x07, ⟨3, 1, 2, 0, 0, 0⟩), (0x08, ⟨3, 1, 0, 0, 0, 8⟩), (0x09, ⟨3, 1, 0, 0, 0, 8⟩), (0x0A, ⟨0, 0, 0, 6, 0xFFF, 0⟩),
  (0x0B, ⟨3, 0, 0, 0, 0xFFF, 0⟩), (0x0B, ⟨3, 1, 0, 1, 0, 0⟩), (0x0C, ⟨3, 1, 2, 0, 0, 0⟩), (0x0D, ⟨3, 1, 0, 0, 0, 0⟩),
  (0x0E, ⟨3, 0, 0, 0, 0, 3⟩), (0x0E, ⟨3, 1, 0, 4, 0, 9⟩), (0x0F, ⟨3, 0, 0, 4, 0, 0⟩), (0x10, ⟨3, 1, 2, 0, 0, 0⟩),
  (0x10, ⟨3, 1, 2, 1, 0, 0⟩), (0x10, ⟨3, 1, 0, 2, 0, 0⟩), (0x10, ⟨3, 1, 0, 3, 0, 0⟩), (0x11, ⟨3, 1, 2, 0, 0, 0⟩),
  (0x11, ⟨3, 1, 2, 1, 0, 0⟩), (0x11, ⟨3, 1, 2, 2, 0, 0⟩), (0x12, ⟨3, 1, 0, 0, 0, 0⟩), (0x13, ⟨0, 0, 0, 0, 0, 0⟩),
  (0x14, ⟨0, 0, 0, 0, 0, 5⟩), (0x15, ⟨0, 0, 0, 0, 0, 0⟩)]

/-- MicroGives and the other statements on microwords: each microword has a well-formed instance, and a job is at it. -/
theorem test_hyps_microwords : (microWords.all fun p => (mwMake p.1 p.2).any Instr.wf) = true ∧
    (jobOf []).stop = none ∧ (jobOf []).dbgStop = false := by decide +kernel

/-- MicrowordsStop: a debugger's stop at the next boundary. -/
theorem test_hyps_debugger_stop : (let j := { jobOf [] with dbgStop := true }
    ((microS j []).dev.core 0).mer.job == some j && j.stop == none && j.posted == [] && j.wait == none) = true := by
  decide +kernel

/-- MicrowordMemory and MicrowordWaits: an address of the last word of the scratchpad, a misaligned one, one in a space
that there is not, and a core that translates. -/
theorem test_hyps_micro_addresses : (let a : Word := 0x400000000017FFF0 + (8 : BitVec 60).signExtend 64
    spOf a == 1 && resOk a && adOf a % 8 == 0 && decide (adOf a + 8 ≤ scratchSize)) = true ∧
    (let a : Word := 0x400000000017FFF4
    decide (spOf a ≤ 1) && resOk a && adOf a % 8 != 0) = true ∧ 1 < spOf (0x8000000000000000 : Word) ∧
    ((microS (jobOf []) []).dev.core 0).scratch.wf = true ∧ 0 < (microS (jobOf []) []).dev.cores.length := by
  decide +kernel

/-- MicrowordWaits: an mwait whose word satisfies its condition, one whose word does not, and one on a bad line. -/
theorem test_hyps_mwait : (let w : MW := ⟨3, 1, 0, 1, 0, 5⟩
    let s (v : Word) (bad : List Nat) : State := withCore (microS (jobOf [0, v, 0, 0x400000000017FFF8]) []) fun c =>
      { c with scratchBad := bad }
    let holds (s : State) : Except (Nat × Nat) Bool := (mwaitHolds s.dev 0 (jobOf [0, ((s.dev.core 0).mer.job.map fun j =>
      j.m.getD 1 0).getD 0, 0, 0x400000000017FFF8]) w).1
    (Instr.mwaitCond w).wf && (match holds (s 0 []), holds (s 9 []), holds (s 0 [0x17FFC0]) with
      | .ok x, .ok y, .error e => x && !y && decide (e.1 < 2 ^ 15)
      | _, _, _ => false)) = true := by decide +kernel

/-- MicrowordWaits: a job parked at its mwait, for an event and with 5 µs. -/
theorem test_hyps_parked_job : ([0, 5].all fun us =>
    let w : MW := ⟨3, 1, 0, 1, 0, us⟩
    let j := { jobOf [0, 9, 0, 0x400000000017FFF8] with wait := some 7 }
    let s := microS j []
    let s : State := { s with dev := { s.dev with cstore := [(4, BitVec.ofNat 96 (packMW 0x0E w))] } }
    parkedJob s.dev 0 == some (j, w, 7)) = true := by decide +kernel

/-- A sequence at 0x8000 of 4 positions in pages of 2, of one layer and head of 8 elements of f32; its two entries at
0x9000; the first page at 0xA000, with both its slots VALID. -/
def sequence : Cells 8 := [(0x8007, 0), (0x800B, 1), (0x800C, 4), (0x8011, 0x90), (0x8018, 2), (0x801B, 0x40), (0x801C, 1),
  (0x801D, 1), (0x801E, 1), (0x9001, 0xA0), (0xA040, 2), (0xA050, 2)].filter fun x => x.2 != 0

/-- IMM60 of a gather of both slots into the last 704 bytes of the scratchpad, as tag 3. -/
def gatherImm : BitVec 60 := BitVec.ofNat 60 (3 * 2 ^ 53 + 1 * 2 ^ 45 + 1 * 2 ^ 29 + 0x17FD40)

/-- Gathers: mgat on an idle tag with good operands; kvx in and beyond its fields. -/
theorem test_hyps_gathers : (let s := microS (jobOf []) sequence
    onOk (gatherCheck s.dev 0 (gatherOf 0xA000 0x8000 (BitVec.ofNat 64 gatherImm.toNat))) (fun _ _ => true) &&
    onOk (kvLookup s.dev (coreRd 0) 0x8000 0 1) (fun e _ => e == 0xA000)) = true ∧
    fld (0x0001000000000000 : Word) 63 48 ≠ 0 := by decide +kernel

/-- A gather in flight, the nth of its job. -/
def flying (nth : Nat) : Tag := Tag.started 0xA000 0x8000 (BitVec.ofNat 64 gatherImm.toNat) nth

/-- Gathers: a gather that can take up both its positions, one whose second position waits for a page, and one whose page
is on a bad line; one behind another of its job, and one that is not. -/
theorem test_hyps_gather_goes : (let j (n : Nat) : Job := { jobOf [] with tags := [flying n, default, default, flying 1] }
    let s (more : Cells 8) (bad : List Nat) : State :=
      let s := microS (j 2) more
      { s with dev := { s.dev with mem := { s.dev.mem with bad := bad } } }
    let waiting : Cells 8 := (0x8008, 5) :: sequence.filter fun x => x.1 != 0xA050
    let goes (s : State) : Except (Nat × Nat) (List Bool × Option Nat) :=
      (gather s.dev s.clock 0 [] none (flying 1).gather).1.map fun x => (x.2.1.map (·.used), x.2.2)
    let is (r : Except (Nat × Nat) (List Bool × Option Nat)) (x : List Bool × Option Nat) : Bool :=
      match r with
      | .ok y => y == x
      | .error _ => false
    is (goes (s sequence [])) ([true, true], none) && is (goes (s waiting [])) ([true], some 0) &&
      !(goes (s sequence [0xA040])).isOk && (s [] []).clock == 0 && ((s [] []).dev.core 0).mer.job == some (j 2) &&
      (j 2).tags[3]? == some (flying 1) && (flying 1).st == .flight && !((s [] []).dev.core 0).frozen &&
      !gatherBehind (s sequence []).dev 0 (j 2) (flying 1) && gatherBehind (s sequence []).dev 0 (j 0) (flying 1)) =
        true := by decide +kernel

/-- Gathers: mwait on a tag in every state. -/
theorem test_hyps_gather_tags : ([TagSt.idle, .flight, .done 7, .failed clsTranslation 0xA000].all fun st =>
    let j := { jobOf [] with tags := [default, default, default, { flying 0 with st := st }] }
    let s := microS j sequence
    (s.dev.core 0).mer.job == some j && (j.tags.getD 3 default).st == st && (s.dev.core 0).mer.saves == []) = true ∧
    (0x8000 : Nat) < 2 ^ 16 ∧ clsTranslation < 2 ^ 15 := by decide +kernel

/-- MicrowordMatrix: an mmma in an engine with nothing queued, and behind a queued command. -/
theorem test_hyps_mmma : ([[], [mxCmd 0x59 0 []]].all fun q =>
    let s := withCore (microS (jobOf [0, 0, 0, 0x17FFC0]) []) fun c => { c with mx := { c.mx with queue := q } }
    (s.dev.core 0).mx.queue == q && !testDue (s.dev.core 0) && (s.dev.core 0).inService &&
      (wordsOf 8 (scratchRead s.dev 0 0x17FFC0 64)).getD 6 0 == 0) = true := by decide +kernel

/-- RowsReady for ExponentUnit and PartialResults: the last rectangle of 64 rows, its records at the end of the
scratchpad, and areas for P and for an exported part that meet neither; a mask at the scratchpad's last bytes, and none. -/
theorem test_hyps_rows : ([(0x404040C0, 64), (0x804000C0, 128)].all fun p =>
    let s := microS (jobOf [0, 0x17FC00, 0x4000000000000000, p.1]) []
    (match microRect s.dev 0 p.1 0x17FC00 p.2 with
      | .ok r => r.nrow == 64 && r.ncol == p.2 && !overlaps 0 (r.nrow * 64 * 4) 0x17FC00 (16 * r.nrow) &&
          decide (512 + 4 * r.ncol * r.nrow ≤ scratchSize)
      | .error _ => false) &&
    maskCheck s.dev 0 ⟨3, 1, 2, 0, 0, 0x37FFF8⟩ 64 == none && maskCheck s.dev 0 ⟨3, 1, 2, 0, 0, 0⟩ 64 == none &&
    (s.dev.core 0).mer.saves == [] && (s.dev.core 0).mx.bad == [] && (s.dev.core 0).scratchBad == [] &&
      (s.dev.core 0).scratch.wf && (s.dev.core 0).mx.acc.wf) = true := by decide +kernel

/-- JobsEnd: a job without gathers, one with a sticky ECC, one with two gathers that failed of which none or the first has
been waited on, and one with a gather in flight. -/
theorem test_hyps_mhalt : (let t (st : TagSt) (waited : Bool) : Tag := { flying 0 with st := st, waited := waited }
    let js := [jobOf [], { jobOf [] with ecc := true }] ++ [false, true].map fun x =>
      { jobOf [] with tags := [t (.failed 6 0) x, t (.failed 2 0) false] }
    js.all (fun j => j.stop == none && !j.tags.any fun x => x.st == .flight) && [flying 0].any fun x => x.st == .flight) =
      true := by decide +kernel
/-! ## Hypotheses met: batches and launches -/

/-- Cluster 0 with a queue of an Infill engine, armed or not, enabled with a most of 2 requests a batch. -/
def fillAt (q : List FillReq) (on : Bool) (armed : Option FillBatch) : State :=
  let s := run id
  { s with dev := { s.dev with clusters := s.dev.clusters.set 0 { Cluster.reset with
    fillQueue := q, fillLr := if on then 0x80020001 else 0x00020001, fillBuf := 0x20000, fillArmed := armed } } }

/-- InfillBatches: no request, filling disabled, a batch armed; a batch of the oldest kind; a batch whose launch has not
ended, has ended, and has ended in error. -/
theorem test_hyps_batches : (let b (e : Option Bool) : FillBatch := ⟨1, 0x20000, [request 4], e⟩
    (((fillAt [] true none).dev.cluster 0).fillQueue == []) &&
    !bit ((fillAt [request 4] false none).dev.cluster 0).fillLr 31 &&
    bit ((fillAt [request 4, request 5] true none).dev.cluster 0).fillLr 31 &&
    ([none, some true, some false].all fun e =>
      ((fillAt [] true (some (b e))).dev.cluster 0).fillArmed == some (b e)) &&
    decide (0 < (run id).dev.clusters.length)) = true := by decide +kernel

/-- TriggersFire: a binding whose condition holds and one whose condition does not, on an IDLE record; a record that is
not IDLE, one with DEPS 2, and one beyond the pool. -/
theorem test_hyps_triggers : ([0, 1].all fun v =>
    let s := pool 0 0 (run id)
    let s : State := { s with dev := { s.dev with dist := { s.dev.dist with bindings := [(1, ⟨0x8000, 0, v⟩)] } } }
    s.dev.dist.bindings.find 1 == some ⟨0x8000, 0, v⟩ && recState s.dev 1 == 0 &&
      condHolds 0 (homeWord s.dev 0x8000) v == (v == 0) && s.dev.mem.wf && served s.dev 0x8000 &&
        recServed s.dev 1) = true ∧
    (let s := pool 0 (2 ^ 32) (run id)
    recState s.dev 1 = 1 ∧ 1 < s.dev.dist.count.toNat ∧ s.dev.dist.count.toNat ≤ 2) ∧
    (let d := homeWriteWord (pool 0 0 (run id)).dev 0x100138 2
    recDeps d 1 = 2 ∧ recState d 1 = 0 ∧ recServed d 1 = true ∧ d.mem.wf = true) := by decide +kernel

/-- A READY launch of two cores and two threads a core, of queue q, cluster 1, and a deadline in µs. -/
def launchAt (q ncores deadline : Nat) : Launch where
  words := [0, 0, BitVec.ofNat 64 (2 * 2 ^ 48 + 32 * 2 ^ 40 + 2 ^ 32 + ncores * 2 ^ 16), 2, 0x30000,
    BitVec.ofNat 64 (q * 2 ^ 32 + 3), BitVec.ofNat 64 deadline, 0] ++ List.replicate 24 0
  regions := []
  kdesc := [0x40000, 0]
  root := 0x1000
  asid := 0
  state := .ready
  only := none
  run := 0
  level := 0
  order := 0
  cores := []
  ended := []
  partly := false
  saved := []
  rings := []
  drop := false

/-- A device in phase 3 whose queue q holds the launch of record 1, in a slot mapped since clock t. -/
def queued (q t : Nat) (l : Launch) : State :=
  let s := pool 0 (2 * 2 ^ 16) (run id)
  { s with clock := 200000, dev := { s.dev with
    host := { s.dev.host with phase := 3 }
    dist := { s.dev.dist with
      launches := [(1, l)], queues := [(q, [1])], slots := s.dev.dist.slots.set 63 (some (q, t)) } } }

/-- HeadSelection: no head; one that is next; one that is due, selected and not selected; one that is not due; and a
queue without a head. -/
theorem test_hyps_selection : candidateHeads State.reset.dev 0 = [] ∧
    (let s := queued 4095 0 (launchAt 4095 2 0)
    (nextHead s.dev s.clock).isSome) = true ∧ headOf State.reset.dev 4095 = none ∧
    (let s := queued 4095 0 (launchAt 4095 2 114)
    let u : State := { s with dev := { s.dev with dist := { s.dev.dist with selected := [(1, 3)] } } }
    [s, u].all fun s => match headOf s.dev 4095 with
      | some h => decide (h.launch.deadline ≠ 0) && decide (h.launch.deadline ≤ s.clock / 1750 + fld (h.launch.word 7) 63 32) &&
          isMapped s.dev.dist 4095 && (isSelected s.dev h.record || (nextHead s.dev s.clock).map (·.record) == some h.record)
      | none => false) = true ∧
    (let s := queued 4095 0 (launchAt 4095 2 115)
    (headOf s.dev 4095).any fun h => !decide (h.launch.deadline ≤ s.clock / 1750 + fld (h.launch.word 7) 63 32)) = true := by
  decide +kernel

/-- LaunchBinding: a selected head whose two cores of cluster 1 are free, and one of nine cores. -/
theorem test_hyps_binding : (let s (n : Nat) : State :=
      let s := queued 4095 0 (launchAt 4095 n 0)
      { s with dev := { s.dev with dist := { s.dev.dist with selected := [(1, 3)] } } }
    ((launchOf (s 2).dev 1).bind fun l => pickCores (s 2).dev l) = some [8, 9] ∧
    ((launchOf (s 9).dev 1).bind fun l => pickCores (s 9).dev l) = none ∧
    (launchOf (s 2).dev 1).any (·.state == .ready) = true ∧ (s 2).dev.dist.closed = false ∧ (s 2).dev.cores.length = 384 ∧ (s 2).dev.mem.wf = true ∧ [8, 9].Nodup ∧ (3 : Nat) < (s 2).dev.dist.rr.length) := by
  decide +kernel

/-- QueueSlots: a queue that waits, and one that may be evicted; none that waits. -/
theorem test_hyps_slots : (let s := queued 4095 25000 (launchAt 4095 2 0)
    let u : State := { s with dev := { s.dev with dist := { s.dev.dist with unmapped := [7, 8] } } }
    s.dev.dist.unmapped = [] ∧ u.dev.dist.unmapped = [7, 8] ∧ some (4095, 25000) ∈ u.dev.dist.slots ∧
      evictable u.dev u.clock (4095, 25000) = true ∧ evictable u.dev (u.clock - 1) (4095, 25000) = false) := by
  decide +kernel

/-- Core 0 bound to the run of record 1, its thread in a status, with a handler that is done or not. -/
def sharing (st : Status) (h : Handling) : State :=
  let s := queued 5 0 { launchAt 5 1 0 with state := .running }
  withCore s fun c => { c with
    pass := none, threads := [{ Thread.fresh with status := st, reported := true }], handling := h
    bound := c.bound.map fun b => { b with record := 1, handler := some 0 } }

/-- LaunchesEnd: a share that has ended, with its thread RETIRED or FAULTED and handled, and one that has not. -/
theorem test_hyps_shares : ([(Status.retired, Handling.none, true), (.faulted 3, .done, true), (.faulted 3, .none, false),
      (.waiting 0, .none, false)].all fun p =>
    match ((sharing p.1 p.2.1).dev.core 0).bound with
    | some b => shareEnded (sharing p.1 p.2.1).dev ((sharing p.1 p.2.1).dev.core 0) b == p.2.2 && b.record == 1 &&
        ((sharing p.1 p.2.1).dev.core 0).mer.saves == [] &&
        (launchOf (sharing p.1 p.2.1).dev 1).any fun l => l.saved == [] && !l.drop
    | none => false) = true := by decide +kernel

/-- LaunchesEnd: a launch whose shares have all ended, one whose have not, and a record with DEPS 2. -/
theorem test_hyps_completion : (let s := queued 5 0 { launchAt 5 1 0 with state := .running, ended := [0] }
    (launchOf s.dev 1).any (fun l => l.state == .running && !l.drop && l.ended.length == l.ncores &&
      fld (l.word 0) 3 2 == 0 && (List.range 4).all fun f => (successor l.words f).isNone) &&
    (s.dev.dist.bindings.find 1).isNone && s.dev.mem.wf &&
    s.dev.cores.all (fun c => c.bound.all fun b => b.handler != some 1) &&
    (launchOf (queued 5 0 { launchAt 5 1 0 with state := .running }).dev 1).any fun l => l.ended.length != l.ncores) =
      true := by decide +kernel

/-! ## Hypotheses met: the link engine -/

/-- A device with a context of job 0 whose pages are the first GiB, with more memory behind its tables. -/
def linked (more : Cells 8) (links : Tbl LinkOp) : State :=
  let s := run id
  { s with dev := { s.dev with
    mem := { s.dev.mem with home := tables ++ (more ++ ([(0x90001, 0x10), (0x90007, 0x80), (0x90012, 1)] : Cells 8)) }
    host := { s.dev.host with ctxtab := 0x90000 }
    links := links } }

/-- PacketsArrive: a packet of a collective; a put that awaits its answer; a packet that may be discarded, and one for an
operation. -/
theorem test_hyps_packets : (packetKey (.part 0 1 2 0 [] [])).isSome = true ∧
    (let o := { linkOp 0x81 [] with sent := true }
    (linked [] [(3, o)]).dev.links.find 3 = some o ∧ isCollective o.opc = false ∧ answers o 3 [] = true ∧
      14 ∉ [0, 1, 2, 3, 10]) ∧
    (let p : Packet := .part 0 1 2 0 [] []
    let s (links : Tbl LinkOp) : State :=
      let s := linked [] links
      { s with clock := 70000007, dev := { s.dev with inbox := [(p, 7)] } }
    (s []).dev.inbox[0]? = some (p, 7) ∧ 7 + 1750 * (s []).dev.ringTimeout.toNat ≤ (s []).clock ∧
      awaited (s []).dev p = false ∧ awaited (s [(3, linkOp 0x85 [])]).dev p = true) := by decide +kernel

/-- PortsAndPeers: a cl.get of a peer that has been out of reach for SYS_RINGTIMEOUT, and of one that has not. -/
theorem test_hyps_peer : (let o := { linkOp 0x81 [0x0000000100000081] with
      group := some ⟨0, 1, 0, [0, 9]⟩, timeout := 40000 }
    let s (clock : Nat) : State :=
      let s := linked [] [(3, o)]
      { s with clock := clock, dev := { s.dev with unreachable := [(9, 7)] } }
    9 ∈ o.needs ∧ (s 0).dev.links.find 3 = some o ∧ (3, o) ∈ (s 0).dev.links ∧
      isUnreachable (s 70000007).dev (s 70000007).clock o.timeout 9 = true ∧
      isUnreachable (s 70000006).dev (s 70000006).clock o.timeout 9 = false ∧
      ∀ x ∈ (s 70000006).dev.links, (s 70000006).clock < 7 + 1750 * x.2.timeout) := by
  decide +kernel

/-- A cl.red of u32 sums of three elements over two members, with both parts there. -/
def redOpAt (agrees : Bool) : LinkOp :=
  let o := { linkOp 0x82 [0x0000000700000082, 0, 0x8000, 0x4000000000000100, 0x0000000000000003] with
    group := some ⟨0, 1, 0, [0, 9]⟩, sent := true, comp := ⟨.home 0x9000, 0, 7, .none⟩ }
  { o with parts := [(0, (o.agree, (List.replicate 12 1).map some)),
    (1, (if agrees then o.agree else [], (List.replicate 12 2).map some))] }

/-- ReductionsComplete: a sum whose parts agree, and one whose parts do not; an operation that has failed. -/
theorem test_hyps_link_reduction : (let o := redOpAt true
    let s := linked [] [(3, o)]
    s.dev.links.find 3 = some o ∧ o.failed = false ∧ o.ended = false ∧ o.code = 0 ∧ o.mismatch = false ∧ s.dev.inbox = [] ∧ o.owner s.dev = some 0 ∧
      (s.dev.core 0).scratch.wf = true ∧ o.elem = 4 ∧ o.count = 3 ∧ o.p = 2 ∧ spOf (o.word 3) = 1 ∧
      adOf (o.word 3) + o.elem * o.count ≤ scratchSize ∧ (∀ x ∈ o.parts, x.2.1 = o.agree)) ∧
    (redOpAt false).mismatch = true ∧ isCollective (redOpAt false).opc = true := by decide +kernel

/-- A group descriptor at 0x10000 of job 0, generation 1, of which device 0 is the one member. -/
def soloGroup : Cells 8 := [(0x10000, 1), (0x10005, 1), (0x10006, 0x4D), (0x10007, 0x47), (0x1000C, 1)]

/-- TransfersWithinTheDevice: a put of the last 8 bytes of the scratchpad, without and with a signal, and a get. -/
theorem test_hyps_transfers :
    ([linkOp 0x80 [0x80, 0x10000, 0x400000000017FFF8, 0x20000, 8, 0, 0, 7],
      linkOp 0x80 [0x180, 0x10000, 0x400000000017FFF8, 0x20000, 8, 0x20008, 0, 7],
      linkOp 0x81 [0x81, 0x10000, 0x20000, 0x400000000017FFF8, 8, 0, 0, 7]].all fun o =>
    let s := linked soloGroup [(3, o)]
    o.fieldsOk && o.codes 1 == [] && s.dev.unreachable == [] &&
      (match groupAt s.dev o with
        | .ok g => g.rank == 0 && o.peer == 0 && g.members.length == 1
        | .error _ => false) &&
      (peerWrite s.dev 0 0x20000 (zeros 8)).1 == 0 && (peerRead s.dev 0 0x20000 8).1 == 0 &&
      (localRead s.dev o 0x400000000017FFF8 8).2 == none && (localWrite s.dev o 0x400000000017FFF8 (zeros 8)).1 == none &&
      !hasBad (localRead s.dev o 0x400000000017FFF8 8).1) = true := by decide +kernel

/-- BarriersTimeOut: a cl.bar with TMO 5 that has arrived, one that has not, and one without TMO, that have not ended. -/
theorem test_hyps_barrier : ([(5, true), (5, false), (0, true)].all fun p =>
    let o := { linkOp 0x85 [0x85, 0x10000, p.1, 0, 0, 0, 0, 7] with sent := p.2, since := 7 }
    o.fieldsOk && !o.ended && !o.failed && fld (o.desc.getD 2 0) 31 0 == p.1.toNat && o.opc == 0x85) = true := by decide +kernel

/-- RingsFail: a ring that has stalled, one that waits on its own GATE, now and before the failure-detection time has
passed, and one whose member is lost. -/
theorem test_hyps_rings : ([(0, true, [], 0), (2, false, [], 0), (2, false, [], 70000000), (2, true, [(9, 0)], 0)].all fun p =>
    let o := { linkOp 0x86 [0x0000000700000086, 0x10000, 0x20000, 0x4000000000000100, 64, 1, 0, 7] with
      group := some ⟨0, 1, 0, [0, 9]⟩, timeout := 1, since := p.2.2.2, steps := p.1, advance := some 0, comp := ⟨.home 0x9000, 0, 7, .none⟩ }
    let s := linked [] [(3, o)]
    let s : State := { s with clock := 70000000, dev := { s.dev with unreachable := p.2.2.1 } }
    let w := ringWatch s.dev s.clock 3 o
    decide (s.clock < o.since + 1750 * o.timeout) == (p.2.2.2 != 0) &&
      ringStalled w s.clock ((w.links.find 3).getD o) == p.2.1 && o.owner s.dev == some 0 && spOf (o.word 3) == 1 && spOf (o.word 2) == 0 &&
      decide (adOf (o.word 3) + 32 ≤ scratchSize) && (s.dev.core 0).scratch.wf) = true := by decide +kernel

/-! ## Hypotheses met: the host's window, errors and steps -/

/-- A device in a phase of bring-up. -/
def phased (ph : Nat) (s : State) : State := { s with dev := { s.dev with host := { s.dev.host with phase := ph } } }

/-- HostMemory: keys of host memory and of device memory up to their ends, lines that the host may read, and one that it
may not; phases with service on and off. -/
theorem test_hyps_host_memory : hostMay (phased 3 State.reset).dev (hostBase - 64) 64 = true ∧
    hostMay (phased 3 State.reset).dev (2 * hostBase - 64) 64 = true ∧
    hostMay (phased 7 State.reset).dev (hostBase - 64) 64 = false ∧ isHostKey (2 * hostBase - 8) = true ∧ 2 * hostBase - 8 + 8 ≤ 2 * hostBase ∧
    isHostKey (hostBase - 8) = false ∧ (phased 3 State.reset).dev.host.phase = 3 ∧
    (phased 3 State.reset).dev.mem.wf = true := by decide +kernel

/-- HostRegisters: every phase, armed and not; values at the ends of their fields. -/
theorem test_hyps_host_registers : (phased 7 State.reset).dev.host.phase = 7 ∧ State.reset.dev.dist.armed = false ∧
    (let v : Word := 0x00FFFFFFFFFFF000
    fld v 63 56 = 0 ∧ fld v 7 0 = 0 ∧ fld v 11 0 = 0 ∧ fld v 5 0 = 0) ∧
    (let s := (phased 2 State.reset).dev
    ({ s with dist := { s.dist with armed := true } } : Device).dist.armed = true) := by decide +kernel

/-- Attestation: measurement registers of 64 bytes after reset. -/
theorem test_hyps_attest : State.reset.dev.host.m0.length = 64 ∧ State.reset.dev.host.m1.length = 64 ∧
    State.reset.dev.host.m2.length = 64 ∧ (∀ a, served (phased 3 State.reset).dev a = true) := by
  refine ⟨by decide +kernel, by decide +kernel, by decide +kernel, fun a => ?_⟩
  rfl

/-- ContextCommands: core 0 with one thread, named by a command for TID 0 and for TID 1. -/
theorem test_hyps_ctx_commands : (let s := phased 3 (run id)
    coreOfCode (fld (0x1000000000000000 : Word) 25 16) = some 0 ∧ fld (0x1000000000000000 : Word) 63 60 = 1 ∧
    fld (1 : Word) 11 0 = 1 ∧ (s.dev.core 0).bound.map (·.nthreads) = some 1) := by decide +kernel

/-- ContextCommands: DISCARD of a READY record, of an IDLE one, and of one beyond the pool. -/
theorem test_hyps_discard : (let s := queued 5 0 (launchAt 5 1 0)
    let v : Word := 0x2000000000000001
    fld v 63 60 = 2 ∧ fld v 15 0 = 1 ∧ serving s.dev = true ∧ recServed s.dev 1 = true ∧ 1 < s.dev.dist.count.toNat ∧ s.dev.mem.wf = true ∧
      (launchOf s.dev 1).any (fun l => l.state == .ready && l.saved == []) = true ∧ s.dev.dist.bindings.find 1 = none ∧
      launchOf s.dev 0 = none ∧ recState s.dev 0 ≠ 1) ∧
    (let s := queued 5 0 { launchAt 5 1 0 with run := 7 }
    s.dev.cores.all fun c => c.bound.all fun b => b.handler != some 1 && b.run != 7) = true := by decide +kernel

/-- DebugCommands: core 0 between passes and in one; a slot below the width and one that is not; the feature on. -/
theorem test_hyps_debug : (let v : Word := 0x1000001F00000000
    let on (s : State) : State := { s with dev := { s.dev with host := { s.dev.host with phase := 3, featack := 0x20 } } }
    let s := on (idle [.waiting 4] State.reset)
    let u := on (placed 64 0x10004041FF050000 1 2 3)
    bit s.dev.host.featack 5 = true ∧ fld v 38 32 = 31 ∧ (s.dev.core 0).bound.map (·.width) = some 32 ∧
      (s.dev.core 0).bound.map (·.nthreads) = some 1 ∧ passRuns (s.dev.core 0) = false ∧ passRuns (u.dev.core 0) = true ∧
      serving s.dev = true ∧ (s.dev.core 0).preempt ≠ .saved ∧ (threadOf s.dev 0 0).status = .waiting 4 ∧
      (threadOf s.dev 0 0).live.wf = true ∧ 0 < (s.dev.core 0).threads.length) := by decide +kernel

/-- DebugCommands: STOP of a job that runs, of one that is parked, and in a frozen engine. -/
theorem test_hyps_debug_stop : (let on (s : State) : State :=
      { s with dev := { s.dev with host := { s.dev.host with phase := 3, featack := 0x20 } } }
    fld (0x3000000000000000 : Word) 63 60 = 3 ∧
    ([none, some 3].all fun x => ((on (microS { jobOf [] with wait := x } [])).dev.core 0).mer.job.any fun j =>
      j.stop == none && j.wait == x) = true) := by decide +kernel

/-- BringUp: a device in REDUCED without a running launch, and with one; phases at which bring-up fails and does not. -/
theorem test_hyps_bring_up : (let s := phased 2 State.reset
    s.dev.host.phase = 2 ∧ (s.dev.dist.launches.all fun x => x.2.state != .running) = true) ∧
    (let s := phased 2 (queued 5 0 { launchAt 5 1 0 with state := .running })
    (s.dev.dist.launches.any fun x => x.2.state == .running) = true) ∧
    2 ≤ (4 : BitVec 8).toNat ∧ State.reset.dev.host.phase ≤ 3 ∧ (phased 7 State.reset).dev.host.phase = 7 ∧ isHostKey hostBase = true ∧ isHostKey 0 = false := by decide +kernel

/-- Errors of each kind. -/
def eccErrors : List EccError := [⟨1, 1, 434, 0x401300, some 0x401308, none, none⟩, ⟨3, 1, 0, 0x108, none, some (0, 0x108), none⟩,
  ⟨3, 2, 0, 77, none, none, some (0, 77)⟩, ⟨1, 0, 434, 0x401300, none, none, none⟩, ⟨6, 2, 500, 9, none, none, none⟩,
  ⟨3, 1, 7, 9, none, none, none⟩, ⟨5, 0, 460, 1, none, none, none⟩]

/-- The home slice of the example of R38. -/
theorem test_home_slice : homeSlice 0x401300 = 18 ∧ sliceDie 18 = 0 ∧ sliceQuadrant 18 = 2 ∧ slicePosition 18 = 2 := by
  decide

/-- ErrorsAreRecorded: an error of each kind, one of a quadrant, and two events that are no error; a ring of machine
checks, and none. -/
theorem test_hyps_errors : (eccErrors.all fun x => eccOk x && x.source != 4) = true ∧
    eccOk ⟨4, 2, 0, 3, none, none, none⟩ = true ∧ eccOk ⟨7, 0, 0, 0, none, none, none⟩ = false ∧
    eccOk ⟨0, 0, 0, 0, some 64, none, none⟩ = false ∧
    ([0, 0x40001].all fun log =>
      let s := run id
      let d : Device := { s.dev with host := { s.dev.host with mclog := log } }
      let base := fld log 55 12 * 4096
      d.mem.wf && served d base &&
        served d (base + 64 + 32 * ((homeWord d base).toNat % 2 ^ (fld log 3 0 + 6)))) = true := by decide +kernel

/-- PowerAndHeat: the last core island and the last island of all; a write without reserved bits and with one, one that
gates an island with a launch, and an island that heat throttled; a core with a launch, in a device with a ring of
machine checks. -/
theorem test_hyps_islands : 383 < State.reset.dev.host.islands.length ∧ 511 < State.reset.dev.host.islands.length ∧
    fld (0x0000057800000002 : Word) 23 2 = 0 ∧ fld (0x4 : Word) 23 2 ≠ 0 ∧
    (let s := run id
    bit 2 1 = true ∧ (s.dev.core 0).bound.isSome = true ∧ (s.dev.core 383).bound = none) ∧
    (let s := throttle State.reset.dev 511
    (islandOf s 511).temp = 105) ∧
    (let s := sharing (.waiting 0) .none
    let d : Device := { s.dev with host := { s.dev.host with mclog := 0x40001 } }
    (d.core 0).bound.any (fun b => (launchOf d b.record).any fun l => (l.saved.find b.cidx).isNone) = true ∧
      d.dist.bindings.find 1 = none ∧ d.mem.wf = true ∧ served d 0x40000 = true ∧ served d 0x40040 = true) := by
  decide +kernel

/-- Does a word decode to an instruction? -/
def decodesTo (sl : Slot) (w : Nat) (i : Instr) : Bool :=
  match decode sl w with
  | .ok j => j == i
  | .error _ => false

/-- DecodeEncodes and EncodeDecodes: an instruction with a word in each kind of slot, and the word that decodes to it. -/
theorem test_hyps_encodings : (Instr.add ⟨3, 0, 0x40, 0x41, 0xFF, 0xFF, 0⟩).wf = true ∧
    encode (.add ⟨3, 0, 0x40, 0x41, 0xFF, 0xFF, 0⟩) = some (.cu, 0x10304041FFFF0000) ∧
    decodesTo .cu 0x10304041FFFF0000 (.add ⟨3, 0, 0x40, 0x41, 0xFF, 0xFF, 0⟩) = true ∧
    0x10304041FFFF0000 < 2 ^ (8 * Slot.bytes .cu) ∧
    (encode (.mhalt ⟨0, 0, 0, 0, 0, 0⟩)).isSome = true ∧ (encode (.exitRetire ⟨0xFF, 0xFF, 0xFF, 0, 0, 0xFF, 0⟩)).isSome = true ∧
    (Instr.cp ⟨0, 0, 0x44, 0, 0xFF, 0x09, 1, 0, 15, 0, 0x40, 0⟩).wf = true ∧
    (encode (.cp ⟨0, 0, 0x44, 0, 0xFF, 0x09, 1, 0, 15, 0, 0x40, 0⟩)).isSome = true := by decide +kernel

/-- StepRunsDecoded: service, and none; the turns between instructions. -/
theorem test_hyps_turns : ([Turn.walk 383 0 0, .spread 383 0 0 0, .copy 383 0 0 true, .copyAhead 383 0 0 0,
      .matrix 383 0 false].all fun t =>
      turnCore t == some 383 && serving (phased 3 State.reset).dev && !serving (phased 7 State.reset).dev &&
        ({ phased 3 State.reset with agenda := [t] } : State).agenda == [t]) = true ∧
    outsideService (.intstatClear 0) = true ∧ outsideService .selectHead = false ∧
    wordOf (.intstatClear 0) = .event := by decide +kernel

/-- StepRunsDecoded: a node, an exit and a microword at the head of the agenda, with what the turn asks for. -/
theorem test_hyps_step : (let s := placed 64 0x10004041FF050000 1 2 3
    s.agenda = [.fire 0 0] ∧ serving s.dev = true ∧ (match (s.dev.core 0).pass, (s.dev.core 0).active with
      | some p, some pl => nextLane p 0 == some 0 && (match (imgSlots pl.words)[0]? with
          | some sl => decodesTo sl.1 (slotWord pl.words sl) (.add ⟨0, 0, 0x40, 0x41, 0xFF, 0x05, 0⟩)
          | none => false)
      | _, _ => false) = true) ∧
    (let s := placed 256 (2 ^ 56 + 2 ^ 128 * 0x05FFFFFF0000FF00) 0 0 0
    s.agenda = [.exit 0] ∧ serving s.dev = true ∧ (s.dev.core 0).active.any (fun pl =>
      decodesTo .exit (imgExit pl.words) (.exitRetire ⟨0xFF, 0xFF, 0xFF, 0, 0, 0xFF, 0⟩)) = true) ∧
    (let s := State.reset.withFetchWord 96 (0x15 * 2 ^ 88)
    s.agenda = [.micro 0] ∧ serving s.dev = true ∧ (s.dev.core 0).mer.job.any (fun j => j.stop == none && j.wait == none && decide (j.upc ≤ 4095) &&
      decodesTo .micro (microAt s.dev j.upc).toNat (.mnop ⟨0, 0, 0, 0, 0, 0⟩)) = true) := by decide +kernel

theorem test_hyps_step_others : (let s := microS { jobOf [] with upc := 4096 } []
    (s.dev.core 0).mer.job.any (fun j => j.stop == none && j.wait == none && decide (4095 < j.upc)) = true) ∧
    wordOf .selectHead = .event ∧ agendaOk (placed 64 0x10004041FF050000 1 2 3) = true := by decide +kernel

/-- StepsKeepStoresCanonical and EveryStepGoesOn: a sound device that runs a node, and one right after reset. -/
theorem test_hyps_sound : Device.sound (placed 64 0x10004041FF050000 1 2 3).dev = true ∧
    afterStep (step (placed 64 0x10004041FF050000 1 2 3)) (fun _ => true) = true ∧
    Device.sound State.reset.dev = true := by decide +kernel


end Sys2Proof.Tests
end

/-! PROOFS. The integer, logic, steering and bit nodes (07_core_integer_control): a node delivers the value that the
model computes on the numbers of its operands, and that value is the one of the W bits of TYPE. -/

namespace Sys2Proof.IntegerControl

open Sys2Proof Sys2Proof.Machine Sys2Proof.Claim

/-! ## Compute nodes that only compute a value -/

/-- The TYPE of a well-formed compute node is one that its row of the CU map lists (R109). -/
theorem typ_mem_of_wf {i : Instr} {opc : Nat} {w : CU} {f : Fmt} (hw : wordOf i = .cu opc w)
    (hf : cuFmt opc = some f) (h : i.wf = true) : w.typ.toNat ∈ f.types := by
  have hd : cuDefect opc w = none := by simpa only [Instr.wf, Instr.defect, hw, Option.isNone_iff_eq_none] using h
  by_cases hn : w.typ.toNat ∈ f.types
  · exact hn
  · have hc : f.types.contains w.typ.toNat = false := by rwa [Bool.eq_false_iff, ne_eq, List.contains_iff_mem]
    simp only [cuDefect, hf, hc, Bool.not_false, if_true, reduceCtorEq] at hd

/-- A compute node whose meaning is the function val of its operand values delivers g of them, where val and g agree for
every TYPE of the node's row. -/
theorem cuGives_of_pure {mk : CU → Instr} {opc : Nat} {f : Fmt} {val g : CU → Word → Word → Word → Word}
    (hexec : ∀ w s, exec (mk w) s = cuStep s opc w (pureFn (val w))) (hword : ∀ w, wordOf (mk w) = .cu opc w)
    (hf : cuFmt opc = some f) (hval : ∀ w a b c, w.typ.toNat ∈ f.types → val w a b c = g w a b c) :
    CuGives mk opc g := by
  intro w s e a b c hwf hr
  rw [hexec, cuStep, nodeStep_pure hr, hval w a b c (typ_mem_of_wf (hword w) hf hwf)]

/-! ## Values of an integer type -/

theorem tInt_subset : tInt ⊆ tLogic := by decide

theorem tSigned_subset : tSigned ⊆ tLogic := by decide

theorem natCast_two_pow (n : Nat) : ((2 ^ n : Nat) : Int) = 2 ^ n := Int.natCast_pow 2 n

theorem int_two_pow_pos (n : Nat) : (0 : Int) < 2 ^ n := by
  rw [← natCast_two_pow]
  exact Int.ofNat_lt.mpr (Nat.two_pow_pos n)

/-- A number read as a signed n-bit value is the integer of its lowest n bits. -/
theorem sext_eq_toInt (n v : Nat) : sext n v = (BitVec.ofNat n v).toInt := by
  rw [sext, BitVec.toInt_eq_toNat_cond, BitVec.toNat_ofNat]
  cases n with
  | zero => simp only [Nat.pow_zero, Nat.mod_one, Nat.zero_sub, Nat.mul_zero, Nat.zero_lt_one, if_true]
  | succ n =>
    have half : v % 2 ^ (n + 1) < 2 ^ n ↔ 2 * (v % 2 ^ (n + 1)) < 2 ^ (n + 1) := by
      rw [Nat.pow_succ]; omega
    simp only [Nat.add_sub_cancel, half, natCast_two_pow]

theorem uv_eq_toNat (w : CU) (x : Word) : uv w.typ.toNat x = (asT w x).toNat := by
  rw [uv, asT, BitVec.toNat_setWidth]

theorem sv_eq_toInt (w : CU) (x : Word) : sv w.typ.toNat x = (asT w x).toInt := by
  rw [sv, sext_eq_toInt, BitVec.ofNat_toNat]; rfl

theorem tSigned?_eq (w : CU) : tSigned? w.typ.toNat = signedT w := rfl

theorem ival_eq (w : CU) (x : Word) :
    ival w.typ.toNat x = if signedT w then (asT w x).toInt else ((asT w x).toNat : Int) := by
  rw [ival, sv_eq_toInt, uv_eq_toNat, tSigned?_eq]

/-- The value of an operand, signed or not, is the operand modulo 2^W. -/
theorem ofInt_ival (w : CU) (x : Word) : BitVec.ofInt _ (ival w.typ.toNat x) = asT w x := by
  rw [ival_eq]
  split
  · exact BitVec.ofInt_toInt
  · rw [BitVec.ofInt_natCast, BitVec.ofNat_toNat, BitVec.setWidth_eq]

theorem ofNat_mod_eq_setWidth (n k : Nat) : BitVec.ofNat 64 (n % 2 ^ k) = (BitVec.ofNat k n).setWidth 64 := by
  rw [← BitVec.ofNat_toNat, BitVec.toNat_ofNat]

/-- A datum of an integer type or pred is delivered as its lowest W bits, extended as TYPE says (R122). -/
theorem deliver_eq_outT {w : CU} (h : w.typ.toNat ∈ tLogic) (n : Nat) :
    deliver w.typ.toNat n = outT w (BitVec.ofNat _ n) := by
  unfold outT
  generalize w.typ.toNat = t at h ⊢
  simp only [tLogic, List.mem_cons, List.not_mem_nil, or_false] at h
  rcases h with rfl | rfl | rfl | rfl | rfl
  case inl => rw [if_pos rfl, deliver, sext_eq_toInt]; rfl
  case inr.inl => exact ofNat_mod_eq_setWidth n 32
  case inr.inr.inl => exact (BitVec.setWidth_eq _).symm
  case inr.inr.inr.inl => exact (BitVec.setWidth_eq _).symm
  case inr.inr.inr.inr => exact ofNat_mod_eq_setWidth n 1

/-- An integer result is delivered modulo 2^W (R180). -/
theorem deliverInt_eq_outT {w : CU} (h : w.typ.toNat ∈ tLogic) (z : Int) :
    deliverInt w.typ.toNat z = outT w (BitVec.ofInt _ z) := by
  rw [deliverInt, deliver_eq_outT h]
  congr 1
  apply BitVec.eq_of_toNat_eq
  have hlt : (z % (2 : Int) ^ tWidth w.typ.toNat).toNat < 2 ^ tWidth w.typ.toNat := by
    have hpos := int_two_pow_pos (tWidth w.typ.toNat)
    rw [Int.toNat_lt (Int.emod_nonneg z (Int.ne_of_gt hpos)), natCast_two_pow]
    exact Int.emod_lt_of_pos z hpos
  rw [BitVec.toNat_ofNat, BitVec.toNat_ofInt, Nat.mod_eq_of_lt hlt, natCast_two_pow]

/-! ## mov, cvt, sel and steer -/

/-- A node whose work comes to a cancel emits a cancel token (R185). -/
theorem nodeStep_cancels {s : State} {w : NodeWord} {e : Env} {a b c : Word} (h : Ready s w e a b c) {fn : NodeFn}
    (hfn : (fn e a b c s.dev).1 = .cancel) :
    nodeStep s w fn = .next (s.gaveToken (fn e a b c s.dev).2 e .cancel) := by
  rw [nodeStep_ready h, hfn]; rfl

theorem movesAndSteering : MovesAndSteering := by
  refine ⟨cuGives_of_pure (fun _ _ => rfl) (fun _ => rfl) rfl fun _ _ _ _ _ => rfl,
    cuGives_of_pure (fun _ _ => rfl) (fun _ => rfl) rfl fun _ _ _ _ ht =>
      deliverInt_eq_outT (tInt_subset ht) _,
    cuGives_of_pure (fun _ _ => rfl) (fun _ => rfl) rfl fun _ _ _ _ _ => rfl, ?_⟩
  intro w s e p v c _ hr
  constructor <;> intro hp
  · refine nodeStep_val hr ?_ rfl
    simp only [hp, if_true, movVal]
  · refine nodeStep_cancels hr ?_
    simp only [hp, Bool.false_eq_true, if_false]

/-! ## merge -/

section
variable {d : Device} {e : Env} {w : NodeWord} {x y : Token} (hm : mayFire e w = true)
  (hx : operand d e w.fmt.a w.typ w.src w.imm w.a = some x) (hy : operand d e w.fmt.b w.typ w.src w.imm w.b = some y)
include hm hx hy

/-- Poison on either operand of a merge is passed on (R186). -/
theorem mergeEnv_poison {o : Origin} (h : worse (originOf x) (originOf y) = some o) :
    mergeEnv d e w = emit d e (.poison o) := by
  simp only [mergeEnv, hm, hx, hy, h, Bool.not_true, Bool.false_eq_true, if_false]

/-- A merge delivers its first operand where that is a value. -/
theorem mergeEnv_first {v : Word} (h : x = .value v) (hp : originOf y = none)
    (hf : (e.pass.rev && readsFadd e w.fmt.a w.a) = false) :
    mergeEnv d e w = deliverNode d e w (movVal w.typ v) Fx.none := by
  subst h
  have hw : worse (originOf (.value v)) (originOf y) = none := by rw [hp]; rfl
  simp only [mergeEnv, hm, hx, hy, hw, hf, Bool.not_true, Bool.false_eq_true, if_false]

/-- In a reverse replay a merge does not deliver the result of an rmw.fadd as its first operand (R276; log 54). -/
theorem mergeEnv_first_fadd {v : Word} (h : x = .value v) (hp : originOf y = none)
    (hf : (e.pass.rev && readsFadd e w.fmt.a w.a) = true) :
    mergeEnv d e w = emit d e (.poison ⟨e.pass.block, e.node, clsAdj, 0, 0⟩) := by
  subst h
  have hw : worse (originOf (.value v)) (originOf y) = none := by rw [hp]; rfl
  simp only [mergeEnv, hm, hx, hy, hw, hf, Bool.not_true, Bool.false_eq_true, if_false, if_true, finishNode]

/-- A merge delivers its second operand where that is a value and the first is a cancel. -/
theorem mergeEnv_second {v : Word} (h : x = .cancel) (hv : y = .value v)
    (hf : (e.pass.rev && readsFadd e w.fmt.b w.b) = false) :
    mergeEnv d e w = deliverNode d e w (movVal w.typ v) Fx.none := by
  subst h hv
  simp only [mergeEnv, hm, hx, hy, hf, originOf, worse, Bool.not_true, Bool.false_eq_true, if_false]

/-- In a reverse replay a merge does not deliver the result of an rmw.fadd as its second operand (R276; log 54). -/
theorem mergeEnv_second_fadd {v : Word} (h : x = .cancel) (hv : y = .value v)
    (hf : (e.pass.rev && readsFadd e w.fmt.b w.b) = true) :
    mergeEnv d e w = emit d e (.poison ⟨e.pass.block, e.node, clsAdj, 0, 0⟩) := by
  subst h hv
  simp only [mergeEnv, hm, hx, hy, hf, originOf, worse, Bool.not_true, Bool.false_eq_true, if_false, if_true,
    finishNode]

/-- A merge of two cancels is a cancel. -/
theorem mergeEnv_cancel (h : x = .cancel) (hc : y = .cancel) : mergeEnv d e w = emit d e .cancel := by
  subst h hc
  simp only [mergeEnv, hm, hx, hy, originOf, worse, Bool.not_true, Bool.false_eq_true, if_false]

end

/-- A merge that may fire changes the device as mergeEnv says. -/
theorem exec_merge {w : CU} {s : State} {e : Env} (h : envOf s.dev s.clock s.focus = some e) :
    exec (.merge w) s = .next { s with dev := mergeEnv s.dev e (cuWord 0x05 w) } := by
  show execMerge w s = _
  simp only [execMerge, onDevice, h]

theorem mergeRoutes : MergeRoutes := by
  intro w s e x y _ hfires hx hy
  obtain ⟨he, hm, _⟩ := hfires
  simp only [exec_merge he]
  refine ⟨fun v hv hp hf => ?_, fun v hc hv hf => ?_, fun v hv hp hf => ?_, fun v hc hv hf => ?_, fun hc hc' => ?_,
    fun o ho hp => ?_, fun o hp ho => ?_, fun o o' ho ho' => ?_⟩
  · rw [mergeEnv_first hm hx hy hv hp hf]; rfl
  · rw [mergeEnv_second hm hx hy hc hv hf]; rfl
  · rw [mergeEnv_first_fadd hm hx hy hv hp hf]; rfl
  · rw [mergeEnv_second_fadd hm hx hy hc hv hf]; rfl
  · rw [mergeEnv_cancel hm hx hy hc hc']; rfl
  · rw [mergeEnv_poison hm hx hy (o := o) (by rw [ho, hp]; rfl)]; rfl
  · rw [mergeEnv_poison hm hx hy (o := o) (by rw [ho, hp]; rfl)]; rfl
  · subst ho ho'
    rw [mergeEnv_poison hm hx hy (o := if o'.node < o.node then o' else o)
      (by simp only [originOf, worse]; split <;> rfl)]
    rfl

/-- Settles O23: mov, cvt and sel only compute, steer delivers or cancels by its predicate, and merge goes by
the tokens of its two operands. -/
theorem steeringNodes : Obligations.SteeringNodes := ⟨movesAndSteering, mergeRoutes⟩
/-! ## The order of the values of a TYPE -/

/-- Operands have equal values just if their W bits are equal. -/
theorem ival_inj (w : CU) (x y : Word) : ival w.typ.toNat x = ival w.typ.toNat y ↔ asT w x = asT w y := by
  refine ⟨fun h => ?_, fun h => by rw [ival_eq, ival_eq, h]⟩
  rw [← ofInt_ival, h, ofInt_ival]

theorem asT_zero (w : CU) : asT w 0 = 0#_ := BitVec.setWidth_zero _ _

theorem ival_eq_zero (w : CU) (x : Word) : ival w.typ.toNat x = 0 ↔ asT w x = 0 := by
  have h0 : ival w.typ.toNat 0 = 0 := by
    rw [ival_eq, asT_zero, BitVec.toInt_zero, BitVec.toNat_zero]
    exact ite_self 0
  have h := ival_inj w x 0
  rwa [h0, asT_zero] at h

/-- Operands compare as TYPE is signed or not. -/
theorem ival_lt (w : CU) (x y : Word) : ival w.typ.toNat x < ival w.typ.toNat y ↔
    (if signedT w then (asT w x).slt (asT w y) else (asT w x).ult (asT w y)) = true := by
  rw [ival_eq, ival_eq]
  split
  · exact BitVec.slt_iff_toInt_lt.symm
  · rw [BitVec.ult_iff_toNat_lt, Int.ofNat_lt]

theorem ival_signed {w : CU} (h : signedT w = true) (x : Word) : ival w.typ.toNat x = (asT w x).toInt := by
  rw [ival_eq, if_pos h]

theorem ival_unsigned {w : CU} (h : ¬signedT w = true) (x : Word) : ival w.typ.toNat x = (asT w x).toNat := by
  rw [ival_eq, if_neg h]

/-! ## Arithmetic -/

/-- An integer node whose meaning is the integer z of its operands delivers W bits y, where z is y modulo 2^W for every
TYPE of the node's row. -/
theorem cuGives_of_int {mk : CU → Instr} {opc : Nat} {f : Fmt} {z : CU → Word → Word → Word → Int}
    {y : (w : CU) → Word → Word → Word → BitVec (tWidth w.typ.toNat)}
    (hexec : ∀ w s, exec (mk w) s = cuStep s opc w (pureFn fun a b c => deliverInt w.typ.toNat (z w a b c)))
    (hword : ∀ w, wordOf (mk w) = .cu opc w) (hf : cuFmt opc = some f) (ht : f.types ⊆ tLogic)
    (hz : ∀ w a b c, BitVec.ofInt _ (z w a b c) = y w a b c) :
    CuGives mk opc fun w a b c => outT w (y w a b c) :=
  cuGives_of_pure hexec hword hf fun w a b c h => by rw [deliverInt_eq_outT (ht h), hz]

theorem ofInt_sub (n : Nat) (x y : Int) : BitVec.ofInt n (x - y) = BitVec.ofInt n x - BitVec.ofInt n y := by
  rw [Int.sub_eq_add_neg, BitVec.ofInt_add, BitVec.ofInt_neg, BitVec.sub_eq_add_neg]

theorem ofInt_natAbs_toInt {n : Nat} (x : BitVec n) :
    BitVec.ofInt n (x.toInt.natAbs : Int) = if x.msb then -x else x := by
  rw [BitVec.msb_eq_toInt]
  by_cases h : x.toInt < 0
  · rw [if_pos (decide_eq_true h), Int.ofNat_natAbs_of_nonpos (Int.le_of_lt h), BitVec.ofInt_neg, BitVec.ofInt_toInt]
  · rw [if_neg fun hd => h (of_decide_eq_true hd), Int.natAbs_of_nonneg (Int.not_lt.mp h), BitVec.ofInt_toInt]

/-- The less of two operands: the second, where it is strictly less. -/
theorem ofInt_min_ival (w : CU) (a b : Word) : BitVec.ofInt _ (min (ival w.typ.toNat a) (ival w.typ.toNat b)) =
    if signedT w then (if (asT w b).slt (asT w a) then asT w b else asT w a)
    else if (asT w b).ult (asT w a) then asT w b else asT w a := by
  have h := ival_lt w b a
  have hmin (x y : Int) : min x y = if y < x then y else x := by split <;> omega
  rw [hmin, apply_ite (BitVec.ofInt _), ofInt_ival, ofInt_ival]
  split at h <;> rename_i hs <;> simp only [hs, h, if_true, if_false, Bool.false_eq_true]

/-- The greater of two operands: the second, where it is strictly greater. -/
theorem ofInt_max_ival (w : CU) (a b : Word) : BitVec.ofInt _ (max (ival w.typ.toNat a) (ival w.typ.toNat b)) =
    if signedT w then (if (asT w a).slt (asT w b) then asT w b else asT w a)
    else if (asT w a).ult (asT w b) then asT w b else asT w a := by
  have h := ival_lt w a b
  have hmax (x y : Int) : max x y = if x < y then y else x := by split <;> omega
  rw [hmax, apply_ite (BitVec.ofInt _), ofInt_ival, ofInt_ival]
  split at h <;> rename_i hs <;> simp only [hs, h, if_true, if_false, Bool.false_eq_true]

theorem integerArithmetic : IntegerArithmetic := by
  refine ⟨
    cuGives_of_int (fun _ _ => rfl) (fun _ => rfl) rfl tInt_subset fun w a b _ => ?add,
    cuGives_of_int (fun _ _ => rfl) (fun _ => rfl) rfl tInt_subset fun w a b _ => ?sub,
    cuGives_of_int (fun _ _ => rfl) (fun _ => rfl) rfl tInt_subset fun w a b _ => ?mul,
    cuGives_of_int (fun _ _ => rfl) (fun _ => rfl) rfl tInt_subset fun w a b _ => ?mulhi,
    cuGives_of_int (fun _ _ => rfl) (fun _ => rfl) rfl tInt_subset fun w a b c => ?mad,
    cuGives_of_int (fun _ _ => rfl) (fun _ => rfl) rfl tSigned_subset fun w a _ _ => ?iabs,
    cuGives_of_int (fun _ _ => rfl) (fun _ => rfl) rfl tSigned_subset fun w a _ _ => ?ineg,
    cuGives_of_int (fun _ _ => rfl) (fun _ => rfl) rfl tInt_subset fun w a b _ => ofInt_min_ival w a b,
    cuGives_of_int (fun _ _ => rfl) (fun _ => rfl) rfl tInt_subset fun w a b _ => ofInt_max_ival w a b⟩
  case add => rw [BitVec.ofInt_add, ofInt_ival, ofInt_ival]
  case sub => rw [ofInt_sub, ofInt_ival, ofInt_ival]
  case mul => rw [BitVec.ofInt_mul, ofInt_ival, ofInt_ival]
  case mulhi =>
    split
    case isTrue hs => rw [ival_signed hs, ival_signed hs]
    case isFalse hs => rw [ival_unsigned hs, ival_unsigned hs, Int.natCast_mul]
  case mad => rw [BitVec.ofInt_add, BitVec.ofInt_mul, ofInt_ival, ofInt_ival, ofInt_ival]
  case iabs => rw [sv_eq_toInt, ofInt_natAbs_toInt]
  case ineg => rw [sv_eq_toInt, BitVec.ofInt_neg, BitVec.ofInt_toInt]

/-! ## Division -/

theorem tWidth_pos (t : Nat) : 0 < tWidth t := by
  unfold tWidth
  split
  · decide
  · split <;> decide

theorem ofInt_two_pow_sub_one (n : Nat) : BitVec.ofInt n (2 ^ n - 1) = BitVec.allOnes n := by
  have h : (2 : Int) ^ n - 1 = ((2 ^ n - 1 : Nat) : Int) := by
    rw [Int.ofNat_sub Nat.one_le_two_pow, natCast_two_pow]; rfl
  apply BitVec.eq_of_toNat_eq
  rw [h, BitVec.ofInt_natCast, BitVec.toNat_ofNat, BitVec.toNat_allOnes,
    Nat.mod_eq_of_lt (Nat.sub_lt (Nat.two_pow_pos n) Nat.one_pos)]

theorem divRem_zero (t : Nat) (a : Int) : divRem t a 0 = (2 ^ tWidth t - 1, a) := by
  simp only [divRem, if_true]

/-- The quotient is truncated; the one that does not fit is taken modulo 2^W (R123). -/
theorem ofInt_divRem_fst (t : Nat) (a : Int) {b : Int} (hb : b ≠ 0) :
    BitVec.ofInt (tWidth t) (divRem t a b).1 = BitVec.ofInt (tWidth t) (a.tdiv b) := by
  simp only [divRem, if_neg hb]
  split
  case isFalse => rfl
  case isTrue h =>
    obtain ⟨_, ha, hm⟩ := h
    have hw : (2 : Int) ^ tWidth t = 2 ^ (tWidth t - 1) + 2 ^ (tWidth t - 1) := by
      rw [← natCast_two_pow, ← natCast_two_pow, ← Int.natCast_add, ← Nat.mul_two,
        Nat.two_pow_pred_mul_two (tWidth_pos t)]
    have hfit : -a = a + 2 ^ tWidth t := by rw [ha, hw]; omega
    apply BitVec.eq_of_toNat_eq
    rw [BitVec.toNat_ofInt, BitVec.toNat_ofInt, hm, Int.tdiv_neg, Int.tdiv_one, hfit, natCast_two_pow,
      Int.add_emod_right]

/-- The remainder is that of the truncated division. -/
theorem divRem_snd (t : Nat) (a b : Int) : (divRem t a b).2 = a.tmod b := by
  unfold divRem
  simp only
  split
  case isTrue h => rw [h, Int.tmod_zero]
  case isFalse =>
    split
    case isTrue h => rw [h.2.2, Int.tmod_neg, Int.tmod_one]
    case isFalse => rw [Int.tmod_def]

theorem divisionAndRemainder : DivisionAndRemainder := by
  refine ⟨cuGives_of_int (fun _ _ => rfl) (fun _ => rfl) rfl tInt_subset fun w a b _ => ?div,
    cuGives_of_int (fun _ _ => rfl) (fun _ => rfl) rfl tInt_subset fun w a b _ => ?rem⟩
  case div =>
    split
    case isTrue h => rw [(ival_eq_zero w b).mpr h, divRem_zero, ofInt_two_pow_sub_one]
    case isFalse h =>
      rw [ofInt_divRem_fst _ _ (mt (ival_eq_zero w b).mp h)]
      split
      case isTrue hs =>
        rw [ival_signed hs, ival_signed hs]
        apply BitVec.eq_of_toInt_eq
        rw [BitVec.toInt_ofInt, BitVec.toInt_sdiv]
      case isFalse hs =>
        rw [ival_unsigned hs, ival_unsigned hs, ← Int.ofNat_tdiv,
          BitVec.ofInt_natCast, ← BitVec.toNat_udiv, BitVec.ofNat_toNat, BitVec.setWidth_eq]
  case rem =>
    rw [divRem_snd]
    split
    case isTrue h => rw [(ival_eq_zero w b).mpr h, Int.tmod_zero, ofInt_ival]
    case isFalse h =>
      split
      case isTrue hs =>
        rw [ival_signed hs, ival_signed hs, ← BitVec.toInt_srem, BitVec.ofInt_toInt]
      case isFalse hs =>
        rw [ival_unsigned hs, ival_unsigned hs, ← Int.ofNat_tmod,
          BitVec.ofInt_natCast, ← BitVec.toNat_umod, BitVec.ofNat_toNat, BitVec.setWidth_eq]

/-! ## Comparison -/

/-- Every condition of MOD follows from less and equal (R188). -/
theorem cmpVal_eq (cond : Nat) (x y : Int) : cmpVal cond x y =
    match cond with
    | 0 => decide (x = y)
    | 1 => !decide (x = y)
    | 2 => decide (x < y)
    | 3 => decide (x < y) || decide (x = y)
    | 4 => !decide (x < y) && !decide (x = y)
    | _ => !decide (x < y) := by
  rcases cond with _ | _ | _ | _ | _ | cond
  · rfl
  · exact decide_not
  · rfl
  · exact (decide_eq_decide.mpr Int.le_iff_lt_or_eq).trans (Bool.decide_or _ _)
  · show decide (y < x) = (!decide (x < y) && !decide (x = y))
    rw [← decide_not, ← decide_not, ← Bool.decide_and]
    exact decide_eq_decide.mpr (by omega)
  · exact (decide_eq_decide.mpr Int.not_lt.symm).trans decide_not

theorem integerCompare : IntegerCompare := by
  refine cuGives_of_pure (fun _ _ => rfl) (fun _ => rfl) rfl fun w a b _ _ => ?_
  have hlt : (if signedT w then (asT w a).slt (asT w b) else (asT w a).ult (asT w b)) =
      decide (ival w.typ.toNat a < ival w.typ.toNat b) := by
    rw [Bool.eq_iff_iff, ← ival_lt, decide_eq_true_iff]
  have heq : (asT w a == asT w b) = decide (ival w.typ.toNat a = ival w.typ.toNat b) := by
    rw [Bool.eq_iff_iff, beq_iff_eq, ← ival_inj, decide_eq_true_iff]
  simp only [hlt, heq]
  exact congrArg predVal (cmpVal_eq _ _ _)

/-- Settles O24: the model computes on the integer values of the operands, and modulo 2^W that is W-bit arithmetic. -/
theorem integerNodes : Obligations.IntegerNodes := ⟨integerArithmetic, divisionAndRemainder, integerCompare⟩
/-! ## Logic and shifts -/

/-- A node whose meaning is the datum n of its operands delivers W bits y, where y is n modulo 2^W for every TYPE of the
node's row. -/
theorem cuGives_of_datum {mk : CU → Instr} {opc : Nat} {f : Fmt} {n : CU → Word → Word → Word → Nat}
    {y : (w : CU) → Word → Word → Word → BitVec (tWidth w.typ.toNat)}
    (hexec : ∀ w s, exec (mk w) s = cuStep s opc w (pureFn fun a b c => deliver w.typ.toNat (n w a b c)))
    (hword : ∀ w, wordOf (mk w) = .cu opc w) (hf : cuFmt opc = some f) (ht : f.types ⊆ tLogic)
    (hn : ∀ w a b c, BitVec.ofNat _ (n w a b c) = y w a b c) :
    CuGives mk opc fun w a b c => outT w (y w a b c) :=
  cuGives_of_pure hexec hword hf fun w a b c h => by rw [deliver_eq_outT (ht h), hn]

theorem ofNat_two_pow_sub_one_sub {n : Nat} (x : BitVec n) : BitVec.ofNat n (2 ^ n - 1 - x.toNat) = ~~~x := by
  rw [← BitVec.toNat_not, BitVec.ofNat_toNat, BitVec.setWidth_eq]

/-- A left shift by the width or more leaves nothing. -/
theorem ofNat_shiftLeft {n : Nat} (x : BitVec n) (k : Nat) :
    BitVec.ofNat n (if n ≤ k then 0 else x.toNat * 2 ^ k % 2 ^ n) = x <<< k := by
  split
  case isTrue h => rw [BitVec.shiftLeft_eq_zero h]
  case isFalse =>
    apply BitVec.eq_of_toNat_eq
    rw [BitVec.toNat_ofNat, BitVec.toNat_shiftLeft, Nat.shiftLeft_eq, Nat.mod_mod]

/-- A right shift by the width or more leaves nothing. -/
theorem ofNat_ushiftRight {n : Nat} (x : BitVec n) (k : Nat) :
    BitVec.ofNat n (if n ≤ k then 0 else x.toNat / 2 ^ k) = x >>> k := by
  split
  case isTrue h => rw [BitVec.ushiftRight_eq_zero h]
  case isFalse =>
    rw [← Nat.shiftRight_eq_div_pow, ← BitVec.toNat_ushiftRight, BitVec.ofNat_toNat, BitVec.setWidth_eq]

/-- An arithmetic right shift by more than the last bit leaves the sign alone, as a shift by the last bit does. -/
theorem toInt_div_two_pow_min {n : Nat} (x : BitVec n) (k : Nat) :
    x.toInt / 2 ^ min k (n - 1) = x.toInt / 2 ^ k := by
  by_cases hk : k ≤ n - 1
  · rw [Nat.min_eq_left hk]
  · have hle : (2 : Int) ^ (n - 1) ≤ 2 ^ k := by
      rw [← natCast_two_pow, ← natCast_two_pow]
      exact Int.ofNat_le.mpr (Nat.pow_le_pow_right (by decide) (by omega))
    have hlo := BitVec.le_toInt x
    have hhi := BitVec.toInt_lt (x := x)
    rw [Nat.min_eq_right (by omega)]
    by_cases hx : 0 ≤ x.toInt
    · rw [Int.ediv_eq_zero_of_lt hx hhi, Int.ediv_eq_zero_of_lt hx (by omega)]
    · rw [Int.ediv_eq_neg_one_of_neg_of_le (by omega) (by omega),
        Int.ediv_eq_neg_one_of_neg_of_le (by omega) (by omega)]

theorem ofInt_sshiftRight {n : Nat} (x : BitVec n) (k : Nat) :
    BitVec.ofInt n (x.toInt / 2 ^ min k (n - 1)) = x.sshiftRight k := by
  rw [toInt_div_two_pow_min, ← natCast_two_pow, ← Int.shiftRight_eq_div_pow,
    ← BitVec.toInt_sshiftRight, BitVec.ofInt_toInt]

theorem logicAndShifts : LogicAndShifts := by
  refine ⟨
    cuGives_of_datum (fun _ _ => rfl) (fun _ => rfl) rfl (List.Subset.refl _) fun w a b _ => ?iand,
    cuGives_of_datum (fun _ _ => rfl) (fun _ => rfl) rfl (List.Subset.refl _) fun w a b _ => ?ior,
    cuGives_of_datum (fun _ _ => rfl) (fun _ => rfl) rfl (List.Subset.refl _) fun w a b _ => ?ixor,
    cuGives_of_datum (fun _ _ => rfl) (fun _ => rfl) rfl (List.Subset.refl _) fun w a _ _ => ?inot,
    cuGives_of_datum (fun _ _ => rfl) (fun _ => rfl) rfl tInt_subset fun w a b _ => ?shl,
    cuGives_of_datum (fun _ _ => rfl) (fun _ => rfl) rfl tInt_subset fun w a b _ => ?shr,
    cuGives_of_int (fun _ _ => rfl) (fun _ => rfl) rfl tInt_subset fun w a b _ => ?sar⟩
  case iand => rw [uv_eq_toNat, uv_eq_toNat, ← BitVec.toNat_and, BitVec.ofNat_toNat, BitVec.setWidth_eq]
  case ior => rw [uv_eq_toNat, uv_eq_toNat, ← BitVec.toNat_or, BitVec.ofNat_toNat, BitVec.setWidth_eq]
  case ixor => rw [uv_eq_toNat, uv_eq_toNat, ← BitVec.toNat_xor, BitVec.ofNat_toNat, BitVec.setWidth_eq]
  case inot => rw [uv_eq_toNat, ofNat_two_pow_sub_one_sub]
  case shl => rw [uv_eq_toNat, ofNat_shiftLeft]
  case shr => rw [uv_eq_toNat, ofNat_ushiftRight]
  case sar => rw [sv_eq_toInt, ofInt_sshiftRight]

/-! ## Counts and fields of bits -/

/-- The first one bit from the top stands log2 below it. -/
theorem findIdx_getMsbD {n : Nat} (x : BitVec n) : (List.range n).findIdx (fun i => x.getMsbD i) =
    n - (if x.toNat = 0 then 0 else Nat.log2 x.toNat + 1) := by
  by_cases hx : x.toNat = 0
  · rw [if_pos hx, Nat.sub_zero]
    have hz : x = 0#n := BitVec.eq_of_toNat_eq hx
    have hlen : (List.range n).findIdx (fun i => x.getMsbD i) = (List.range n).length := by
      rw [List.findIdx_eq_length]
      intro i _
      rw [hz, BitVec.getMsbD_zero]
    rw [hlen, List.length_range]
  · have hlog : Nat.log2 x.toNat < n := (Nat.log2_lt hx).mpr x.isLt
    rw [if_neg hx, List.findIdx_eq (by rw [List.length_range]; omega)]
    constructor
    · rw [List.getElem_range, BitVec.getMsbD_eq_getLsbD, decide_eq_true (by omega), Bool.true_and,
        show n - 1 - (n - (Nat.log2 x.toNat + 1)) = Nat.log2 x.toNat by omega]
      exact Nat.testBit_log2 hx
    · intro j hj
      have hlt : x.toNat < 2 ^ (n - 1 - j) :=
        (Nat.log2_lt hx).mp (by omega)
      rw [List.getElem_range, BitVec.getMsbD_eq_getLsbD, BitVec.getLsbD, Nat.testBit_lt_two_pow hlt, Bool.and_false]

/-- popGo counts the one bits. -/
theorem popGo_eq_countP (n : Nat) : ∀ x : Nat, popGo n x = (List.range n).countP fun i => x.testBit i := by
  induction n with
  | zero => intro x; rfl
  | succ n ih =>
    intro x
    have hshift : ((fun i => x.testBit i) ∘ Nat.succ) = fun i => (x / 2).testBit i :=
      funext fun i => Nat.testBit_succ x i
    have hlow : x % 2 = if x.testBit 0 = true then 1 else 0 := by
      simp only [Nat.testBit_zero, decide_eq_true_iff]
      split <;> omega
    rw [popGo, ih, List.range_succ_eq_map, List.countP_cons, List.countP_map, hshift, hlow, Nat.add_comm]

/-- revGo reverses the lowest n bits in front of those of acc. -/
theorem testBit_revGo (n : Nat) : ∀ x acc i : Nat,
    (revGo n x acc).testBit i = if i < n then x.testBit (n - 1 - i) else acc.testBit (i - n) := by
  induction n with
  | zero => intro x acc i; rw [revGo, if_neg (Nat.not_lt_zero i), Nat.sub_zero]
  | succ n ih =>
    intro x acc i
    rw [revGo, ih, ← Nat.testBit_succ]
    rcases Nat.lt_trichotomy i n with h | h | h
    · rw [if_pos h, if_pos (by omega), show (n - 1 - i).succ = n + 1 - 1 - i by omega]
    · subst h
      have : (2 * acc + x % 2) % 2 = x % 2 := by omega
      rw [if_neg (by omega), if_pos (by omega), Nat.sub_self, Nat.add_sub_cancel, Nat.sub_self, Nat.testBit_zero,
        Nat.testBit_zero, this]
    · have : (2 * acc + x % 2) / 2 = acc := by omega
      rw [if_neg (by omega), if_neg (by omega), show i - n = (i - (n + 1)).succ by omega, Nat.testBit_succ, this]

/-- The bits of a field of l bits from p on. -/
theorem testBit_field (x p l i : Nat) :
    (x / 2 ^ p % 2 ^ l).testBit i = (decide (i < l) && x.testBit (p + i)) := by
  rw [Nat.testBit_mod_two_pow, Nat.testBit_div_two_pow, Nat.add_comm]

/-- bfx: the field, and above it zeros or, where it is signed and not empty, copies of its last bit. -/
theorem getLsbD_bfx {n : Nat} (x : BitVec n) (p l : Nat) (signed : Bool) {i : Nat} (hi : i < n) :
    (BitVec.ofInt n (if signed ∧ 0 < l then sext l (x.toNat / 2 ^ p % 2 ^ l)
      else ((x.toNat / 2 ^ p % 2 ^ l : Nat) : Int))).getLsbD i =
      if i < l then x.getLsbD (p + i) else signed && decide (0 < l) && x.getLsbD (p + l - 1) := by
  have hbit (j : Nat) (hj : j < l) : (BitVec.ofNat l (x.toNat / 2 ^ p % 2 ^ l)).getLsbD j = x.getLsbD (p + j) := by
    rw [BitVec.getLsbD_ofNat, testBit_field, decide_eq_true hj, Bool.true_and, Bool.true_and, BitVec.getLsbD]
  split
  case isTrue h =>
    obtain ⟨hs, hl⟩ := h
    rw [sext_eq_toInt, ← BitVec.signExtend, BitVec.getLsbD_signExtend, decide_eq_true hi, Bool.true_and,
      BitVec.msb_eq_getLsbD_last, hbit (l - 1) (by omega), hs, decide_eq_true hl, Bool.true_and, Bool.true_and,
      Nat.add_sub_assoc hl]
    split
    case isTrue hil => exact hbit i hil
    case isFalse => rfl
  case isFalse h =>
    have hz : (signed && decide (0 < l)) = false := by
      rwa [Bool.eq_false_iff, ne_eq, Bool.and_eq_true, decide_eq_true_iff]
    rw [BitVec.ofInt_natCast, BitVec.getLsbD_ofNat, testBit_field, decide_eq_true hi, Bool.true_and, hz, Bool.false_and,
      ← BitVec.getLsbD]
    split
    case isTrue hil => rw [decide_eq_true hil, Bool.true_and]
    case isFalse hil => rw [decide_eq_false hil, Bool.false_and]

/-- A number of l bits above one of p bits has p + l bits. -/
theorem two_pow_mul_add_lt {x y p l : Nat} (hy : y < 2 ^ l) (hx : x < 2 ^ p) : 2 ^ p * y + x < 2 ^ (p + l) :=
  calc 2 ^ p * y + x < 2 ^ p * y + 2 ^ p := Nat.add_lt_add_left hx _
    _ = 2 ^ p * (y + 1) := (Nat.mul_succ _ _).symm
    _ ≤ 2 ^ p * 2 ^ l := Nat.mul_le_mul_left _ hy
    _ = 2 ^ (p + l) := (Nat.pow_add 2 p l).symm

/-- bfi: the field of l bits from p on is replaced. -/
theorem testBit_bfi (x y p l i : Nat) :
    (x / 2 ^ (p + l) * 2 ^ (p + l) + y % 2 ^ l * 2 ^ p + x % 2 ^ p).testBit i =
      if p ≤ i ∧ i < p + l then y.testBit (i - p) else x.testBit i := by
  have hlow : x % 2 ^ p < 2 ^ p := Nat.mod_lt _ (Nat.two_pow_pos p)
  have hfield : 2 ^ p * (y % 2 ^ l) + x % 2 ^ p < 2 ^ (p + l) :=
    two_pow_mul_add_lt (Nat.mod_lt _ (Nat.two_pow_pos l)) hlow
  rw [Nat.mul_comm _ (2 ^ (p + l)), Nat.mul_comm _ (2 ^ p), Nat.add_assoc, Nat.testBit_two_pow_mul_add _ hfield,
    Nat.testBit_two_pow_mul_add _ hlow]
  rcases Nat.lt_or_ge i (p + l) with hi | hi
  · rw [if_pos hi]
    rcases Nat.lt_or_ge i p with hp | hp
    · rw [if_pos hp, if_neg (by omega), Nat.testBit_mod_two_pow, decide_eq_true hp, Bool.true_and]
    · rw [if_neg (by omega), if_pos ⟨hp, hi⟩, Nat.testBit_mod_two_pow, decide_eq_true (by omega), Bool.true_and]
  · rw [if_neg (by omega), if_neg (by omega), Nat.testBit_div_two_pow, Nat.sub_add_cancel hi]

/-- The W bits that bfx delivers, for the field that its control k names. -/
def bfxBits (w : CU) (a k : Word) : BitVec (tWidth w.typ.toNat) :=
  BitVec.ofInt _ (if signedT w ∧ 0 < (fieldOf w.typ.toNat k).2 then
      sext (fieldOf w.typ.toNat k).2 ((asT w a).toNat / 2 ^ (fieldOf w.typ.toNat k).1 % 2 ^ (fieldOf w.typ.toNat k).2)
    else (((asT w a).toNat / 2 ^ (fieldOf w.typ.toNat k).1 % 2 ^ (fieldOf w.typ.toNat k).2 : Nat) : Int))

theorem bfxVal_eq {w : CU} (h : w.typ.toNat ∈ tLogic) (a k : Word) :
    bfxVal w.typ.toNat a k = outT w (bfxBits w a k) := by
  simp only [bfxVal, deliverInt_eq_outT h, uv_eq_toNat, tSigned?_eq, bfxBits]

/-- The W bits that bfi delivers, for the field that its control k names. -/
def bfiBits (w : CU) (a b k : Word) : BitVec (tWidth w.typ.toNat) :=
  BitVec.ofNat _ ((asT w a).toNat / 2 ^ ((fieldOf w.typ.toNat k).1 + (fieldOf w.typ.toNat k).2)
      * 2 ^ ((fieldOf w.typ.toNat k).1 + (fieldOf w.typ.toNat k).2)
    + (asT w b).toNat % 2 ^ (fieldOf w.typ.toNat k).2 * 2 ^ (fieldOf w.typ.toNat k).1
    + (asT w a).toNat % 2 ^ (fieldOf w.typ.toNat k).1)

theorem bfiVal_eq {w : CU} (h : w.typ.toNat ∈ tLogic) (a b k : Word) :
    bfiVal w.typ.toNat a b k = outT w (bfiBits w a b k) := by
  simp only [bfiVal, deliver_eq_outT h, uv_eq_toNat, bfiBits]

theorem bitsAndFields : BitsAndFields := by
  have hbrev : CuGives .brev 0x29 fun w a _ _ => outT w (BitVec.ofNat _ (brevVal w.typ.toNat a)) :=
    cuGives_of_datum (fun _ _ => rfl) (fun _ => rfl) rfl tInt_subset fun _ _ _ _ => rfl
  have hbfx : CuGives .bfx 0x2A fun w a k _ => outT w (bfxBits w a k) :=
    cuGives_of_pure (fun _ _ => rfl) (fun _ => rfl) rfl fun _ _ _ _ ht => bfxVal_eq (tInt_subset ht) _ _
  have hbfi : CuGives .bfi 0x2B fun w a b k => outT w (bfiBits w a b k) :=
    cuGives_of_pure (fun _ _ => rfl) (fun _ => rfl) rfl fun _ _ _ _ ht => bfiVal_eq (tInt_subset ht) _ _ _
  refine ⟨
    cuGives_of_datum (fun _ _ => rfl) (fun _ => rfl) rfl tInt_subset fun w a _ _ => ?clz,
    cuGives_of_datum (fun _ _ => rfl) (fun _ => rfl) rfl tInt_subset fun w a _ _ => ?popc,
    fun w s e a b c hwf hr => ⟨_, hbrev w s e a b c hwf hr, fun i hi => ?brev⟩,
    fun w s e a k c hwf hr => ⟨_, hbfx w s e a k c hwf hr, fun i hi => getLsbD_bfx _ _ _ _ hi⟩,
    fun w s e a b k hwf hr => ⟨_, hbfi w s e a b k hwf hr, fun i hi => ?bfi⟩⟩
  case clz => rw [clzVal, uv_eq_toNat, findIdx_getMsbD]
  case popc => rw [popcVal, uv_eq_toNat, popGo_eq_countP]; rfl
  case brev =>
    rw [BitVec.getLsbD_ofNat, decide_eq_true hi, Bool.true_and, brevVal, testBit_revGo, if_pos hi, uv_eq_toNat]
    rfl
  case bfi =>
    rw [bfiBits, BitVec.getLsbD_ofNat, decide_eq_true hi, Bool.true_and, testBit_bfi]
    rfl

/-! ## rng -/

theorem rotl32_eq (x : BitVec 32) {k : Nat} (hk : k < 32) : rotl32 x.toNat k = (x.rotateLeft k).toNat := by
  have hpow : (2 : Nat) ^ 32 = 2 ^ k * 2 ^ (32 - k) := by 
    rw [← Nat.pow_add, Nat.add_sub_cancel' (Nat.le_of_lt hk)]
  have hlow : x.toNat / 2 ^ (32 - k) < 2 ^ k := by
    rw [Nat.div_lt_iff_lt_mul (Nat.two_pow_pos _), ← hpow]
    exact x.isLt
  have hhigh : x.toNat * 2 ^ k % 2 ^ 32 = 2 ^ k * (x.toNat % 2 ^ (32 - k)) := by
    rw [hpow, Nat.mul_comm x.toNat, Nat.mul_mod_mul_left]
  have hsum : 2 ^ k * (x.toNat % 2 ^ (32 - k)) + x.toNat / 2 ^ (32 - k) < 2 ^ 32 := by
    have := two_pow_mul_add_lt (Nat.mod_lt x.toNat (Nat.two_pow_pos (32 - k))) hlow
    rwa [Nat.add_sub_cancel' (Nat.le_of_lt hk)] at this
  rw [BitVec.toNat_rotateLeft, Nat.mod_eq_of_lt hk, Nat.shiftLeft_eq, Nat.shiftRight_eq_div_pow, hhigh,
    ← Nat.two_pow_add_eq_or_of_lt hlow, rotl32, Nat.add_mod, hhigh,
    Nat.mod_eq_of_lt (a := x.toNat / _) (by omega), Nat.mod_eq_of_lt hsum]

/-- One round of the draw: a word is mixed with its upper bits and multiplied (R152). -/
def mixRound (x : BitVec 32) (k : Nat) (m : BitVec 32) : BitVec 32 := (x ^^^ x >>> k) * m

theorem toNat_mixRound (x : BitVec 32) (k : Nat) (m : BitVec 32) :
    (mixRound x k m).toNat = (x.toNat ^^^ x.toNat / 2 ^ k) * m.toNat % 2 ^ 32 := by
  rw [mixRound, BitVec.toNat_mul, BitVec.toNat_xor, BitVec.toNat_ushiftRight, Nat.shiftRight_eq_div_pow]

/-- The word that the draw of the low 32 bits of seed, stream and counter begins with. -/
def drawSeed (seed stream counter : Word) : BitVec 32 :=
  counter.setWidth 32 ^^^ seed.setWidth 32 ^^^ (stream.setWidth 32).rotateLeft 16

theorem toNat_drawSeed (seed stream counter : Word) : (drawSeed seed stream counter).toNat =
    counter.toNat % 2 ^ 32 ^^^ seed.toNat % 2 ^ 32 ^^^ rotl32 (stream.toNat % 2 ^ 32) 16 := by
  rw [drawSeed, BitVec.toNat_xor, BitVec.toNat_xor, ← rotl32_eq _ (by decide), BitVec.toNat_setWidth,
    BitVec.toNat_setWidth, BitVec.toNat_setWidth]

/-- The draw of the model is two rounds and a last mixing of 32-bit words. -/
theorem rngDraw_eq (seed stream counter : Word) : rngDraw seed.toNat stream.toNat counter.toNat =
    (let x := mixRound (mixRound (drawSeed seed stream counter) 15 0x2C1B3C6D) 12 0x297A2D39
     x ^^^ x >>> 15).toNat := by
  simp only [BitVec.toNat_xor, BitVec.toNat_ushiftRight, Nat.shiftRight_eq_div_pow, toNat_mixRound, toNat_drawSeed]
  rfl

theorem counterDraw : CounterDraw :=
  cuGives_of_pure (fun _ _ => rfl) (fun _ => rfl) rfl fun _ seed stream counter _ => by
    rw [rngDraw_eq, BitVec.ofNat_toNat]
    rfl

/-- Settles O25: the model computes on numbers, and bit by bit the datum that it delivers is that of the W bits. -/
theorem logicNodes : Obligations.LogicNodes := ⟨logicAndShifts, bitsAndFields, counterDraw⟩

end Sys2Proof.IntegerControl
